-- ==== Sys2Proof/Word.lean ====
section
/-! DEFINITION. The word types of RPCORE (00_scope.md R7, R8). -/

namespace Sys2Proof

/-- A register or command word (00_scope.md R7: "register and command word width 32 bits"). -/
abbrev Word := BitVec 32

/-- A byte of IN, OUT or a command field (00_scope.md R8). -/
abbrev Byte := BitVec 8

/-- A 16-bit sample or table entry (10_state.md R33, R34, R36). -/
abbrev Sample := BitVec 16

end Sys2Proof
end

