-- ==== Sys2Proof/Syntax.lean ====
section
/-! DEFINITION. The commands: one constructor per row of opcode_table.json (30_encoding.md R84). A field operand is kept
as the whole byte it is in the command word: its range is checked by the command itself (30_encoding.md R85, R86), and an
out-of-range value is a fault that reports the byte. -/

namespace Sys2Proof

/-- One RPCORE command with its field operands (30_encoding.md R82, R84). -/
inductive Instr where
  | nop
  | sreset
  | brInit
  | brBit
  | brBits (n : Byte)
  | brResync
  | bwInit
  | bwBits (n : Byte)
  | bwFlush
  | bwRst
  | htLoad (tc th : Byte)
  | htStore (tc th : Byte)
  | htDec (tc th : Byte)
  | htEnc (tc th : Byte)
  | fqClr (tc th : Byte)
  | fqInc (tc th : Byte)
  | htAdapt (tc th : Byte)
  | cfExt (n : Byte)
  | cfCat
  | blkDec (c td ta : Byte)
  | blkSkip (c td ta : Byte)
  | blkEnc (c td ta : Byte)
  | blkDry (c td ta : Byte)
  | dcRst
  | qtLoad (pq tq : Byte)
  | dequant (tq : Byte)
  | quant (tq : Byte)
  | idct
  | fdct
  | pixOut
  | pixIn
  | ljSetup
  | ljHtLoad
  | ljLinLoad
  | ljDecode
  | unpack10
  | unpack12
  | unpack14
  | unpack12v
  deriving DecidableEq, Repr

/-- The two Huffman table classes (10_state.md R31): 0 is DC, 1 is AC. -/
inductive TableClass where
  | dc
  | ac
  deriving DecidableEq, Repr

end Sys2Proof
end

