-- ==== Sys2Proof/Decode.lean ====
section
/-! DEFINITION. Decoding and encoding of command words (30_encoding.md R81, R82, R84 to R88). -/

namespace Sys2Proof

/-- The four byte fields of a command word (30_encoding.md R81). -/
structure Fields where
  op : Byte
  f1 : Byte
  f2 : Byte
  f3 : Byte
  deriving DecidableEq, Repr

/-- OP = w[31:24], F1 = w[23:16], F2 = w[15:8], F3 = w[7:0] (30_encoding.md R81). -/
def fieldsOf (w : Word) : Fields :=
  { op := w.extractLsb' 24 8, f1 := w.extractLsb' 16 8, f2 := w.extractLsb' 8 8, f3 := w.extractLsb' 0 8 }

/-- The word of four byte fields (30_encoding.md R81). -/
def wordOf (f : Fields) : Word :=
  f.op ++ f.f1 ++ f.f2 ++ f.f3

/-- Why a word is no command (30_encoding.md R88). Both are the fault ILLEGAL_CMD. -/
inductive DecodeError where
  /-- OP is not in the opcode map. -/
  | unknownOpcode
  /-- A field that the format does not define is not 0 (30_encoding.md R87). -/
  | reservedField
  deriving DecidableEq, Repr

/-- Format Z: no field operands (30_encoding.md R82). -/
def Format.z (f : Fields) (i : Instr) : Except DecodeError Instr :=
  if f.f1 = 0 ∧ f.f2 = 0 ∧ f.f3 = 0 then .ok i else .error .reservedField

/-- Format N: F3 is `n` (30_encoding.md R82). -/
def Format.n (f : Fields) (mk : Byte → Instr) : Except DecodeError Instr :=
  if f.f1 = 0 ∧ f.f2 = 0 then .ok (mk f.f3) else .error .reservedField

/-- Format T: F2 is `tc`, F3 is `th` (30_encoding.md R82). -/
def Format.t (f : Fields) (mk : Byte → Byte → Instr) : Except DecodeError Instr :=
  if f.f1 = 0 then .ok (mk f.f2 f.f3) else .error .reservedField

/-- Format B: F1 is `c`, F2 is `td`, F3 is `ta` (30_encoding.md R82). -/
def Format.b (f : Fields) (mk : Byte → Byte → Byte → Instr) : Except DecodeError Instr :=
  .ok (mk f.f1 f.f2 f.f3)

/-- Format Q: F2 is `pq`, F3 is `tq` (30_encoding.md R82). -/
def Format.q (f : Fields) (mk : Byte → Byte → Instr) : Except DecodeError Instr :=
  if f.f1 = 0 then .ok (mk f.f2 f.f3) else .error .reservedField

/-- Format I: F3 is `tq` (30_encoding.md R82). -/
def Format.i (f : Fields) (mk : Byte → Instr) : Except DecodeError Instr :=
  if f.f1 = 0 ∧ f.f2 = 0 then .ok (mk f.f3) else .error .reservedField

/-- The opcode map (30_encoding.md R84) applied to the fields of a word. -/
def decodeFields (f : Fields) : Except DecodeError Instr :=
  match f.op with
  | 0x00#8 => Format.z f .nop
  | 0x01#8 => Format.z f .sreset
  | 0x10#8 => Format.z f .brInit
  | 0x11#8 => Format.z f .brBit
  | 0x12#8 => Format.n f .brBits
  | 0x13#8 => Format.z f .brResync
  | 0x20#8 => Format.z f .bwInit
  | 0x21#8 => Format.n f .bwBits
  | 0x22#8 => Format.z f .bwFlush
  | 0x23#8 => Format.z f .bwRst
  | 0x30#8 => Format.t f .htLoad
  | 0x31#8 => Format.t f .htStore
  | 0x32#8 => Format.t f .htDec
  | 0x33#8 => Format.t f .htEnc
  | 0x34#8 => Format.t f .fqClr
  | 0x35#8 => Format.t f .fqInc
  | 0x36#8 => Format.t f .htAdapt
  | 0x40#8 => Format.n f .cfExt
  | 0x41#8 => Format.z f .cfCat
  | 0x42#8 => Format.b f .blkDec
  | 0x43#8 => Format.b f .blkSkip
  | 0x44#8 => Format.b f .blkEnc
  | 0x45#8 => Format.b f .blkDry
  | 0x46#8 => Format.z f .dcRst
  | 0x50#8 => Format.q f .qtLoad
  | 0x51#8 => Format.i f .dequant
  | 0x52#8 => Format.i f .quant
  | 0x53#8 => Format.z f .idct
  | 0x54#8 => Format.z f .fdct
  | 0x55#8 => Format.z f .pixOut
  | 0x56#8 => Format.z f .pixIn
  | 0x60#8 => Format.z f .ljSetup
  | 0x61#8 => Format.z f .ljHtLoad
  | 0x62#8 => Format.z f .ljLinLoad
  | 0x63#8 => Format.z f .ljDecode
  | 0x70#8 => Format.z f .unpack10
  | 0x71#8 => Format.z f .unpack12
  | 0x72#8 => Format.z f .unpack14
  | 0x73#8 => Format.z f .unpack12v
  | _ => .error .unknownOpcode

/-- Decoding of a command word, total (30_encoding.md R86: the opcode, then the reserved fields; the ranges of defined
fields are the command's own first checks). -/
def decode (w : Word) : Except DecodeError Instr := decodeFields (fieldsOf w)

/-- The fields of a command (30_encoding.md R82, R84). -/
def fieldsFor (i : Instr) : Fields :=
  match i with
  | .nop => ⟨0x00, 0, 0, 0⟩
  | .sreset => ⟨0x01, 0, 0, 0⟩
  | .brInit => ⟨0x10, 0, 0, 0⟩
  | .brBit => ⟨0x11, 0, 0, 0⟩
  | .brBits n => ⟨0x12, 0, 0, n⟩
  | .brResync => ⟨0x13, 0, 0, 0⟩
  | .bwInit => ⟨0x20, 0, 0, 0⟩
  | .bwBits n => ⟨0x21, 0, 0, n⟩
  | .bwFlush => ⟨0x22, 0, 0, 0⟩
  | .bwRst => ⟨0x23, 0, 0, 0⟩
  | .htLoad tc th => ⟨0x30, 0, tc, th⟩
  | .htStore tc th => ⟨0x31, 0, tc, th⟩
  | .htDec tc th => ⟨0x32, 0, tc, th⟩
  | .htEnc tc th => ⟨0x33, 0, tc, th⟩
  | .fqClr tc th => ⟨0x34, 0, tc, th⟩
  | .fqInc tc th => ⟨0x35, 0, tc, th⟩
  | .htAdapt tc th => ⟨0x36, 0, tc, th⟩
  | .cfExt n => ⟨0x40, 0, 0, n⟩
  | .cfCat => ⟨0x41, 0, 0, 0⟩
  | .blkDec c td ta => ⟨0x42, c, td, ta⟩
  | .blkSkip c td ta => ⟨0x43, c, td, ta⟩
  | .blkEnc c td ta => ⟨0x44, c, td, ta⟩
  | .blkDry c td ta => ⟨0x45, c, td, ta⟩
  | .dcRst => ⟨0x46, 0, 0, 0⟩
  | .qtLoad pq tq => ⟨0x50, 0, pq, tq⟩
  | .dequant tq => ⟨0x51, 0, 0, tq⟩
  | .quant tq => ⟨0x52, 0, 0, tq⟩
  | .idct => ⟨0x53, 0, 0, 0⟩
  | .fdct => ⟨0x54, 0, 0, 0⟩
  | .pixOut => ⟨0x55, 0, 0, 0⟩
  | .pixIn => ⟨0x56, 0, 0, 0⟩
  | .ljSetup => ⟨0x60, 0, 0, 0⟩
  | .ljHtLoad => ⟨0x61, 0, 0, 0⟩
  | .ljLinLoad => ⟨0x62, 0, 0, 0⟩
  | .ljDecode => ⟨0x63, 0, 0, 0⟩
  | .unpack10 => ⟨0x70, 0, 0, 0⟩
  | .unpack12 => ⟨0x71, 0, 0, 0⟩
  | .unpack14 => ⟨0x72, 0, 0, 0⟩
  | .unpack12v => ⟨0x73, 0, 0, 0⟩

/-- The command word of a command (30_encoding.md R81, R84). -/
def encode (i : Instr) : Word := wordOf (fieldsFor i)

/-- The decoder on a word numbered as opcode_table.json numbers it. A command is one 32-bit word (30_encoding.md R81). -/
def decodeTableWord (nbits w : Nat) : Option Instr :=
  match decode (BitVec.ofNat 32 (w % 2 ^ nbits)) with
  | .ok i => some i
  | .error _ => none

end Sys2Proof
end

