-- ==== Sys2Proof/Config.lean ====
section
/-! DEFINITION. What an instance fixes, and the free values: constants without a body, so that nothing can be proved of
their values (93_implementation_defined.md section 1, treatment "any value"). -/

namespace Sys2Proof

/-- The state elements that a mid-command fault can leave unspecified (60_exceptions.md R312): the index of a free draw. -/
inductive Drawn where
  | res0
  | brPos | brBuf | brCnt | brEos | brMarker | rstRd
  | bwPos | bwBuf | bwCnt | rstWr
  | dcpSet (c : Nat) | dcpValue (c : Nat)
  | blkI (i : Nat)
  | freqDc (slot : Nat) | freqAc (slot : Nat)
  | outByte (addr : Nat)
  | ljCur (i : Nat) | ljPrev (i : Nat)
  deriving DecidableEq, Repr

namespace Machine

/-- The number `a + b·√2`. -/
structure Root1 where
  a : Int
  b : Int
  deriving DecidableEq, Repr, Inhabited

/-- The number `a + b·√(2+√2)`. -/
structure Root2 where
  a : Root1
  b : Root1
  deriving DecidableEq, Repr, Inhabited

/-- The number `a + b·√(2+√(2+√2))`; `√(2+√(2+√2)) = 2·cos(π/16)`. -/
structure Root3 where
  a : Root2
  b : Root2
  deriving DecidableEq, Repr, Inhabited

/-- An exact real number `num / 2^exp` of the ring ℤ[1/2, 2·cos(π/16)]: a value of NUM.F under REF (44_transform.md R222).
DEDUCED (log 5), safe: integers and the basis values lie in this ring and it is closed under `add` and `mul`, so every value
BLK_F can hold under REF is one of these. -/
structure Exact where
  num : Root3
  exp : Nat
  deriving DecidableEq, Repr, Inhabited

/-- The plain data that an element of BLK_F is (10_state.md R34, 44_transform.md R222): under REF the real number itself; for
another instance of NUM the value of its F that the instance codes so (a binary floating-point number, say, by the dyadic
number it is, its infinities by data outside those). DESIGN CHOICE (log 10), safe. -/
abbrev NumValue := Exact

/-- The numerics record NUM (44_transform.md R222), over the data of its set F; every field is a total function of its
operands alone. -/
structure Numerics (F : Type) where
  ofInt : Int → F
  add : F → F → F
  mul : F → F → F
  basis : Nat → Nat → F
  quant : F → Nat → Int
  round : F → Int
  deriving Inhabited

/-- Which NUM an instance is built with (44_transform.md R222): the default REF, or a declared other one, by number. -/
inductive NumInstance where
  | ref
  | declared (id : Nat)
  deriving DecidableEq, Repr

end Machine

/-- The instances of NUM other than REF (44_transform.md R222; 92_eei_decisions.md, Open parameters): any records of total
functions. A claim for every `id` is a claim for every NUM; a claim about one instance takes `Config.declaredNum id = …` as a
premise. Log 10, safe. -/
opaque Config.declaredNum (id : Nat) : Machine.Numerics Machine.NumValue

/-- IN_SIZE of the instance that `State.reset` describes. DESIGN CHOICE (log 1), unsafe: the spec leaves IN_SIZE open
(00_scope.md R7); 4096 is the value of 95_test_vectors.md section 0. No statement rests on it: sizes are read from State. -/
def Config.inSize : Nat := 4096

/-- OUT_SIZE of the instance that `State.reset` describes. DESIGN CHOICE (log 1), unsafe. -/
def Config.outSize : Nat := 4096

/-- The value of an IN byte that nothing has written since power-on: any value (70_reset_and_hazards.md R350). Log 6, safe. -/
opaque Config.powerOnIn : Nat → Byte

/-- The value of an OUT byte that nothing has written since power-on: any value (70_reset_and_hazards.md R350). Log 6, safe. -/
opaque Config.powerOnOut : Nat → Byte

/-- The value that the `draw`-th mid-command fault leaves in a state element of its write set: any value
(60_exceptions.md R312). Narrower elements take the low bits. Log 4, safe. -/
opaque Config.free (draw : Nat) (e : Drawn) : Word

/-- The prediction of predictor selector 0, "none (unsupported in practice)" (45_lj92.md R256): the spec gives no value and
LJ_SETUP refuses the selector, so no run uses it. Log 7, safe. -/
opaque Config.noPredictor (a b c : Int) : Int

end Sys2Proof
end

