-- ==== Sys2Proof/Machine/State.lean ====
section
/-! DEFINITION. The state of one RPCORE instance (10_state.md R20), its reset value, and the reasons the model can stop. -/

namespace Sys2Proof.Machine

/-- The parameters IN_SIZE, OUT_SIZE and NUM of an instance (00_scope.md R7), carried beside the state so that a claim is
about every size and every numerics record. No step changes them. Logs 1 and 10. -/
structure Params where
  inSize : Nat
  outSize : Nat
  num : NumInstance
  deriving DecidableEq, Repr

/-- 1 ≤ IN_SIZE, OUT_SIZE ≤ 2^32 − 1 (00_scope.md R7). -/
abbrev Params.wf (p : Params) : Prop :=
  1 ≤ p.inSize ∧ p.inSize ≤ 2 ^ 32 - 1 ∧ 1 ≤ p.outSize ∧ p.outSize ≤ 2 ^ 32 - 1

/-- The fault causes (60_exceptions.md R311). -/
inductive Cause where
  | illegalCmd
  | badArg
  | ioRead
  | ioWrite
  | notReady
  | badTable
  | codeNotFound
  | badSymbol
  | badMarker
  | coefRange
  | noCode
  | adaptOverflow
  | ljBadFormat
  | ljMismatch
  | unsupported
  | truncated
  | linRange
  deriving DecidableEq, Repr

/-- A memory: the bytes written so far, by address (20_memory.md R60). An address that is not listed holds no written
value; what it reads as is `Config.powerOnIn` or `Config.powerOnOut` (70_reset_and_hazards.md R350). Log 6. -/
abbrev Memory := List Host.Cell

/-- The canonical form: addresses strictly rising. An unlisted address holds no written value, so no entry can equal it,
and memories with the same written bytes are the same list. -/
def Memory.wf : Memory → Bool
  | [] => true
  | [_] => true
  | c :: d :: m => decide (c.1 < d.1) && Memory.wf (d :: m)

/-- Every listed address exists: it is below the memory's size (20_memory.md R60). -/
def Memory.within (m : Memory) (size : Nat) : Bool := m.all (fun c => decide (c.1 < size))

/-- The BitReader (10_state.md R28). `lim` is BR_END. -/
structure Reader where
  pos : Word
  lim : Word
  buf : Byte
  cnt : BitVec 4
  eos : Bool
  marker : Byte
  deriving DecidableEq, Repr

/-- The BitWriter (10_state.md R29). `lim` is BW_END. -/
structure Writer where
  pos : Word
  lim : Word
  buf : Byte
  cnt : BitVec 3
  deriving DecidableEq, Repr

/-- One DC predictor slot (10_state.md R30): a set bit and a signed 32-bit value. -/
structure Pred where
  set : Bool
  value : Word
  deriving DecidableEq, Repr

/-- The unset predictor, value 0 (10_state.md R30). -/
abbrev Pred.unset : Pred := { set := false, value := 0 }

/-- A Huffman table specification (10_state.md R31): `counts[i]` is L[i+1], `syms` is V; n is the length of `syms`. -/
structure HuffSpec where
  counts : Vector Byte 16
  syms : List Byte
  deriving DecidableEq, Repr

/-- One slot of a decode table (10_state.md R31): SIZE[k], CODE[k], V[k]. -/
structure Slot where
  size : BitVec 5
  code : BitVec 16
  sym : Byte
  deriving DecidableEq, Repr

/-- One entry of an encode table (10_state.md R31): ECODE[s], ESIZE[s]; ESIZE 0 means no code. -/
structure EncEntry where
  code : BitVec 16
  size : BitVec 5
  deriving DecidableEq, Repr

/-- A Huffman table: the specification and the two derived forms (10_state.md R31). -/
structure HuffTable where
  spec : HuffSpec
  dec : List Slot
  enc : Vector EncEntry 256
  deriving DecidableEq, Repr

/-- The empty specification. -/
abbrev HuffSpec.empty : HuffSpec := { counts := Vector.replicate 16 0, syms := [] }

/-- The table of the reset state: every count, symbol, size and code 0, n = 0 (10_state.md R31). -/
abbrev HuffTable.empty : HuffTable :=
  { spec := HuffSpec.empty, dec := [], enc := Vector.replicate 256 { code := 0, size := 0 } }

/-- A frequency model: FREQ[0..256], unsigned 32 bits each (10_state.md R32). -/
abbrev FreqModel := Vector Word 257

/-- A quantisation table in natural order with its precision flag (10_state.md R33). -/
structure QTable where
  q : Vector Sample 64
  pq : Bool
  deriving DecidableEq, Repr

/-- Zero of `Root1`. -/
abbrev Root1.zero : Root1 := { a := 0, b := 0 }

/-- Zero of `Root2`. -/
abbrev Root2.zero : Root2 := { a := Root1.zero, b := Root1.zero }

/-- Zero of `Root3`. -/
abbrev Root3.zero : Root3 := { a := Root2.zero, b := Root2.zero }

/-- Zero, `NUM.of_int(0)` of REF (10_state.md R34). -/
abbrev Exact.zero : Exact := { num := Root3.zero, exp := 0 }

/-- One entry of the LJ92 lookup table (10_state.md R36): length 0 means no code matches. -/
structure LutEntry where
  sym : Byte
  len : BitVec 5
  deriving DecidableEq, Repr

/-- The LJ92 session (10_state.md R36). `linlen` is the length of `lin`. The row caches hold the sample of component c at
column col at index `col · NC + c`. -/
structure LjSession where
  x : Sample
  y : Sample
  bits : BitVec 5
  nc : BitVec 3
  ss : BitVec 3
  pt : BitVec 4
  maxBits : BitVec 5
  spec : HuffSpec
  lut : List LutEntry
  lin : List Sample
  cur : List Sample
  prev : List Sample
  deriving DecidableEq, Repr

/-- One move of the host (00_scope.md R11; reset: 70_reset_and_hazards.md R350). A register access has a width in bits and a
byte offset from the register block's base (10_state.md R22). -/
inductive HostMove where
  | writeReg (width offset : Nat) (value : Word)
  | readReg (width offset : Nat)
  | writeIn (addr : Nat) (value : Byte)
  | readOut (addr : Nat)
  | reset
  deriving DecidableEq, Repr

/-- The complete state of one instance (10_state.md R20), its memories, and the model's own fields `params`, `host`,
`hostData` and `draws` (logs 1 to 4). -/
structure State where
  params : Params
  arg : Vector Word 4
  res0 : Word
  res1 : Word
  busy : Bool
  fault : Bool
  segEnd : Bool
  faultCause : Option Cause
  faultInfo : Word
  faultCmd : Word
  valid : BitVec 17
  prec : BitVec 5
  br : Reader
  rstRd : BitVec 3
  bw : Writer
  rstWr : BitVec 3
  dcp : Vector Pred 4
  htDc : Vector HuffTable 4
  htAc : Vector HuffTable 4
  fqDc : Vector FreqModel 4
  fqAc : Vector FreqModel 4
  qt : Vector QTable 4
  blkI : Vector Word 64
  blkF : Vector NumValue 64
  blkP : Vector Sample 64
  lj : LjSession
  inMem : Memory
  outMem : Memory
  host : List HostMove
  hostData : Word
  draws : Nat
  deriving DecidableEq, Repr

/-- Why a step of the model stops with a fault. No command raises one: a command's fault is the sticky fault state
(60_exceptions.md R312), a next state. -/
inductive Fault where
  /-- The host writes an IN byte at an address that does not exist (20_memory.md R60). Raised by the move `writeIn`. Safe. -/
  | noSuchInByte (addr : Nat)
  /-- The host reads an OUT byte at an address that does not exist (20_memory.md R60). Raised by the move `readOut`. Safe. -/
  | noSuchOutByte (addr : Nat)
  deriving DecidableEq, Repr

/-- Why a step of the model is refused. -/
inductive Refusal where
  /-- An instruction that has no meaning in the model yet, by its mnemonic. Raised by an arm of `exec`. Safe. -/
  | notModelled (mnemonic : String)
  /-- A host register access that is not an aligned 32-bit access: "outside the interface and has no meaning in the model
  (refused)" (10_state.md R22). Raised by `writeReg` and `readReg`. Safe. -/
  | registerAccess (width offset : Nat)
  /-- A host access, other than one of STATUS, while STATUS.BUSY = 1: "refused" (20_memory.md R68,
  70_reset_and_hazards.md R360). Raised by every host move but `reset`. Safe. -/
  | hostAccessWhileBusy
  deriving DecidableEq, Repr

/-- The BitReader after reset (10_state.md R39). -/
def Reader.reset : Reader := { pos := 0, lim := 0, buf := 0, cnt := 0, eos := false, marker := 0 }

/-- The BitWriter after reset (10_state.md R39). -/
def Writer.reset : Writer := { pos := 0, lim := 0, buf := 0, cnt := 0 }

/-- The LJ92 session after reset (10_state.md R36, R39). -/
def LjSession.reset : LjSession :=
  { x := 0, y := 0, bits := 0, nc := 0, ss := 0, pt := 0, maxBits := 0, spec := HuffSpec.empty, lut := [], lin := [],
    cur := [], prev := [] }

/-- The machine right after a power-on reset, for the sizes of Config (log 1) and the default NUM, REF (44_transform.md
R222): every value of 10_state.md R39; no byte of IN or OUT written; no host move pending (log 2). -/
def State.reset : State :=
  { params := { inSize := Config.inSize, outSize := Config.outSize, num := .ref }
    arg := Vector.replicate 4 0
    res0 := 0
    res1 := 0
    busy := false
    fault := false
    segEnd := false
    faultCause := none
    faultInfo := 0
    faultCmd := 0
    valid := 0
    prec := 8
    br := Reader.reset
    rstRd := 0
    bw := Writer.reset
    rstWr := 0
    dcp := Vector.replicate 4 Pred.unset
    htDc := Vector.replicate 4 HuffTable.empty
    htAc := Vector.replicate 4 HuffTable.empty
    fqDc := Vector.replicate 4 (Vector.replicate 257 0)
    fqAc := Vector.replicate 4 (Vector.replicate 257 0)
    qt := Vector.replicate 4 { q := Vector.replicate 64 0, pq := false }
    blkI := Vector.replicate 64 0
    blkF := Vector.replicate 64 Exact.zero
    blkP := Vector.replicate 64 0
    lj := LjSession.reset
    inMem := []
    outMem := []
    host := []
    hostData := 0
    draws := 0 }

end Sys2Proof.Machine
end

