-- ==== Sys2Proof/Machine/Flags.lean ====
section
/-! DEFINITION. The flags: the VALID bits (10_state.md R26) and STATUS with SEG_END, the one condition flag (10_state.md
R24). -/

namespace Sys2Proof.Machine

/-! ### VALID bit numbers (10_state.md R26) -/

/-- HV_DC[th] and HV_AC[th]: bits 3:0 and 7:4. -/
def tableBit (tc : TableClass) (th : Fin 4) : Nat :=
  match tc with
  | .dc => th.val
  | .ac => 4 + th.val

/-- QV[tq]: bits 11:8. -/
def quantBit (tq : Fin 4) : Nat := 8 + tq.val

/-- LJ_SET. -/
def ljSetBit : Nat := 12

/-- LJ_HT. -/
def ljHtBit : Nat := 13

/-- LIN_EN. -/
def linEnBit : Nat := 14

/-- BR_V. -/
def brValidBit : Nat := 15

/-- BW_V. -/
def bwValidBit : Nat := 16

/-- Bit `n` of VALID. -/
def State.isValid (s : State) (n : Nat) : Bool := s.valid.getLsbD n

/-- VALID with bit `n` set to `b`. -/
def State.setValid (s : State) (n : Nat) (b : Bool) : State :=
  { s with valid := if b then s.valid ||| BitVec.twoPow 17 n else s.valid &&& ~~~(BitVec.twoPow 17 n) }

/-! ### STATUS -/

/-- The end of an accepted command without a fault: SEG_END is written (10_state.md R24: "Written by every accepted
command"). -/
def State.finish (s : State) (segEnd : Bool) : State := { s with segEnd := segEnd }

/-- STATUS as the host reads it: bit 0 BUSY, bit 1 FAULT, bit 2 SEG_END, 31:3 read 0 (10_state.md R24). -/
def State.statusWord (s : State) : Word :=
  (BitVec.ofBool s.segEnd ++ BitVec.ofBool s.fault ++ BitVec.ofBool s.busy).setWidth 32

end Sys2Proof.Machine
end

