-- ==== Sys2Proof/Machine/Numerics.lean ====
section
/-! DEFINITION. The reference value REF of the numerics record NUM (44_transform.md R222, R223), in exact arithmetic on plain
data: a value of BLK_F under REF is an element of ℤ[1/2, 2·cos(π/16)] (log 5). Then NUM of an instance (log 10). -/

namespace Sys2Proof.Machine

/-! ### The ring ℤ[√2] -/

def Root1.ofInt (z : Int) : Root1 := { a := z, b := 0 }

def Root1.add (x y : Root1) : Root1 := { a := x.a + y.a, b := x.b + y.b }

def Root1.neg (x : Root1) : Root1 := { a := -x.a, b := -x.b }

/-- `(a + b√2)(c + d√2) = (ac + 2bd) + (ad + bc)√2`. -/
def Root1.mul (x y : Root1) : Root1 :=
  { a := x.a * y.a + 2 * (x.b * y.b), b := x.a * y.b + x.b * y.a }

/-- The sign (−1, 0, 1) of `a + b·√d`, `d > 0` not a square, from the signs of `a`, of `b` and of `a² − b²·d`. -/
def rootSign (sa sb sd : Int) : Int :=
  if sb = 0 then sa else if sa = 0 then sb else if sa = sb then sa else sa * sd

def Root1.sign (x : Root1) : Int := rootSign x.a.sign x.b.sign (x.a * x.a - 2 * (x.b * x.b)).sign

/-! ### The ring ℤ[√(2+√2)] -/

/-- √2, the square of √(2+√2) less 2. -/
def Root1.sqrt2 : Root1 := { a := 0, b := 1 }

/-- `2 + √2`, the square of √(2+√2). -/
def Root1.square2 : Root1 := { a := 2, b := 1 }

def Root2.ofInt (z : Int) : Root2 := { a := Root1.ofInt z, b := Root1.zero }

def Root2.add (x y : Root2) : Root2 := { a := x.a.add y.a, b := x.b.add y.b }

def Root2.neg (x : Root2) : Root2 := { a := x.a.neg, b := x.b.neg }

def Root2.mul (x y : Root2) : Root2 :=
  { a := (x.a.mul y.a).add (Root1.square2.mul (x.b.mul y.b)), b := (x.a.mul y.b).add (x.b.mul y.a) }

def Root2.sign (x : Root2) : Int :=
  rootSign x.a.sign x.b.sign ((x.a.mul x.a).add (Root1.square2.mul (x.b.mul x.b)).neg).sign

/-! ### The ring ℤ[2·cos(π/16)] -/

/-- `2 + √(2+√2)`, the square of 2·cos(π/16). -/
def Root2.square3 : Root2 := { a := Root1.ofInt 2, b := Root1.ofInt 1 }

def Root3.ofInt (z : Int) : Root3 := { a := Root2.ofInt z, b := Root2.zero }

def Root3.add (x y : Root3) : Root3 := { a := x.a.add y.a, b := x.b.add y.b }

def Root3.neg (x : Root3) : Root3 := { a := x.a.neg, b := x.b.neg }

def Root3.mul (x y : Root3) : Root3 :=
  { a := (x.a.mul y.a).add (Root2.square3.mul (x.b.mul y.b)), b := (x.a.mul y.b).add (x.b.mul y.a) }

def Root3.sign (x : Root3) : Int :=
  rootSign x.a.sign x.b.sign ((x.a.mul x.a).add (Root2.square3.mul (x.b.mul x.b)).neg).sign

/-- Every coefficient is even. -/
def Root3.even (x : Root3) : Bool :=
  x.a.a.a % 2 = 0 && x.a.a.b % 2 = 0 && x.a.b.a % 2 = 0 && x.a.b.b % 2 = 0 &&
  x.b.a.a % 2 = 0 && x.b.a.b % 2 = 0 && x.b.b.a % 2 = 0 && x.b.b.b % 2 = 0

/-- Every coefficient halved. -/
def Root3.half (x : Root3) : Root3 :=
  { a := { a := { a := x.a.a.a / 2, b := x.a.a.b / 2 }, b := { a := x.a.b.a / 2, b := x.a.b.b / 2 } }
    b := { a := { a := x.b.a.a / 2, b := x.b.a.b / 2 }, b := { a := x.b.b.a / 2, b := x.b.b.b / 2 } } }

/-- The sum of the magnitudes of the coefficients. The value is less than 8 times this, or 0. -/
def Root3.weight (x : Root3) : Nat :=
  x.a.a.a.natAbs + x.a.a.b.natAbs + x.a.b.a.natAbs + x.a.b.b.natAbs +
  x.b.a.a.natAbs + x.b.a.b.natAbs + x.b.b.a.natAbs + x.b.b.b.natAbs

/-! ### Exact numbers -/

/-- The canonical form of `x / 2^e`: `e = 0` or some coefficient odd. -/
def Exact.norm (x : Root3) : Nat → Exact
  | 0 => { num := x, exp := 0 }
  | e + 1 => if x.even then Exact.norm x.half e else { num := x, exp := e + 1 }

def Exact.ofInt (z : Int) : Exact := { num := Root3.ofInt z, exp := 0 }

/-- The exact sum. -/
def Exact.add (x y : Exact) : Exact :=
  Exact.norm (((Root3.ofInt (2 ^ y.exp)).mul x.num).add ((Root3.ofInt (2 ^ x.exp)).mul y.num)) (x.exp + y.exp)

/-- The exact product. -/
def Exact.mul (x y : Exact) : Exact := Exact.norm (x.num.mul y.num) (x.exp + y.exp)

/-- The greatest `n` of at most `bits` more binary digits, from `acc` up, with `2·n·d ≤ 2·y + d`, that is
`n ≤ y/d + 1/2`. -/
def roundSearch (y : Root3) (d : Nat) : (bits acc : Nat) → Nat
  | 0, acc => acc
  | b + 1, acc =>
    let n := acc + 2 ^ b
    if 0 ≤ ((y.add y).add (Root3.ofInt ((d : Int) - 2 * n * d))).sign then roundSearch y d b n else roundSearch y d b acc

/-- `bitlen n`: the number of bits of the binary form of `n` (00_scope.md R8). -/
def bitlen (n : Nat) : Nat := if n = 0 then 0 else Nat.log2 n + 1

/-- `rnd(x / d)` for `d ≥ 1`: the nearest integer, a tie going away from zero: `sign(x)·floor(|x/d| + 1/2)`
(00_scope.md R8). -/
def roundDiv (x : Root3) (d : Nat) : Int :=
  let y := if x.sign < 0 then x.neg else x
  let n := roundSearch y d (bitlen (8 * x.weight) + 1) 0
  if x.sign < 0 then -(n : Int) else n

/-- `quant(f, q) = rnd(f / q)` (44_transform.md R222, REF). -/
def Exact.quant (f : Exact) (q : Nat) : Int := roundDiv f.num (2 ^ f.exp * q)

/-- `round(f) = rnd(f)` (44_transform.md R222, REF). -/
def Exact.round (f : Exact) : Int := roundDiv f.num (2 ^ f.exp)

/-! ### The cosine basis -/

/-- The ROM of the basis (10_state.md R35): `2·cos(m·π/16)` for m = 0..8, exactly. -/
def cosRom (m : Nat) : Root3 :=
  match m with
  | 0 => Root3.ofInt 2
  | 1 => ⟨Root2.zero, ⟨⟨1, 0⟩, ⟨0, 0⟩⟩⟩
  | 2 => ⟨⟨⟨0, 0⟩, ⟨1, 0⟩⟩, Root2.zero⟩
  | 3 => ⟨Root2.zero, ⟨⟨-1, 0⟩, ⟨1, 0⟩⟩⟩
  | 4 => ⟨⟨⟨0, 1⟩, ⟨0, 0⟩⟩, Root2.zero⟩
  | 5 => ⟨Root2.zero, ⟨⟨1, 1⟩, ⟨-1, 0⟩⟩⟩
  | 6 => ⟨⟨⟨0, 0⟩, ⟨-1, 1⟩⟩, Root2.zero⟩
  | 7 => ⟨Root2.zero, ⟨⟨-1, -1⟩, ⟨0, 1⟩⟩⟩
  | _ => Root3.zero

/-- `2·cos(m·π/16)` for every m, by the symmetries of the cosine. -/
def twoCos (m : Nat) : Root3 :=
  let r := m % 32
  let r := if 16 < r then 32 - r else r
  if 8 < r then (cosRom (16 - r)).neg else cosRom r

/-- `B[u][x] = (1/2)·C(u)·cos((2x+1)·u·π/16)`, `C(0) = 1/√2`, `C(u) = 1` for u > 0 (44_transform.md R223):
`B[0][x] = √2/4` and `B[u][x] = 2·cos((2x+1)uπ/16)/4`. -/
def cosBasis (u x : Nat) : Exact :=
  if u = 0 then { num := cosRom 4, exp := 2 } else { num := twoCos ((2 * x + 1) * u), exp := 2 }

/-! ### The numerics record -/

/-- REF, the default and reference instance: exact real arithmetic (44_transform.md R222). -/
def Numerics.ref : Numerics NumValue :=
  { ofInt := Exact.ofInt, add := Exact.add, mul := Exact.mul, basis := cosBasis, quant := Exact.quant,
    round := Exact.round }

/-- The numerics record of an instance (44_transform.md R222). -/
def Numerics.of : NumInstance → Numerics NumValue
  | .ref => Numerics.ref
  | .declared id => Config.declaredNum id

/-- NUM of the instance (00_scope.md R7, 44_transform.md R222). Log 10. -/
def State.num (s : State) : Numerics NumValue := Numerics.of s.params.num

end Sys2Proof.Machine
end

