-- ==== Sys2Proof/Machine/Ops.lean ====
section
/-! DEFINITION. The named operations over memory and registers, the taking of a fault (60_exceptions.md R312) and the way
back from one (60_exceptions.md R330). -/

namespace Sys2Proof.Machine

/-- What a step answers. -/
abbrev Result := Host.Outcome State Fault Refusal

/-- A raised fault: its cause and its FAULT_INFO (00_scope.md R9). -/
abbrev Raise := Cause × Word

/-! ### Memory (20_memory.md R60, R64) -/

/-- The byte written last at address `a`, if any. -/
def Memory.get? : Memory → Nat → Option Byte
  | [], _ => none
  | c :: m, a => if c.1 = a then some c.2 else Memory.get? m a

/-- The memory after byte `v` is written at address `a`. -/
def Memory.set : Memory → Nat → Byte → Memory
  | [], a, v => [(a, v)]
  | c :: m, a, v =>
    if a < c.1 then (a, v) :: c :: m else if a = c.1 then (a, v) :: m else c :: Memory.set m a v

/-- The memory after consecutive bytes are written from address `a` up. -/
def Memory.setList : Memory → Nat → List Byte → Memory
  | m, _, [] => m
  | m, a, v :: vs => Memory.setList (Memory.set m a v) (a + 1) vs

/-- The memory after `n` bytes from address `a` up are left unspecified by the `d`-th mid-command fault. -/
def Memory.draw (m : Memory) (a n d : Nat) : Memory :=
  m.setList a ((List.range n).map fun i => (Config.free d (.outByte (a + i))).setWidth 8)

/-- `IN[a]` (00_scope.md R9): the byte written last, or the unspecified power-on byte (70_reset_and_hazards.md R350). -/
def Memory.inByte (m : Memory) (a : Nat) : Byte := (m.get? a).getD (Config.powerOnIn a)

/-- `OUT[a]` as the host reads it. -/
def Memory.outByte (m : Memory) (a : Nat) : Byte := (m.get? a).getD (Config.powerOnOut a)

/-- `MemRead(a, n)` (00_scope.md R9). -/
def Memory.readList (m : Memory) (a n : Nat) : List Byte := (List.range n).map fun i => m.inByte (a + i)

/-- `rd16le(a) = IN[a] | IN[a+1] << 8` (00_scope.md R9). -/
def Memory.rd16le (m : Memory) (a : Nat) : Sample := m.inByte (a + 1) ++ m.inByte a

/-- `rd16be(a) = IN[a] << 8 | IN[a+1]` (00_scope.md R9). -/
def Memory.rd16be (m : Memory) (a : Nat) : Sample := m.inByte a ++ m.inByte (a + 1)

/-- The two bytes of `wr16le` (00_scope.md R9): the low byte at the lower address. -/
def le16 (v : Sample) : List Byte := [v.extractLsb' 0 8, v.extractLsb' 8 8]

/-- Samples written little-endian at consecutive even offsets from `a` (30_encoding.md R100). -/
def Memory.setSamples (m : Memory) (a : Nat) (vs : List Sample) : Memory := m.setList a (vs.flatMap le16)

/-! ### Tables, models and predictors -/

/-- The Huffman table of class `tc`, index `th` (10_state.md R31). -/
def State.table (s : State) (tc : TableClass) (th : Fin 4) : HuffTable :=
  match tc with
  | .dc => s.htDc[th]
  | .ac => s.htAc[th]

/-- All three forms of a table replaced together (70_reset_and_hazards.md R363). -/
def State.setTable (s : State) (tc : TableClass) (th : Fin 4) (t : HuffTable) : State :=
  match tc with
  | .dc => { s with htDc := s.htDc.set th.val t th.isLt }
  | .ac => { s with htAc := s.htAc.set th.val t th.isLt }

/-- The frequency model of class `tc`, index `th` (10_state.md R32). -/
def State.freq (s : State) (tc : TableClass) (th : Fin 4) : FreqModel :=
  match tc with
  | .dc => s.fqDc[th]
  | .ac => s.fqAc[th]

/-- A frequency model replaced. -/
def State.setFreq (s : State) (tc : TableClass) (th : Fin 4) (f : FreqModel) : State :=
  match tc with
  | .dc => { s with fqDc := s.fqDc.set th.val f th.isLt }
  | .ac => { s with fqAc := s.fqAc.set th.val f th.isLt }

/-- `pred(c) = dcp[c].value if dcp[c].set else 0` (10_state.md R30). -/
def State.pred (s : State) (c : Fin 4) : Int :=
  if s.dcp[c].set then s.dcp[c].value.toInt else 0

/-- `dcp[c] <- (set 1, value v)` (43_coefficient.md R199). -/
def State.setPred (s : State) (c : Fin 4) (v : Word) : State :=
  { s with dcp := s.dcp.set c.val { set := true, value := v } c.isLt }

/-- `for c in 0..3: dcp[c] <- (set 0, value 0)` (43_coefficient.md R206). -/
def State.clearPreds (s : State) : State := { s with dcp := Vector.replicate 4 Pred.unset }

/-! ### The sticky fault (60_exceptions.md R311, R312) -/

/-- The number of a cause (60_exceptions.md R311). -/
def Cause.code (c : Cause) : Byte :=
  match c with
  | .illegalCmd => 1
  | .badArg => 2
  | .ioRead => 3
  | .ioWrite => 4
  | .notReady => 5
  | .badTable => 6
  | .codeNotFound => 7
  | .badSymbol => 8
  | .badMarker => 9
  | .coefRange => 10
  | .noCode => 11
  | .adaptOverflow => 12
  | .ljBadFormat => 13
  | .ljMismatch => 14
  | .unsupported => 15
  | .truncated => 16
  | .linRange => 17

/-- Taking a fault, the one way into the fault state (60_exceptions.md R312): FAULT 1, SEG_END 0, BUSY 0, and the cause, the
info and the command word recorded. Nothing else changes and control goes nowhere (60_exceptions.md R317). -/
def State.takeFault (s : State) (cmd : Word) (c : Cause) (info : Word) : State :=
  { s with fault := true, segEnd := false, busy := false, faultCause := some c, faultInfo := info, faultCmd := cmd }

/-- A fault of a command raised before its first state change: all other state is as it was (60_exceptions.md R312). -/
def State.raise (s : State) (i : Instr) (r : Raise) : State := s.takeFault (encode i) r.1 r.2

/-- A fault of a command raised in mid-command, on a state whose write set has been left unspecified by the draw functions
below (60_exceptions.md R312). The draw counter advances, so the next such fault has fresh free values. -/
def State.raiseMid (s : State) (i : Instr) (r : Raise) : State :=
  { s.takeFault (encode i) r.1 r.2 with draws := s.draws + 1 }

/-- A command whose checks are `x`, made before its first state change (60_exceptions.md R316): the first that fails is
raised, otherwise the command goes on with what they answer. -/
def State.checked {α : Type} (s : State) (i : Instr) (x : Except Raise α) (k : α → State) : State :=
  match x with
  | .error r => s.raise i r
  | .ok a => k a

/-! ### Write sets left unspecified by a mid-command fault (60_exceptions.md R312; log 4) -/

/-- A free draw for element `e` at the next mid-command fault. -/
def State.drawn (s : State) (e : Drawn) : Word := Config.free s.draws e

/-- R0. -/
def State.drawRes0 (s : State) : State := { s with res0 := s.drawn .res0 }

/-- BR_POS, BR_STATE; BR_END and RST_RD are not written by the reader functions. -/
def State.drawReader (s : State) : State :=
  { s with br :=
    { pos := s.drawn .brPos, lim := s.br.lim, buf := (s.drawn .brBuf).setWidth 8, cnt := (s.drawn .brCnt).setWidth 4,
      eos := (s.drawn .brEos).getLsbD 0, marker := (s.drawn .brMarker).setWidth 8 } }

/-- RST_RD. -/
def State.drawRstRd (s : State) : State := { s with rstRd := (s.drawn .rstRd).setWidth 3 }

/-- BW_POS, BW_STATE and the OUT window [BW_POS, BW_END); BW_END is not written by the writer functions. -/
def State.drawWriter (s : State) : State :=
  { s with
    outMem := s.outMem.draw s.bw.pos.toNat (s.bw.lim.toNat - s.bw.pos.toNat) s.draws
    bw := { pos := s.drawn .bwPos, lim := s.bw.lim, buf := (s.drawn .bwBuf).setWidth 8,
            cnt := (s.drawn .bwCnt).setWidth 3 } }

/-- RST_WR. -/
def State.drawRstWr (s : State) : State := { s with rstWr := (s.drawn .rstWr).setWidth 3 }

/-- An unspecified predictor slot. -/
def State.drawnPred (s : State) (c : Nat) : Pred :=
  { set := (s.drawn (.dcpSet c)).getLsbD 0, value := s.drawn (.dcpValue c) }

/-- dcp[c]. -/
def State.drawPred (s : State) (c : Fin 4) : State :=
  { s with dcp := s.dcp.set c.val (s.drawnPred c.val) c.isLt }

/-- dcp[0..3]. -/
def State.drawPreds (s : State) : State := { s with dcp := Vector.ofFn fun c : Fin 4 => s.drawnPred c.val }

/-- BLK_I[0..63]. -/
def State.drawBlkI (s : State) : State := { s with blkI := Vector.ofFn fun i : Fin 64 => s.drawn (.blkI i.val) }

/-- A frequency model with FREQ[0..255] unspecified; slot 256 is never counted into (10_state.md R32). -/
def State.drawnFreq (s : State) (e : Nat → Drawn) (f : FreqModel) : FreqModel :=
  Vector.ofFn fun i : Fin 257 => if i.val < 256 then s.drawn (e i.val) else f[i]

/-- FREQ[0..255] of the DC model `td` and the AC model `ta`. -/
def State.drawFreq (s : State) (td ta : Fin 4) : State :=
  (s.setFreq .dc td (s.drawnFreq .freqDc (s.freq .dc td))).setFreq .ac ta (s.drawnFreq .freqAc (s.freq .ac ta))

/-- `n` OUT bytes from address `a` up. -/
def State.drawOut (s : State) (a n : Nat) : State := { s with outMem := s.outMem.draw a n s.draws }

/-- The LJ92 row caches of `n` samples. -/
def State.drawRows (s : State) (n : Nat) : State :=
  { s with lj := { s.lj with
      cur := (List.range n).map fun i => (s.drawn (.ljCur i)).setWidth 16
      prev := (List.range n).map fun i => (s.drawn (.ljPrev i)).setWidth 16 } }

/-! ### Reset of the core -/

/-- The machine right after a power-on reset of an instance with these parameters (10_state.md R39): `State.reset` with them,
and every BLK_F element `NUM.of_int(0)` of its NUM (10_state.md R34). -/
def State.resetOf (p : Params) : State :=
  { State.reset with params := p, blkF := Vector.replicate 64 ((Numerics.of p.num).ofInt 0) }

/-- The effect of reset and of SRESET (10_state.md R39, 40_system.md R111, 70_reset_and_hazards.md R351): every register,
table and buffer of the core takes its reset value; IN and OUT are not changed, nor are the model's own fields (the
parameters, the pending host moves, what the host read last, the draw counter). -/
def State.coreReset (s : State) : State :=
  { State.resetOf s.params with
    inMem := s.inMem, outMem := s.outMem, host := s.host, hostData := s.hostData, draws := s.draws }

end Sys2Proof.Machine
end

