-- ==== Sys2Proof/Machine/Operands.lean ====
section
/-! DEFINITION. Operand assembly and the checks of operands (30_encoding.md R83, R85; 60_exceptions.md R316). -/

namespace Sys2Proof.Machine

/-! ### Field operands -/

/-- A field value as FAULT_INFO (30_encoding.md R85). -/
def fieldInfo (f : Byte) : Word := f.setWidth 32

/-- A check: `ok` or the fault. -/
def require (ok : Bool) (r : Raise) : Except Raise Unit := if ok then .ok () else .error r

/-- A table index or predictor slot, legal 0..3, else BAD_ARG with the field (30_encoding.md R85). -/
def indexField (f : Byte) : Except Raise (Fin 4) :=
  if h : f.toNat < 4 then .ok ⟨f.toNat, h⟩ else .error (.badArg, fieldInfo f)

/-- A table class, legal 0 and 1, else BAD_ARG with the field. -/
def classField (f : Byte) : Except Raise TableClass :=
  if f = 0 then .ok .dc else if f = 1 then .ok .ac else .error (.badArg, fieldInfo f)

/-- The precision flag `pq`, legal 0 and 1, else BAD_ARG with the field. -/
def precisionField (f : Byte) : Except Raise Bool :=
  if f = 0 then .ok false else if f = 1 then .ok true else .error (.badArg, fieldInfo f)

/-- A count field `n`, legal 0..`max`, else BAD_ARG with the field. -/
def countField (max : Nat) (f : Byte) : Except Raise Nat :=
  if f.toNat ≤ max then .ok f.toNat else .error (.badArg, fieldInfo f)

/-- The fields of format T, checked in the order F2, F3 (60_exceptions.md R316). -/
def tableFields (tc th : Byte) : Except Raise (TableClass × Fin 4) := do
  let c ← classField tc
  let i ← indexField th
  return (c, i)

/-- The fields of format B, checked in the order F1, F2, F3 (60_exceptions.md R316). -/
def blockFields (c td ta : Byte) : Except Raise (Fin 4 × Fin 4 × Fin 4) := do
  let c ← indexField c
  let d ← indexField td
  let a ← indexField ta
  return (c, d, a)

/-! ### VALID requirements -/

/-- "A command that needs a unit whose bit is 0 faults NOT_READY" with the bit number (10_state.md R26). -/
def State.needs (s : State) (bit : Nat) : Except Raise Unit :=
  require (s.isValid bit) (.notReady, BitVec.ofNat 32 bit)

/-! ### Register operands -/

/-- `zext_32(A[i])` (30_encoding.md R83). -/
def State.argNat (s : State) (i : Fin 4) : Nat := s.arg[i].toNat

/-- `A[0][n−1:0]`, the low n bits; 0 when n = 0 (30_encoding.md R83). -/
def State.argLow (s : State) (n : Nat) : Nat := s.arg[(0 : Fin 4)].toNat % 2 ^ n

/-- `A[0][7:0]` (30_encoding.md R83). -/
def State.argSymbol (s : State) : Byte := s.arg[(0 : Fin 4)].setWidth 8

/-- IN_SIZE as FAULT_INFO (60_exceptions.md R311). -/
def State.inSizeInfo (s : State) : Word := BitVec.ofNat 32 s.params.inSize

/-- OUT_SIZE as FAULT_INFO (60_exceptions.md R311). -/
def State.outSizeInfo (s : State) : Word := BitVec.ofNat 32 s.params.outSize

/-- PREC[4:0], legal 2..16, else BAD_ARG with it (10_state.md R27, 44_transform.md R240). -/
def State.precision (s : State) : Except Raise Nat :=
  if 2 ≤ s.prec.toNat ∧ s.prec.toNat ≤ 16 then .ok s.prec.toNat else .error (.badArg, s.prec.setWidth 32)

end Sys2Proof.Machine
end

