-- ==== Sys2Proof/Machine/BitIo.lean ====
section
/-! DEFINITION. The BitReader and BitWriter: their functions and commands (41_bitio.md). -/

namespace Sys2Proof.Machine

/-! ### Reader functions (41_bitio.md R120 to R123) -/

/-- The outcome of a function that reads bits (00_scope.md R10): a value, NoMoreData, or a raised fault. -/
inductive Bits (α : Type) where
  | got (v : α) (r : Reader)
  | noMore (r : Reader)
  | fail (f : Raise)
  deriving DecidableEq, Repr

/-- `v <- f(...)`, `propagate NoMoreData` (00_scope.md R10). -/
def Bits.andThen {α β : Type} (x : Bits α) (k : α → Reader → Bits β) : Bits β :=
  match x with
  | .got v r => k v r
  | .noMore r => .noMore r
  | .fail f => .fail f

/-- `refill()` (41_bitio.md R122): one stream byte, with destuffing and marker detection. -/
def refill (m : Memory) (r : Reader) : Bits Unit :=
  if r.eos then .noMore r
  else if r.lim.toNat ≤ r.pos.toNat then .fail (.ioRead, r.pos)
  else
    let b := m.inByte r.pos.toNat
    if b = 0xFF then
      if r.lim.toNat ≤ r.pos.toNat + 1 then .fail (.ioRead, r.pos + 1)
      else
        let b2 := m.inByte (r.pos.toNat + 1)
        if b2 = 0 then .got () { r with pos := r.pos + 2, buf := b, cnt := 8 }
        else .noMore { r with eos := true, marker := b2 }
    else .got () { r with pos := r.pos + 1, buf := b, cnt := 8 }

/-- Deliver bit 7 of the byte buffer (41_bitio.md R121). -/
def takeBit (r : Reader) : Bits Bool :=
  .got r.buf.msb { r with buf := r.buf <<< 1, cnt := r.cnt - 1 }

/-- `next_bit()` (41_bitio.md R121). -/
def nextBit (m : Memory) (r : Reader) : Bits Bool :=
  if r.cnt = 0 then (refill m r).andThen fun _ r' => takeBit r' else takeBit r

/-- The loop of `get_bits` (41_bitio.md R123) with `n` bits to go and `v` read so far. -/
def getBitsFrom (m : Memory) : (n v : Nat) → Reader → Bits Nat
  | 0, v, r => .got v r
  | n + 1, v, r => (nextBit m r).andThen fun b r' => getBitsFrom m n (2 * v + b.toNat) r'

/-- `get_bits(n)` (41_bitio.md R123). -/
def getBits (m : Memory) (n : Nat) (r : Reader) : Bits Nat := getBitsFrom m n 0 r

/-! ### Writer functions (41_bitio.md R130 to R133) -/

/-- The BitWriter and the OUT memory it writes. -/
structure Sink where
  w : Writer
  out : Memory
  deriving DecidableEq, Repr

/-- `write_out(b)` (41_bitio.md R131). -/
def writeOut (b : Byte) (k : Sink) : Except Raise Sink :=
  if k.w.lim.toNat ≤ k.w.pos.toNat then .error (.ioWrite, k.w.pos)
  else .ok { w := { k.w with pos := k.w.pos + 1 }, out := k.out.set k.w.pos.toNat b }

/-- `emit_byte(b)` (41_bitio.md R130). -/
def emitByte (b : Byte) (k : Sink) : Except Raise Sink := do
  let k ← writeOut b k
  if b = 0xFF then writeOut 0 k else .ok k

/-- One pass of the loop of `put_bits` (41_bitio.md R132). -/
def putBit (bit : Bool) (k : Sink) : Except Raise Sink :=
  let buf := (k.w.buf <<< 1) ||| (BitVec.ofBool bit).setWidth 8
  if k.w.cnt.toNat + 1 = 8 then emitByte buf { k with w := { k.w with buf := 0, cnt := 0 } }
  else .ok { k with w := { k.w with buf := buf, cnt := k.w.cnt + 1 } }

/-- `put_bits(v, n)` (41_bitio.md R132): bit n − 1 of `v` first. -/
def putBits (v : Nat) : Nat → Sink → Except Raise Sink
  | 0, k => .ok k
  | n + 1, k => do
    let k ← putBit (v.testBit n) k
    putBits v n k

/-- `flush_bits()` (41_bitio.md R133). -/
def flushBits (k : Sink) : Except Raise Sink :=
  if k.w.cnt = 0 then .ok k
  else putBits (2 ^ (8 - k.w.cnt.toNat) - 1) (8 - k.w.cnt.toNat) k

/-- The writer of a state with its memory. -/
def State.sink (s : State) : Sink := { w := s.bw, out := s.outMem }

/-- The state with the writer and its memory replaced. -/
def State.setSink (s : State) (k : Sink) : State := { s with bw := k.w, outMem := k.out }

/-! ### Reader commands -/

/-- The end of BR_BIT, BR_BITS and HT_DEC: R0 is the value, or 0 with SEG_END at a segment end (60_exceptions.md R313); a
fault of the reader is a mid-command fault whose write set is the reader and R0. -/
def State.finishRead (s : State) (i : Instr) (x : Bits Nat) : State :=
  match x with
  | .got v r => { s with br := r, res0 := BitVec.ofNat 32 v }.finish false
  | .noMore r => { s with br := r, res0 := 0 }.finish true
  | .fail f => s.drawReader.drawRes0.raiseMid i f

/-- A window argument pair: `A[0] ≤ A[1]` and `A[1] ≤ size`, else BAD_ARG(A[1]) (41_bitio.md R124, R134). -/
def State.windowArgs (s : State) (size : Nat) : Except Raise Unit :=
  require (s.argNat 0 ≤ s.argNat 1 && s.argNat 1 ≤ size) (.badArg, s.arg[(1 : Fin 4)])

/-- BR_INIT (41_bitio.md R124). -/
def execBrInit (s : State) : Result :=
  .next <| s.checked .brInit (s.windowArgs s.params.inSize) fun _ =>
    ({ s with
      br := { pos := s.arg[(0 : Fin 4)], lim := s.arg[(1 : Fin 4)], buf := 0, cnt := 0, eos := false, marker := 0 }
      rstRd := 0 }.setValid brValidBit true).finish false

/-- BR_BIT (41_bitio.md R125). -/
def execBrBit (s : State) : Result :=
  .next <| s.checked .brBit (s.needs brValidBit) fun _ =>
    s.finishRead .brBit ((nextBit s.inMem s.br).andThen fun b r => .got b.toNat r)

/-- The checks of BR_BITS (41_bitio.md R126). -/
def State.brBitsChecks (s : State) (n : Byte) : Except Raise Nat := do
  let n ← countField 16 n
  s.needs brValidBit
  return n

/-- BR_BITS n (41_bitio.md R126). -/
def execBrBits (n : Byte) (s : State) : Result :=
  .next <| s.checked (.brBits n) (s.brBitsChecks n) fun k =>
    s.finishRead (.brBits n) (getBits s.inMem k s.br)

/-- The checks of BR_RESYNC that follow its first state change (41_bitio.md R127): the marker RSTn with n = RST_RD must be
the next two bytes of the window. -/
def State.restartMarker (s : State) : Except Raise Unit := do
  require (s.br.pos.toNat < s.br.lim.toNat) (.ioRead, s.br.pos)
  require (s.br.pos.toNat + 1 < s.br.lim.toNat) (.ioRead, s.br.pos + 1)
  let m0 := s.inMem.inByte s.br.pos.toNat
  let m1 := s.inMem.inByte (s.br.pos.toNat + 1)
  require (m0 = 0xFF && m1 = 0xD0 + s.rstRd.setWidth 8) (.badMarker, (m0 ++ m1).setWidth 32)

/-- BR_RESYNC (41_bitio.md R127). -/
def execBrResync (s : State) : Result :=
  .next <| s.checked .brResync (s.needs brValidBit) fun _ =>
    match s.restartMarker with
    | .error f => s.drawReader.drawRes0.drawRstRd.drawPreds.raiseMid .brResync f
    | .ok () =>
      { s.clearPreds with
        br := { s.br with pos := s.br.pos + 2, buf := 0, cnt := 0, eos := false, marker := 0 }
        res0 := s.rstRd.setWidth 32
        rstRd := s.rstRd + 1 }.finish false

/-! ### Writer commands -/

/-- The end of BW_BITS, BW_FLUSH and HT_ENC: a fault of the writer is a mid-command fault whose write set is the writer and
its OUT window. -/
def State.finishWrite (s : State) (i : Instr) (x : Except Raise Sink) : State :=
  match x with
  | .ok k => (s.setSink k).finish false
  | .error f => s.drawWriter.raiseMid i f

/-- BW_INIT (41_bitio.md R134). -/
def execBwInit (s : State) : Result :=
  .next <| s.checked .bwInit (s.windowArgs s.params.outSize) fun _ =>
    ({ s with
      bw := { pos := s.arg[(0 : Fin 4)], lim := s.arg[(1 : Fin 4)], buf := 0, cnt := 0 }
      rstWr := 0 }.setValid bwValidBit true).finish false

/-- The checks of BW_BITS (41_bitio.md R135). -/
def State.bwBitsChecks (s : State) (n : Byte) : Except Raise Nat := do
  let n ← countField 16 n
  s.needs bwValidBit
  return n

/-- BW_BITS n (41_bitio.md R135). -/
def execBwBits (n : Byte) (s : State) : Result :=
  .next <| s.checked (.bwBits n) (s.bwBitsChecks n) fun k =>
    s.finishWrite (.bwBits n) (putBits (s.argLow k) k s.sink)

/-- BW_FLUSH (41_bitio.md R136). -/
def execBwFlush (s : State) : Result :=
  .next <| s.checked .bwFlush (s.needs bwValidBit) fun _ =>
    s.finishWrite .bwFlush (flushBits s.sink)

/-- The bytes of BW_RST (41_bitio.md R137): the flushed byte, then the marker RSTn, which is not stuffed. -/
def writeRestart (n : BitVec 3) (k : Sink) : Except Raise Sink := do
  let k ← flushBits k
  let k ← writeOut 0xFF k
  writeOut (0xD0 + n.setWidth 8) k

/-- BW_RST (41_bitio.md R137). -/
def execBwRst (s : State) : Result :=
  .next <| s.checked .bwRst (s.needs bwValidBit) fun _ =>
    match writeRestart s.rstWr s.sink with
    | .error f => s.drawWriter.drawRes0.drawRstWr.drawPreds.raiseMid .bwRst f
    | .ok k =>
      { (s.setSink k).clearPreds with
        res0 := s.rstWr.setWidth 32
        rstWr := s.rstWr + 1 }.finish false

end Sys2Proof.Machine
end

