-- ==== Sys2Proof/Machine/Huffman.lean ====
section
/-! DEFINITION. The canonical Huffman codec: table construction, symbol decode and encode, frequency models, adaptation
(42_huffman.md). -/

namespace Sys2Proof.Machine

/-! ### Table construction (42_huffman.md R150 to R154) -/

/-- L[1..16] as numbers: L[i+1] at place i. -/
def HuffSpec.lengths (p : HuffSpec) : List Nat := p.counts.toList.map BitVec.toNat

/-- Step 1 (42_huffman.md R151): SIZE[k] for every slot, from counts L[i], L[i+1], ... -/
def codeSizes : (i : Nat) → (counts : List Nat) → List Nat
  | _, [] => []
  | i, c :: cs => List.replicate c i ++ codeSizes (i + 1) cs

/-- Step 2 (42_huffman.md R152): the code of each slot. `code` is the next code at length `si`; it is shifted left once per
step of length. More codes of a length than exist is BAD_TABLE(4) (42_huffman.md R154). -/
def assignCodes : (code si : Nat) → (sizes : List Nat) → Except Raise (List (Nat × Nat))
  | _, _, [] => .ok []
  | code, si, z :: zs =>
    let c := code * 2 ^ (z - si)
    if 2 ^ z ≤ c then .error (.badTable, 4)
    else
      match assignCodes (c + 1) z zs with
      | .ok rest => .ok ((z, c) :: rest)
      | .error r => .error r

/-- The decode table of a specification: steps 1 and 2 (42_huffman.md R151, R152). -/
def buildSlots (p : HuffSpec) : Except Raise (List Slot) :=
  match assignCodes 0 0 (codeSizes 1 p.lengths) with
  | .ok codes =>
    .ok (List.zipWith (fun zc v => { size := BitVec.ofNat 5 zc.1, code := BitVec.ofNat 16 zc.2, sym := v }) codes p.syms)
  | .error r => .error r

/-- Step 3 (42_huffman.md R153): the encode table; a later slot of the same symbol wins. -/
def encodeTable (slots : List Slot) : Vector EncEntry 256 :=
  slots.foldl (fun e k => e.set k.sym.toNat { code := k.code, size := k.size } k.sym.isLt)
    (Vector.replicate 256 { code := 0, size := 0 })

/-- `build(L, V)` (42_huffman.md R150): the table with its two derived forms. -/
def buildTable (p : HuffSpec) : Except Raise HuffTable :=
  match buildSlots p with
  | .ok slots => .ok { spec := p, dec := slots, enc := encodeTable slots }
  | .error r => .error r

/-! ### Symbol decode and encode (42_huffman.md R155, R156) -/

/-- The slot with this (length, code) pair. The probe order cannot matter (42_huffman.md R155). -/
def findSlot (slots : List Slot) (len code : Nat) : Option Slot :=
  slots.find? fun k => k.size.toNat = len && k.code.toNat = code

/-- The loop of `read_code` (42_huffman.md R155): `left` more bits at most, `len` bits read so far, accumulated in `code`. -/
def readCodeFrom (m : Memory) (slots : List Slot) : (left len code : Nat) → Reader → Bits Byte
  | 0, _, code, _ => .fail (.codeNotFound, BitVec.ofNat 32 code)
  | left + 1, len, code, r =>
    (nextBit m r).andThen fun b r' =>
      let code := 2 * code + b.toNat
      match findSlot slots (len + 1) code with
      | some k => .got k.sym r'
      | none => readCodeFrom m slots left (len + 1) code r'

/-- `read_code(T)` with codes of at most `maxLen` bits: 16 on the sequential path (42_huffman.md R155), MAXBITS in LJ92
(45_lj92.md R254). -/
def readCode (m : Memory) (slots : List Slot) (maxLen : Nat) (r : Reader) : Bits Byte :=
  readCodeFrom m slots maxLen 0 0 r

/-- `write_code(E, s)` (42_huffman.md R156). -/
def writeCode (e : Vector EncEntry 256) (sym : Byte) (k : Sink) : Except Raise Sink :=
  let c := e[sym.toFin]
  if c.size = 0 then .error (.noCode, sym.setWidth 32) else putBits c.code.toNat c.size.toNat k

/-! ### Table commands -/

/-- The intake of a table payload at A0 with limit A1 (30_encoding.md R95, 42_huffman.md R157). -/
def State.loadSpec (s : State) : Except Raise HuffSpec := do
  let a := s.argNat 0
  let lim := s.argNat 1
  require (lim ≤ s.params.inSize) (.ioRead, s.arg[(1 : Fin 4)])
  require (a + 16 ≤ lim) (.badTable, 1)
  let counts := Vector.ofFn fun i : Fin 16 => s.inMem.inByte (a + i.val)
  let n := (HuffSpec.lengths { counts := counts, syms := [] }).sum
  require (n ≤ 256) (.badTable, 2)
  require (a + 16 + n ≤ lim) (.badTable, 3)
  return { counts := counts, syms := s.inMem.readList (a + 16) n }

/-- The checks and the build of HT_LOAD, all before any table state is written (42_huffman.md R157). -/
def State.htLoadChecks (s : State) (tc th : Byte) : Except Raise ((TableClass × Fin 4) × HuffTable) := do
  let f ← tableFields tc th
  let p ← s.loadSpec
  let t ← buildTable p
  return (f, t)

/-- HT_LOAD tc, th (42_huffman.md R157). -/
def execHtLoad (tc th : Byte) (s : State) : Result :=
  .next <| s.checked (.htLoad tc th) (s.htLoadChecks tc th) fun x =>
    { (s.setTable x.1.1 x.1.2 x.2).setValid (tableBit x.1.1 x.1.2) true with
      res0 := BitVec.ofNat 32 (16 + x.2.spec.syms.length) }.finish false

/-- The payload form of a specification (30_encoding.md R95). -/
def HuffSpec.payload (p : HuffSpec) : List Byte := p.counts.toList ++ p.syms

/-- The checks of HT_STORE (42_huffman.md R158). -/
def State.htStoreChecks (s : State) (tc th : Byte) : Except Raise HuffSpec := do
  let f ← tableFields tc th
  s.needs (tableBit f.1 f.2)
  let p := (s.table f.1 f.2).spec
  require (s.argNat 0 + 16 + p.syms.length ≤ s.params.outSize) (.ioWrite, s.outSizeInfo)
  return p

/-- HT_STORE tc, th (42_huffman.md R158). -/
def execHtStore (tc th : Byte) (s : State) : Result :=
  .next <| s.checked (.htStore tc th) (s.htStoreChecks tc th) fun p =>
    { s with
      outMem := s.outMem.setList (s.argNat 0) p.payload
      res0 := BitVec.ofNat 32 (16 + p.syms.length) }.finish false

/-- The checks of HT_DEC (42_huffman.md R159). -/
def State.htDecChecks (s : State) (tc th : Byte) : Except Raise HuffTable := do
  let f ← tableFields tc th
  s.needs (tableBit f.1 f.2)
  s.needs brValidBit
  return s.table f.1 f.2

/-- HT_DEC tc, th (42_huffman.md R159). -/
def execHtDec (tc th : Byte) (s : State) : Result :=
  .next <| s.checked (.htDec tc th) (s.htDecChecks tc th) fun t =>
    s.finishRead (.htDec tc th) ((readCode s.inMem t.dec 16 s.br).andThen fun v r => .got v.toNat r)

/-- The checks of HT_ENC, the missing code included: it is raised before any bit is written (42_huffman.md R160,
60_exceptions.md R312). -/
def State.htEncChecks (s : State) (tc th : Byte) : Except Raise HuffTable := do
  let f ← tableFields tc th
  s.needs (tableBit f.1 f.2)
  s.needs bwValidBit
  let t := s.table f.1 f.2
  require (t.enc[s.argSymbol.toFin].size ≠ 0) (.noCode, s.argSymbol.setWidth 32)
  return t

/-- HT_ENC tc, th (42_huffman.md R160). -/
def execHtEnc (tc th : Byte) (s : State) : Result :=
  .next <| s.checked (.htEnc tc th) (s.htEncChecks tc th) fun t =>
    s.finishWrite (.htEnc tc th) (writeCode t.enc s.argSymbol s.sink)

/-! ### Frequency model commands -/

/-- The model with every count 0. -/
def FreqModel.cleared : FreqModel := Vector.replicate 257 0

/-- FREQ[s] <- FREQ[s] + 1, or ADAPT_OVERFLOW(s) at 2^32 − 1 (42_huffman.md R162). -/
def countSymbol (f : FreqModel) (sym : Byte) : Except Raise FreqModel :=
  let c := f[sym.toNat]'(by have := sym.isLt; omega)
  if c.toNat = 2 ^ 32 - 1 then .error (.adaptOverflow, sym.setWidth 32)
  else .ok (f.set sym.toNat (c + 1) (by have := sym.isLt; omega))

/-- FQ_CLR tc, th (42_huffman.md R161). -/
def execFqClr (tc th : Byte) (s : State) : Result :=
  .next <| s.checked (.fqClr tc th) (tableFields tc th) fun f =>
    (s.setFreq f.1 f.2 FreqModel.cleared).finish false

/-- The checks of FQ_INC and the counted model (42_huffman.md R162). -/
def State.fqIncChecks (s : State) (tc th : Byte) : Except Raise ((TableClass × Fin 4) × FreqModel) := do
  let f ← tableFields tc th
  let m ← countSymbol (s.freq f.1 f.2) s.argSymbol
  return (f, m)

/-- FQ_INC tc, th (42_huffman.md R162). -/
def execFqInc (tc th : Byte) (s : State) : Result :=
  .next <| s.checked (.fqInc tc th) (s.fqIncChecks tc th) fun x =>
    (s.setFreq x.1.1 x.1.2 x.2).finish false

/-! ### Table adaptation (42_huffman.md R163 to R167) -/

/-- The scratch of `code_size` (42_huffman.md R163): FREQ, CODESIZE, OTHERS, each of 257 entries (OTHERS −1 is `none`). -/
structure Merge where
  freq : List Nat
  size : List Nat
  others : List (Option Nat)
  deriving DecidableEq, Repr

/-- The index with the least non-zero frequency, the largest among equals (42_huffman.md R163), of entries from index `i` on,
with `skip` left out; `best` is the best of the entries before. -/
def leastFrom (skip : Option Nat) : (i : Nat) → (best : Option (Nat × Nat)) → List Nat → Option Nat
  | _, best, [] => best.map Prod.fst
  | i, best, f :: fs =>
    if f = 0 || skip = some i then leastFrom skip (i + 1) best fs
    else
      match best with
      | none => leastFrom skip (i + 1) (some (i, f)) fs
      | some (j, g) => leastFrom skip (i + 1) (if f ≤ g then some (i, f) else some (j, g)) fs

/-- `CODESIZE[v] + 1` along the OTHERS chain from `v` on; answers the sizes and the chain's last index. `fuel` bounds the
chain's length, at most 257. -/
def bumpChain (others : List (Option Nat)) : (fuel : Nat) → (size : List Nat) → (v : Nat) → List Nat × Nat
  | 0, size, v => (size, v)
  | fuel + 1, size, v =>
    let size := size.modify v (· + 1)
    match others[v]?.join with
    | some v' => bumpChain others fuel size v'
    | none => (size, v)

/-- One pass of the loop of `code_size` that merges V1 and V2 (42_huffman.md R163). -/
def Merge.step (m : Merge) (v1 v2 : Nat) : Merge :=
  let freq := (m.freq.modify v1 (· + m.freq.getD v2 0)).set v2 0
  let (size, last) := bumpChain m.others 257 m.size v1
  let others := m.others.set last (some v2)
  let (size, _) := bumpChain others 257 size v2
  { freq := freq, size := size, others := others }

/-- The loop of `code_size`: at most 256 merges (70_reset_and_hazards.md R370). -/
def mergeLoop : Nat → Merge → Merge
  | 0, m => m
  | fuel + 1, m =>
    match leastFrom none 0 none m.freq with
    | none => m
    | some v1 =>
      match leastFrom (some v1) 0 none m.freq with
      | none => m
      | some v2 => mergeLoop fuel (m.step v1 v2)

/-- `code_size(FREQ)` (42_huffman.md R163): CODESIZE[0..256]. -/
def codeSize (freq : List Nat) : List Nat :=
  (mergeLoop 256 { freq := freq, size := List.replicate 257 0, others := List.replicate 257 none }).size

/-- `count_bits(CODESIZE)` (42_huffman.md R164): BITS[0..32]; the first code size above 32 is ADAPT_OVERFLOW(i). -/
def countBits (size : List Nat) : Except Raise (List Nat) :=
  match size.findIdx? (fun c => 32 < c) with
  | some i => .error (.adaptOverflow, BitVec.ofNat 32 i)
  | none => .ok ((List.range 33).map fun b => if b = 0 then 0 else size.count b)

/-- The nearest length `j` at or below `j` with BITS[j] > 0 (42_huffman.md R165); one is always found at `j ≥ 1`. -/
def borrowFrom (bits : List Nat) : Nat → Nat
  | 0 => 0
  | j + 1 => if 0 < bits.getD (j + 1) 0 then j + 1 else borrowFrom bits j

/-- One borrow at length `i` (42_huffman.md R165). -/
def borrow (bits : List Nat) (i : Nat) : List Nat :=
  let j := borrowFrom bits (i - 2)
  (((bits.modify i (· - 2)).modify (i - 1) (· + 1)).modify (j + 1) (· + 2)).modify j (· - 1)

/-- The borrows at length `i`, as long as BITS[i] > 0; each takes two codes of that length away, so BITS[i] bounds them. -/
def borrowAll (i : Nat) : (fuel : Nat) → List Nat → List Nat
  | 0, bits => bits
  | fuel + 1, bits => if 0 < bits.getD i 0 then borrowAll i fuel (borrow bits i) else bits

/-- The loop of `adjust_bits` over the lengths `16 + n` down to 17 (42_huffman.md R165). -/
def clampLengths : (n : Nat) → List Nat → List Nat
  | 0, bits => bits
  | n + 1, bits => clampLengths n (borrowAll (17 + n) (bits.getD (17 + n) 0) bits)

/-- `adjust_bits(BITS)` (42_huffman.md R165): the clamp to 16 bits, then the sentinel's code removed from the longest used
length. -/
def adjustBits (bits : List Nat) : List Nat :=
  let bits := clampLengths 16 bits
  bits.modify (borrowFrom bits 16) (· - 1)

/-- `sort_input(CODESIZE)` (42_huffman.md R166): V, by code size and then by symbol value, the sentinel left out. -/
def sortInput (size : List Nat) : List Byte :=
  (List.range 32).flatMap fun i =>
    ((List.range 256).filter fun j => size.getD j 0 = i + 1).map fun j => BitVec.ofNat 8 j

/-- The specification that the counts give (42_huffman.md R167); all-zero counts are BAD_ARG(256). -/
def adaptSpec (f : FreqModel) : Except Raise HuffSpec := do
  let freq := f.toList.map BitVec.toNat
  require ((freq.take 256).any (· ≠ 0)) (.badArg, 256)
  let size := codeSize (freq.set 256 1)
  let bits ← countBits size
  let bits := adjustBits bits
  return { counts := Vector.ofFn fun i : Fin 16 => BitVec.ofNat 8 (bits.getD (i.val + 1) 0), syms := sortInput size }

/-- The checks and the whole computation of HT_ADAPT, all before any state is written (42_huffman.md R167). -/
def State.htAdaptChecks (s : State) (tc th : Byte) : Except Raise ((TableClass × Fin 4) × HuffTable) := do
  let f ← tableFields tc th
  let p ← adaptSpec (s.freq f.1 f.2)
  let t ← buildTable p
  return (f, t)

/-- HT_ADAPT tc, th (42_huffman.md R167). -/
def execHtAdapt (tc th : Byte) (s : State) : Result :=
  .next <| s.checked (.htAdapt tc th) (s.htAdaptChecks tc th) fun x =>
    { ((s.setTable x.1.1 x.1.2 x.2).setValid (tableBit x.1.1 x.1.2) true).setFreq x.1.1 x.1.2 FreqModel.cleared with
      res0 := BitVec.ofNat 32 x.2.spec.syms.length }.finish false

end Sys2Proof.Machine
end

