-- ==== Sys2Proof/Machine/Coefficient.lean ====
section
/-! DEFINITION. The coefficient codec: sign extension, categories, block decode and encode, the dry pass
(43_coefficient.md). -/

namespace Sys2Proof.Machine

/-! ### Scalar mappings (43_coefficient.md R193 to R195) -/

/-- `extend(e, t)` (43_coefficient.md R193). -/
def extend (e t : Nat) : Int :=
  if t = 0 then 0 else if e < 2 ^ (t - 1) then (e : Int) - 2 ^ t + 1 else e

/-- `cat(c) = bitlen(|c|)` (43_coefficient.md R194). -/
def cat (c : Int) : Nat := bitlen c.natAbs

/-- `extra(c, t)` with `t = cat(c)` (43_coefficient.md R195). -/
def extra (c : Int) (t : Nat) : Nat := if 0 < c then c.toNat else ((c - 1) % 2 ^ t).toNat

/-- The zig-zag order `ZZ[k]` (43_coefficient.md R192). -/
def zigzag : Vector (Fin 64) 64 :=
  #v[0, 1, 8, 16, 9, 2, 3, 10,
     17, 24, 32, 25, 18, 11, 4, 5,
     12, 19, 26, 33, 40, 48, 41, 34,
     27, 20, 13, 6, 7, 14, 21, 28,
     35, 42, 49, 56, 57, 50, 43, 36,
     29, 22, 15, 23, 30, 37, 44, 51,
     58, 59, 52, 45, 38, 31, 39, 46,
     53, 60, 61, 54, 47, 55, 62, 63]

/-- A mathematical integer reduced modulo 2^32: a register value, or FAULT_INFO (60_exceptions.md R311). -/
def toWord (z : Int) : Word := BitVec.ofInt 32 z

/-! ### Reading a block (43_coefficient.md R197) -/

/-- The outcome of `decode_block` (43_coefficient.md R197). -/
inductive BlockRead where
  | boundary (r : Reader)
  | block (blk : Vector Word 64) (dc : Word) (k : Nat) (segEnd : Bool) (r : Reader)
  | fail (f : Raise)
  deriving DecidableEq, Repr

/-- BAD_SYMBOL with the symbol (43_coefficient.md R197). -/
def badSymbol (sym : Byte) : Raise := (.badSymbol, sym.setWidth 32)

/-- The AC loop of `decode_block` at zig-zag position `k` (43_coefficient.md R197). Each pass that goes on moves `k` forward,
so 64 passes suffice from `k = 1`. -/
def acLoop (m : Memory) (slots : List Slot) (dc : Word) :
    (fuel : Nat) → (k : Nat) → Vector Word 64 → Reader → BlockRead
  | 0, k, blk, r => .block blk dc k false r
  | fuel + 1, k, blk, r =>
    if 63 < k then .block blk dc k false r
    else
      match readCode m slots 16 r with
      | .fail f => .fail f
      | .noMore r' => .block blk dc k true r'
      | .got rs r' =>
        let run := rs.toNat / 16
        let size := rs.toNat % 16
        if size = 0 then
          if run = 0 then .block blk dc k false r'
          else if run = 15 then
            if 64 < k + 16 then .fail (badSymbol rs) else acLoop m slots dc fuel (k + 16) blk r'
          else .fail (badSymbol rs)
        else if h : k + run < 64 then
          match getBits m size r' with
          | .fail f => .fail f
          | .noMore r'' => .block blk dc (k + run) true r''
          | .got e r'' =>
            let i := zigzag[k + run]
            acLoop m slots dc fuel (k + run + 1) (blk.set i.val (toWord (extend e size)) i.isLt) r''
        else .fail (badSymbol rs)

/-- `decode_block(c, td, ta)` (43_coefficient.md R197) with the DC table, the AC table and the prediction `pred(c)`. -/
def decodeBlock (m : Memory) (dcSlots acSlots : List Slot) (pred : Int) (r : Reader) : BlockRead :=
  match readCode m dcSlots 16 r with
  | .fail f => .fail f
  | .noMore r' => .boundary r'
  | .got t r' =>
    if 15 < t.toNat then .fail (badSymbol t)
    else
      match getBits m t.toNat r' with
      | .fail f => .fail f
      | .noMore r'' => .boundary r''
      | .got e r'' =>
        let dc := pred + extend e t.toNat
        if dc < -2 ^ 31 ∨ 2 ^ 31 - 1 < dc then .fail (.coefRange, toWord dc)
        else acLoop m acSlots (toWord dc) 64 1 ((Vector.replicate 64 0).set 0 (toWord dc)) r''

/-! ### The symbols of a block (43_coefficient.md R198) -/

/-- One item of `symbols(B, p)`: class, symbol, extra bits and their number. -/
structure Item where
  cls : TableClass
  sym : Byte
  ebits : Nat
  nbits : Nat
  deriving DecidableEq, Repr

/-- ZRL, sixteen zeros (43_coefficient.md R191). -/
def Item.zrl : Item := { cls := .ac, sym := 0xF0, ebits := 0, nbits := 0 }

/-- End-Of-Block (43_coefficient.md R191). -/
def Item.eob : Item := { cls := .ac, sym := 0, ebits := 0, nbits := 0 }

/-- A run/category item (43_coefficient.md R198). -/
def Item.coded (cls : TableClass) (run : Nat) (v : Int) : Item :=
  { cls := cls, sym := BitVec.ofNat 8 (run * 16 + cat v), ebits := extra v (cat v), nbits := cat v }

/-- The AC part of `symbols` over the coefficients still to code, in zig-zag order, with `run` pending zeros
(43_coefficient.md R198): End-Of-Block exactly when the last coefficient is 0, a pending run dropped. -/
def acItems : (run : Nat) → List Int → Except Raise (List Item)
  | _, [] => .ok []
  | run, v :: vs =>
    if v = 0 then
      if vs.isEmpty then .ok [Item.eob] else acItems (run + 1) vs
    else if 15 < cat v then .error (.coefRange, toWord v)
    else
      match acItems 0 vs with
      | .ok items => .ok (List.replicate (run / 16) Item.zrl ++ Item.coded .ac (run % 16) v :: items)
      | .error f => .error f

/-- The AC coefficients of a block in zig-zag order. -/
def acValues (b : Vector Word 64) : List Int :=
  (List.range 63).map fun j => (b.getD (zigzag.getD (j + 1) 0).val 0).toInt

/-- `symbols(B, p)` (43_coefficient.md R198). -/
def blockItems (b : Vector Word 64) (p : Int) : Except Raise (List Item) :=
  let d := b[0].toInt - p
  if 15 < cat d then .error (.coefRange, toWord d)
  else
    match acItems 0 (acValues b) with
    | .ok items => .ok (Item.coded .dc 0 d :: items)
    | .error f => .error f

/-! ### Commands -/

/-- CF_EXT n (43_coefficient.md R201). -/
def execCfExt (n : Byte) (s : State) : Result :=
  .next <| s.checked (.cfExt n) (countField 15 n) fun k =>
    { s with res0 := toWord (extend (s.argLow k) k) }.finish false

/-- The check of CF_CAT (43_coefficient.md R202). -/
def State.cfCatChecks (s : State) : Except Raise Int := do
  let c := s.arg[(0 : Fin 4)].toInt
  require (cat c ≤ 15) (.coefRange, s.arg[(0 : Fin 4)])
  return c

/-- CF_CAT (43_coefficient.md R202). -/
def execCfCat (s : State) : Result :=
  .next <| s.checked .cfCat s.cfCatChecks fun c =>
    { s with res0 := BitVec.ofNat 32 (cat c), res1 := BitVec.ofNat 32 (extra c (cat c)) }.finish false

/-- The checks of BLK_DEC and BLK_SKIP (43_coefficient.md R203). -/
def State.blkReadChecks (s : State) (c td ta : Byte) : Except Raise (Fin 4 × Fin 4 × Fin 4) := do
  let f ← blockFields c td ta
  s.needs (tableBit .dc f.2.1)
  s.needs (tableBit .ac f.2.2)
  s.needs brValidBit
  return f

/-- The block read of BLK_DEC and BLK_SKIP (43_coefficient.md R197). -/
def State.readBlock (s : State) (f : Fin 4 × Fin 4 × Fin 4) : BlockRead :=
  decodeBlock s.inMem (s.table .dc f.2.1).dec (s.table .ac f.2.2).dec (s.pred f.1) s.br

/-- BLK_DEC c, td, ta (43_coefficient.md R203). -/
def execBlkDec (c td ta : Byte) (s : State) : Result :=
  .next <| s.checked (.blkDec c td ta) (s.blkReadChecks c td ta) fun f =>
    match s.readBlock f with
    | .boundary r => { s with br := r, res0 := 0 }.finish true
    | .block blk dc k seg r => ({ s with br := r, blkI := blk, res0 := BitVec.ofNat 32 k }.setPred f.1 dc).finish seg
    | .fail e => ((s.drawReader.drawRes0.drawBlkI).drawPred f.1).raiseMid (.blkDec c td ta) e

/-- BLK_SKIP c, td, ta (43_coefficient.md R207): the null sink; BLK_I, R0 and R1 are not written. -/
def execBlkSkip (c td ta : Byte) (s : State) : Result :=
  .next <| s.checked (.blkSkip c td ta) (s.blkReadChecks c td ta) fun f =>
    match s.readBlock f with
    | .boundary r => { s with br := r }.finish true
    | .block _ dc _ seg r => ({ s with br := r }.setPred f.1 dc).finish seg
    | .fail e => (s.drawReader.drawPred f.1).raiseMid (.blkSkip c td ta) e

/-- The encode table of an item's class. -/
def encOf (dcEnc acEnc : Vector EncEntry 256) (cls : TableClass) : Vector EncEntry 256 :=
  match cls with
  | .dc => dcEnc
  | .ac => acEnc

/-- The first item without a code is NO_CODE(sym) (43_coefficient.md R204). -/
def haveCodes (dcEnc acEnc : Vector EncEntry 256) : List Item → Except Raise Unit
  | [] => .ok ()
  | it :: items => do
    require ((encOf dcEnc acEnc it.cls)[it.sym.toFin].size ≠ 0) (.noCode, it.sym.setWidth 32)
    haveCodes dcEnc acEnc items

/-- The items written in order, each a code and its extra bits (43_coefficient.md R204). -/
def writeItems (dcEnc acEnc : Vector EncEntry 256) : List Item → Sink → Except Raise Sink
  | [], k => .ok k
  | it :: items, k => do
    let k ← writeCode (encOf dcEnc acEnc it.cls) it.sym k
    let k ← putBits it.ebits it.nbits k
    writeItems dcEnc acEnc items k

/-- The checks of BLK_ENC, all before any bit is written (43_coefficient.md R204). -/
def State.blkEncChecks (s : State) (c td ta : Byte) : Except Raise ((Fin 4 × Fin 4 × Fin 4) × List Item) := do
  let f ← blockFields c td ta
  s.needs (tableBit .dc f.2.1)
  s.needs (tableBit .ac f.2.2)
  s.needs bwValidBit
  let items ← blockItems s.blkI (s.pred f.1)
  haveCodes (s.table .dc f.2.1).enc (s.table .ac f.2.2).enc items
  return (f, items)

/-- BLK_ENC c, td, ta (43_coefficient.md R204). -/
def execBlkEnc (c td ta : Byte) (s : State) : Result :=
  .next <| s.checked (.blkEnc c td ta) (s.blkEncChecks c td ta) fun x =>
    match writeItems (s.table .dc x.1.2.1).enc (s.table .ac x.1.2.2).enc x.2 s.sink with
    | .ok k => ((s.setSink k).setPred x.1.1 s.blkI[0]).finish false
    | .error e => (s.drawWriter.drawPred x.1.1).raiseMid (.blkEnc c td ta) e

/-- The items counted in order in a DC and an AC model (43_coefficient.md R205). -/
def countItems : List Item → FreqModel → FreqModel → Except Raise (FreqModel × FreqModel)
  | [], d, a => .ok (d, a)
  | it :: items, d, a =>
    match it.cls with
    | .dc =>
      match countSymbol d it.sym with
      | .ok d' => countItems items d' a
      | .error e => .error e
    | .ac =>
      match countSymbol a it.sym with
      | .ok a' => countItems items d a'
      | .error e => .error e

/-- The checks of BLK_DRY (43_coefficient.md R205; COEF_RANGE is a pre-check fault, 90_conflicts.md C9). -/
def State.blkDryChecks (s : State) (c td ta : Byte) : Except Raise ((Fin 4 × Fin 4 × Fin 4) × List Item) := do
  let f ← blockFields c td ta
  let items ← blockItems s.blkI (s.pred f.1)
  return (f, items)

/-- BLK_DRY c, td, ta (43_coefficient.md R205). -/
def execBlkDry (c td ta : Byte) (s : State) : Result :=
  .next <| s.checked (.blkDry c td ta) (s.blkDryChecks c td ta) fun x =>
    match countItems x.2 (s.freq .dc x.1.2.1) (s.freq .ac x.1.2.2) with
    | .ok m => (((s.setFreq .dc x.1.2.1 m.1).setFreq .ac x.1.2.2 m.2).setPred x.1.1 s.blkI[0]).finish false
    | .error e => ((s.drawFreq x.1.2.1 x.1.2.2).drawPred x.1.1).raiseMid (.blkDry c td ta) e

/-- DC_RST (43_coefficient.md R206). -/
def execDcRst (s : State) : Result := .next (s.clearPreds.finish false)

end Sys2Proof.Machine
end

