-- ==== Sys2Proof/Machine/Lj92.lean ====
section
/-! DEFINITION. The lossless-JPEG (LJ92) decoder: session, lookup table, prediction, reconstruction, linearisation
(45_lj92.md). -/

namespace Sys2Proof.Machine

/-! ### Session (45_lj92.md R252) -/

/-- The parsed header fields of LJ_SETUP, from A0 and A1 (45_lj92.md R252). -/
structure LjHeader where
  x : Nat
  y : Nat
  p : Nat
  nf : Nat
  ns : Nat
  ss : Nat
  pt : Nat
  deriving DecidableEq, Repr

/-- The operand layout of LJ_SETUP (45_lj92.md R252). -/
def State.ljHeader (s : State) : LjHeader :=
  let a0 := s.arg[(0 : Fin 4)]
  let a1 := s.arg[(1 : Fin 4)]
  { x := (a0.extractLsb' 0 16).toNat, y := (a0.extractLsb' 16 16).toNat
    p := (a1.extractLsb' 0 8).toNat, nf := (a1.extractLsb' 8 8).toNat, ns := (a1.extractLsb' 16 8).toNat
    ss := (a1.extractLsb' 24 4).toNat, pt := (a1.extractLsb' 28 4).toNat }

/-- The checks of LJ_SETUP, in their order (45_lj92.md R252). -/
def State.ljSetupChecks (s : State) : Except Raise LjHeader := do
  let h := s.ljHeader
  require (h.x ≠ 0 && h.y ≠ 0) (.ljBadFormat, 1)
  require (2 ≤ h.p && h.p ≤ 16) (.ljBadFormat, 2)
  require (1 ≤ h.nf && h.nf ≤ 4) (.ljBadFormat, 3)
  require (h.ns = h.nf) (.ljBadFormat, 4)
  require (h.ss ≤ 7) (.ljBadFormat, 5)
  require (h.ss ≠ 0) (.unsupported, 0x100)
  require (h.pt = 0) (.unsupported, 0x200 ||| BitVec.ofNat 32 h.pt)
  require (s.argNat 3 ≤ 31) (.badArg, s.arg[(3 : Fin 4)])
  require (h.x * h.y * h.nf = s.argNat 2) (.ljMismatch, 1)
  require (h.p = s.argNat 3) (.ljMismatch, 2)
  return h

/-- LJ_SETUP (45_lj92.md R252). The MAXBITS field is unchanged. -/
def execLjSetup (s : State) : Result :=
  .next <| s.checked .ljSetup s.ljSetupChecks fun h =>
    ({ s with
      lj := { s.lj with
        x := BitVec.ofNat 16 h.x, y := BitVec.ofNat 16 h.y, bits := BitVec.ofNat 5 h.p, nc := BitVec.ofNat 3 h.nf
        ss := BitVec.ofNat 3 h.ss, pt := 0 }
      res0 := BitVec.ofNat 32 (h.x * h.y * h.nf) }.setValid ljSetBit true).finish false

/-! ### Huffman lookup (45_lj92.md R253, R254) -/

/-- MAXBITS: the largest i with L[i] > 0, 0 if none (45_lj92.md R253). -/
def HuffSpec.maxBits (p : HuffSpec) : Nat :=
  (((List.range 16).filter fun i => 0 < p.lengths.getD i 0).getLast?.map (· + 1)).getD 0

/-- Entry `w` of the lookup table: the slot whose code is a leading part of the window `w` (45_lj92.md R253). Prefix-free
codes write no entry twice. -/
def lutEntry (slots : List Slot) (maxBits w : Nat) : LutEntry :=
  match slots.find? fun k =>
    k.code.toNat * 2 ^ (maxBits - k.size.toNat) ≤ w && w < (k.code.toNat + 1) * 2 ^ (maxBits - k.size.toNat) with
  | some k => { sym := k.sym, len := k.size }
  | none => { sym := 0, len := 0 }

/-- `lj.LUT` (45_lj92.md R253): 2^MAXBITS entries. -/
def buildLut (slots : List Slot) (maxBits : Nat) : List LutEntry :=
  (List.range (2 ^ maxBits)).map (lutEntry slots maxBits)

/-- The checks of LJ_HT_LOAD and the slots of the table (45_lj92.md R261). -/
def State.ljHtLoadChecks (s : State) : Except Raise (HuffSpec × List Slot) := do
  let p ← s.loadSpec
  let slots ← buildSlots p
  return (p, slots)

/-- LJ_HT_LOAD (45_lj92.md R261). -/
def execLjHtLoad (s : State) : Result :=
  .next <| s.checked .ljHtLoad s.ljHtLoadChecks fun x =>
    ({ s with
      lj := { s.lj with
        spec := x.1, maxBits := BitVec.ofNat 5 x.1.maxBits, lut := buildLut x.2 x.1.maxBits }
      res0 := BitVec.ofNat 32 (16 + x.1.syms.length) }.setValid ljHtBit true).finish false

/-- The slots (SIZE, CODE, V) of the session's table; a table that LJ_HT_LOAD accepted always has them. -/
def LjSession.slots (lj : LjSession) : List Slot :=
  match buildSlots lj.spec with
  | .ok slots => slots
  | .error _ => []

/-- TRUNCATED with BR_POS (45_lj92.md R254, 90_conflicts.md C8). -/
def truncatedAt (r : Reader) : Raise := (.truncated, r.pos)

/-- A bit read of the LJ92 path: NoMoreData is the fault TRUNCATED (45_lj92.md R254). -/
def ljRead {α : Type} (x : Bits α) : Except Raise (α × Reader) :=
  match x with
  | .got v r => .ok (v, r)
  | .noMore r => .error (truncatedAt r)
  | .fail f => .error f

/-- `lj_symbol()` (45_lj92.md R254), defined bit-serially. -/
def ljSymbol (m : Memory) (slots : List Slot) (maxBits : Nat) (r : Reader) : Except Raise (Byte × Reader) :=
  ljRead (readCode m slots maxBits r)

/-- `lj_diff()` (45_lj92.md R255). -/
def ljDiff (m : Memory) (slots : List Slot) (maxBits : Nat) (r : Reader) : Except Raise (Int × Reader) :=
  match ljSymbol m slots maxBits r with
  | .error f => .error f
  | .ok (t, r') =>
    if t = 0 then .ok (0, r')
    else if t.toNat ≤ 15 then
      match ljRead (getBits m t.toNat r') with
      | .error f => .error f
      | .ok (e, r'') => .ok (extend e t.toNat, r'')
    else if t = 16 then .ok (32768, r')
    else .error (badSymbol t)

/-! ### Prediction and reconstruction (45_lj92.md R256 to R260) -/

/-- `asr1(x) = floor(x / 2)` (00_scope.md R8). -/
def asr1 (x : Int) : Int := x / 2

/-- The predictors (45_lj92.md R256): a left, b above, c above-left. -/
def predictor (ss : Nat) (a b c : Int) : Int :=
  match ss with
  | 1 => a
  | 2 => b
  | 3 => c
  | 4 => a + b - c
  | 5 => a + asr1 (b - c)
  | 6 => b + asr1 (a - c)
  | 7 => asr1 (a + b)
  | _ => Config.noPredictor a b c

/-- The sample at index `i` of a row cache, as an integer. -/
def rowSample (row : List Sample) (i : Nat) : Int := (row.getD i 0).toNat

/-- The prediction of the sample at index `p = col·NC + c` of a row (45_lj92.md R257). -/
def prediction (lj : LjSession) (row p : Nat) (cur prev : List Sample) : Int :=
  let nc := lj.nc.toNat
  if p < nc then
    if row = 0 then 2 ^ (lj.bits.toNat - 1) else rowSample prev p
  else if row = 0 then rowSample cur (p - nc)
  else predictor lj.ss.toNat (rowSample cur (p - nc)) (rowSample prev p) (rowSample prev (p - nc))

/-- The value written for sample `v` (45_lj92.md R260). -/
def linearise (lj : LjSession) (linEn : Bool) (v : Sample) : Except Raise Sample :=
  if linEn then
    match lj.lin[v.toNat]? with
    | some o => .ok o
    | none => .error (.linRange, v.setWidth 32)
  else .ok v

/-- What LJ_DECODE reads besides the stream: the session, VALID.LIN_EN, the table's slots, IN and the output address. -/
structure LjJob where
  lj : LjSession
  linEn : Bool
  slots : List Slot
  inp : Memory
  dest : Nat
  deriving DecidableEq, Repr

/-- The running state of LJ_DECODE: the reader, the row caches and OUT. -/
structure LjRun where
  r : Reader
  cur : List Sample
  prev : List Sample
  out : Memory
  deriving DecidableEq, Repr

/-- Samples per row, X·NC. -/
def LjSession.rowLength (lj : LjSession) : Nat := lj.x.toNat * lj.nc.toNat

/-- One sample at row `row`, index `p` of the row (45_lj92.md R263). The output index is `row·X·NC + p` (45_lj92.md R259). -/
def ljSample (j : LjJob) (row p : Nat) (t : LjRun) : Except Raise LjRun :=
  match ljDiff j.inp j.slots j.lj.maxBits.toNat t.r with
  | .error f => .error f
  | .ok (d, r) =>
    let v : Sample := BitVec.ofInt 16 (prediction j.lj row p t.cur t.prev + d)
    match linearise j.lj j.linEn v with
    | .error f => .error f
    | .ok o =>
      .ok { r := r, cur := t.cur ++ [v], prev := t.prev
            out := t.out.setSamples (j.dest + 2 * (row * j.lj.rowLength + p)) [o] }

/-- The `n` remaining samples of a row, from index `p` (45_lj92.md R259). -/
def ljRow (j : LjJob) (row : Nat) : (n p : Nat) → LjRun → Except Raise LjRun
  | 0, _, t => .ok t
  | n + 1, p, t =>
    match ljSample j row p t with
    | .error f => .error f
    | .ok t' => ljRow j row n (p + 1) t'

/-- The `n` remaining rows, from row `row`; at the end of a row `lj.prev <- lj.cur` (45_lj92.md R259). -/
def ljRows (j : LjJob) : (n row : Nat) → LjRun → Except Raise LjRun
  | 0, _, t => .ok t
  | n + 1, row, t =>
    match ljRow j row j.lj.rowLength 0 { t with cur := [] } with
    | .error f => .error f
    | .ok t' => ljRows j n (row + 1) { t' with prev := t'.cur }

/-! ### Commands -/

/-- The checks of LJ_LIN_LOAD and the table (45_lj92.md R262). -/
def State.ljLinLoadChecks (s : State) : Except Raise (List Sample) := do
  let n := s.argNat 1
  require (n ≤ 65536) (.badArg, s.arg[(1 : Fin 4)])
  require (n = 0 || s.argNat 0 + 2 * n ≤ s.params.inSize) (.ioRead, s.inSizeInfo)
  return (List.range n).map fun i => s.inMem.rd16le (s.argNat 0 + 2 * i)

/-- LJ_LIN_LOAD (45_lj92.md R262): count 0 empties the table and clears LIN_EN. -/
def execLjLinLoad (s : State) : Result :=
  .next <| s.checked .ljLinLoad s.ljLinLoadChecks fun t =>
    ({ s with lj := { s.lj with lin := t } }.setValid linEnBit (s.argNat 1 ≠ 0)).finish false

/-- The number of samples of the image, X·Y·NC (45_lj92.md R263). -/
def LjSession.total (lj : LjSession) : Nat := lj.x.toNat * lj.y.toNat * lj.nc.toNat

/-- The checks of LJ_DECODE (45_lj92.md R251, R263). -/
def State.ljDecodeChecks (s : State) : Except Raise Unit := do
  s.needs ljSetBit
  s.needs ljHtBit
  s.needs brValidBit
  require (s.argNat 0 + 2 * s.lj.total ≤ s.params.outSize) (.ioWrite, s.outSizeInfo)

/-- What LJ_DECODE works from. -/
def State.ljJob (s : State) : LjJob :=
  { lj := s.lj, linEn := s.isValid linEnBit, slots := s.lj.slots, inp := s.inMem, dest := s.argNat 0 }

/-- The whole image (45_lj92.md R263). -/
def State.ljImage (s : State) : Except Raise LjRun :=
  ljRows s.ljJob s.lj.y.toNat 0 { r := s.br, cur := s.lj.cur, prev := s.lj.prev, out := s.outMem }

/-- LJ_DECODE (45_lj92.md R263). A fault during decoding leaves the reader, R0, the row caches and the OUT range
unspecified (60_exceptions.md R312). -/
def execLjDecode (s : State) : Result :=
  .next <| s.checked .ljDecode s.ljDecodeChecks fun _ =>
    match s.ljImage with
    | .error f =>
      (((s.drawReader.drawRes0).drawRows s.lj.rowLength).drawOut (s.argNat 0) (2 * s.lj.total)).raiseMid .ljDecode f
    | .ok t =>
      { s with
        br := t.r, outMem := t.out, lj := { s.lj with cur := t.cur, prev := t.prev }
        res0 := BitVec.ofNat 32 s.lj.total }.finish false

end Sys2Proof.Machine
end

