-- ==== Sys2Proof/Machine/System.lean ====
section
/-! DEFINITION. The system commands NOP and SRESET (40_system.md). -/

namespace Sys2Proof.Machine

/-- NOP (40_system.md R110). -/
def execNop (s : State) : Result := .next (s.finish false)

/-- SRESET (40_system.md R111): the reset state, IN and OUT unchanged; the only way out of the fault state
(60_exceptions.md R330). -/
def execSreset (s : State) : Result := .next s.coreReset

end Sys2Proof.Machine
end

