-- ==== Sys2Proof/Machine/Transform.lean ====
section
/-! DEFINITION. The block transform engine: quantisation tables, dequantise, quantise, the two-dimensional transforms, the
level shift (44_transform.md). -/

namespace Sys2Proof.Machine

/-! ### Transforms over a numerics record (44_transform.md R224 to R228) -/

/-- `Σ_{j=0..7} term j`, added in increasing j starting from `term 0` (44_transform.md R224). -/
def sum8 {F : Type} (n : Numerics F) (term : Nat → F) : F :=
  (List.range 7).foldl (fun acc j => n.add acc (term (j + 1))) (term 0)

/-- `fwd1(t)[u] = Σ_x basis(u, x)·t[x]` (44_transform.md R224). -/
def fwd1 {F : Type} (n : Numerics F) (t : Nat → F) (u : Nat) : F :=
  sum8 n fun x => n.mul (n.basis u x) (t x)

/-- `inv1(T)[x] = Σ_u basis(u, x)·T[u]` (44_transform.md R225). -/
def inv1 {F : Type} (n : Numerics F) (t : Nat → F) (x : Nat) : F :=
  sum8 n fun u => n.mul (n.basis u x) (t u)

/-- Element `8·r + c` of a block. -/
def at8 {F : Type} (v : Vector F 64) (r c : Nat) : F :=
  v[(8 * r + c) % 64]'(Nat.mod_lt _ (by decide))

/-- A one-dimensional transform of every row. -/
def onRows {F : Type} (f : (Nat → F) → Nat → F) (v : Vector F 64) : Vector F 64 :=
  Vector.ofFn fun i : Fin 64 => f (at8 v (i.val / 8)) (i.val % 8)

/-- A one-dimensional transform of every column. -/
def onCols {F : Type} (f : (Nat → F) → Nat → F) (v : Vector F 64) : Vector F 64 :=
  Vector.ofFn fun i : Fin 64 => f (fun r => at8 v r (i.val % 8)) (i.val / 8)

/-- `fdct2(s)`, rows first (44_transform.md R226). -/
def fdct2 {F : Type} (n : Numerics F) (v : Vector F 64) : Vector F 64 := onCols (fwd1 n) (onRows (fwd1 n) v)

/-- `idct2(S)`, rows first (44_transform.md R226). -/
def idct2 {F : Type} (n : Numerics F) (v : Vector F 64) : Vector F 64 := onCols (inv1 n) (onRows (inv1 n) v)

/-- `deq(I, Q)[i] = of_int(I[i]·Q[i])` (44_transform.md R227). -/
def deq {F : Type} (n : Numerics F) (b : Vector Word 64) (q : Vector Sample 64) : Vector F 64 :=
  Vector.ofFn fun i : Fin 64 => n.ofInt (b[i].toInt * q[i].toNat)

/-- `qnt(F, Q)[i] = quant(F[i], Q[i])` (44_transform.md R228). -/
def qnt {F : Type} (n : Numerics F) (v : Vector F 64) (q : Vector Sample 64) : Vector Int 64 :=
  Vector.ofFn fun i : Fin 64 => n.quant v[i] q[i].toNat

/-- `clamp(x, lo, hi)` (00_scope.md R8). -/
def clamp (x lo hi : Int) : Int := if x < lo then lo else if hi < x then hi else x

/-! ### Commands -/

/-- The 64 entries of a quantisation table payload at IN address `a`, in zig-zag order (30_encoding.md R96). -/
def qtEntries (m : Memory) (a : Nat) (pq : Bool) : Vector Sample 64 :=
  Vector.ofFn fun k : Fin 64 => if pq then m.rd16be (a + 2 * k.val) else (m.inByte (a + k.val)).setWidth 16

/-- The place of natural index `i` in the zig-zag order: the `k` with `ZZ[k] = i`. -/
def zigzagPlace (i : Fin 64) : Fin 64 :=
  ((List.finRange 64).find? fun k => zigzag[k] = i).getD 0

/-- The length of a quantisation payload, `64·(1 + pq)` (44_transform.md R235). -/
def qtLength (pq : Bool) : Nat := if pq then 128 else 64

/-- The checks of QT_LOAD, all before the table is written (44_transform.md R235). -/
def State.qtLoadChecks (s : State) (pq tq : Byte) : Except Raise (Fin 4 × QTable) := do
  let p ← precisionField pq
  let t ← indexField tq
  require (s.argNat 0 + qtLength p ≤ s.params.inSize) (.ioRead, s.inSizeInfo)
  let e := qtEntries s.inMem (s.argNat 0) p
  require (e.toList.all (· ≠ 0)) (.badTable, 5)
  return (t, { q := Vector.ofFn fun i => e[zigzagPlace i], pq := p })

/-- QT_LOAD pq, tq (44_transform.md R235). -/
def execQtLoad (pq tq : Byte) (s : State) : Result :=
  .next <| s.checked (.qtLoad pq tq) (s.qtLoadChecks pq tq) fun x =>
    ({ s with
      qt := s.qt.set x.1.val x.2 x.1.isLt
      res0 := BitVec.ofNat 32 (qtLength x.2.pq) }.setValid (quantBit x.1) true).finish false

/-- The checks of DEQUANT and QUANT that name the table (44_transform.md R236, R237). -/
def State.quantTable (s : State) (tq : Byte) : Except Raise QTable := do
  let t ← indexField tq
  s.needs (quantBit t)
  return s.qt[t]

/-- DEQUANT tq (44_transform.md R236). -/
def execDequant (tq : Byte) (s : State) : Result :=
  .next <| s.checked (.dequant tq) (s.quantTable tq) fun t =>
    { s with blkF := deq s.num s.blkI t.q }.finish false

/-- A quantised value fits signed 32 bits (44_transform.md R237). -/
def fits32 (z : Int) : Bool := -2 ^ 31 ≤ z && z ≤ 2 ^ 31 - 1

/-- The checks of QUANT: the first result outside 32 bits is COEF_RANGE with its index (44_transform.md R237). -/
def State.quantChecks (s : State) (tq : Byte) : Except Raise (Vector Int 64) := do
  let t ← s.quantTable tq
  let z := qnt s.num s.blkF t.q
  match z.toList.findIdx? (fun v => !fits32 v) with
  | some i => .error (.coefRange, BitVec.ofNat 32 i)
  | none => .ok z

/-- QUANT tq (44_transform.md R237). -/
def execQuant (tq : Byte) (s : State) : Result :=
  .next <| s.checked (.quant tq) (s.quantChecks tq) fun z =>
    { s with blkI := Vector.ofFn fun i : Fin 64 => toWord z[i] }.finish false

/-- IDCT (44_transform.md R238). -/
def execIdct (s : State) : Result := .next ({ s with blkF := idct2 s.num s.blkF }.finish false)

/-- FDCT (44_transform.md R239). -/
def execFdct (s : State) : Result := .next ({ s with blkF := fdct2 s.num s.blkF }.finish false)

/-- The sample of PIX_OUT (44_transform.md R240): the level shift added after rounding, then the clamp. -/
def pixOut {F : Type} (n : Numerics F) (p : Nat) (f : F) : Sample :=
  BitVec.ofInt 16 (clamp (n.round f + 2 ^ (p - 1)) 0 (2 ^ p - 1))

/-- PIX_OUT (44_transform.md R240). -/
def execPixOut (s : State) : Result :=
  .next <| s.checked .pixOut s.precision fun p =>
    { s with blkP := Vector.ofFn fun i : Fin 64 => pixOut s.num p s.blkF[i] }.finish false

/-- The value of PIX_IN (44_transform.md R241): the level shift subtracted. -/
def pixIn {F : Type} (n : Numerics F) (p : Nat) (v : Sample) : F := n.ofInt ((v.toNat : Int) - 2 ^ (p - 1))

/-- PIX_IN (44_transform.md R241). -/
def execPixIn (s : State) : Result :=
  .next <| s.checked .pixIn s.precision fun p =>
    { s with blkF := Vector.ofFn fun i : Fin 64 => pixIn s.num p s.blkP[i] }.finish false

end Sys2Proof.Machine
end

