-- ==== Sys2Proof/Machine/Unpack.lean ====
section
/-! DEFINITION. The bit-unpacking kernels (46_unpack.md). -/

namespace Sys2Proof.Machine

/-- A byte as a 16-bit value. -/
def wide (b : Byte) : Sample := b.setWidth 16

/-- A 12-bit group of 3 bytes (46_unpack.md R292). -/
def group12 (b : Nat → Byte) : List Sample :=
  [(wide (b 0) <<< 4) ||| (wide (b 1) >>> 4),
   ((wide (b 1) &&& 0x0F) <<< 8) ||| wide (b 2)]

/-- A 14-bit group of 7 bytes (46_unpack.md R293). -/
def group14 (b : Nat → Byte) : List Sample :=
  [(wide (b 0) <<< 6) ||| (wide (b 1) >>> 2),
   ((wide (b 1) &&& 0x03) <<< 12) ||| (wide (b 2) <<< 4) ||| (wide (b 3) >>> 4),
   ((wide (b 3) &&& 0x0F) <<< 10) ||| (wide (b 4) <<< 2) ||| (wide (b 5) >>> 6),
   ((wide (b 5) &&& 0x3F) <<< 8) ||| wide (b 6)]

/-- A 10-bit group of 5 bytes (46_unpack.md R294). -/
def group10 (b : Nat → Byte) : List Sample :=
  [(wide (b 0) <<< 2) ||| (wide (b 1) >>> 6),
   ((wide (b 1) &&& 0x3F) <<< 4) ||| (wide (b 2) >>> 4),
   ((wide (b 2) &&& 0x0F) <<< 6) ||| (wide (b 3) >>> 2),
   ((wide (b 3) &&& 0x03) <<< 8) ||| wide (b 4)]

/-- The checks common to the four commands, for groups of `g` bytes holding `k` samples (46_unpack.md R296); `pre` is the
number of bytes that must be readable before the data. Answers the number of groups. -/
def State.unpackChecks (s : State) (g k pre : Nat) : Except Raise Nat := do
  require (s.argNat 1 % g = 0) (.badArg, s.arg[(1 : Fin 4)])
  require (pre ≤ s.argNat 0) (.ioRead, s.arg[(0 : Fin 4)])
  require (s.argNat 0 + s.argNat 1 ≤ s.params.inSize) (.ioRead, s.inSizeInfo)
  require (s.argNat 2 + 2 * (s.argNat 1 / g * k) ≤ s.params.outSize) (.ioWrite, s.outSizeInfo)
  return s.argNat 1 / g

/-- The samples of `n` groups of `g` bytes from IN address `a` up (46_unpack.md R291). -/
def unpackSamples (m : Memory) (a g n : Nat) (group : (Nat → Byte) → List Sample) : List Sample :=
  (List.range n).flatMap fun i => group fun j => m.inByte (a + g * i + j)

/-- The effect common to the four commands (46_unpack.md R295, R297). -/
def State.unpackWith (s : State) (g k n : Nat) (group : (Nat → Byte) → List Sample) : State :=
  { s with
    outMem := s.outMem.setSamples (s.argNat 2) (unpackSamples s.inMem (s.argNat 0) g n group)
    res0 := BitVec.ofNat 32 (n * k) }.finish false

/-- UNPACK10 (46_unpack.md R297). -/
def execUnpack10 (s : State) : Result :=
  .next <| s.checked .unpack10 (s.unpackChecks 5 4 0) fun n => s.unpackWith 5 4 n group10

/-- UNPACK12 (46_unpack.md R298). -/
def execUnpack12 (s : State) : Result :=
  .next <| s.checked .unpack12 (s.unpackChecks 3 2 0) fun n => s.unpackWith 3 2 n group12

/-- UNPACK14 (46_unpack.md R299). -/
def execUnpack14 (s : State) : Result :=
  .next <| s.checked .unpack14 (s.unpackChecks 7 4 0) fun n => s.unpackWith 7 4 n group14

/-- UNPACK12V (46_unpack.md R300): the check `A[0] < 4`, then exactly the effect of UNPACK12. -/
def execUnpack12v (s : State) : Result :=
  .next <| s.checked .unpack12v (s.unpackChecks 3 2 4) fun n => s.unpackWith 3 2 n group12

end Sys2Proof.Machine
end

