-- ==== Sys2Proof/Machine/Dispatch.lean ====
section
/-! DEFINITION. One arm per command: the execution of an accepted command (30_encoding.md R80, R84). -/

namespace Sys2Proof.Machine

def exec (i : Instr) (s : State) : Host.Outcome State Fault Refusal :=
  match i with
  | .nop => Sys2Proof.Machine.execNop s
  | .sreset => Sys2Proof.Machine.execSreset s
  | .brInit => Sys2Proof.Machine.execBrInit s
  | .brBit => Sys2Proof.Machine.execBrBit s
  | .brBits n => Sys2Proof.Machine.execBrBits n s
  | .brResync => Sys2Proof.Machine.execBrResync s
  | .bwInit => Sys2Proof.Machine.execBwInit s
  | .bwBits n => Sys2Proof.Machine.execBwBits n s
  | .bwFlush => Sys2Proof.Machine.execBwFlush s
  | .bwRst => Sys2Proof.Machine.execBwRst s
  | .htLoad tc th => Sys2Proof.Machine.execHtLoad tc th s
  | .htStore tc th => Sys2Proof.Machine.execHtStore tc th s
  | .htDec tc th => Sys2Proof.Machine.execHtDec tc th s
  | .htEnc tc th => Sys2Proof.Machine.execHtEnc tc th s
  | .fqClr tc th => Sys2Proof.Machine.execFqClr tc th s
  | .fqInc tc th => Sys2Proof.Machine.execFqInc tc th s
  | .htAdapt tc th => Sys2Proof.Machine.execHtAdapt tc th s
  | .cfExt n => Sys2Proof.Machine.execCfExt n s
  | .cfCat => Sys2Proof.Machine.execCfCat s
  | .blkDec c td ta => Sys2Proof.Machine.execBlkDec c td ta s
  | .blkSkip c td ta => Sys2Proof.Machine.execBlkSkip c td ta s
  | .blkEnc c td ta => Sys2Proof.Machine.execBlkEnc c td ta s
  | .blkDry c td ta => Sys2Proof.Machine.execBlkDry c td ta s
  | .dcRst => Sys2Proof.Machine.execDcRst s
  | .qtLoad pq tq => Sys2Proof.Machine.execQtLoad pq tq s
  | .dequant tq => Sys2Proof.Machine.execDequant tq s
  | .quant tq => Sys2Proof.Machine.execQuant tq s
  | .idct => Sys2Proof.Machine.execIdct s
  | .fdct => Sys2Proof.Machine.execFdct s
  | .pixOut => Sys2Proof.Machine.execPixOut s
  | .pixIn => Sys2Proof.Machine.execPixIn s
  | .ljSetup => Sys2Proof.Machine.execLjSetup s
  | .ljHtLoad => Sys2Proof.Machine.execLjHtLoad s
  | .ljLinLoad => Sys2Proof.Machine.execLjLinLoad s
  | .ljDecode => Sys2Proof.Machine.execLjDecode s
  | .unpack10 => Sys2Proof.Machine.execUnpack10 s
  | .unpack12 => Sys2Proof.Machine.execUnpack12 s
  | .unpack14 => Sys2Proof.Machine.execUnpack14 s
  | .unpack12v => Sys2Proof.Machine.execUnpack12v s

end Sys2Proof.Machine
end

