-- ==== Sys2Proof/Machine/Interface.lean ====
section
/-! DEFINITION. The host interface: the register map (10_state.md R22), the acceptance and decoding of a command word
(30_encoding.md R80, R86), the host's moves (00_scope.md R11), the error kinds (60_exceptions.md R315) and the
pseudo-instructions (30_encoding.md R91). -/

namespace Sys2Proof.Machine

/-! ### The register map -/

/-- The registers of the map (10_state.md R22). -/
inductive Reg where
  | cmd | status | faultCause | faultInfo | faultCmd | valid | prec
  | a (i : Fin 4)
  | r0 | r1
  | brPos | brEnd | brState | rstRd
  | bwPos | bwEnd | bwState | rstWr
  | dcp (c : Fin 4)
  | dcpv
  | ljDim | ljCfg
  | blkI (i : Fin 64)
  | blkP (i : Fin 64)
  deriving DecidableEq, Repr

/-- The byte offset of a register (10_state.md R22). -/
def Reg.offset (r : Reg) : Nat :=
  match r with
  | .cmd => 0x000
  | .status => 0x004
  | .faultCause => 0x008
  | .faultInfo => 0x00C
  | .faultCmd => 0x010
  | .valid => 0x014
  | .prec => 0x018
  | .a i => 0x020 + 4 * i.val
  | .r0 => 0x030
  | .r1 => 0x034
  | .brPos => 0x040
  | .brEnd => 0x044
  | .brState => 0x048
  | .rstRd => 0x04C
  | .bwPos => 0x050
  | .bwEnd => 0x054
  | .bwState => 0x058
  | .rstWr => 0x05C
  | .dcp c => 0x060 + 4 * c.val
  | .dcpv => 0x070
  | .ljDim => 0x080
  | .ljCfg => 0x084
  | .blkI i => 0x100 + 4 * i.val
  | .blkP i => 0x200 + 4 * i.val

/-- The register at a byte offset, if any (10_state.md R22). -/
def regAt (off : Nat) : Option Reg :=
  match off with
  | 0x000 => some .cmd
  | 0x004 => some .status
  | 0x008 => some .faultCause
  | 0x00C => some .faultInfo
  | 0x010 => some .faultCmd
  | 0x014 => some .valid
  | 0x018 => some .prec
  | 0x020 => some (.a 0)
  | 0x024 => some (.a 1)
  | 0x028 => some (.a 2)
  | 0x02C => some (.a 3)
  | 0x030 => some .r0
  | 0x034 => some .r1
  | 0x040 => some .brPos
  | 0x044 => some .brEnd
  | 0x048 => some .brState
  | 0x04C => some .rstRd
  | 0x050 => some .bwPos
  | 0x054 => some .bwEnd
  | 0x058 => some .bwState
  | 0x05C => some .rstWr
  | 0x060 => some (.dcp 0)
  | 0x064 => some (.dcp 1)
  | 0x068 => some (.dcp 2)
  | 0x06C => some (.dcp 3)
  | 0x070 => some .dcpv
  | 0x080 => some .ljDim
  | 0x084 => some .ljCfg
  | _ =>
    if off % 4 = 0 then
      if h : 0x100 ≤ off ∧ off < 0x200 then some (.blkI ⟨(off - 0x100) / 4, by omega⟩)
      else if h : 0x200 ≤ off ∧ off < 0x300 then some (.blkP ⟨(off - 0x200) / 4, by omega⟩)
      else none
    else none

/-- FAULT_CAUSE: the cause code in bits 7:0, 0 when no fault has been recorded (10_state.md R25). -/
def State.causeWord (s : State) : Word :=
  match s.faultCause with
  | none => 0
  | some c => c.code.setWidth 32

/-- BR_STATE (10_state.md R28): BUF 7:0, CNT 11:8, EOS 12, MARKER 23:16. -/
def Reader.stateWord (r : Reader) : Word :=
  (r.marker ++ (0 : BitVec 3) ++ BitVec.ofBool r.eos ++ r.cnt ++ r.buf).setWidth 32

/-- BW_STATE (10_state.md R29): BUF 7:0, CNT 10:8. -/
def Writer.stateWord (w : Writer) : Word := (w.cnt ++ w.buf).setWidth 32

/-- DCPc (10_state.md R30): the value, 0 when not set. -/
def Pred.word (p : Pred) : Word := if p.set then p.value else 0

/-- DCPV (10_state.md R30): the set bits. -/
def State.dcpvWord (s : State) : Word :=
  (BitVec.ofBool s.dcp[(3 : Fin 4)].set ++ BitVec.ofBool s.dcp[(2 : Fin 4)].set ++
    BitVec.ofBool s.dcp[(1 : Fin 4)].set ++ BitVec.ofBool s.dcp[(0 : Fin 4)].set).setWidth 32

/-- LJ_DIM (10_state.md R36): X 15:0, Y 31:16. -/
def LjSession.dimWord (lj : LjSession) : Word := lj.y ++ lj.x

/-- LJ_CFG (10_state.md R36): BITS 4:0, NC 10:8, SS 14:12, PT 19:16, MAXBITS 28:24. -/
def LjSession.cfgWord (lj : LjSession) : Word :=
  ((0 : BitVec 3) ++ lj.maxBits ++ (0 : BitVec 4) ++ lj.pt ++ (0 : BitVec 1) ++ lj.ss ++ (0 : BitVec 1) ++ lj.nc ++
    (0 : BitVec 3) ++ lj.bits).setWidth 32

/-- What a host read of a register returns (10_state.md R22: a write-only register reads 0). -/
def State.readReg (s : State) (r : Reg) : Word :=
  match r with
  | .cmd => 0
  | .status => s.statusWord
  | .faultCause => s.causeWord
  | .faultInfo => s.faultInfo
  | .faultCmd => s.faultCmd
  | .valid => s.valid.setWidth 32
  | .prec => s.prec.setWidth 32
  | .a i => s.arg[i]
  | .r0 => s.res0
  | .r1 => s.res1
  | .brPos => s.br.pos
  | .brEnd => s.br.lim
  | .brState => s.br.stateWord
  | .rstRd => s.rstRd.setWidth 32
  | .bwPos => s.bw.pos
  | .bwEnd => s.bw.lim
  | .bwState => s.bw.stateWord
  | .rstWr => s.rstWr.setWidth 32
  | .dcp c => s.dcp[c].word
  | .dcpv => s.dcpvWord
  | .ljDim => s.lj.dimWord
  | .ljCfg => s.lj.cfgWord
  | .blkI i => s.blkI[i]
  | .blkP i => s.blkP[i].setWidth 32

/-- What a host read at a byte offset returns; an offset that is not in the map reads 0 (10_state.md R22). -/
def State.readOffset (s : State) (off : Nat) : Word :=
  match regAt off with
  | none => 0
  | some r => s.readReg r

/-! ### Issuing a command -/

/-- The word of SRESET, the only one accepted in the fault state (40_system.md R111, 60_exceptions.md R316). -/
def sresetWord : Word := 0x01000000

/-- A command word written to CMD (30_encoding.md R80, R86; 60_exceptions.md R316): refused without a trace in the fault
state unless it is SRESET; ILLEGAL_CMD with the word when it does not decode; otherwise executed to completion. -/
def issue (w : Word) (s : State) : Result :=
  if s.fault && w ≠ sresetWord then .next s
  else
    match decode w with
    | .error _ => .next (s.takeFault w .illegalCmd w)
    | .ok i => exec i s

/-! ### Host moves -/

/-- A host write of a register (10_state.md R22): a write to a read-only register is ignored. Register writes work in the
fault state too. -/
def writeReg (r : Reg) (v : Word) (s : State) : Result :=
  match r with
  | .cmd => issue v s
  | .prec => .next { s with prec := v.setWidth 5 }
  | .a i => .next { s with arg := s.arg.set i.val v i.isLt }
  | .blkI i => .next { s with blkI := s.blkI.set i.val v i.isLt }
  | .blkP i => .next { s with blkP := s.blkP.set i.val (v.setWidth 16) i.isLt }
  | .status | .faultCause | .faultInfo | .faultCmd | .valid | .r0 | .r1 | .brPos | .brEnd | .brState | .rstRd
  | .bwPos | .bwEnd | .bwState | .rstWr | .dcp _ | .dcpv | .ljDim | .ljCfg => .next s

/-- A host write at a byte offset; an offset that is not in the map is ignored (10_state.md R22). -/
def writeOffset (off : Nat) (v : Word) (s : State) : Result :=
  match regAt off with
  | none => .next s
  | some r => writeReg r v s

/-- All host accesses are aligned 32-bit accesses (10_state.md R22). -/
def alignedWord (width off : Nat) : Bool := width = 32 && off % 4 = 0

/-- One move of the host (00_scope.md R11). While STATUS.BUSY = 1 no access but one
of STATUS has a meaning (20_memory.md R68); a write of STATUS is ignored as ever (10_state.md R22). Log 9. -/
def hostMove (mv : HostMove) (s : State) : Result :=
  match mv with
  | .writeReg width off v =>
    if s.busy && off ≠ Reg.status.offset then .refused .hostAccessWhileBusy
    else if alignedWord width off then writeOffset off v s
    else .refused (.registerAccess width off)
  | .readReg width off =>
    if s.busy && off ≠ Reg.status.offset then .refused .hostAccessWhileBusy
    else if alignedWord width off then .next { s with hostData := s.readOffset off }
    else .refused (.registerAccess width off)
  | .writeIn a v =>
    if s.busy then .refused .hostAccessWhileBusy
    else if a < s.params.inSize then .next { s with inMem := s.inMem.set a v }
    else .fault (.noSuchInByte a)
  | .readOut a =>
    if s.busy then .refused .hostAccessWhileBusy
    else if a < s.params.outSize then .next { s with hostData := (s.outMem.outByte a).setWidth 32 }
    else .fault (.noSuchOutByte a)
  | .reset => .next s.coreReset

/-- The next pending host move, the oldest first; with none pending the idle core holds its state (60_exceptions.md R338). -/
def nextMove (s : State) : Result :=
  match s.host with
  | [] => .next s
  | mv :: rest => hostMove mv { s with host := rest }

/-- The host write that issues a command word: an aligned 32-bit write to CMD (30_encoding.md R80). -/
def commandMove (w : Word) : HostMove := .writeReg 32 Reg.cmd.offset w

/-! ### Error kinds (60_exceptions.md R315) -/

/-- The error kinds of RP7's entry points (60_exceptions.md R315). -/
inductive ErrorKind where
  | success
  | badPath
  | badFile
  | badMetadata
  | noVideoStream
  | frameNotPresent
  | badFrame
  | badImageData
  | badFrameIndex
  | notImplemented
  deriving DecidableEq, Repr

/-- The value of an error kind (60_exceptions.md R315). -/
def ErrorKind.value (k : ErrorKind) : Nat :=
  match k with
  | .success => 0
  | .badPath => 1
  | .badFile => 2
  | .badMetadata => 3
  | .noVideoStream => 4
  | .frameNotPresent => 5
  | .badFrame => 6
  | .badImageData => 7
  | .badFrameIndex => 8
  | .notImplemented => 9

/-- The host's error kind for a recorded cause on a decode path (60_exceptions.md R315). -/
def errorKind (c : Option Cause) : ErrorKind :=
  match c with
  | none => .success
  | some .ljMismatch => .badMetadata
  | some .ioRead => .badFrame
  | some .ioWrite => .badFrame
  | some .truncated => .badFrame
  | some .unsupported => .notImplemented
  | some .badTable => .badImageData
  | some .codeNotFound => .badImageData
  | some .badSymbol => .badImageData
  | some .badMarker => .badImageData
  | some .coefRange => .badImageData
  | some .ljBadFormat => .badImageData
  | some .linRange => .badImageData
  | some .illegalCmd => .badImageData
  | some .badArg => .badImageData
  | some .notReady => .badImageData
  | some .noCode => .badImageData
  | some .adaptOverflow => .badImageData

/-! ### Pseudo-instructions (30_encoding.md R91) -/

/-- `WR Ai, v`. -/
def wrArg (i : Fin 4) (v : Word) : HostMove := .writeReg 32 (Reg.offset (.a i)) v

/-- `SETA a0, a1, a2, a3`, trailing operands omitted: the values in order. -/
def setArgs (vs : List Word) : List HostMove := List.zipWith wrArg [0, 1, 2, 3] vs

/-- `RECON tq` = `DEQUANT tq; IDCT; PIX_OUT`. -/
def recon (tq : Byte) : List HostMove :=
  [commandMove (encode (.dequant tq)), commandMove (encode .idct), commandMove (encode .pixOut)]

/-- `ANALYSE tq` = `PIX_IN; FDCT; QUANT tq`. -/
def analyse (tq : Byte) : List HostMove :=
  [commandMove (encode .pixIn), commandMove (encode .fdct), commandMove (encode (.quant tq))]

/-- `SCAN_BEGIN a0, a1` = `WR A0, a0; WR A1, a1; BR_INIT; DC_RST`. -/
def scanBegin (a0 a1 : Word) : List HostMove :=
  [wrArg 0 a0, wrArg 1 a1, commandMove (encode .brInit), commandMove (encode .dcRst)]

end Sys2Proof.Machine
end

