-- ==== Sys2Proof/Machine/Step.lean ====
section
/-! DEFINITION. One step: the next host move (00_scope.md R11; log 2). -/

namespace Sys2Proof.Machine

/-- One step of the machine: the oldest pending host move; a command it issues runs to completion (30_encoding.md R80). -/
def step (s : State) : Host.Outcome State Fault Refusal := nextMove s

/-- The state whose very next step is the host's write of this command word to CMD (log 2). -/
def State.withFetchWord (s : State) (nbits w : Nat) : State :=
  { s with host := commandMove (BitVec.ofNat 32 (w % 2 ^ nbits)) :: s.host }

end Sys2Proof.Machine
end

