-- ==== Sys2Proof/Safety.lean ====
section
/-! DEFINITION. The words in which claims about the machine are stated: its invariants, the frame of each command, bit
streams read and written, and the real numbers that the exact numbers of BLK_F stand for. Nothing here is used by the
machine. -/

namespace Sys2Proof.Machine

/-! ### Invariants -/

/-- The memories are in canonical form and list only addresses that exist (20_memory.md R60, R65). The writer's window lies
in OUT (10_state.md R29). -/
abbrev State.memoryOk (s : State) : Prop :=
  s.inMem.wf = true ∧ s.outMem.wf = true ∧ s.inMem.within s.params.inSize = true ∧
    s.outMem.within s.params.outSize = true ∧ s.bw.lim.toNat ≤ s.params.outSize

/-- The BitReader (10_state.md R28): BR_END ≤ IN_SIZE; outside the fault state the cursor is in the window, CNT is 0..8, the
undelivered bits of BUF are at the top with zeros below, and MARKER is 0 unless EOS. -/
abbrev State.readerOk (s : State) : Prop :=
  s.br.lim.toNat ≤ s.params.inSize ∧
    (s.fault = false →
      s.br.pos.toNat ≤ s.br.lim.toNat ∧ s.br.cnt.toNat ≤ 8 ∧ s.br.buf.toNat % 2 ^ (8 - s.br.cnt.toNat) = 0 ∧
        (s.br.eos = false → s.br.marker = 0))

/-- The BitWriter (10_state.md R29): BW_END ≤ OUT_SIZE; outside the fault state the cursor is in the window and the bits of
BUF above CNT are 0. -/
abbrev State.writerOk (s : State) : Prop :=
  s.bw.lim.toNat ≤ s.params.outSize ∧
    (s.fault = false → s.bw.pos.toNat ≤ s.bw.lim.toNat ∧ s.bw.buf.toNat < 2 ^ s.bw.cnt.toNat)

/-- The fault registers (10_state.md R24, R25): BUSY is 0 between commands; without a fault nothing is recorded; in the
fault state a cause is recorded and SEG_END is 0. -/
abbrev State.faultOk (s : State) : Prop :=
  s.busy = false ∧
    (s.fault = false → s.faultCause = none ∧ s.faultInfo = 0 ∧ s.faultCmd = 0) ∧
    (s.fault = true → s.faultCause ≠ none ∧ s.segEnd = false)

/-- A Huffman table whose derived forms are those of its specification (70_reset_and_hazards.md R363). -/
abbrev HuffTable.ok (t : HuffTable) : Prop := buildTable t.spec = .ok t

/-- A specification with as many symbols as its counts say (10_state.md R31). -/
abbrev HuffSpec.counted (p : HuffSpec) : Prop := p.syms.length = p.lengths.sum

/-- Every Huffman table agrees with its specification (70_reset_and_hazards.md R363). -/
abbrev State.tablesOk (s : State) : Prop := ∀ tc th, (s.table tc th).ok

/-- A loaded quantisation table has no zero entry (44_transform.md R235). -/
abbrev State.quantOk (s : State) : Prop :=
  ∀ tq : Fin 4, s.isValid (quantBit tq) = true → ∀ i : Fin 64, s.qt[tq].q[i] ≠ 0

/-- Slot 256 of a frequency model is never counted into (10_state.md R32). -/
abbrev State.sentinelOk (s : State) : Prop := ∀ tc th, (s.freq tc th)[256] = 0

/-- An unset predictor has value 0 (10_state.md R30), outside the fault state. -/
abbrev State.predsOk (s : State) : Prop :=
  s.fault = false → ∀ c : Fin 4, s.dcp[c].set = false → s.dcp[c].value = 0

/-- The LJ92 session (10_state.md R36, 45_lj92.md R252, R253, R262): once set up its fields are in their ranges; once a
table is loaded MAXBITS and LUT are those of its specification; LIN_EN says that the linearisation table is not empty. -/
abbrev State.ljOk (s : State) : Prop :=
  (s.isValid ljSetBit = true →
    1 ≤ s.lj.x.toNat ∧ 1 ≤ s.lj.y.toNat ∧ 2 ≤ s.lj.bits.toNat ∧ s.lj.bits.toNat ≤ 16 ∧ 1 ≤ s.lj.nc.toNat ∧
      s.lj.nc.toNat ≤ 4 ∧ 1 ≤ s.lj.ss.toNat ∧ s.lj.pt = 0) ∧
    (s.isValid ljHtBit = true →
      ∃ slots, buildSlots s.lj.spec = .ok slots ∧ s.lj.maxBits.toNat = s.lj.spec.maxBits ∧
        s.lj.lut = buildLut slots s.lj.spec.maxBits) ∧
    (s.isValid linEnBit = true ↔ s.lj.lin ≠ []) ∧ s.lj.lin.length ≤ 65536

/-- The states that hosts and commands can bring about, of any memory sizes and any NUM: from reset, by steps and by the host
queueing moves. -/
inductive Reachable : State → Prop where
  | reset (p : Params) (hp : p.wf) : Reachable (State.resetOf p)
  | queue (s : State) (moves : List HostMove) (h : Reachable s) : Reachable { s with host := moves }
  | step (s t : State) (h : Reachable s) (hs : Machine.step s = .next t) : Reachable t

/-! ### The command words and the register map, as the spec's tables give them -/

/-- Mask and match of every row of opcode_table.json (30_encoding.md R84, R86). -/
def opcodeRows : List (Word × Word) :=
  [(0xFFFFFFFF, 0x00000000), (0xFFFFFFFF, 0x01000000), (0xFFFFFFFF, 0x10000000), (0xFFFFFFFF, 0x11000000),
   (0xFFFFFF00, 0x12000000), (0xFFFFFFFF, 0x13000000), (0xFFFFFFFF, 0x20000000), (0xFFFFFF00, 0x21000000),
   (0xFFFFFFFF, 0x22000000), (0xFFFFFFFF, 0x23000000), (0xFFFF0000, 0x30000000), (0xFFFF0000, 0x31000000),
   (0xFFFF0000, 0x32000000), (0xFFFF0000, 0x33000000), (0xFFFF0000, 0x34000000), (0xFFFF0000, 0x35000000),
   (0xFFFF0000, 0x36000000), (0xFFFFFF00, 0x40000000), (0xFFFFFFFF, 0x41000000), (0xFF000000, 0x42000000),
   (0xFF000000, 0x43000000), (0xFF000000, 0x44000000), (0xFF000000, 0x45000000), (0xFFFFFFFF, 0x46000000),
   (0xFFFF0000, 0x50000000), (0xFFFFFF00, 0x51000000), (0xFFFFFF00, 0x52000000), (0xFFFFFFFF, 0x53000000),
   (0xFFFFFFFF, 0x54000000), (0xFFFFFFFF, 0x55000000), (0xFFFFFFFF, 0x56000000), (0xFFFFFFFF, 0x60000000),
   (0xFFFFFFFF, 0x61000000), (0xFFFFFFFF, 0x62000000), (0xFFFFFFFF, 0x63000000), (0xFFFFFFFF, 0x70000000),
   (0xFFFFFFFF, 0x71000000), (0xFFFFFFFF, 0x72000000), (0xFFFFFFFF, 0x73000000)]

/-- The illegal OP values (30_encoding.md R88), as ranges. -/
def illegalOps : List (Nat × Nat) :=
  [(0x02, 0x0F), (0x14, 0x1F), (0x24, 0x2F), (0x37, 0x3F), (0x47, 0x4F), (0x57, 0x5F), (0x64, 0x6F), (0x74, 0xFF)]

/-- The defined fields of a command in the order F1, F2, F3, each with its greatest legal value (30_encoding.md R82, R85;
CF_EXT: 43_coefficient.md R201). -/
def fieldRanges (i : Instr) : List (Byte × Nat) :=
  match i with
  | .nop | .sreset | .brInit | .brBit | .brResync | .bwInit | .bwFlush | .bwRst | .cfCat | .dcRst | .idct | .fdct
  | .pixOut | .pixIn | .ljSetup | .ljHtLoad | .ljLinLoad | .ljDecode | .unpack10 | .unpack12 | .unpack14
  | .unpack12v => []
  | .brBits n | .bwBits n => [(n, 16)]
  | .cfExt n => [(n, 15)]
  | .htLoad tc th | .htStore tc th | .htDec tc th | .htEnc tc th | .fqClr tc th | .fqInc tc th | .htAdapt tc th =>
    [(tc, 1), (th, 3)]
  | .blkDec c td ta | .blkSkip c td ta | .blkEnc c td ta | .blkDry c td ta => [(c, 3), (td, 3), (ta, 3)]
  | .qtLoad pq tq => [(pq, 1), (tq, 3)]
  | .dequant tq | .quant tq => [(tq, 3)]

/-- The bits that a host write sets in the register at a byte offset, none for an offset that is read-only or not in the map
(10_state.md R22, R27, R34); CMD is left out: a write to it issues a command. -/
def writeMask (off : Nat) : Word :=
  if off = 0x018 then 0x1F
  else if 0x020 ≤ off ∧ off ≤ 0x02C then 0xFFFFFFFF
  else if 0x100 ≤ off ∧ off < 0x200 then 0xFFFFFFFF
  else if 0x200 ≤ off ∧ off < 0x300 then 0xFFFF
  else 0

/-! ### Faults -/

/-- The causes a command can raise: the column "raised by" of 60_exceptions.md R311, by command. -/
def causesOf (i : Instr) : List Cause :=
  match i with
  | .nop | .sreset | .dcRst | .idct | .fdct => []
  | .brInit | .bwInit | .fqClr _ _ | .cfExt _ | .pixOut | .pixIn => [.badArg]
  | .brBit => [.ioRead, .notReady]
  | .brBits _ => [.badArg, .ioRead, .notReady]
  | .brResync => [.ioRead, .notReady, .badMarker]
  | .bwBits _ => [.badArg, .ioWrite, .notReady]
  | .bwFlush | .bwRst => [.ioWrite, .notReady]
  | .htLoad _ _ | .qtLoad _ _ => [.badArg, .ioRead, .badTable]
  | .htStore _ _ => [.badArg, .ioWrite, .notReady]
  | .htDec _ _ => [.badArg, .ioRead, .notReady, .codeNotFound]
  | .htEnc _ _ => [.badArg, .ioWrite, .notReady, .noCode]
  | .fqInc _ _ | .htAdapt _ _ => [.badArg, .adaptOverflow]
  | .cfCat => [.coefRange]
  | .blkDec _ _ _ | .blkSkip _ _ _ => [.badArg, .ioRead, .notReady, .codeNotFound, .badSymbol, .coefRange]
  | .blkEnc _ _ _ => [.badArg, .ioWrite, .notReady, .coefRange, .noCode]
  | .blkDry _ _ _ => [.badArg, .coefRange, .adaptOverflow]
  | .dequant _ => [.badArg, .notReady]
  | .quant _ => [.badArg, .notReady, .coefRange]
  | .ljSetup => [.badArg, .ljBadFormat, .ljMismatch, .unsupported]
  | .ljHtLoad => [.ioRead, .badTable]
  | .ljLinLoad => [.badArg, .ioRead]
  | .ljDecode => [.ioRead, .ioWrite, .notReady, .codeNotFound, .badSymbol, .truncated, .linRange]
  | .unpack10 | .unpack12 | .unpack14 | .unpack12v => [.badArg, .ioRead, .ioWrite]

/-- The command reads through the BitReader's window. -/
def usesReader (i : Instr) : Bool :=
  match i with
  | .brBit | .brBits _ | .brResync | .htDec _ _ | .blkDec _ _ _ | .blkSkip _ _ _ | .ljDecode => true
  | _ => false

/-- The command writes through the BitWriter's window. -/
def usesWriter (i : Instr) : Bool :=
  match i with
  | .bwBits _ | .bwFlush | .bwRst | .htEnc _ _ | .blkEnc _ _ _ => true
  | _ => false

/-- The fault is raised in mid-command: IO_READ or IO_WRITE through a window, CODE_NOT_FOUND, BAD_SYMBOL, BAD_MARKER,
COEF_RANGE in BLK_DEC and BLK_SKIP, ADAPT_OVERFLOW in BLK_DRY, TRUNCATED, LIN_RANGE (60_exceptions.md R312). -/
def midCommand (i : Instr) (c : Cause) : Bool :=
  match c with
  | .ioRead => usesReader i
  | .ioWrite => usesWriter i
  | .codeNotFound | .badSymbol | .badMarker | .truncated | .linRange => true
  | .coefRange => match i with | .blkDec _ _ _ | .blkSkip _ _ _ => true | _ => false
  | .adaptOverflow => match i with | .blkDry _ _ _ => true | _ => false
  | .illegalCmd | .badArg | .notReady | .badTable | .ljBadFormat | .ljMismatch | .unsupported | .noCode => false

/-- The VALID bits a command needs, in the order in which it checks them (10_state.md R26 and the command rules). -/
def neededBits (i : Instr) : List Nat :=
  match i with
  | .brBit | .brBits _ | .brResync => [15]
  | .bwBits _ | .bwFlush | .bwRst => [16]
  | .htStore tc th => [4 * tc.toNat + th.toNat]
  | .htDec tc th => [4 * tc.toNat + th.toNat, 15]
  | .htEnc tc th => [4 * tc.toNat + th.toNat, 16]
  | .blkDec _ td ta | .blkSkip _ td ta => [td.toNat, 4 + ta.toNat, 15]
  | .blkEnc _ td ta => [td.toNat, 4 + ta.toNat, 16]
  | .dequant tq | .quant tq => [8 + tq.toNat]
  | .ljDecode => [12, 13, 15]
  | .nop | .sreset | .brInit | .bwInit | .htLoad _ _ | .fqClr _ _ | .fqInc _ _ | .htAdapt _ _ | .cfExt _ | .cfCat
  | .blkDry _ _ _ | .dcRst | .qtLoad _ _ | .idct | .fdct | .pixOut | .pixIn | .ljSetup | .ljHtLoad | .ljLinLoad
  | .unpack10 | .unpack12 | .unpack14 | .unpack12v => []

/-- The VALID bits a command can set (10_state.md R26, column "set by"). -/
def setsBit (s : State) (i : Instr) (n : Nat) : Prop :=
  match i with
  | .htLoad tc th | .htAdapt tc th => n = 4 * tc.toNat + th.toNat
  | .qtLoad _ tq => n = 8 + tq.toNat
  | .ljSetup => n = 12
  | .ljHtLoad => n = 13
  | .ljLinLoad => n = 14 ∧ s.argNat 1 ≠ 0
  | .brInit => n = 15
  | .bwInit => n = 16
  | .nop | .sreset | .brBit | .brBits _ | .brResync | .bwBits _ | .bwFlush | .bwRst | .htStore _ _ | .htDec _ _
  | .htEnc _ _ | .fqClr _ _ | .fqInc _ _ | .cfExt _ | .cfCat | .blkDec _ _ _ | .blkSkip _ _ _ | .blkEnc _ _ _
  | .blkDry _ _ _ | .dcRst | .dequant _ | .quant _ | .idct | .fdct | .pixOut | .pixIn | .ljDecode | .unpack10
  | .unpack12 | .unpack14 | .unpack12v => False

/-- The command ends in the fault with this cause and this FAULT_INFO (60_exceptions.md R312). -/
def faultsWith (i : Instr) (s : State) (c : Cause) (info : Word) : Prop :=
  ∃ t, exec i s = .next t ∧ t.fault = true ∧ t.segEnd = false ∧ t.busy = false ∧ t.faultCause = some c ∧
    t.faultInfo = info ∧ t.faultCmd = encode i

/-- The family of a command: the high nibble of OP (30_encoding.md R84). -/
def family (i : Instr) : Nat := (fieldsFor i).op.toNat / 16

/-! ### Frames -/

/-- `s` with the outcome registers of `t`: STATUS, the fault registers and the model's draw counter. -/
def State.withOutcome (s t : State) : State :=
  { s with
    busy := t.busy, fault := t.fault, segEnd := t.segEnd, faultCause := t.faultCause, faultInfo := t.faultInfo
    faultCmd := t.faultCmd, draws := t.draws }

/-- Every OUT byte outside `[lo, hi)` is as before. -/
def sameOutside (m m' : Memory) (lo hi : Nat) : Prop := ∀ a, a < lo ∨ hi ≤ a → m'.get? a = m.get? a

/-- Every VALID bit but `n` is as before. -/
def sameValidBut (s t : State) (n : Nat) : Prop := ∀ m, m ≠ n → t.isValid m = s.isValid m

/-- The frame of a reader command: BR_POS, BR_STATE and R0. -/
def frameRead (s t : State) : Prop :=
  t = { s.withOutcome t with br := { t.br with lim := s.br.lim }, res0 := t.res0 }

/-- The frame of a writer command: BW_POS, BW_STATE and the OUT bytes of the window [BW_POS, BW_END). -/
def frameWrite (s t : State) : Prop :=
  t = { s.withOutcome t with bw := { t.bw with lim := s.bw.lim }, outMem := t.outMem } ∧
    sameOutside s.outMem t.outMem s.bw.pos.toNat s.bw.lim.toNat

/-- The frame of a command that replaces one Huffman table: the table, its VALID bit, R0, and the frequency model of the slot
if `withFreq`. -/
def frameTable (withFreq : Bool) (tc th : Byte) (s t : State) : Prop :=
  t = { s.withOutcome t with
        htDc := t.htDc, htAc := t.htAc, fqDc := t.fqDc, fqAc := t.fqAc, valid := t.valid, res0 := t.res0 } ∧
    (∀ c i, tableFields tc th ≠ .ok (c, i) →
      t.table c i = s.table c i ∧ t.freq c i = s.freq c i ∧ t.isValid (tableBit c i) = s.isValid (tableBit c i)) ∧
    (withFreq = false → ∀ c i, t.freq c i = s.freq c i) ∧ ∀ n, 8 ≤ n → t.isValid n = s.isValid n

/-- The frame of a command that stores `n` bytes at OUT address A[j] and writes R0. -/
def frameStore (j : Fin 4) (n : Nat) (s t : State) : Prop :=
  t = { s.withOutcome t with outMem := t.outMem, res0 := t.res0 } ∧
    sameOutside s.outMem t.outMem (s.argNat j) (s.argNat j + n)

/-- The frame of a command that writes predictor slot `c`. -/
def samePredsBut (c : Byte) (s t : State) : Prop := ∀ i : Fin 4, i.val ≠ c.toNat → t.dcp[i] = s.dcp[i]

/-- What a command may change, in whatever way it ends: the write set of its pseudocode, the outcome registers, and for a
command that stores to OUT the addresses it stores to. -/
def frame (i : Instr) (s t : State) : Prop :=
  match i with
  | .nop => t = s.withOutcome t
  | .sreset => t.params = s.params ∧ t.inMem = s.inMem ∧ t.outMem = s.outMem ∧ t.host = s.host
  | .brInit =>
    t = { s.withOutcome t with br := t.br, rstRd := t.rstRd, valid := t.valid } ∧ sameValidBut s t brValidBit
  | .brBit => frameRead s t
  | .brBits _ => frameRead s t
  | .brResync =>
    t = { s.withOutcome t with
          br := { t.br with lim := s.br.lim }, res0 := t.res0, rstRd := t.rstRd, dcp := t.dcp }
  | .bwInit =>
    t = { s.withOutcome t with bw := t.bw, rstWr := t.rstWr, valid := t.valid } ∧ sameValidBut s t bwValidBit
  | .bwBits _ => frameWrite s t
  | .bwFlush => frameWrite s t
  | .bwRst =>
    t = { s.withOutcome t with
          bw := { t.bw with lim := s.bw.lim }, outMem := t.outMem, res0 := t.res0, rstWr := t.rstWr, dcp := t.dcp } ∧
      sameOutside s.outMem t.outMem s.bw.pos.toNat s.bw.lim.toNat
  | .htLoad tc th => frameTable false tc th s t
  | .htStore tc th =>
    t = { s.withOutcome t with outMem := t.outMem, res0 := t.res0 } ∧
      ∀ a, (∀ c i, tableFields tc th = .ok (c, i) →
          a < s.argNat 0 ∨ s.argNat 0 + 16 + (s.table c i).spec.syms.length ≤ a) →
        t.outMem.get? a = s.outMem.get? a
  | .htDec _ _ => frameRead s t
  | .htEnc _ _ => frameWrite s t
  | .fqClr tc th =>
    t = { s.withOutcome t with fqDc := t.fqDc, fqAc := t.fqAc } ∧
      ∀ c i, tableFields tc th ≠ .ok (c, i) → t.freq c i = s.freq c i
  | .fqInc tc th =>
    t = { s.withOutcome t with fqDc := t.fqDc, fqAc := t.fqAc } ∧
      (∀ c i, tableFields tc th ≠ .ok (c, i) → t.freq c i = s.freq c i) ∧
      ∀ c i, ∀ k : Fin 257, k.val ≠ s.argSymbol.toNat → (t.freq c i)[k] = (s.freq c i)[k]
  | .htAdapt tc th => frameTable true tc th s t
  | .cfExt _ => t = { s.withOutcome t with res0 := t.res0 }
  | .cfCat => t = { s.withOutcome t with res0 := t.res0, res1 := t.res1 }
  | .blkDec c _ _ =>
    t = { s.withOutcome t with
          br := { t.br with lim := s.br.lim }, res0 := t.res0, blkI := t.blkI, dcp := t.dcp } ∧ samePredsBut c s t
  | .blkSkip c _ _ =>
    t = { s.withOutcome t with br := { t.br with lim := s.br.lim }, dcp := t.dcp } ∧ samePredsBut c s t
  | .blkEnc c _ _ =>
    t = { s.withOutcome t with bw := { t.bw with lim := s.bw.lim }, outMem := t.outMem, dcp := t.dcp } ∧
      samePredsBut c s t ∧ sameOutside s.outMem t.outMem s.bw.pos.toNat s.bw.lim.toNat
  | .blkDry c td ta =>
    t = { s.withOutcome t with fqDc := t.fqDc, fqAc := t.fqAc, dcp := t.dcp } ∧ samePredsBut c s t ∧
      (∀ i : Fin 4, i.val ≠ td.toNat → t.freq .dc i = s.freq .dc i) ∧
      (∀ i : Fin 4, i.val ≠ ta.toNat → t.freq .ac i = s.freq .ac i) ∧
      ∀ cl i, (t.freq cl i)[256] = (s.freq cl i)[256]
  | .dcRst => t = { s.withOutcome t with dcp := t.dcp }
  | .qtLoad _ tq =>
    t = { s.withOutcome t with qt := t.qt, valid := t.valid, res0 := t.res0 } ∧
      (∀ i : Fin 4, i.val ≠ tq.toNat → t.qt[i] = s.qt[i]) ∧ sameValidBut s t (8 + tq.toNat)
  | .dequant _ => t = { s.withOutcome t with blkF := t.blkF }
  | .quant _ => t = { s.withOutcome t with blkI := t.blkI }
  | .idct => t = { s.withOutcome t with blkF := t.blkF }
  | .fdct => t = { s.withOutcome t with blkF := t.blkF }
  | .pixOut => t = { s.withOutcome t with blkP := t.blkP }
  | .pixIn => t = { s.withOutcome t with blkF := t.blkF }
  | .ljSetup =>
    t = { s.withOutcome t with
          lj := { s.lj with x := t.lj.x, y := t.lj.y, bits := t.lj.bits, nc := t.lj.nc, ss := t.lj.ss, pt := t.lj.pt }
          valid := t.valid, res0 := t.res0 } ∧ sameValidBut s t ljSetBit
  | .ljHtLoad =>
    t = { s.withOutcome t with
          lj := { s.lj with spec := t.lj.spec, maxBits := t.lj.maxBits, lut := t.lj.lut }
          valid := t.valid, res0 := t.res0 } ∧ sameValidBut s t ljHtBit
  | .ljLinLoad =>
    t = { s.withOutcome t with lj := { s.lj with lin := t.lj.lin }, valid := t.valid } ∧ sameValidBut s t linEnBit
  | .ljDecode =>
    t = { s.withOutcome t with
          br := { t.br with lim := s.br.lim }, res0 := t.res0, outMem := t.outMem
          lj := { s.lj with cur := t.lj.cur, prev := t.lj.prev } } ∧
      sameOutside s.outMem t.outMem (s.argNat 0) (s.argNat 0 + 2 * s.lj.total)
  | .unpack10 => frameStore 2 (2 * (s.argNat 1 / 5 * 4)) s t
  | .unpack12 => frameStore 2 (2 * (s.argNat 1 / 3 * 2)) s t
  | .unpack14 => frameStore 2 (2 * (s.argNat 1 / 7 * 4)) s t
  | .unpack12v => frameStore 2 (2 * (s.argNat 1 / 3 * 2)) s t

/-! ### Bits -/

/-- The bits of a byte, bit 7 first (00_scope.md R8, "MSB-first"). -/
def byteBits (b : Byte) : List Bool := (List.range 8).map fun i => b.getLsbD (7 - i)

/-- The `n` low bits of a number, the most significant first. -/
def numBits (v n : Nat) : List Bool := (List.range n).map fun i => v.testBit (n - 1 - i)

/-- The number whose bits these are, the most significant first. -/
def bitsValue (l : List Bool) : Nat := l.foldl (fun v b => 2 * v + b.toNat) 0

/-- How a segment ends (30_encoding.md R92): at a marker whose 0xFF is at an address, or by running out of the window at the
first address that cannot be read. -/
inductive SegmentEnd where
  | marker (pos : Nat) (second : Byte)
  | runsOut (addr : Nat)
  deriving DecidableEq, Repr

/-- The destuffed bytes of IN from `pos` to the end of the segment, and how it ends (30_encoding.md R92); `fuel` is the
number of bytes left in the window. -/
def segment (m : Memory) (lim : Nat) : (fuel pos : Nat) → List Byte × SegmentEnd
  | 0, pos => ([], .runsOut pos)
  | fuel + 1, pos =>
    if lim ≤ pos then ([], .runsOut pos)
    else if m.inByte pos ≠ 0xFF then
      (m.inByte pos :: (segment m lim fuel (pos + 1)).1, (segment m lim fuel (pos + 1)).2)
    else if lim ≤ pos + 1 then ([], .runsOut (pos + 1))
    else if m.inByte (pos + 1) = 0 then
      (0xFF :: (segment m lim fuel (pos + 2)).1, (segment m lim fuel (pos + 2)).2)
    else ([], .marker pos (m.inByte (pos + 1)))

/-- The rest of the segment behind the byte buffer of a reader. -/
def Reader.rest (r : Reader) (m : Memory) : List Byte × SegmentEnd :=
  if r.eos then ([], .marker r.pos.toNat r.marker)
  else segment m r.lim.toNat (r.lim.toNat - r.pos.toNat) r.pos.toNat

/-- The bits a reader can still deliver: those of the byte buffer, then those of the rest of the segment. -/
def Reader.bits (r : Reader) (m : Memory) : List Bool :=
  (byteBits r.buf).take r.cnt.toNat ++ (r.rest m).1.flatMap byteBits

/-- `r'` is the reader `r` after `n` bits have been delivered: the same segment, the `n` bits gone, and, because a byte is
fetched only when a bit of it is needed, at most 7 bits left in the byte buffer (41_bitio.md R121, R122). EOS and MARKER are as
before: only a refill that meets the marker sets them, and a bit that is delivered needs none of it. -/
structure Reader.After (m : Memory) (n : Nat) (r r' : Reader) : Prop where
  bits : r'.bits m = (r.bits m).drop n
  segmentEnd : (r'.rest m).2 = (r.rest m).2
  lim : r'.lim = r.lim
  eos : r'.eos = r.eos
  marker : r'.marker = r.marker
  cnt : r'.cnt.toNat ≤ 8
  lazy : 0 < n → r'.cnt.toNat ≤ 7
  none : n = 0 → r' = r

/-- `r'` is the reader `r` after its segment has ended at the marker `second`: no bit is left, the cursor is on the marker's
0xFF, EOS and MARKER say so (41_bitio.md R122). -/
structure Reader.Ended (m : Memory) (pos : Nat) (second : Byte) (r r' : Reader) : Prop where
  bits : r'.bits m = []
  pos : r'.pos.toNat = pos
  lim : r'.lim = r.lim
  cnt : r'.cnt = 0
  eos : r'.eos = true
  marker : r'.marker = second

/-- The whole bytes of a bit list, eight bits each. -/
def fullBytes (l : List Bool) : List Byte :=
  (List.range (l.length / 8)).map fun i => BitVec.ofNat 8 (bitsValue ((l.drop (8 * i)).take 8))

/-- Byte stuffing: a 0x00 after every 0xFF (41_bitio.md R130). -/
def stuff (bs : List Byte) : List Byte := bs.flatMap fun b => if b = 0xFF then [b, 0] else [b]

/-- The bits a writer holds and bits appended to them. -/
def Writer.joined (w : Writer) (bits : List Bool) : List Bool := numBits w.buf.toNat w.cnt.toNat ++ bits

/-- The bytes that go out when bits are appended to a writer. -/
def Writer.outBytes (w : Writer) (bits : List Bool) : List Byte := stuff (fullBytes (w.joined bits))

/-- The writer and its memory after bits are appended: the whole bytes are written, stuffed, and the rest is held. -/
def Sink.append (k : Sink) (bits : List Bool) : Sink :=
  let l := k.w.joined bits
  let held := l.drop (8 * (l.length / 8))
  { w := { pos := k.w.pos + BitVec.ofNat 32 (k.w.outBytes bits).length, lim := k.w.lim
           buf := BitVec.ofNat 8 (bitsValue held), cnt := BitVec.ofNat 3 held.length }
    out := k.out.setList k.w.pos.toNat (k.w.outBytes bits) }

/-- The window has room for the bytes that go out when bits are appended. -/
abbrev Writer.room (w : Writer) (bits : List Bool) : Prop :=
  w.pos.toNat + (w.outBytes bits).length ≤ w.lim.toNat

/-- The bits of BUF above CNT are 0 and the cursor is in the window (10_state.md R29). -/
abbrev Writer.ok (w : Writer) : Prop := w.pos.toNat ≤ w.lim.toNat ∧ w.buf.toNat < 2 ^ w.cnt.toNat

/-- The padding of `flush_bits` (41_bitio.md R133): 1-bits up to a whole byte. -/
def Writer.padding (w : Writer) : List Bool := if w.cnt = 0 then [] else List.replicate (8 - w.cnt.toNat) true

/-- Values written one after the other, each with its width. -/
def writeAll : List (Nat × Nat) → Sink → Except Raise Sink
  | [], k => .ok k
  | p :: ps, k =>
    match putBits p.1 p.2 k with
    | .ok k' => writeAll ps k'
    | .error f => .error f

/-- Values read one after the other, each with its width. -/
def readAll (m : Memory) : List Nat → Reader → Bits (List Nat)
  | [], r => .got [] r
  | n :: ns, r => (getBits m n r).andThen fun v r' => (readAll m ns r').andThen fun vs r'' => .got (v :: vs) r''

/-! ### Codes -/

/-- The code of a slot as bits. -/
def Slot.bits (k : Slot) : List Bool := numBits k.code.toNat k.size.toNat

/-- The code of a symbol in an encode table as bits. -/
def encBits (e : Vector EncEntry 256) (sym : Byte) : List Bool :=
  numBits e[sym.toFin].code.toNat e[sym.toFin].size.toNat

/-- The bits of an item: its code and its extra bits (43_coefficient.md R204). -/
def Item.bits (dcEnc acEnc : Vector EncEntry 256) (it : Item) : List Bool :=
  encBits (encOf dcEnc acEnc it.cls) it.sym ++ numBits it.ebits it.nbits

/-- `bits` is a code of the symbol `sym` with the `n` extra bits of `e` behind it. -/
abbrev codedAs (slots : List Slot) (sym : Byte) (n e : Nat) (bits : List Bool) : Prop :=
  e < 2 ^ n ∧ ∃ k ∈ slots, k.sym = sym ∧ bits = k.bits ++ numBits e n

/-- No code of the table stands at the front of `bits`. -/
abbrev noCode (slots : List Slot) (bits : List Bool) : Prop := ∀ k ∈ slots, ¬k.bits <+: bits

/-- The segment ends inside the item at the front of `bits` (00_scope.md R10): inside its code, of at most `maxLen` bits, or
inside the extra bits that its symbol calls for. -/
abbrev endsInside (slots : List Slot) (maxLen : Nat) (extraBits : Byte → Nat) (bits : List Bool) : Prop :=
  noCode slots bits ∧ bits.length < maxLen ∨
    ∃ k ∈ slots, k.bits <+: bits ∧ bits.length < k.size.toNat + extraBits k.sym

/-- The extra bits of a DC or LJ92 category (43_coefficient.md R197, 45_lj92.md R255): a category above 15 has none. -/
def categoryBits (t : Byte) : Nat := if t.toNat ≤ 15 then t.toNat else 0

/-- The table payload at IN address `a` (30_encoding.md R95): the 16 counts, then as many symbols as they say. -/
def payloadAt (m : Memory) (a : Nat) : HuffSpec :=
  let n := ((m.readList a 16).map BitVec.toNat).sum
  { counts := Vector.ofFn fun i : Fin 16 => m.inByte (a + i.val), syms := m.readList (a + 16) n }

/-- `Σ L[i]·2^(16−i)` over a specification's counts (42_huffman.md R154). -/
def HuffSpec.kraft (p : HuffSpec) : Nat :=
  ((List.range 16).map fun i => p.lengths.getD i 0 * 2 ^ (15 - i)).sum

/-- The values that `symbols(B, p)` codes, in order (43_coefficient.md R198): the DC difference, then the AC coefficients in
zig-zag order. -/
def blockValues (b : Vector Word 64) (p : Int) : List Int :=
  (b[0].toInt - p) :: (List.range 63).map fun j => (b.getD (zigzag.getD (j + 1) 0).val 0).toInt

/-- The item of a value `v` of class `cls` behind `run` zeros, at most 15 of them: symbol (run << 4) | category, extra bits
(43_coefficient.md R198). -/
def valueItem (cls : TableClass) (run : Nat) (v : Int) : Item :=
  { cls := cls, sym := BitVec.ofNat 8 (16 * run + cat v), ebits := extra v (cat v), nbits := cat v }

/-- The AC items of a block (43_coefficient.md R198), from the zig-zag positions of its coefficients that are not 0: for each
a ZRL for every sixteen zeros before it and its own item with the zeros left over; End-Of-Block behind them where the last
coefficient is 0. -/
def acSpelling (b : Vector Word 64) : List Item :=
  let value := fun (k : Nat) => (b.getD (zigzag.getD k 0).val 0).toInt
  let ks := (List.range 64).filter fun k => k ≠ 0 && value k ≠ 0
  (List.zipWith (fun before k =>
      List.replicate ((k - before - 1) / 16) Item.zrl ++ [valueItem .ac ((k - before - 1) % 16) (value k)]) (0 :: ks) ks).flatten ++
    if b[63] = 0 then [Item.eob] else []

/-- AC items placed in a block from zig-zag position `k` on (43_coefficient.md R197), each a symbol other than End-Of-Block and
the value of its extra bits: a ZRL moves past 16 positions, an item (run << 4) | size past `run` and puts its coefficient; none
where an item has no meaning. -/
def acPlace : (k : Nat) → Vector Word 64 → List (Byte × Nat) → Option (Nat × Vector Word 64)
  | k, blk, [] => some (k, blk)
  | k, blk, (rs, e) :: items =>
    let run := rs.toNat / 16
    let size := rs.toNat % 16
    if size = 0 then if run = 15 ∧ k + 16 ≤ 64 then acPlace (k + 16) blk items else none
    else if h : k + run < 64 then
      acPlace (k + run + 1) (blk.set zigzag[k + run].val (BitVec.ofInt 32 (extend e size)) zigzag[k + run].isLt) items
    else none

/-- The AC symbol `rs` has no meaning at zig-zag position `k` (43_coefficient.md R197): 0x10 to 0xE0, or a run or a ZRL that
leaves the block. -/
abbrev acMeaningless (k : Nat) (rs : Byte) : Prop :=
  let run := rs.toNat / 16
  if rs.toNat % 16 = 0 then run ≠ 0 ∧ (run ≠ 15 ∨ 64 < k + 16) else 63 < k + run

/-- The zig-zag position after the last coefficient that is not 0: where `decode_block` ends the block (43_coefficient.md
R197). -/
def endPosition (b : Vector Word 64) : Nat :=
  (((List.range 64).filter fun k => k = 0 || b.getD (zigzag.getD k 0).val 0 ≠ 0).getLast?.getD 0) + 1

/-! ### Table adaptation (42_huffman.md R163 to R165) -/

/-- Symbols merged so far: the index that stands for them, their frequency, the symbols (42_huffman.md R163). -/
structure Group where
  rep : Nat
  weight : Nat
  members : List Nat
  deriving DecidableEq, Repr

/-- The order in which groups are merged (42_huffman.md R163): the least frequency first, among equals the largest index. -/
abbrev Group.before (g h : Group) : Prop := g.weight < h.weight ∨ g.weight = h.weight ∧ h.rep < g.rep

/-- The first group V1 and the second V2 made one, under the index of V1. -/
def Group.merge (v1 v2 : Group) : Group :=
  { rep := v1.rep, weight := v1.weight + v2.weight, members := v1.members ++ v2.members }

/-- The code sizes that merging gives (42_huffman.md R163): as long as there are two groups the first two in the order are
merged, and each merge makes the codes of their members one bit longer. -/
inductive CodeSizes : List Group → (Nat → Nat) → Prop where
  | done (g : Group) : CodeSizes [g] fun _ => 0
  | merge (gs rest : List Group) (v1 v2 : Group) (size : Nat → Nat) (hp : gs.Perm (v1 :: v2 :: rest)) (h1 : v1.before v2)
      (h2 : ∀ g ∈ rest, v2.before g) (hs : CodeSizes (v1.merge v2 :: rest) size) :
      CodeSizes gs fun k => size k + if k ∈ (v1.merge v2).members then 1 else 0

/-- The groups that merging starts from: the counted symbols, and the sentinel 256 with frequency 1 (42_huffman.md R163, R167). -/
def symbolGroups (f : FreqModel) : List Group :=
  ((List.range 256).map fun k => { rep := k, weight := f[k]!.toNat, members := [k] : Group }).filter (fun g => g.weight ≠ 0) ++
    [{ rep := 256, weight := 1, members := [256] }]

/-- The number of codes of each length, the sentinel's among them (42_huffman.md R164). -/
def histogram (size : Nat → Nat) (n : Nat) : Nat := if n = 0 then 0 else (List.range 257).countP fun k => size k = n

/-- The histogram that `adjust_bits` gives (42_huffman.md R165): while the longest length `i` is above 16, two of its codes go,
one code of length `i − 1` comes, and a code of the nearest length `j ≤ i − 2` that has one becomes two of length `j + 1`; at
the end one code of the longest length, the sentinel's, goes. -/
inductive Adjusts : (Nat → Nat) → (Nat → Nat) → Prop where
  | done (bits : Nat → Nat) (i : Nat) (h0 : 0 < bits i) (hi : i ≤ 16) (hm : ∀ m, i < m → bits m = 0) :
      Adjusts bits fun k => bits k - if k = i then 1 else 0
  | borrow (bits bits' : Nat → Nat) (i j : Nat) (hi : 16 < i) (hm : ∀ m, i < m → bits m = 0) (h2 : 2 ≤ bits i) (hj : 1 ≤ j)
      (hji : j + 2 ≤ i) (hb : 0 < bits j) (hn : ∀ m, j < m → m + 2 ≤ i → bits m = 0)
      (h : Adjusts (fun k => bits k - (if k = i then 2 else 0) - (if k = j then 1 else 0) + (if k = i - 1 then 1 else 0) +
        if k = j + 1 then 2 else 0) bits') : Adjusts bits bits'

/-- A frequency model with these counts, by symbol, and no others. -/
def countsOf (l : List (Nat × Nat)) : FreqModel := Vector.ofFn fun k : Fin 257 => BitVec.ofNat 32 ((l.lookup k.val).getD 0)

/-! ### Packed samples -/

/-- Sample `j` of width `w` of a bit string (46_unpack.md R291). -/
def bitSample (l : List Bool) (w j : Nat) : Sample := BitVec.ofNat 16 (bitsValue ((l.drop (j * w)).take w))

/-- The first `n` samples of width `w` packed in IN from address `a` up, in `bytes` bytes (46_unpack.md R291). -/
def packedSamples (m : Memory) (a bytes w n : Nat) : List Sample :=
  (List.range n).map (bitSample ((m.readList a bytes).flatMap byteBits) w)

/-! ### LJ92 reconstruction -/

/-- The number of the samples before the first row's second column, and so on: sample `i` of an image whose samples so far
are `done`, from its residual (45_lj92.md R256 to R259), addressed by output index: left is `i − NC`, above `i − X·NC`. -/
def ljReconstruct (lj : LjSession) (done : List Sample) (i : Nat) (d : Int) : Sample :=
  let nc := lj.nc.toNat
  let w := lj.x.toNat * nc
  let px : Int :=
    if i < nc then 2 ^ (lj.bits.toNat - 1)
    else if i < w then rowSample done (i - nc)
    else if i % w < nc then rowSample done (i - w)
    else predictor lj.ss.toNat (rowSample done (i - nc)) (rowSample done (i - w)) (rowSample done (i - w - nc))
  BitVec.ofInt 16 (px + d)

/-- The samples of an image from its residuals, after those of `done`. -/
def ljSamples (lj : LjSession) : (done : List Sample) → (ds : List Int) → List Sample
  | done, [] => done
  | done, d :: ds => ljSamples lj (done ++ [ljReconstruct lj done done.length d]) ds

/-- `bits` is a coding of residual `d` by a table (45_lj92.md R255): a code of its category, then the extra bits; category 16
stands for 32768 and has none. -/
def ljCodes (slots : List Slot) (d : Int) (bits : List Bool) : Prop :=
  ∃ k ∈ slots, (k.sym.toNat = cat d ∧ cat d ≤ 15 ∧ bits = k.bits ++ numBits (extra d (cat d)) (cat d)) ∨
    (k.sym = 16 ∧ d = 32768 ∧ bits = k.bits)

/-! ### Sums of NUM -/

/-- `a(0)·b(0) + … + a(7)·b(7)` with NUM's product, and NUM's sum in increasing index from the first product (44_transform.md
R224, R225). -/
def dot8 (n : Numerics NumValue) (a b : Nat → NumValue) : NumValue :=
  let p := fun j => n.mul (a j) (b j)
  n.add (n.add (n.add (n.add (n.add (n.add (n.add (p 0) (p 1)) (p 2)) (p 3)) (p 4)) (p 5)) (p 6)) (p 7)

/-! ### Real numbers -/

/-- √2. -/
noncomputable def root1 : ℝ := √2

/-- √(2+√2). -/
noncomputable def root2 : ℝ := √(2 + root1)

/-- √(2+√(2+√2)). -/
noncomputable def root3 : ℝ := √(2 + root2)

noncomputable def Root1.toReal (x : Root1) : ℝ := (x.a : ℝ) + (x.b : ℝ) * root1

noncomputable def Root2.toReal (x : Root2) : ℝ := x.a.toReal + x.b.toReal * root2

noncomputable def Root3.toReal (x : Root3) : ℝ := x.a.toReal + x.b.toReal * root3

/-- The real number an exact number stands for. -/
noncomputable def Exact.toReal (x : Exact) : ℝ := x.num.toReal / 2 ^ x.exp

/-- `rnd(x) = sign(x)·floor(|x| + 1/2)` (00_scope.md R8). -/
noncomputable def rndReal (x : ℝ) : Int := if x < 0 then -⌊|x| + 1 / 2⌋ else ⌊|x| + 1 / 2⌋

/-- `C(0) = 1/√2`, `C(u) = 1` for u > 0 (44_transform.md R223). -/
noncomputable def dctC (u : Nat) : ℝ := if u = 0 then 1 / √2 else 1

/-- `cos((2x+1)·u·π/16)` (44_transform.md R223). -/
noncomputable def dctCos (u x : Nat) : ℝ := Real.cos ((2 * x + 1) * u * Real.pi / 16)

end Sys2Proof.Machine
end

