-- ==== Sys2Proof/WellFormed.lean ====
section
/-! DEFINITION. The legal ranges of the field operands (30_encoding.md R82, R85; opcode_table.json "field_ranges"). -/

namespace Sys2Proof

/-- A bit count, legal 0..16 (30_encoding.md R82, format N). -/
def WellFormed.bitCount (n : Byte) : Bool := n.toNat ≤ 16

/-- A category, legal 0..15 (43_coefficient.md R201). -/
def WellFormed.category (n : Byte) : Bool := n.toNat ≤ 15

/-- A table class, legal 0 or 1; also the precision flag `pq` (30_encoding.md R82, formats T and Q). -/
def WellFormed.bit (b : Byte) : Bool := b.toNat ≤ 1

/-- A table index or predictor slot, legal 0..3 (30_encoding.md R82). -/
def WellFormed.index (i : Byte) : Bool := i.toNat ≤ 3

/-- Every field operand is in its legal range. -/
def WellFormed (i : Instr) : Bool :=
  match i with
  | .nop => true
  | .sreset => true
  | .brInit => true
  | .brBit => true
  | .brBits n => WellFormed.bitCount n
  | .brResync => true
  | .bwInit => true
  | .bwBits n => WellFormed.bitCount n
  | .bwFlush => true
  | .bwRst => true
  | .htLoad tc th => WellFormed.bit tc && WellFormed.index th
  | .htStore tc th => WellFormed.bit tc && WellFormed.index th
  | .htDec tc th => WellFormed.bit tc && WellFormed.index th
  | .htEnc tc th => WellFormed.bit tc && WellFormed.index th
  | .fqClr tc th => WellFormed.bit tc && WellFormed.index th
  | .fqInc tc th => WellFormed.bit tc && WellFormed.index th
  | .htAdapt tc th => WellFormed.bit tc && WellFormed.index th
  | .cfExt n => WellFormed.category n
  | .cfCat => true
  | .blkDec c td ta => WellFormed.index c && WellFormed.index td && WellFormed.index ta
  | .blkSkip c td ta => WellFormed.index c && WellFormed.index td && WellFormed.index ta
  | .blkEnc c td ta => WellFormed.index c && WellFormed.index td && WellFormed.index ta
  | .blkDry c td ta => WellFormed.index c && WellFormed.index td && WellFormed.index ta
  | .dcRst => true
  | .qtLoad pq tq => WellFormed.bit pq && WellFormed.index tq
  | .dequant tq => WellFormed.index tq
  | .quant tq => WellFormed.index tq
  | .idct => true
  | .fdct => true
  | .pixOut => true
  | .pixIn => true
  | .ljSetup => true
  | .ljHtLoad => true
  | .ljLinLoad => true
  | .ljDecode => true
  | .unpack10 => true
  | .unpack12 => true
  | .unpack14 => true
  | .unpack12v => true

end Sys2Proof
end

