-- ==== Sys2Proof/Certificates/Slice0/Obligations.lean ====
section
/-! DEFINITION. The statements for the provers. Each docstring says which rule of the spec it formalises. The words they are
stated in are those of Safety.lean. -/

section

open Sys2Proof Sys2Proof.Machine

/-! ### Command words -/

/-- Command words written out from 30_encoding.md R84 and R90. -/
def Obligations.OpcodeWordsDecode : Prop :=
  decode 0x00000000 = .ok .nop ∧ decode 0x1200000C = .ok (.brBits 12) ∧ decode 0x22000000 = .ok .bwFlush ∧
    decode 0x30000101 = .ok (.htLoad 1 1) ∧ decode 0x42020101 = .ok (.blkDec 2 1 1) ∧
    decode 0x50000103 = .ok (.qtLoad 1 3) ∧ decode 0x51000002 = .ok (.dequant 2) ∧
    decode 0x63000000 = .ok .ljDecode ∧ decode 0x73000000 = .ok .unpack12v

/-- Decoding gives back every encoded command, with any field values, and every word that decodes is the word of its command
(30_encoding.md R81, R82, R84). -/
def Obligations.DecodeAndEncodeAgree : Prop :=
  (∀ i, decode (encode i) = .ok i) ∧ ∀ w i, decode w = .ok i → encode i = w

/-- 30_encoding.md R88: exactly the words that match no row of the opcode table are illegal, they include every word whose OP
is in the listed ranges, NOP is the word 0 only, and an illegal word is the fault ILLEGAL_CMD with the word. -/
def Obligations.IllegalWordsFault : Prop :=
  (∀ w : Word, (∃ e, decode w = .error e) ↔ ∀ row ∈ opcodeRows, w &&& row.1 ≠ row.2) ∧
  (∀ op : Byte, (∃ range ∈ illegalOps, range.1 ≤ op.toNat ∧ op.toNat ≤ range.2) ↔
    ∀ row ∈ opcodeRows, row.2.extractLsb' 24 8 ≠ op) ∧
  (∀ w : Word, decode w = .ok .nop ↔ w = 0) ∧
  ∀ (s : State) (w : Word), s.fault = false → (∀ row ∈ opcodeRows, w &&& row.1 ≠ row.2) →
    issue w s = .next (s.takeFault w .illegalCmd w)

/-- 30_encoding.md R85: a defined field outside its range is BAD_ARG with the field, the first in the order F1, F2, F3, and
nothing else happens; a command is well-formed exactly when it has no such field. -/
def Obligations.FieldsOutOfRangeFault : Prop :=
  (∀ i, WellFormed i = true ↔ (fieldRanges i).find? (fun p => p.2 < p.1.toNat) = none) ∧
  ∀ (i : Instr) (s : State) (f : Byte × Nat), (fieldRanges i).find? (fun p => p.2 < p.1.toNat) = some f →
    exec i s = .next (s.takeFault (encode i) .badArg (f.1.setWidth 32))

/-! ### The host interface -/

/-- A step performs the oldest pending move of the host and nothing else (log 2: the queue of moves is the model's); the move
that writes CMD issues the word; an issued word that decodes runs its command to completion (30_encoding.md R80, R86). So the
step after `withFetchWord` runs the decoded command. -/
def Obligations.StepRunsTheCommand : Prop :=
  (∀ s : State, s.host = [] → step s = .next s) ∧
  (∀ (s : State) (mv : HostMove) (rest : List HostMove), s.host = mv :: rest → step s = hostMove mv { s with host := rest }) ∧
  (∀ (s : State) (w : Word), s.busy = false → hostMove (.writeReg 32 0 w) s = issue w s) ∧
  (∀ (s : State) (w : Word) (i : Instr), s.fault = false ∨ w = 0x01000000 → decode w = .ok i → issue w s = exec i s) ∧
  ∀ (s : State) (nbits w : Nat) (i : Instr), s.busy = false → s.fault = false → decodeTableWord nbits w = some i →
    step (s.withFetchWord nbits w) = exec i s

/-- 60_exceptions.md R331: while STATUS.FAULT = 1 a command word other than SRESET leaves no trace, and no move of the host but
SRESET and a reset changes FAULT or the fault registers. -/
def Obligations.FaultStateRefusesCommands : Prop :=
  (∀ (s : State) (w : Word), s.fault = true → w ≠ 0x01000000 → issue w s = .next s) ∧
  ∀ (s t : State) (mv : HostMove), s.fault = true → mv ≠ .reset → mv ≠ .writeReg 32 0 0x01000000 → hostMove mv s = .next t →
    t.fault = true ∧ t.faultCause = s.faultCause ∧ t.faultInfo = s.faultInfo ∧ t.faultCmd = s.faultCmd

/-- A host write of a register and a later read (10_state.md R22, R27, R34): a readable and writable register holds the bits
it has of the value written; every other offset reads as before, 0 where the map has no readable register. What each offset
reads: the whole map with the places of the fields (10_state.md R21, R24 to R30, R34, R36). -/
def Obligations.RegisterWriteThenRead : Prop :=
  (∀ (s : State) (off off' : Nat) (v : Word), s.busy = false → off % 4 = 0 → off' % 4 = 0 → off ≠ 0 →
    ∃ t u, hostMove (.writeReg 32 off v) s = .next t ∧ hostMove (.readReg 32 off') t = .next u ∧
      u.hostData = if off' = off ∧ writeMask off ≠ 0 then v &&& writeMask off else s.readOffset off') ∧
  (∀ (s : State) (off : Nat), off = 0 ∨ regAt off = none → s.readOffset off = 0) ∧
  ∀ s : State,
    let reads := fun (off n : Nat) => (s.readOffset off).toNat = n
    reads 0x004 (s.busy.toNat + 2 * s.fault.toNat + 4 * s.segEnd.toNat) ∧
    reads 0x008 (match s.faultCause with | none => 0 | some c => c.code.toNat) ∧
    reads 0x00C s.faultInfo.toNat ∧ reads 0x010 s.faultCmd.toNat ∧ reads 0x014 s.valid.toNat ∧ reads 0x018 s.prec.toNat ∧
    (∀ i : Fin 4, reads (0x020 + 4 * i.val) s.arg[i].toNat) ∧ reads 0x030 s.res0.toNat ∧ reads 0x034 s.res1.toNat ∧
    reads 0x040 s.br.pos.toNat ∧ reads 0x044 s.br.lim.toNat ∧
    reads 0x048 (s.br.buf.toNat + 2 ^ 8 * s.br.cnt.toNat + 2 ^ 12 * s.br.eos.toNat + 2 ^ 16 * s.br.marker.toNat) ∧
    reads 0x04C s.rstRd.toNat ∧
    reads 0x050 s.bw.pos.toNat ∧ reads 0x054 s.bw.lim.toNat ∧ reads 0x058 (s.bw.buf.toNat + 2 ^ 8 * s.bw.cnt.toNat) ∧
    reads 0x05C s.rstWr.toNat ∧
    (∀ c : Fin 4, reads (0x060 + 4 * c.val) (if s.dcp[c].set then s.dcp[c].value.toNat else 0)) ∧
    reads 0x070 (∑ c : Fin 4, 2 ^ c.val * s.dcp[c].set.toNat) ∧
    reads 0x080 (s.lj.x.toNat + 2 ^ 16 * s.lj.y.toNat) ∧
    reads 0x084 (s.lj.bits.toNat + 2 ^ 8 * s.lj.nc.toNat + 2 ^ 12 * s.lj.ss.toNat + 2 ^ 16 * s.lj.pt.toNat +
      2 ^ 24 * s.lj.maxBits.toNat) ∧
    ∀ i : Fin 64, reads (0x100 + 4 * i.val) s.blkI[i].toNat ∧ reads (0x200 + 4 * i.val) s.blkP[i].toNat

/-- Host accesses: a register access that is not an aligned 32-bit access is refused (10_state.md R22); while BUSY every access
is refused but one of STATUS (20_memory.md R68), which reads as ever and whose write is ignored (10_state.md R22); IN and OUT are
reached byte by byte, inside their sizes (20_memory.md R60). The two faults are the model's own stops for addresses that do not
exist (log 8). -/
def Obligations.HostAccesses : Prop :=
  (∀ (s : State) (mv : HostMove) (width off : Nat), s.busy = false → ¬(width = 32 ∧ off % 4 = 0) →
    (∃ v, mv = .writeReg width off v) ∨ mv = .readReg width off → hostMove mv s = .refused (.registerAccess width off)) ∧
  (∀ (s : State) (mv : HostMove), s.busy = true → mv ≠ .reset → (∀ width, mv ≠ .readReg width 4) →
    (∀ width v, mv ≠ .writeReg width 4 v) → hostMove mv s = .refused .hostAccessWhileBusy) ∧
  (∀ (s : State) (v : Word), hostMove (.writeReg 32 4 v) s = .next s ∧
    hostMove (.readReg 32 4) s = .next { s with hostData := s.statusWord }) ∧
  (∀ (s : State) (a : Nat) (v : Byte), s.busy = false →
    (a < s.params.inSize → ∃ t, hostMove (.writeIn a v) s = .next t ∧ t = { s with inMem := t.inMem } ∧
      t.inMem.inByte a = v ∧ ∀ b, b ≠ a → t.inMem.get? b = s.inMem.get? b) ∧
    (s.params.inSize ≤ a → hostMove (.writeIn a v) s = .fault (.noSuchInByte a))) ∧
  ∀ (s : State) (a : Nat), s.busy = false →
    (a < s.params.outSize → hostMove (.readOut a) s = .next { s with hostData := (s.outMem.outByte a).setWidth 32 }) ∧
    (s.params.outSize ≤ a → hostMove (.readOut a) s = .fault (.noSuchOutByte a))

/-! ### Rules about every command -/

/-- What no command writes: IN (20_memory.md R60), the argument registers (10_state.md R21), PREC, the host's own moves; BLK_P
only PIX_OUT, R1 only CF_CAT. SRESET takes the registers to their reset values. -/
def Obligations.CommandsLeaveInputsAlone : Prop :=
  ∀ (i : Instr) (s t : State), exec i s = .next t →
    t.params = s.params ∧ t.inMem = s.inMem ∧ t.host = s.host ∧ t.hostData = s.hostData ∧
    (i ≠ .sreset → t.arg = s.arg ∧ t.prec = s.prec) ∧
    (i ≠ .sreset → i ≠ .pixOut → t.blkP = s.blkP) ∧
    (i ≠ .sreset → i ≠ .cfCat → t.res1 = s.res1)

/-- 60_exceptions.md R330: SRESET and a hardware reset give the reset state (with the model's own fields as they were, and in
BLK_F the zero of the instance's NUM), SRESET
leaves IN and OUT unchanged, and a move of the host that leaves the fault state is one of the two. -/
def Obligations.OnlyResetLeavesTheFaultState : Prop :=
  (∀ (s : State) (mv : HostMove), s.busy = false → mv = .reset ∨ mv = .writeReg 32 0 0x01000000 →
    ∃ t, hostMove mv s = .next t ∧
      t = { State.reset with
        params := s.params, blkF := Vector.replicate 64 (s.num.ofInt 0), inMem := t.inMem, outMem := t.outMem
        host := s.host, hostData := s.hostData, draws := s.draws } ∧
      (mv ≠ .reset → t.inMem = s.inMem ∧ t.outMem = s.outMem)) ∧
  ∀ (s t : State) (mv : HostMove), s.fault = true → hostMove mv s = .next t → t.fault = false →
    mv = .reset ∨ mv = .writeReg 32 0 0x01000000

/-- The segment-end outcome (60_exceptions.md R313, 70_reset_and_hazards.md R365): SEG_END = 1 comes only from the five reading
commands, with the reader stopped on a marker and no fault; and once it is there, reading on gives it again and changes
nothing but R0. -/
def Obligations.SegmentEndOutcome : Prop :=
  (∀ (i : Instr) (s t : State), exec i s = .next t → t.segEnd = true →
    usesReader i = true ∧ i ≠ .brResync ∧ i ≠ .ljDecode ∧ t.fault = s.fault ∧ t.br.eos = true ∧ t.br.cnt = 0) ∧
  ∀ s : State, s.isValid 15 = true → s.br.eos = true → s.br.cnt = 0 →
    exec .brBit s = .next (State.finish { s with res0 := 0 } true) ∧
    (∀ n : Byte, 0 < n.toNat → n.toNat ≤ 16 → exec (.brBits n) s = .next (State.finish { s with res0 := 0 } true)) ∧
    (∀ tc th c i, tableFields tc th = .ok (c, i) → s.isValid (tableBit c i) = true →
      exec (.htDec tc th) s = .next (State.finish { s with res0 := 0 } true)) ∧
    ∀ c td ta x d a, blockFields c td ta = .ok (x, d, a) → s.isValid (tableBit .dc d) = true →
      s.isValid (tableBit .ac a) = true →
      exec (.blkDec c td ta) s = .next (State.finish { s with res0 := 0 } true) ∧
      exec (.blkSkip c td ta) s = .next (s.finish true)

/-- 10_state.md R26: VALID reads as its seventeen bits with 31:17 zero; each bit is set by exactly the commands of the column
"set by" and cleared by exactly those of the column "cleared by"; and a command that needs a unit whose bit is 0 faults
NOT_READY with the first such bit's number. -/
def Obligations.ValidBits : Prop :=
  (∀ (s : State) (n : Nat), (s.readReg .valid).getLsbD n = if n < 17 then s.isValid n else false) ∧
  (∀ (i : Instr) (s t : State) (n : Nat), exec i s = .next t →
    (s.isValid n = false → t.isValid n = true → setsBit s i n) ∧
    (setsBit s i n → t.fault = false → t.isValid n = true) ∧
    (s.isValid n = true → t.isValid n = false → i = .sreset ∨ i = .ljLinLoad ∧ n = 14 ∧ s.argNat 1 = 0) ∧
    (i = .sreset → t.isValid n = false) ∧
    (i = .ljLinLoad → n = 14 → s.argNat 1 = 0 → t.isValid n = false)) ∧
  (∀ (s : State) (n : Nat), s.coreReset.isValid n = false) ∧
  ∀ (i : Instr) (s : State) (n : Nat), WellFormed i = true →
    (neededBits i).find? (fun b => !s.isValid b) = some n →
    exec i s = .next (s.takeFault (encode i) .notReady (BitVec.ofNat 32 n))

/-- Outcome registers (60_exceptions.md R311, R316, R318): a command other than SRESET that raises no fault leaves the fault
registers; one that does has a cause its row of R311 lists (HT_ADAPT's causes are in TableAdaptation). The codes of R311, and
the error kinds the host makes of them (60_exceptions.md R315). -/
def Obligations.CausesOfACommand : Prop :=
  (∀ (i : Instr) (s t : State), i ≠ .sreset → exec i s = .next t →
    (t.fault = s.fault ∧ t.faultCause = s.faultCause ∧ t.faultInfo = s.faultInfo ∧ t.faultCmd = s.faultCmd ∧
      t.draws = s.draws ∧ t.busy = s.busy) ∨
    (t.fault = true ∧ ∃ c, t.faultCause = some c ∧ ((∀ tc th, i ≠ .htAdapt tc th) → c ∈ causesOf i))) ∧
  (errorKind none).value = 0 ∧
  [Cause.illegalCmd, .badArg, .ioRead, .ioWrite, .notReady, .badTable, .codeNotFound, .badSymbol, .badMarker, .coefRange,
    .noCode, .adaptOverflow, .ljBadFormat, .ljMismatch, .unsupported, .truncated, .linRange].map
      (fun c => (c.code.toNat, (errorKind (some c)).value)) =
    [(1, 7), (2, 7), (3, 6), (4, 6), (5, 7), (6, 7), (7, 7), (8, 7), (9, 7), (10, 7), (11, 7), (12, 7), (13, 7), (14, 3),
      (15, 9), (16, 6), (17, 7)]

/-- 60_exceptions.md R312: a fault records cause, info and command word, clears SEG_END and BUSY; a pre-check fault leaves all
other state as it was; a mid-command fault leaves everything outside the command's write set as it was. -/
def Obligations.WhatAFaultLeaves : Prop :=
  ∀ (i : Instr) (s t : State), s.fault = false → exec i s = .next t → t.fault = true →
    t.segEnd = false ∧ t.busy = false ∧ t.faultCmd = encode i ∧
    ∃ c, t.faultCause = some c ∧ frame i s t ∧
      (midCommand i c = false → t = s.takeFault (encode i) c t.faultInfo)

/-! ### Frames -/

/-- What the system, reader and writer commands leave unchanged (40_system.md, 41_bitio.md). -/
def Obligations.FrameOfBitCommands : Prop :=
  ∀ (i : Instr) (s t : State), family i ≤ 2 → exec i s = .next t → frame i s t

/-- What the Huffman commands leave unchanged (42_huffman.md). -/
def Obligations.FrameOfHuffmanCommands : Prop :=
  ∀ (i : Instr) (s t : State), family i = 3 → exec i s = .next t → frame i s t

/-- What the coefficient commands leave unchanged (43_coefficient.md). -/
def Obligations.FrameOfCoefficientCommands : Prop :=
  ∀ (i : Instr) (s t : State), family i = 4 → exec i s = .next t → frame i s t

/-- What the transform commands leave unchanged (44_transform.md). -/
def Obligations.FrameOfTransformCommands : Prop :=
  ∀ (i : Instr) (s t : State), family i = 5 → exec i s = .next t → frame i s t

/-- What the LJ92 and unpack commands leave unchanged (45_lj92.md, 46_unpack.md). -/
def Obligations.FrameOfSampleCommands : Prop :=
  ∀ (i : Instr) (s t : State), 6 ≤ family i → exec i s = .next t → frame i s t

/-! ### System commands and reset -/

/-- NOP (40_system.md R110), DC_RST (43_coefficient.md R206), and SRESET (40_system.md R111) with the reset values of
10_state.md R39: every register reads 0 but PREC, which reads 8; every buffer, table and model is zero or empty, BLK_F at
NUM.of_int(0) of the instance. -/
def Obligations.NopResetAndDcReset : Prop :=
  ∀ s : State,
    exec .nop s = .next (s.finish false) ∧
    exec .dcRst s = .next (State.finish { s with dcp := Vector.replicate 4 { set := false, value := 0 } } false) ∧
    ∃ t, exec .sreset s = .next t ∧ t.params = s.params ∧ t.inMem = s.inMem ∧ t.outMem = s.outMem ∧
      (∀ r, t.readReg r = if r = .prec then 8 else 0) ∧
      (∀ i : Fin 64, t.blkF[i] = s.num.ofInt 0) ∧
      (∀ tc th, t.table tc th = HuffTable.empty ∧ ∀ k : Fin 257, (t.freq tc th)[k] = 0) ∧
      (∀ tq : Fin 4, t.qt[tq].pq = false ∧ ∀ i : Fin 64, t.qt[tq].q[i] = 0) ∧
      t.lj.spec = HuffSpec.empty ∧ t.lj.lut = [] ∧ t.lj.lin = []

/-! ### The BitReader and the BitWriter -/

/-- BR_INIT and BW_INIT (41_bitio.md R124, R134). -/
def Obligations.OpeningAWindow : Prop :=
  ∀ s : State,
    (s.argNat 0 ≤ s.argNat 1 ∧ s.argNat 1 ≤ s.params.inSize →
      exec .brInit s = .next (State.finish
        { s with
          br := { pos := s.arg[0], lim := s.arg[1], buf := 0, cnt := 0, eos := false, marker := 0 }
          rstRd := 0, valid := s.valid ||| 0x8000 } false)) ∧
    (¬(s.argNat 0 ≤ s.argNat 1 ∧ s.argNat 1 ≤ s.params.inSize) →
      exec .brInit s = .next (s.takeFault 0x10000000 .badArg s.arg[1])) ∧
    (s.argNat 0 ≤ s.argNat 1 ∧ s.argNat 1 ≤ s.params.outSize →
      exec .bwInit s = .next (State.finish
        { s with
          bw := { pos := s.arg[0], lim := s.arg[1], buf := 0, cnt := 0 }
          rstWr := 0, valid := s.valid ||| 0x10000 } false)) ∧
    (¬(s.argNat 0 ≤ s.argNat 1 ∧ s.argNat 1 ≤ s.params.outSize) →
      exec .bwInit s = .next (s.takeFault 0x20000000 .badArg s.arg[1]))

/-- BR_BIT and BR_BITS (41_bitio.md R121 to R123, R125, R126; 30_encoding.md R92): the next n bits of the destuffed segment,
most significant first; at a marker R0 = 0 and SEG_END = 1; off the window IO_READ with the address. -/
def Obligations.ReadingBits : Prop :=
  ∀ (s : State) (i : Instr) (n : Nat), i = .brBit ∧ n = 1 ∨ i = .brBits (BitVec.ofNat 8 n) ∧ n ≤ 16 →
    s.isValid 15 = true → s.br.cnt.toNat ≤ 8 →
    (n ≤ (s.br.bits s.inMem).length →
      ∃ r, Reader.After s.inMem n s.br r ∧
        exec i s = .next (State.finish
          { s with br := r, res0 := BitVec.ofNat 32 (bitsValue ((s.br.bits s.inMem).take n)) } false)) ∧
    (∀ pos second, (s.br.bits s.inMem).length < n → (s.br.rest s.inMem).2 = .marker pos second →
      ∃ r, Reader.Ended s.inMem pos second s.br r ∧
        exec i s = .next (State.finish { s with br := r, res0 := 0 } true)) ∧
    ∀ addr, (s.br.bits s.inMem).length < n → (s.br.rest s.inMem).2 = .runsOut addr →
      faultsWith i s .ioRead (BitVec.ofNat 32 addr)

/-- BR_RESYNC (41_bitio.md R127). -/
def Obligations.RestartMarkerRead : Prop :=
  ∀ s : State,
    let pos := s.br.pos.toNat
    let lim := s.br.lim.toNat
    let m0 := s.inMem.inByte pos
    let m1 := s.inMem.inByte (pos + 1)
    (s.isValid 15 = false → exec .brResync s = .next (s.takeFault 0x13000000 .notReady 15)) ∧
    (s.isValid 15 = true →
      (pos + 1 < lim → m0 = 0xFF → m1.toNat = 0xD0 + s.rstRd.toNat →
        exec .brResync s = .next (State.finish
          { s with
            br := { pos := s.br.pos + 2, lim := s.br.lim, buf := 0, cnt := 0, eos := false, marker := 0 }
            res0 := s.rstRd.setWidth 32, rstRd := s.rstRd + 1
            dcp := Vector.replicate 4 { set := false, value := 0 } } false)) ∧
      (lim ≤ pos → faultsWith .brResync s .ioRead s.br.pos) ∧
      (pos < lim → lim ≤ pos + 1 → faultsWith .brResync s .ioRead (s.br.pos + 1)) ∧
      (pos + 1 < lim → ¬(m0 = 0xFF ∧ m1.toNat = 0xD0 + s.rstRd.toNat) →
        faultsWith .brResync s .badMarker (BitVec.ofNat 32 (256 * m0.toNat + m1.toNat))))

/-- BW_BITS and BW_FLUSH (41_bitio.md R130 to R133, R135, R136): the bits are appended, whole bytes go out with a 0x00 after
every 0xFF; where the window has no room, IO_WRITE with the address that could not be written, its end. -/
def Obligations.WritingBits : Prop :=
  ∀ (s : State) (i : Instr) (bits : List Bool),
    (∃ n, n ≤ 16 ∧ i = .bwBits (BitVec.ofNat 8 n) ∧ bits = numBits (s.argNat 0) n) ∨ i = .bwFlush ∧ bits = s.bw.padding →
    s.isValid 16 = true → s.bw.ok →
    (s.bw.room bits → exec i s = .next ((s.setSink (s.sink.append bits)).finish false)) ∧
    (¬s.bw.room bits → faultsWith i s .ioWrite s.bw.lim)

/-- BW_RST (41_bitio.md R137): the flushed bits, then the marker RSTn, which is not stuffed. -/
def Obligations.RestartMarkerWritten : Prop :=
  ∀ s : State,
    let k := s.sink.append s.bw.padding
    (s.isValid 16 = false → exec .bwRst s = .next (s.takeFault 0x23000000 .notReady 16)) ∧
    (s.isValid 16 = true → s.bw.ok →
      (s.bw.room s.bw.padding → k.w.pos.toNat + 2 ≤ s.bw.lim.toNat →
        exec .bwRst s = .next (State.finish
          { s with
            bw := { k.w with pos := k.w.pos + 2 }
            outMem := k.out.setList k.w.pos.toNat [0xFF, 0xD0 + s.rstWr.setWidth 8]
            res0 := s.rstWr.setWidth 32, rstWr := s.rstWr + 1
            dcp := Vector.replicate 4 { set := false, value := 0 } } false)) ∧
      (¬(s.bw.room s.bw.padding ∧ k.w.pos.toNat + 2 ≤ s.bw.lim.toNat) →
        faultsWith .bwRst s .ioWrite s.bw.lim))

/-- 41_bitio.md R132: "a byte sequence written by put_bits and flushed, when read by get_bits with the same widths, returns the
same values". -/
def Obligations.WrittenBitsReadBack : Prop :=
  ∀ (vs : List (Nat × Nat)) (k k' k'' : Sink) (m : Memory) (r : Reader),
    (∀ p ∈ vs, p.2 ≤ 16 ∧ p.1 < 2 ^ p.2) → k.w.pos.toNat ≤ k.w.lim.toNat → k.w.buf = 0 → k.w.cnt = 0 →
    writeAll vs k = .ok k' → flushBits k' = .ok k'' →
    r.pos = k.w.pos → r.cnt = 0 → r.eos = false → k''.w.pos.toNat ≤ r.lim.toNat →
    (∀ a, k.w.pos.toNat ≤ a → a < k''.w.pos.toNat → m.get? a = k''.out.get? a) →
    ∃ r', readAll m (vs.map Prod.snd) r = .got (vs.map Prod.fst) r'

/-! ### The Huffman codec -/

/-- The tables built from a specification (42_huffman.md R151 to R153): as many slots of each length as its count, in
non-decreasing length order, the symbols in order; the first code 0, each next code one more, shifted left once per step of
length; the encode table has the last slot of each symbol. -/
def Obligations.CodesAreCanonical : Prop :=
  ∀ (p : HuffSpec) (t : HuffTable), p.counted → buildTable p = .ok t →
    t.spec = p ∧ t.dec.map Slot.sym = p.syms ∧
    (∀ i, i < 16 → t.dec.countP (fun k => k.size.toNat = i + 1) = p.lengths.getD i 0) ∧
    (t.dec.map fun k => k.size.toNat).Pairwise (· ≤ ·) ∧
    (∀ k ∈ t.dec, 1 ≤ k.size.toNat ∧ k.size.toNat ≤ 16 ∧ k.code.toNat < 2 ^ k.size.toNat) ∧
    (∀ k, t.dec.head? = some k → k.code = 0) ∧
    (∀ j a b, t.dec[j]? = some a → t.dec[j + 1]? = some b →
      b.code.toNat = (a.code.toNat + 1) * 2 ^ (b.size.toNat - a.size.toNat)) ∧
    ∀ sym : Byte, t.enc[sym.toFin] =
      match t.dec.reverse.find? (fun k => k.sym = sym) with
      | some k => { code := k.code, size := k.size }
      | none => { code := 0, size := 0 }

/-- Validity (42_huffman.md R154): a specification is rejected with BAD_TABLE(4) exactly when `Σ L[i]·2^(16−i) > 2^16`; the codes
of one that passes are prefix-free. -/
def Obligations.CodesArePrefixFree : Prop :=
  ∀ p : HuffSpec,
    (2 ^ 16 < p.kraft → buildTable p = .error (.badTable, 4)) ∧
    (p.kraft ≤ 2 ^ 16 → ∃ t, buildTable p = .ok t ∧
      (t.dec.map Slot.bits).Pairwise fun a b => ¬a <+: b ∧ ¬b <+: a)

/-- HT_LOAD (42_huffman.md R157), with legal fields. -/
def Obligations.HuffmanTableLoad : Prop :=
  ∀ (s : State) (tc th : Byte) (c : TableClass) (i : Fin 4), tableFields tc th = .ok (c, i) →
    let a := s.argNat 0
    let lim := s.argNat 1
    let p := payloadAt s.inMem a
    let n := p.syms.length
    let fault := fun (cause : Cause) (info : Word) =>
      exec (.htLoad tc th) s = .next (s.takeFault (encode (.htLoad tc th)) cause info)
    (s.params.inSize < lim → fault .ioRead s.arg[1]) ∧
    (lim ≤ s.params.inSize → lim < a + 16 → fault .badTable 1) ∧
    (lim ≤ s.params.inSize → a + 16 ≤ lim → 256 < n → fault .badTable 2) ∧
    (lim ≤ s.params.inSize → a + 16 ≤ lim → n ≤ 256 → lim < a + 16 + n → fault .badTable 3) ∧
    (lim ≤ s.params.inSize → a + 16 + n ≤ lim → n ≤ 256 → 2 ^ 16 < p.kraft → fault .badTable 4) ∧
    (lim ≤ s.params.inSize → a + 16 + n ≤ lim → n ≤ 256 → p.kraft ≤ 2 ^ 16 →
      ∃ t, buildTable p = .ok t ∧
        exec (.htLoad tc th) s = .next (State.finish
          { (s.setTable c i t).setValid (tableBit c i) true with res0 := BitVec.ofNat 32 (16 + n) } false))

/-- HT_STORE (42_huffman.md R158) with legal fields: the specification in payload form at A0; for a specification that was
loaded, the loaded payload byte for byte. -/
def Obligations.HuffmanTableStore : Prop :=
  (∀ (s : State) (tc th : Byte) (c : TableClass) (i : Fin 4), tableFields tc th = .ok (c, i) →
    let p := (s.table c i).spec
    let n := p.syms.length
    s.isValid (tableBit c i) = true →
    (s.argNat 0 + 16 + n ≤ s.params.outSize →
      exec (.htStore tc th) s = .next (State.finish
        { s with
          outMem := s.outMem.setList (s.argNat 0) (p.counts.toList ++ p.syms)
          res0 := BitVec.ofNat 32 (16 + n) } false)) ∧
    (s.params.outSize < s.argNat 0 + 16 + n →
      exec (.htStore tc th) s = .next
        (s.takeFault (encode (.htStore tc th)) .ioWrite (BitVec.ofNat 32 s.params.outSize)))) ∧
  ∀ (m : Memory) (a : Nat),
    (payloadAt m a).counts.toList ++ (payloadAt m a).syms = m.readList a (16 + (payloadAt m a).syms.length)

/-- HT_DEC (42_huffman.md R155, R159) with legal fields: the symbol of the one code that the next bits begin with;
CODE_NOT_FOUND with the 16 bits; the segment end; off the window IO_READ. -/
def Obligations.SymbolDecode : Prop :=
  ∀ (s : State) (tc th : Byte) (c : TableClass) (i : Fin 4), tableFields tc th = .ok (c, i) →
    s.isValid (tableBit c i) = true → s.isValid 15 = true → (s.table c i).ok → s.br.cnt.toNat ≤ 8 →
    let bits := s.br.bits s.inMem
    let slots := (s.table c i).dec
    (∀ k ∈ slots, k.bits <+: bits →
      ∃ r, Reader.After s.inMem k.size.toNat s.br r ∧
        exec (.htDec tc th) s = .next (State.finish { s with br := r, res0 := k.sym.setWidth 32 } false)) ∧
    ((∀ k ∈ slots, ¬k.bits <+: bits) →
      (16 ≤ bits.length → faultsWith (.htDec tc th) s .codeNotFound (BitVec.ofNat 32 (bitsValue (bits.take 16)))) ∧
      (∀ pos second, bits.length < 16 → (s.br.rest s.inMem).2 = .marker pos second →
        ∃ r, Reader.Ended s.inMem pos second s.br r ∧
          exec (.htDec tc th) s = .next (State.finish { s with br := r, res0 := 0 } true)) ∧
      ∀ addr, bits.length < 16 → (s.br.rest s.inMem).2 = .runsOut addr →
        faultsWith (.htDec tc th) s .ioRead (BitVec.ofNat 32 addr))

/-- HT_ENC (42_huffman.md R156, R160) with legal fields. -/
def Obligations.SymbolEncode : Prop :=
  ∀ (s : State) (tc th : Byte) (c : TableClass) (i : Fin 4), tableFields tc th = .ok (c, i) →
    s.isValid (tableBit c i) = true → s.isValid 16 = true → s.bw.ok →
    let sym : Byte := BitVec.ofNat 8 (s.argNat 0)
    let e := (s.table c i).enc
    (e[sym.toFin].size = 0 →
      exec (.htEnc tc th) s = .next (s.takeFault (encode (.htEnc tc th)) .noCode (sym.setWidth 32))) ∧
    (e[sym.toFin].size ≠ 0 → s.bw.room (encBits e sym) →
      exec (.htEnc tc th) s = .next ((s.setSink (s.sink.append (encBits e sym))).finish false)) ∧
    (e[sym.toFin].size ≠ 0 → ¬s.bw.room (encBits e sym) → faultsWith (.htEnc tc th) s .ioWrite s.bw.lim)

/-- FQ_CLR, FQ_INC and BLK_DRY (42_huffman.md R161, R162; 43_coefficient.md R205) with legal fields: counts cleared, one count
raised, the items of a block counted in their order; an increment past 2^32 − 1 is ADAPT_OVERFLOW with the symbol, in BLK_DRY that
of the first item whose count is 2^32 − 1 when it is reached. -/
def Obligations.FrequencyCounts : Prop :=
  (∀ (s : State) (tc th : Byte) (c : TableClass) (i : Fin 4), tableFields tc th = .ok (c, i) →
    let sym : Byte := BitVec.ofNat 8 (s.argNat 0)
    let f := s.freq c i
    exec (.fqClr tc th) s = .next ((s.setFreq c i (Vector.replicate 257 0)).finish false) ∧
    (f[sym.toNat]!.toNat < 2 ^ 32 - 1 →
      ∃ g : FreqModel, exec (.fqInc tc th) s = .next ((s.setFreq c i g).finish false) ∧
        ∀ k : Fin 257, g[k].toNat = f[k].toNat + if k.val = sym.toNat then 1 else 0) ∧
    (f[sym.toNat]!.toNat = 2 ^ 32 - 1 →
      exec (.fqInc tc th) s = .next (s.takeFault (encode (.fqInc tc th)) .adaptOverflow (sym.setWidth 32)))) ∧
  ∀ (s : State) (c td ta : Byte) (x d a : Fin 4), blockFields c td ta = .ok (x, d, a) →
    (∀ e, blockItems s.blkI (s.pred x) = .error e →
      exec (.blkDry c td ta) s = .next (s.takeFault (encode (.blkDry c td ta)) e.1 e.2)) ∧
    ∀ items, blockItems s.blkI (s.pred x) = .ok items →
      let times := fun (cl : TableClass) (k : Nat) (l : List Item) => l.countP fun it => it.cls = cl && it.sym.toNat = k
      let fd := s.freq .dc d
      let fa := s.freq .ac a
      let reached := fun (j : Nat) (it : Item) =>
        (match it.cls with | .dc => fd | .ac => fa)[it.sym.toNat]!.toNat + times it.cls it.sym.toNat (items.take j)
      ((∀ j it, items[j]? = some it → reached j it < 2 ^ 32 - 1) →
        ∃ gd ga : FreqModel,
          exec (.blkDry c td ta) s =
            .next ((((s.setFreq .dc d gd).setFreq .ac a ga).setPred x s.blkI[0]).finish false) ∧
          ∀ k : Fin 257, gd[k].toNat = fd[k].toNat + times .dc k.val items ∧ ga[k].toNat = fa[k].toNat + times .ac k.val items) ∧
      ∀ j it, items[j]? = some it → reached j it = 2 ^ 32 - 1 →
        (∀ j' it', j' < j → items[j']? = some it' → reached j' it' < 2 ^ 32 - 1) →
        faultsWith (.blkDry c td ta) s .adaptOverflow (it.sym.setWidth 32)

/-- HT_ADAPT (42_huffman.md R163 to R168) with legal fields: BAD_ARG(256) without a count; ADAPT_OVERFLOW for a code size above
32; otherwise a table whose symbols are exactly the counted ones, each once, in order of code size and value, whose numbers of
codes by length are the adjusted histogram, with codes of 1..16 bits none of which is all ones, and the counts consumed. The code
sizes are those of merging, ties to the larger index. Then the examples of R167 and R168. -/
def Obligations.TableAdaptation : Prop :=
  ∀ (s : State) (tc th : Byte) (c : TableClass) (i : Fin 4), tableFields tc th = .ok (c, i) →
    let f := s.freq c i
    let adapted := fun (t : HuffTable) => exec (.htAdapt tc th) s = .next (State.finish
      { ((s.setTable c i t).setValid (tableBit c i) true).setFreq c i (Vector.replicate 257 0) with
        res0 := BitVec.ofNat 32 t.spec.syms.length } false)
    ((∀ b : Byte, f[b.toNat]! = 0) →
      exec (.htAdapt tc th) s = .next (s.takeFault (encode (.htAdapt tc th)) .badArg 256)) ∧
    ((∃ b : Byte, f[b.toNat]! ≠ 0) →
      ∃ size : Nat → Nat, CodeSizes (symbolGroups f) size ∧
        (∀ k, k ≤ 256 → 32 < size k → (∀ j, j < k → size j ≤ 32) →
          exec (.htAdapt tc th) s =
            .next (s.takeFault (encode (.htAdapt tc th)) .adaptOverflow (BitVec.ofNat 32 k))) ∧
        ((∀ k, k ≤ 256 → size k ≤ 32) →
          ∃ (bits : Nat → Nat) (t : HuffTable), Adjusts (histogram size) bits ∧
            (∀ l : Fin 16, t.spec.counts[l].toNat = bits (l.val + 1)) ∧ t.ok ∧ t.spec.counted ∧
            (∀ b : Byte, b ∈ t.spec.syms ↔ f[b.toNat]! ≠ 0) ∧
            t.spec.syms.Pairwise (fun a b => size a.toNat < size b.toNat ∨ size a.toNat = size b.toNat ∧ a < b) ∧
            (∀ k ∈ t.dec, k.bits ≠ List.replicate k.size.toNat true) ∧ adapted t)) ∧
    ∀ ex ∈ ([([(0, 10), (1, 4), (2, 4), (3, 1)], [1, 1, 1, 1], [0, 1, 2, 3]), ([(2, 7), (5, 3), (9, 3)], [1, 1, 1], [2, 5, 9])] :
        List (List (Nat × Nat) × List Byte × List Byte)),
      f = countsOf ex.1 →
        ∃ t : HuffTable, t.ok ∧ t.spec.syms = ex.2.2 ∧
          (∀ l : Fin 16, t.spec.counts[l] = ex.2.1.getD l.val 0) ∧ adapted t

/-! ### The coefficient codec -/

/-- 43_coefficient.md R201, R202, with `extend`, `cat` and `extra` written out (R193 to R195). -/
def Obligations.ScalarCoefficients : Prop :=
  (∀ (s : State) (n : Byte), n.toNat ≤ 15 →
    let e : Int := (s.argNat 0 % 2 ^ n.toNat : Nat)
    exec (.cfExt n) s = .next (State.finish
      { s with
        res0 := BitVec.ofInt 32 (if n.toNat = 0 then 0 else if e < 2 ^ (n.toNat - 1) then e - 2 ^ n.toNat + 1 else e) }
      false)) ∧
  (∀ (s : State) (n : Byte), 15 < n.toNat →
    exec (.cfExt n) s = .next (s.takeFault (encode (.cfExt n)) .badArg (n.setWidth 32))) ∧
  ∀ s : State,
    let c := s.arg[0].toInt
    (|c| ≤ 32767 →
      ∃ t : Nat, t ≤ 15 ∧ (t = 0 ↔ c = 0) ∧ (c ≠ 0 → 2 ^ (t - 1) ≤ |c| ∧ |c| < 2 ^ t) ∧
        exec .cfCat s = .next (State.finish
          { s with
            res0 := BitVec.ofNat 32 t
            res1 := BitVec.ofInt 32 (if 0 < c then c else if c = 0 then 0 else c - 1 + 2 ^ t) } false)) ∧
    (32767 < |c| → exec .cfCat s = .next (s.takeFault 0x41000000 .coefRange s.arg[0]))

/-- 43_coefficient.md R196: "For every integer c with |c| ≤ 32767: extend(extra(c, cat(c)), cat(c)) = c". -/
def Obligations.CoefficientRoundTrip : Prop :=
  (∀ c : Int, |c| ≤ 32767 → extend (extra c (cat c)) (cat c) = c ∧ cat c ≤ 15 ∧ extra c (cat c) < 2 ^ cat c) ∧
  ([1, -1, 2, -2, -3, 7, -8, 255, -255, -1024, 2047, -2047, -32767] : List Int).map (fun c => (cat c, extra c (cat c))) =
    [(1, 1), (1, 0), (2, 2), (2, 1), (2, 0), (3, 7), (4, 7), (8, 255), (8, 0), (11, 1023), (11, 2047), (11, 0), (15, 0)]

/-- `symbols(B, p)` (43_coefficient.md R198): COEF_RANGE with the first value that has a category above 15, modulo 2^32; otherwise
the DC item and the AC items, symbol (run << 4) | category and extra bits each. Their shape: one DC item and 1 to 63 AC items,
at most 3 of them ZRL, End-Of-Block last and only when the last coefficient is 0, and never a ZRL before it. -/
def Obligations.BlockItemsShape : Prop :=
  ∀ (b : Vector Word 64) (p : Int),
    let uncodable := (blockValues b p).find? fun v => 15 < cat v
    (∀ v, uncodable = some v → blockItems b p = .error (.coefRange, BitVec.ofInt 32 v)) ∧
    (uncodable = none → blockItems b p = .ok (valueItem .dc 0 (b[0].toInt - p) :: acSpelling b)) ∧
    ∀ items, blockItems b p = .ok items →
      ∃ dc acs, items = dc :: acs ∧ dc.cls = .dc ∧ dc.sym.toNat = cat (b[0].toInt - p) ∧
        1 ≤ acs.length ∧ acs.length ≤ 63 ∧ (∀ it ∈ acs, it.cls = .ac) ∧ acs.count Item.zrl ≤ 3 ∧
        (acs.getLast? = some Item.eob ↔ b[63] = 0) ∧ Item.eob ∉ acs.dropLast ∧
        (b[63] = 0 → acs.dropLast.getLast? ≠ some Item.zrl)

/-- BLK_DEC and BLK_SKIP (43_coefficient.md R197 to R199, R203, R207) with legal fields. A block that the codes of its items spell
is read back: "decode_block applied to the emitted bits returns B". On any bits: BAD_SYMBOL, CODE_NOT_FOUND, COEF_RANGE and
IO_READ; a segment end inside the DC item gives nothing, one behind it the block read so far with SEG_END = 1; AC items of any
kind are placed one after the other until End-Of-Block or position 64. BLK_SKIP reads the same bits into the null sink. -/
def Obligations.BlockDecode : Prop :=
  ∀ (s : State) (c td ta : Byte) (x d a : Fin 4), blockFields c td ta = .ok (x, d, a) →
    s.isValid (tableBit .dc d) = true → s.isValid (tableBit .ac a) = true → s.isValid 15 = true →
    (s.table .dc d).ok → (s.table .ac a).ok → s.br.cnt.toNat ≤ 8 →
    let de := (s.table .dc d).enc
    let ae := (s.table .ac a).enc
    let dcs := (s.table .dc d).dec
    let acs := (s.table .ac a).dec
    let bits := s.br.bits s.inMem
    let ending := (s.br.rest s.inMem).2
    let gives := fun (blk : Vector Word 64) (dc : Word) (k : Nat) (seg : Bool) (r : Reader) =>
      exec (.blkDec c td ta) s = .next ((State.setPred
        { s with br := r, blkI := blk, res0 := BitVec.ofNat 32 k } x dc).finish seg) ∧
      exec (.blkSkip c td ta) s = .next ((State.setPred { s with br := r } x dc).finish seg)
    let stops := fun (cause : Cause) (info : Word) =>
      faultsWith (.blkDec c td ta) s cause info ∧ faultsWith (.blkSkip c td ta) s cause info
    let runsOut := ∀ addr, ending = .runsOut addr → stops .ioRead (BitVec.ofNat 32 addr)
    (∀ (b : Vector Word 64) (items : List Item) (rest : List Bool), blockItems b (s.pred x) = .ok items →
      (∀ it ∈ items, (encOf de ae it.cls)[it.sym.toFin].size ≠ 0) →
      bits = items.flatMap (Item.bits de ae) ++ rest →
      ∃ r, Reader.After s.inMem (items.flatMap (Item.bits de ae)).length s.br r ∧ gives b b[0] (endPosition b) false r) ∧
    (∀ k ∈ dcs, k.bits <+: bits → 15 < k.sym.toNat → stops .badSymbol (k.sym.setWidth 32)) ∧
    (noCode dcs bits → 16 ≤ bits.length → stops .codeNotFound (BitVec.ofNat 32 (bitsValue (bits.take 16)))) ∧
    (endsInside dcs 16 categoryBits bits →
      runsOut ∧ ∀ pos second, ending = .marker pos second →
        ∃ r, Reader.Ended s.inMem pos second s.br r ∧
          exec (.blkDec c td ta) s = .next (State.finish { s with br := r, res0 := 0 } true) ∧
          exec (.blkSkip c td ta) s = .next (State.finish { s with br := r } true)) ∧
    ∀ (t : Byte) (e : Nat) (code : List Bool), t.toNat ≤ 15 → codedAs dcs t t.toNat e code → code <+: bits →
      let dc := s.pred x + extend e t.toNat
      let dcw := BitVec.ofInt 32 dc
      (¬(-2 ^ 31 ≤ dc ∧ dc ≤ 2 ^ 31 - 1) → stops .coefRange dcw) ∧
      (-2 ^ 31 ≤ dc → dc ≤ 2 ^ 31 - 1 →
        ∀ (items : List (Byte × Nat)) (codes : List (List Bool)) (rest : List Bool) (k : Nat) (blk : Vector Word 64),
          List.Forall₂ (fun it => codedAs acs it.1 (it.1.toNat % 16) it.2) items codes →
          bits = code ++ codes.flatten ++ rest →
          acPlace 1 ((Vector.replicate 64 0).set 0 dcw) items = some (k, blk) →
          let n := (code ++ codes.flatten).length
          (k = 64 → ∃ r, Reader.After s.inMem n s.br r ∧ gives blk dcw 64 false r) ∧
          (k < 64 →
            (∀ q ∈ acs, q.bits <+: rest →
              (q.sym = 0 → ∃ r, Reader.After s.inMem (n + q.size.toNat) s.br r ∧ gives blk dcw k false r) ∧
              (acMeaningless k q.sym → stops .badSymbol (q.sym.setWidth 32)) ∧
              (¬acMeaningless k q.sym → rest.length < q.size.toNat + q.sym.toNat % 16 →
                runsOut ∧ ∀ pos second, ending = .marker pos second →
                  ∃ r, Reader.Ended s.inMem pos second s.br r ∧ gives blk dcw (k + q.sym.toNat / 16) true r)) ∧
            (noCode acs rest →
              (16 ≤ rest.length → stops .codeNotFound (BitVec.ofNat 32 (bitsValue (rest.take 16)))) ∧
              (rest.length < 16 →
                runsOut ∧ ∀ pos second, ending = .marker pos second →
                  ∃ r, Reader.Ended s.inMem pos second s.br r ∧ gives blk dcw k true r))))

/-- 43_coefficient.md R200: "BLK_SKIP consumes exactly the bits BLK_DEC would and updates the DC predictor exactly as BLK_DEC
would ..., but does not write BLK_I"; nor R0 (R207). Where one faults the other does, alike. -/
def Obligations.BlockSkipFollowsBlockDecode : Prop :=
  ∀ (s t : State) (c td ta : Byte), s.fault = false → exec (.blkDec c td ta) s = .next t →
    (t.fault = false → exec (.blkSkip c td ta) s = .next { t with blkI := s.blkI, res0 := s.res0 }) ∧
    (t.fault = true → ∀ cause, t.faultCause = some cause → faultsWith (.blkSkip c td ta) s cause t.faultInfo)

/-- BLK_ENC (43_coefficient.md R198, R199, R204) with legal fields: the codes and extra bits of the block's items are appended;
COEF_RANGE and NO_CODE before anything is written. -/
def Obligations.BlockEncode : Prop :=
  ∀ (s : State) (c td ta : Byte) (x d a : Fin 4), blockFields c td ta = .ok (x, d, a) →
    s.isValid (tableBit .dc d) = true → s.isValid (tableBit .ac a) = true → s.isValid 16 = true → s.bw.ok →
    let de := (s.table .dc d).enc
    let ae := (s.table .ac a).enc
    (∀ e, blockItems s.blkI (s.pred x) = .error e →
      exec (.blkEnc c td ta) s = .next (s.takeFault (encode (.blkEnc c td ta)) e.1 e.2)) ∧
    ∀ items, blockItems s.blkI (s.pred x) = .ok items →
      let missing := items.find? fun it => (encOf de ae it.cls)[it.sym.toFin].size = 0
      let bits := items.flatMap (Item.bits de ae)
      (∀ it, missing = some it →
        exec (.blkEnc c td ta) s = .next (s.takeFault (encode (.blkEnc c td ta)) .noCode (it.sym.setWidth 32))) ∧
      (missing = none → s.bw.room bits →
        exec (.blkEnc c td ta) s = .next (((s.setSink (s.sink.append bits)).setPred x s.blkI[0]).finish false)) ∧
      (missing = none → ¬s.bw.room bits → faultsWith (.blkEnc c td ta) s .ioWrite s.bw.lim)

/-! ### The block transform engine -/

/-- QT_LOAD (44_transform.md R235, 30_encoding.md R96) with legal fields. -/
def Obligations.QuantTableLoad : Prop :=
  ∀ (s : State) (pq tq : Byte) (t : Fin 4), pq.toNat ≤ 1 → tq.toNat = t.val →
    let a := s.argNat 0
    let len := 64 * (1 + pq.toNat)
    let entry := fun (k : Nat) =>
      if pq = 0 then (s.inMem.inByte (a + k)).toNat
      else 256 * (s.inMem.inByte (a + 2 * k)).toNat + (s.inMem.inByte (a + 2 * k + 1)).toNat
    (s.params.inSize < a + len →
      exec (.qtLoad pq tq) s = .next
        (s.takeFault (encode (.qtLoad pq tq)) .ioRead (BitVec.ofNat 32 s.params.inSize))) ∧
    (a + len ≤ s.params.inSize → (∃ k : Fin 64, entry k.val = 0) →
      exec (.qtLoad pq tq) s = .next (s.takeFault (encode (.qtLoad pq tq)) .badTable 5)) ∧
    (a + len ≤ s.params.inSize → (∀ k : Fin 64, entry k.val ≠ 0) →
      ∃ q : Vector Sample 64, (∀ k : Fin 64, (q[zigzag[k]]).toNat = entry k.val) ∧
        exec (.qtLoad pq tq) s = .next ((State.setValid
          { s with
            qt := s.qt.set t.val { q := q, pq := pq = 1 } t.isLt
            res0 := BitVec.ofNat 32 len } (quantBit t) true).finish false))

/-- DEQUANT and QUANT (44_transform.md R227, R228, R236, R237) with a legal, loaded table, for every NUM: of_int of the exact
product; the quotient that NUM's quant gives, COEF_RANGE with the first index that does not fit. Under REF (log 10): the
product itself; the quotient rounded to nearest, halves away from zero, at most half a step off. -/
def Obligations.QuantiseAndDequantise : Prop :=
  ∀ (s : State) (tq : Byte) (t : Fin 4), tq.toNat = t.val → s.isValid (quantBit t) = true →
    (∃ f : Vector NumValue 64, exec (.dequant tq) s = .next (State.finish { s with blkF := f } false) ∧
      ∀ k : Fin 64, f[k] = s.num.ofInt (s.blkI[k].toInt * (s.qt[t].q[k].toNat : Int)) ∧
        (s.params.num = .ref → f[k].toReal = (s.blkI[k].toInt : ℝ) * (s.qt[t].q[k].toNat : ℝ))) ∧
    ((∀ k : Fin 64, s.qt[t].q[k] ≠ 0) →
      let z := fun (k : Fin 64) => s.num.quant s.blkF[k] s.qt[t].q[k].toNat
      (s.params.num = .ref → ∀ k : Fin 64, z k = rndReal (s.blkF[k].toReal / (s.qt[t].q[k].toNat : ℝ)) ∧
        |(z k : ℝ) * (s.qt[t].q[k].toNat : ℝ) - s.blkF[k].toReal| ≤ (s.qt[t].q[k].toNat : ℝ) / 2) ∧
      ((∀ k, -2 ^ 31 ≤ z k ∧ z k ≤ 2 ^ 31 - 1) →
        ∃ b : Vector Word 64, exec (.quant tq) s = .next (State.finish { s with blkI := b } false) ∧
          ∀ k : Fin 64, b[k].toInt = z k) ∧
      (∀ k : Fin 64, ¬(-2 ^ 31 ≤ z k ∧ z k ≤ 2 ^ 31 - 1) → (∀ j, j < k → -2 ^ 31 ≤ z j ∧ z j ≤ 2 ^ 31 - 1) →
        exec (.quant tq) s = .next (s.takeFault (encode (.quant tq)) .coefRange (BitVec.ofNat 32 k.val))))

/-- FDCT and IDCT (44_transform.md R224 to R226, R238, R239), for every NUM: NUM's sums of products, rows first. Under REF
(log 10) they are T.81's two-dimensional transforms (44_transform.md section 1). -/
def Obligations.CosineTransforms : Prop :=
  ∀ s : State,
    (∃ f r : Vector NumValue 64, exec .fdct s = .next (State.finish { s with blkF := f } false) ∧
      (∀ y u : Fin 8, at8 r y.val u.val = dot8 s.num (fun x => s.num.basis u.val x) (fun x => at8 s.blkF y.val x)) ∧
      (∀ v u : Fin 8, at8 f v.val u.val = dot8 s.num (fun y => s.num.basis v.val y) (fun y => at8 r y u.val)) ∧
      (s.params.num = .ref → ∀ v u : Fin 8, (at8 f v.val u.val).toReal = 1 / 4 * dctC u * dctC v *
        ∑ x : Fin 8, ∑ y : Fin 8, (at8 s.blkF y.val x.val).toReal * dctCos u x * dctCos v y)) ∧
    ∃ f r : Vector NumValue 64, exec .idct s = .next (State.finish { s with blkF := f } false) ∧
      (∀ v x : Fin 8, at8 r v.val x.val = dot8 s.num (fun u => s.num.basis u x.val) (fun u => at8 s.blkF v.val u)) ∧
      (∀ y x : Fin 8, at8 f y.val x.val = dot8 s.num (fun v => s.num.basis v y.val) (fun v => at8 r v x.val)) ∧
      (s.params.num = .ref → ∀ y x : Fin 8, (at8 f y.val x.val).toReal = 1 / 4 *
        ∑ u : Fin 8, ∑ v : Fin 8, dctC u * dctC v * (at8 s.blkF v.val u.val).toReal * dctCos u x * dctCos v y)

/-- The basis of REF is T.81's, exactly, and orthogonal (44_transform.md section 1). -/
def Obligations.CosineBasis : Prop :=
  (∀ u x : Fin 8, (Numerics.ref.basis u.val x.val).toReal = 1 / 2 * dctC u * dctCos u x) ∧
  ∀ u w : Fin 8, (∑ x : Fin 8, (Numerics.ref.basis u.val x.val).toReal * (Numerics.ref.basis w.val x.val).toReal) =
    if u = w then 1 else 0

/-- `P_inv` (44_transform.md section 3) under REF (log 10): the transforms undo each other. -/
def Obligations.TransformsUndoEachOther : Prop :=
  ∀ s : State, s.params.num = .ref →
    (∃ t u, exec .fdct s = .next t ∧ exec .idct t = .next u ∧ ∀ k : Fin 64, u.blkF[k].toReal = s.blkF[k].toReal) ∧
    ∃ t u, exec .idct s = .next t ∧ exec .fdct t = .next u ∧ ∀ k : Fin 64, u.blkF[k].toReal = s.blkF[k].toReal

/-- PIX_OUT and PIX_IN (44_transform.md R229, R240, R241), for every NUM: round, add 2^(P−1) and clamp; of_int of the sample
less 2^(P−1). Under REF (log 10) round is to nearest, halves away from zero, and of_int exact. -/
def Obligations.LevelShift : Prop :=
  ∀ s : State,
    let p := s.prec.toNat
    (2 ≤ p ∧ p ≤ 16 →
      (∃ b : Vector Sample 64, exec .pixOut s = .next (State.finish { s with blkP := b } false) ∧
        ∀ k : Fin 64, (b[k].toNat : Int) = max 0 (min (2 ^ p - 1) (s.num.round s.blkF[k] + 2 ^ (p - 1))) ∧
          (s.params.num = .ref → s.num.round s.blkF[k] = rndReal s.blkF[k].toReal)) ∧
      ∃ f : Vector NumValue 64, exec .pixIn s = .next (State.finish { s with blkF := f } false) ∧
        ∀ k : Fin 64, f[k] = s.num.ofInt ((s.blkP[k].toNat : Int) - 2 ^ (p - 1)) ∧
          (s.params.num = .ref → f[k].toReal = (s.blkP[k].toNat : ℝ) - 2 ^ (p - 1))) ∧
    (¬(2 ≤ p ∧ p ≤ 16) →
      exec .pixOut s = .next (s.takeFault 0x55000000 .badArg (BitVec.ofNat 32 p)) ∧
      exec .pixIn s = .next (s.takeFault 0x56000000 .badArg (BitVec.ofNat 32 p)))

/-- `P_shift` (44_transform.md section 3) under REF (log 10): PIX_IN, FDCT, IDCT, PIX_OUT return BLK_P unchanged when every
sample is below 2^P. -/
def Obligations.SamplesSurviveTheRoundTrip : Prop :=
  ∀ s : State, s.params.num = .ref → 2 ≤ s.prec.toNat → s.prec.toNat ≤ 16 →
    (∀ k : Fin 64, s.blkP[k].toNat < 2 ^ s.prec.toNat) →
    ∃ t u v w, exec .pixIn s = .next t ∧ exec .fdct t = .next u ∧ exec .idct u = .next v ∧ exec .pixOut v = .next w ∧
      w.blkP = s.blkP

/-! ### LJ92 -/

/-- LJ_SETUP (45_lj92.md R252): its checks in their order, then its effect. -/
def Obligations.LjSessionSetup : Prop :=
  ∀ s : State,
    let x := s.argNat 0 % 65536
    let y := s.argNat 0 / 65536
    let p := s.argNat 1 % 256
    let nf := s.argNat 1 / 256 % 256
    let ns := s.argNat 1 / 65536 % 256
    let ss := s.argNat 1 / 16777216 % 16
    let pt := s.argNat 1 / 268435456
    let fault := s.takeFault 0x60000000
    exec .ljSetup s = .next
      (if x = 0 ∨ y = 0 then fault .ljBadFormat 1
      else if p < 2 ∨ 16 < p then fault .ljBadFormat 2
      else if nf < 1 ∨ 4 < nf then fault .ljBadFormat 3
      else if ns ≠ nf then fault .ljBadFormat 4
      else if 7 < ss then fault .ljBadFormat 5
      else if ss = 0 then fault .unsupported 0x100
      else if pt ≠ 0 then fault .unsupported (BitVec.ofNat 32 (0x200 + pt))
      else if 31 < s.argNat 3 then fault .badArg s.arg[3]
      else if x * y * nf ≠ s.argNat 2 then fault .ljMismatch 1
      else if p ≠ s.argNat 3 then fault .ljMismatch 2
      else State.finish
        { s with
          lj := { s.lj with
            x := BitVec.ofNat 16 x, y := BitVec.ofNat 16 y, bits := BitVec.ofNat 5 p, nc := BitVec.ofNat 3 nf
            ss := BitVec.ofNat 3 ss, pt := 0 }
          valid := s.valid ||| 0x1000, res0 := BitVec.ofNat 32 (x * y * nf) } false)

/-- LJ_HT_LOAD and LJ_LIN_LOAD (45_lj92.md R253, R261, R262): the table with MAXBITS and the lookup table, whose entry for every
window is the slot whose code the window begins with; the linearisation entries, little-endian. -/
def Obligations.LjTableLoads : Prop :=
  ∀ s : State,
    let a := s.argNat 0
    let lim := s.argNat 1
    let p := payloadAt s.inMem a
    let n := p.syms.length
    (s.params.inSize < lim → exec .ljHtLoad s = .next (s.takeFault 0x61000000 .ioRead s.arg[1])) ∧
    (lim ≤ s.params.inSize → lim < a + 16 → exec .ljHtLoad s = .next (s.takeFault 0x61000000 .badTable 1)) ∧
    (lim ≤ s.params.inSize → a + 16 ≤ lim → 256 < n → exec .ljHtLoad s = .next (s.takeFault 0x61000000 .badTable 2)) ∧
    (lim ≤ s.params.inSize → a + 16 ≤ lim → n ≤ 256 → lim < a + 16 + n →
      exec .ljHtLoad s = .next (s.takeFault 0x61000000 .badTable 3)) ∧
    (lim ≤ s.params.inSize → a + 16 + n ≤ lim → n ≤ 256 → 2 ^ 16 < p.kraft →
      exec .ljHtLoad s = .next (s.takeFault 0x61000000 .badTable 4)) ∧
    (lim ≤ s.params.inSize → a + 16 + n ≤ lim → n ≤ 256 → p.kraft ≤ 2 ^ 16 →
      ∃ (slots : List Slot) (lut : List LutEntry) (maxBits : Nat), buildSlots p = .ok slots ∧
        (maxBits = 0 ∨ p.lengths.getD (maxBits - 1) 0 ≠ 0) ∧ (∀ i, maxBits ≤ i → p.lengths.getD i 0 = 0) ∧
        lut.length = 2 ^ maxBits ∧
        (∀ w, w < 2 ^ maxBits →
          (∀ k ∈ slots, k.bits <+: numBits w maxBits → lut[w]? = some { sym := k.sym, len := k.size }) ∧
          ((∀ k ∈ slots, ¬k.bits <+: numBits w maxBits) → lut[w]? = some { sym := 0, len := 0 })) ∧
        exec .ljHtLoad s = .next (State.finish
          { s with
            lj := { s.lj with spec := p, maxBits := BitVec.ofNat 5 maxBits, lut := lut }
            valid := s.valid ||| 0x2000, res0 := BitVec.ofNat 32 (16 + n) } false)) ∧
    (65536 < lim → exec .ljLinLoad s = .next (s.takeFault 0x62000000 .badArg s.arg[1])) ∧
    (lim = 0 →
      exec .ljLinLoad s = .next (State.finish
        { s with lj := { s.lj with lin := [] }, valid := s.valid &&& ~~~0x4000 } false)) ∧
    (1 ≤ lim → lim ≤ 65536 → s.params.inSize < a + 2 * lim →
      exec .ljLinLoad s = .next (s.takeFault 0x62000000 .ioRead (BitVec.ofNat 32 s.params.inSize))) ∧
    (1 ≤ lim → lim ≤ 65536 → a + 2 * lim ≤ s.params.inSize →
      ∃ lin : List Sample, lin.length = lim ∧
        (∀ i v, lin[i]? = some v →
          v.toNat = (s.inMem.inByte (a + 2 * i)).toNat + 256 * (s.inMem.inByte (a + 2 * i + 1)).toNat) ∧
        exec .ljLinLoad s = .next (State.finish
          { s with lj := { s.lj with lin := lin }, valid := s.valid ||| 0x4000 } false))

/-- 45_lj92.md R254, the equivalence with the table: with `a` bits left before the segment end, `w` the next MAXBITS bits (0 beyond
the end) and (s, l) = LUT[w], `lj_symbol` returns s and takes l bits when 1 ≤ l ≤ a; otherwise it raises TRUNCATED when
a < MAXBITS, CODE_NOT_FOUND when not. -/
def Obligations.LookupAgreesWithBitSerial : Prop :=
  ∀ (p : HuffSpec) (slots : List Slot) (m : Memory) (r : Reader) (pos : Nat) (second : Byte),
    buildSlots p = .ok slots → r.cnt.toNat ≤ 8 → (r.rest m).2 = .marker pos second →
    let bits := r.bits m
    let w := bitsValue ((bits ++ List.replicate p.maxBits false).take p.maxBits)
    ∀ e, (buildLut slots p.maxBits)[w]? = some e →
      (1 ≤ e.len.toNat ∧ e.len.toNat ≤ bits.length →
        ∃ r', ljSymbol m slots p.maxBits r = .ok (e.sym, r') ∧ Reader.After m e.len.toNat r r') ∧
      (¬(1 ≤ e.len.toNat ∧ e.len.toNat ≤ bits.length) →
        ljSymbol m slots p.maxBits r = .error
          (if bits.length < p.maxBits then (.truncated, BitVec.ofNat 32 pos)
          else (.codeNotFound, BitVec.ofNat 32 (bitsValue (bits.take p.maxBits)))))

/-- LJ_DECODE (45_lj92.md R251, R255 to R260, R263), with a session set up and a table loaded: IO_WRITE where the image does not fit
OUT, before anything is decoded; from a stream that codes one residual per sample the image, reconstructed by prediction modulo
2^16, sample by sample in output order, remapped where LIN_EN, and written little-endian. Behind any number of samples:
BAD_SYMBOL for a category above 16, CODE_NOT_FOUND with MAXBITS bits, TRUNCATED with the marker's address or IO_READ where the
segment ends inside a residual, LIN_RANGE with a sample that is no index of LIN. -/
def Obligations.LjImageDecode : Prop :=
  ∀ (s : State) (slots : List Slot),
    let n := s.lj.x.toNat * s.lj.y.toNat * s.lj.nc.toNat
    s.isValid 12 = true → s.isValid 13 = true → s.isValid 15 = true → s.ljOk →
    buildSlots s.lj.spec = .ok slots → s.br.cnt.toNat ≤ 8 →
    (s.params.outSize < s.argNat 0 + 2 * n →
      exec .ljDecode s = .next (s.takeFault 0x63000000 .ioWrite (BitVec.ofNat 32 s.params.outSize))) ∧
    ∀ (ds : List Int) (codes : List (List Bool)) (rest : List Bool),
      let vs := ljSamples s.lj [] ds
      let ending := (s.br.rest s.inMem).2
      s.argNat 0 + 2 * n ≤ s.params.outSize → List.Forall₂ (ljCodes slots) ds codes →
      s.br.bits s.inMem = codes.flatten ++ rest → (s.isValid 14 = true → ∀ v ∈ vs, v.toNat < s.lj.lin.length) →
      (ds.length = n →
        ∃ r, Reader.After s.inMem codes.flatten.length s.br r ∧
          exec .ljDecode s = .next (State.finish
            { s with
              br := r, res0 := BitVec.ofNat 32 n
              outMem := s.outMem.setSamples (s.argNat 0)
                (if s.isValid 14 then vs.map fun v => s.lj.lin.getD v.toNat 0 else vs)
              lj := { s.lj with
                cur := vs.drop (n - s.lj.x.toNat * s.lj.nc.toNat)
                prev := vs.drop (n - s.lj.x.toNat * s.lj.nc.toNat) } } false)) ∧
      (ds.length < n →
        (∀ q ∈ slots, q.bits <+: rest → 16 < q.sym.toNat → faultsWith .ljDecode s .badSymbol (q.sym.setWidth 32)) ∧
        (noCode slots rest → s.lj.maxBits.toNat ≤ rest.length →
          faultsWith .ljDecode s .codeNotFound (BitVec.ofNat 32 (bitsValue (rest.take s.lj.maxBits.toNat)))) ∧
        (endsInside slots s.lj.maxBits.toNat categoryBits rest →
          (∀ pos second, ending = .marker pos second → faultsWith .ljDecode s .truncated (BitVec.ofNat 32 pos)) ∧
          ∀ addr, ending = .runsOut addr → faultsWith .ljDecode s .ioRead (BitVec.ofNat 32 addr)) ∧
        ∀ (d : Int) (code : List Bool), ljCodes slots d code → code <+: rest →
          let v := ljReconstruct s.lj vs vs.length d
          s.isValid 14 = true → s.lj.lin.length ≤ v.toNat → faultsWith .ljDecode s .linRange (v.setWidth 32))

/-- 45_lj92.md R256: the seven predictors and its sample values. -/
def Obligations.LjPredictors : Prop :=
  (∀ a b c : Int,
    predictor 1 a b c = a ∧ predictor 2 a b c = b ∧ predictor 3 a b c = c ∧ predictor 4 a b c = a + b - c ∧
    predictor 5 a b c = a + ⌊((b - c : Int) : ℚ) / 2⌋ ∧ predictor 6 a b c = b + ⌊((a - c : Int) : ℚ) / 2⌋ ∧
    predictor 7 a b c = ⌊((a + b : Int) : ℚ) / 2⌋) ∧
  [1, 2, 3, 4, 5, 6, 7].map (fun ss => predictor ss 10 20 7) = [10, 20, 7, 23, 16, 21, 15] ∧
  predictor 5 10 7 20 = 3 ∧ predictor 6 10 7 20 = 2 ∧ predictor 4 10 7 20 = -3 ∧
  ∀ (s : State), s.argNat 1 / 16777216 % 16 = 0 → ∀ t, exec .ljSetup s = .next t → t.fault = true

/-! ### Bit-unpacking -/

/-- 46_unpack.md R291: sample j is bits `[j·w, (j+1)·w)` of the string of the input's bits, first bit most significant; the byte
formulas of R292 to R294 are this rule. -/
def Obligations.UnpackIsBitSlicing : Prop :=
  ∀ (m : Memory) (a n : Nat),
    unpackSamples m a 5 n group10 = packedSamples m a (5 * n) 10 (4 * n) ∧
    unpackSamples m a 3 n group12 = packedSamples m a (3 * n) 12 (2 * n) ∧
    unpackSamples m a 7 n group14 = packedSamples m a (7 * n) 14 (4 * n)

/-- The four unpack commands (46_unpack.md R295 to R300): the checks in their order, then the samples written little-endian at
A2 and their number in R0. -/
def Obligations.UnpackCommands : Prop :=
  ∀ (s : State) (i : Instr) (g k w pre : Nat),
    (i, g, k, w, pre) ∈ [(Instr.unpack10, 5, 4, 10, 0), (.unpack12, 3, 2, 12, 0), (.unpack14, 7, 4, 14, 0),
      (.unpack12v, 3, 2, 12, 4)] →
    let a := s.argNat 0
    let len := s.argNat 1
    let n := len / g * k
    let fault := s.takeFault (encode i)
    exec i s = .next
      (if len % g ≠ 0 then fault .badArg s.arg[1]
      else if a < pre then fault .ioRead s.arg[0]
      else if s.params.inSize < a + len then fault .ioRead (BitVec.ofNat 32 s.params.inSize)
      else if s.params.outSize < s.argNat 2 + 2 * n then fault .ioWrite (BitVec.ofNat 32 s.params.outSize)
      else State.finish
        { s with
          outMem := s.outMem.setList (s.argNat 2) ((packedSamples s.inMem a len w n).flatMap fun v =>
            [BitVec.ofNat 8 (v.toNat % 256), BitVec.ofNat 8 (v.toNat / 256)])
          res0 := BitVec.ofNat 32 n } false)

/-- 46_unpack.md R301: "For all A0 ≥ 4, A1, A2 and all memory contents, UNPACK12V and UNPACK12 produce the same OUT bytes, the same
R0 and the same fault or absence of fault"; for A0 < 4 UNPACK12V faults where UNPACK12 may succeed. -/
def Obligations.WideUnpackEqualsScalar : Prop :=
  ∀ (s t u : State), exec .unpack12 s = .next t → exec .unpack12v s = .next u →
    (4 ≤ s.argNat 0 ∨ s.argNat 1 % 3 ≠ 0 →
      u.outMem = t.outMem ∧ u.res0 = t.res0 ∧ u.fault = t.fault ∧ u.segEnd = t.segEnd ∧
      u.faultCause = t.faultCause ∧ u.faultInfo = t.faultInfo) ∧
    (s.argNat 0 < 4 → s.argNat 1 % 3 = 0 → u = s.takeFault 0x73000000 .ioRead s.arg[0])

/-! ### Invariants -/

/-- Every step keeps the memories in canonical form inside their sizes (20_memory.md R60, R65), and the BitWriter inside its
window with nothing above its CNT bits (10_state.md R29). -/
def Obligations.MemoryAndWriterStaySound : Prop :=
  ∀ s t : State, s.memoryOk → s.writerOk → step s = .next t → t.memoryOk ∧ t.writerOk

/-- Every step keeps the BitReader inside its window and its buffer as 10_state.md R28 describes it. -/
def Obligations.ReaderStaysSound : Prop :=
  ∀ s t : State, s.readerOk → step s = .next t → t.readerOk

/-- Every step keeps the fault registers as 10_state.md R24 and R25 describe them. -/
def Obligations.FaultRegistersStaySound : Prop :=
  ∀ s t : State, s.faultOk → step s = .next t → t.faultOk

/-- Every step keeps each of these: the Huffman tables agree with their specifications (70_reset_and_hazards.md R363), loaded
quantisation tables have no zero (44_transform.md R235), the sentinel slots are 0 (10_state.md R32), unset predictors are 0
(10_state.md R30), the LJ92 session is as 10_state.md R36 describes it. -/
def Obligations.TablesStaySound : Prop :=
  ∀ s t : State, step s = .next t →
    (s.tablesOk → t.tablesOk) ∧ (s.quantOk → t.quantOk) ∧ (s.sentinelOk → t.sentinelOk) ∧ (s.predsOk → t.predsOk) ∧
    (s.ljOk → t.ljOk)

/-- The reset state, of any memory sizes and any NUM, meets every invariant (10_state.md R39). -/
def Obligations.ResetIsSound : Prop :=
  ∀ p : Params, p.wf →
    let s := State.resetOf p
    s.memoryOk ∧ s.writerOk ∧ s.readerOk ∧ s.faultOk ∧ s.tablesOk ∧ s.quantOk ∧ s.sentinelOk ∧ s.predsOk ∧ s.ljOk

end
end

