-- ==== Sys2Proof/Laws/Memory.lean ====
section
/-! SUPPORT. The laws of memory: what a read after a write gives, and that every memory operation keeps the canonical form
and the bounds. -/

namespace Sys2Proof.Machine

/-! ### Reading after writing -/

@[simp] theorem Memory.get?_nil (a : Nat) : Memory.get? [] a = none := rfl

theorem Memory.get?_cons (c : Host.Cell) (m : Memory) (a : Nat) :
    Memory.get? (c :: m) a = if c.1 = a then some c.2 else Memory.get? m a := rfl

theorem Memory.get?_set (m : Memory) (a b : Nat) (v : Byte) :
    (m.set a v).get? b = if b = a then some v else m.get? b := by
  induction m with
  | nil => simp [Memory.set, Memory.get?, eq_comm]
  | cons c m ih =>
    simp only [Memory.set]
    split
    · simp [Memory.get?, eq_comm]
    · split
      · rename_i h
        subst h
        by_cases hb : b = c.1 <;> simp [Memory.get?, hb, eq_comm]
      · rename_i _ h
        simp only [Memory.get?, ih]
        by_cases hb : b = a
        · subst hb; simp [Ne.symm h]
        · simp [hb]

@[simp] theorem Memory.get?_set_self (m : Memory) (a : Nat) (v : Byte) : (m.set a v).get? a = some v := by
  simp [Memory.get?_set]

/-- A run of consecutive bytes: inside the run the byte written, outside it the byte before. -/
theorem Memory.get?_setList (m : Memory) (a b : Nat) (vs : List Byte) :
    (m.setList a vs).get? b = if a ≤ b ∧ b < a + vs.length then vs[b - a]? else m.get? b := by
  induction vs generalizing m a with
  | nil => simp [Memory.setList]
  | cons v vs ih =>
    simp only [Memory.setList, ih, Memory.get?_set, List.length_cons]
    by_cases h : b = a
    · subst h
      rw [if_neg (by omega), if_pos rfl, if_pos (by omega), Nat.sub_self]
      rfl
    · by_cases h1 : a + 1 ≤ b ∧ b < a + 1 + vs.length
      · rw [if_pos h1, if_pos (by omega), show b - a = b - (a + 1) + 1 by omega]
        rfl
      · rw [if_neg h1, if_neg h, if_neg (by omega)]

/-- Outside the run nothing changes. -/
theorem Memory.setList_sameOutside (m : Memory) (a : Nat) (vs : List Byte) :
    sameOutside m (m.setList a vs) a (a + vs.length) := by
  intro b hb
  rw [Memory.get?_setList, if_neg (by omega)]

theorem Memory.setList_append (m : Memory) (a : Nat) (vs ws : List Byte) :
    m.setList a (vs ++ ws) = (m.setList a vs).setList (a + vs.length) ws := by
  induction vs generalizing m a with
  | nil => rfl
  | cons v vs ih => simp [Memory.setList, ih, Nat.add_assoc, Nat.add_comm 1]

/-- The bytes just written are read back. -/
theorem Memory.readList_setList (m : Memory) (a : Nat) (vs : List Byte) :
    (m.setList a vs).readList a vs.length = vs := by
  apply List.ext_getElem
  · simp [Memory.readList]
  · intro i h1 h2
    simp [Memory.readList, Memory.inByte, Memory.get?_setList, h2]

@[simp] theorem Memory.readList_length (m : Memory) (a n : Nat) : (m.readList a n).length = n := by
  simp [Memory.readList]

theorem Memory.draw_sameOutside (m : Memory) (a n d : Nat) : sameOutside m (m.draw a n d) a (a + n) := by
  have := Memory.setList_sameOutside m a ((List.range n).map fun i => (Config.free d (.outByte (a + i))).setWidth 8)
  simpa [Memory.draw] using this

@[simp] theorem le16_length (v : Sample) : (le16 v).length = 2 := rfl

theorem samples_length (vs : List Sample) : (vs.flatMap le16).length = 2 * vs.length := by
  induction vs with
  | nil => rfl
  | cons v vs ih => simp [ih]; omega

theorem Memory.setSamples_sameOutside (m : Memory) (a : Nat) (vs : List Sample) :
    sameOutside m (m.setSamples a vs) a (a + 2 * vs.length) := by
  have := Memory.setList_sameOutside m a (vs.flatMap le16)
  rwa [samples_length] at this

theorem sameOutside.trans {m m' m'' : Memory} {lo hi : Nat} (h : sameOutside m m' lo hi)
    (h' : sameOutside m' m'' lo hi) : sameOutside m m'' lo hi :=
  fun a ha => (h' a ha).trans (h a ha)

theorem sameOutside.refl (m : Memory) (lo hi : Nat) : sameOutside m m lo hi := fun _ _ => rfl

theorem sameOutside.mono {m m' : Memory} {lo hi lo' hi' : Nat} (h : sameOutside m m' lo hi) (hl : lo' ≤ lo)
    (hh : hi ≤ hi') : sameOutside m m' lo' hi' :=
  fun a ha => h a (by omega)

/-- The low and high byte of a sample written little-endian. -/
theorem le16_value (v : Sample) : ((le16 v)[1]'(by simp)) ++ ((le16 v)[0]'(by simp)) = v := by
  simp only [le16, List.getElem_cons_zero, List.getElem_cons_succ]
  ext i hi
  simp only [BitVec.getElem_append, BitVec.getElem_extractLsb']
  split
  · simp [BitVec.getLsbD_eq_getElem hi]
  · rw [show 8 + (i - 8) = i by omega]
    simp [BitVec.getLsbD_eq_getElem hi]

/-! ### The canonical form -/

theorem Memory.wf_cons (c : Host.Cell) (m : Memory) :
    Memory.wf (c :: m) = true ↔ (∀ d ∈ m, c.1 < d.1) ∧ Memory.wf m = true := by
  induction m generalizing c with
  | nil => simp [Memory.wf]
  | cons d m ih =>
    simp only [Memory.wf, Bool.and_eq_true, decide_eq_true_eq, List.mem_cons, forall_eq_or_imp]
    constructor
    · rintro ⟨h, hw⟩
      exact ⟨⟨h, fun e he => Nat.lt_trans h (((ih d).1 hw).1 e he)⟩, hw⟩
    · rintro ⟨⟨h, _⟩, hw⟩
      exact ⟨h, hw⟩

theorem Memory.mem_set {m : Memory} {a : Nat} {v : Byte} {c : Host.Cell} (h : c ∈ m.set a v) : c = (a, v) ∨ c ∈ m := by
  induction m with
  | nil => simpa [Memory.set] using h
  | cons d m ih =>
    simp only [Memory.set] at h
    split at h
    · simpa using h
    · split at h
      · rcases List.mem_cons.1 h with h | h
        · exact .inl h
        · exact .inr (List.mem_cons_of_mem _ h)
      · rcases List.mem_cons.1 h with h | h
        · exact .inr (h ▸ List.mem_cons_self)
        · exact (ih h).imp_right (List.mem_cons_of_mem _)

theorem Memory.set_wf (m : Memory) (a : Nat) (v : Byte) (h : m.wf = true) : (m.set a v).wf = true := by
  induction m with
  | nil => rfl
  | cons c m ih =>
    obtain ⟨hc, hm⟩ := (Memory.wf_cons c m).1 h
    simp only [Memory.set]
    split
    · rename_i hlt
      refine (Memory.wf_cons _ _).2 ⟨fun d hd => ?_, h⟩
      rcases List.mem_cons.1 hd with rfl | hd
      · exact hlt
      · exact Nat.lt_trans hlt (hc d hd)
    · split
      · rename_i he
        exact (Memory.wf_cons _ _).2 ⟨fun d hd => he ▸ hc d hd, hm⟩
      · refine (Memory.wf_cons _ _).2 ⟨fun d hd => ?_, ih hm⟩
        rcases Memory.mem_set hd with rfl | hd
        · show c.1 < a
          omega
        · exact hc d hd

theorem Memory.setList_wf (m : Memory) (a : Nat) (vs : List Byte) (h : m.wf = true) : (m.setList a vs).wf = true := by
  induction vs generalizing m a with
  | nil => exact h
  | cons v vs ih => exact ih _ _ (Memory.set_wf m a v h)

theorem Memory.draw_wf (m : Memory) (a n d : Nat) (h : m.wf = true) : (m.draw a n d).wf = true :=
  Memory.setList_wf m a _ h

theorem Memory.setSamples_wf (m : Memory) (a : Nat) (vs : List Sample) (h : m.wf = true) :
    (m.setSamples a vs).wf = true := Memory.setList_wf m a _ h

/-! ### Only addresses that exist -/

theorem Memory.within_iff (m : Memory) (size : Nat) : m.within size = true ↔ ∀ c ∈ m, c.1 < size := by
  simp [Memory.within]

theorem Memory.set_within (m : Memory) (a size : Nat) (v : Byte) (h : m.within size = true) (ha : a < size) :
    (m.set a v).within size = true := by
  rw [Memory.within_iff] at *
  intro c hc
  rcases Memory.mem_set hc with rfl | hc
  · exact ha
  · exact h c hc

theorem Memory.setList_within (m : Memory) (a size : Nat) (vs : List Byte) (h : m.within size = true)
    (ha : a + vs.length ≤ size) : (m.setList a vs).within size = true := by
  induction vs generalizing m a with
  | nil => exact h
  | cons v vs ih =>
    rw [List.length_cons] at ha
    exact ih _ _ (Memory.set_within m a size v h (by omega)) (by omega)

theorem Memory.draw_within (m : Memory) (a n d size : Nat) (h : m.within size = true) (ha : a + n ≤ size) :
    (m.draw a n d).within size = true :=
  Memory.setList_within m a size _ h (by simpa using ha)

theorem Memory.setSamples_within (m : Memory) (a size : Nat) (vs : List Sample) (h : m.within size = true)
    (ha : a + 2 * vs.length ≤ size) : (m.setSamples a vs).within size = true :=
  Memory.setList_within m a size _ h (by rw [samples_length]; exact ha)

/-! ### Equal memories are equal data -/

theorem Memory.get?_eq_none (m : Memory) (a : Nat) (h : ∀ d ∈ m, a < d.1) : m.get? a = none := by
  induction m with
  | nil => rfl
  | cons d m ih =>
    have := h d List.mem_cons_self
    rw [Memory.get?_cons, if_neg (by omega)]
    exact ih fun e he => h e (List.mem_cons_of_mem _ he)

/-- Two memories in canonical form that hold the same bytes are the same list. -/
theorem Memory.ext (m m' : Memory) (h : m.wf = true) (h' : m'.wf = true) (e : ∀ a, m.get? a = m'.get? a) : m = m' := by
  induction m generalizing m' with
  | nil =>
    cases m' with
    | nil => rfl
    | cons d m' => simpa [Memory.get?] using e d.1
  | cons c m ih =>
    cases m' with
    | nil => simpa [Memory.get?] using e c.1
    | cons d m' =>
      obtain ⟨hc, hm⟩ := (Memory.wf_cons _ _).1 h
      obtain ⟨hd, hm'⟩ := (Memory.wf_cons _ _).1 h'
      have key : c.1 = d.1 := by
        rcases Nat.lt_trichotomy c.1 d.1 with hlt | he | hlt
        · have := e c.1
          rw [Memory.get?_eq_none (d :: m') c.1 (by
            intro x hx
            rcases List.mem_cons.1 hx with rfl | hx
            · exact hlt
            · exact Nat.lt_trans hlt (hd x hx))] at this
          simp [Memory.get?] at this
        · exact he
        · have := e d.1
          rw [Memory.get?_eq_none (c :: m) d.1 (by
            intro x hx
            rcases List.mem_cons.1 hx with rfl | hx
            · exact hlt
            · exact Nat.lt_trans hlt (hc x hx))] at this
          simp [Memory.get?] at this
      have hv : c.2 = d.2 := by simpa [Memory.get?, key] using e c.1
      have hcd : c = d := Prod.ext key hv
      subst hcd
      congr 1
      refine ih m' hm hm' fun a => ?_
      by_cases ha : c.1 = a
      · subst ha
        rw [Memory.get?_eq_none m _ hc, Memory.get?_eq_none m' _ hd]
      · simpa [Memory.get?, ha] using e a

theorem reset_memory_wf : State.reset.inMem.wf = true ∧ State.reset.outMem.wf = true := ⟨rfl, rfl⟩

end Sys2Proof.Machine
end

