-- ==== Sys2Proof/Laws/State.lean ====
section
/-! SUPPORT. One lemma per field per state update, true by computation, so that no proof unfolds a record update. -/

namespace Sys2Proof.Machine

/-! ### `finish` -/

@[simp] theorem State.finish_params (s : State) (b : Bool) : (s.finish b).params = s.params := rfl
@[simp] theorem State.finish_arg (s : State) (b : Bool) : (s.finish b).arg = s.arg := rfl
@[simp] theorem State.finish_res0 (s : State) (b : Bool) : (s.finish b).res0 = s.res0 := rfl
@[simp] theorem State.finish_res1 (s : State) (b : Bool) : (s.finish b).res1 = s.res1 := rfl
@[simp] theorem State.finish_busy (s : State) (b : Bool) : (s.finish b).busy = s.busy := rfl
@[simp] theorem State.finish_fault (s : State) (b : Bool) : (s.finish b).fault = s.fault := rfl
@[simp] theorem State.finish_segEnd (s : State) (b : Bool) : (s.finish b).segEnd = b := rfl
@[simp] theorem State.finish_faultCause (s : State) (b : Bool) : (s.finish b).faultCause = s.faultCause := rfl
@[simp] theorem State.finish_faultInfo (s : State) (b : Bool) : (s.finish b).faultInfo = s.faultInfo := rfl
@[simp] theorem State.finish_faultCmd (s : State) (b : Bool) : (s.finish b).faultCmd = s.faultCmd := rfl
@[simp] theorem State.finish_valid (s : State) (b : Bool) : (s.finish b).valid = s.valid := rfl
@[simp] theorem State.finish_prec (s : State) (b : Bool) : (s.finish b).prec = s.prec := rfl
@[simp] theorem State.finish_br (s : State) (b : Bool) : (s.finish b).br = s.br := rfl
@[simp] theorem State.finish_rstRd (s : State) (b : Bool) : (s.finish b).rstRd = s.rstRd := rfl
@[simp] theorem State.finish_bw (s : State) (b : Bool) : (s.finish b).bw = s.bw := rfl
@[simp] theorem State.finish_rstWr (s : State) (b : Bool) : (s.finish b).rstWr = s.rstWr := rfl
@[simp] theorem State.finish_dcp (s : State) (b : Bool) : (s.finish b).dcp = s.dcp := rfl
@[simp] theorem State.finish_htDc (s : State) (b : Bool) : (s.finish b).htDc = s.htDc := rfl
@[simp] theorem State.finish_htAc (s : State) (b : Bool) : (s.finish b).htAc = s.htAc := rfl
@[simp] theorem State.finish_fqDc (s : State) (b : Bool) : (s.finish b).fqDc = s.fqDc := rfl
@[simp] theorem State.finish_fqAc (s : State) (b : Bool) : (s.finish b).fqAc = s.fqAc := rfl
@[simp] theorem State.finish_qt (s : State) (b : Bool) : (s.finish b).qt = s.qt := rfl
@[simp] theorem State.finish_blkI (s : State) (b : Bool) : (s.finish b).blkI = s.blkI := rfl
@[simp] theorem State.finish_blkF (s : State) (b : Bool) : (s.finish b).blkF = s.blkF := rfl
@[simp] theorem State.finish_blkP (s : State) (b : Bool) : (s.finish b).blkP = s.blkP := rfl
@[simp] theorem State.finish_lj (s : State) (b : Bool) : (s.finish b).lj = s.lj := rfl
@[simp] theorem State.finish_inMem (s : State) (b : Bool) : (s.finish b).inMem = s.inMem := rfl
@[simp] theorem State.finish_outMem (s : State) (b : Bool) : (s.finish b).outMem = s.outMem := rfl
@[simp] theorem State.finish_host (s : State) (b : Bool) : (s.finish b).host = s.host := rfl
@[simp] theorem State.finish_hostData (s : State) (b : Bool) : (s.finish b).hostData = s.hostData := rfl
@[simp] theorem State.finish_draws (s : State) (b : Bool) : (s.finish b).draws = s.draws := rfl

/-! ### `setValid` -/

@[simp] theorem State.setValid_params (s : State) (n : Nat) (b : Bool) : (s.setValid n b).params = s.params := rfl
@[simp] theorem State.setValid_arg (s : State) (n : Nat) (b : Bool) : (s.setValid n b).arg = s.arg := rfl
@[simp] theorem State.setValid_res0 (s : State) (n : Nat) (b : Bool) : (s.setValid n b).res0 = s.res0 := rfl
@[simp] theorem State.setValid_res1 (s : State) (n : Nat) (b : Bool) : (s.setValid n b).res1 = s.res1 := rfl
@[simp] theorem State.setValid_busy (s : State) (n : Nat) (b : Bool) : (s.setValid n b).busy = s.busy := rfl
@[simp] theorem State.setValid_fault (s : State) (n : Nat) (b : Bool) : (s.setValid n b).fault = s.fault := rfl
@[simp] theorem State.setValid_segEnd (s : State) (n : Nat) (b : Bool) : (s.setValid n b).segEnd = s.segEnd := rfl
@[simp] theorem State.setValid_faultCause (s : State) (n : Nat) (b : Bool) : (s.setValid n b).faultCause = s.faultCause := rfl
@[simp] theorem State.setValid_faultInfo (s : State) (n : Nat) (b : Bool) : (s.setValid n b).faultInfo = s.faultInfo := rfl
@[simp] theorem State.setValid_faultCmd (s : State) (n : Nat) (b : Bool) : (s.setValid n b).faultCmd = s.faultCmd := rfl
@[simp] theorem State.setValid_valid (s : State) (n : Nat) (b : Bool) : (s.setValid n b).valid = if b then s.valid ||| BitVec.twoPow 17 n else s.valid &&& ~~~(BitVec.twoPow 17 n) := rfl
@[simp] theorem State.setValid_prec (s : State) (n : Nat) (b : Bool) : (s.setValid n b).prec = s.prec := rfl
@[simp] theorem State.setValid_br (s : State) (n : Nat) (b : Bool) : (s.setValid n b).br = s.br := rfl
@[simp] theorem State.setValid_rstRd (s : State) (n : Nat) (b : Bool) : (s.setValid n b).rstRd = s.rstRd := rfl
@[simp] theorem State.setValid_bw (s : State) (n : Nat) (b : Bool) : (s.setValid n b).bw = s.bw := rfl
@[simp] theorem State.setValid_rstWr (s : State) (n : Nat) (b : Bool) : (s.setValid n b).rstWr = s.rstWr := rfl
@[simp] theorem State.setValid_dcp (s : State) (n : Nat) (b : Bool) : (s.setValid n b).dcp = s.dcp := rfl
@[simp] theorem State.setValid_htDc (s : State) (n : Nat) (b : Bool) : (s.setValid n b).htDc = s.htDc := rfl
@[simp] theorem State.setValid_htAc (s : State) (n : Nat) (b : Bool) : (s.setValid n b).htAc = s.htAc := rfl
@[simp] theorem State.setValid_fqDc (s : State) (n : Nat) (b : Bool) : (s.setValid n b).fqDc = s.fqDc := rfl
@[simp] theorem State.setValid_fqAc (s : State) (n : Nat) (b : Bool) : (s.setValid n b).fqAc = s.fqAc := rfl
@[simp] theorem State.setValid_qt (s : State) (n : Nat) (b : Bool) : (s.setValid n b).qt = s.qt := rfl
@[simp] theorem State.setValid_blkI (s : State) (n : Nat) (b : Bool) : (s.setValid n b).blkI = s.blkI := rfl
@[simp] theorem State.setValid_blkF (s : State) (n : Nat) (b : Bool) : (s.setValid n b).blkF = s.blkF := rfl
@[simp] theorem State.setValid_blkP (s : State) (n : Nat) (b : Bool) : (s.setValid n b).blkP = s.blkP := rfl
@[simp] theorem State.setValid_lj (s : State) (n : Nat) (b : Bool) : (s.setValid n b).lj = s.lj := rfl
@[simp] theorem State.setValid_inMem (s : State) (n : Nat) (b : Bool) : (s.setValid n b).inMem = s.inMem := rfl
@[simp] theorem State.setValid_outMem (s : State) (n : Nat) (b : Bool) : (s.setValid n b).outMem = s.outMem := rfl
@[simp] theorem State.setValid_host (s : State) (n : Nat) (b : Bool) : (s.setValid n b).host = s.host := rfl
@[simp] theorem State.setValid_hostData (s : State) (n : Nat) (b : Bool) : (s.setValid n b).hostData = s.hostData := rfl
@[simp] theorem State.setValid_draws (s : State) (n : Nat) (b : Bool) : (s.setValid n b).draws = s.draws := rfl

/-! ### `takeFault` -/

@[simp] theorem State.takeFault_params (s : State) (w : Word) (c : Cause) (info : Word) : (s.takeFault w c info).params = s.params := rfl
@[simp] theorem State.takeFault_arg (s : State) (w : Word) (c : Cause) (info : Word) : (s.takeFault w c info).arg = s.arg := rfl
@[simp] theorem State.takeFault_res0 (s : State) (w : Word) (c : Cause) (info : Word) : (s.takeFault w c info).res0 = s.res0 := rfl
@[simp] theorem State.takeFault_res1 (s : State) (w : Word) (c : Cause) (info : Word) : (s.takeFault w c info).res1 = s.res1 := rfl
@[simp] theorem State.takeFault_busy (s : State) (w : Word) (c : Cause) (info : Word) : (s.takeFault w c info).busy = false := rfl
@[simp] theorem State.takeFault_fault (s : State) (w : Word) (c : Cause) (info : Word) : (s.takeFault w c info).fault = true := rfl
@[simp] theorem State.takeFault_segEnd (s : State) (w : Word) (c : Cause) (info : Word) : (s.takeFault w c info).segEnd = false := rfl
@[simp] theorem State.takeFault_faultCause (s : State) (w : Word) (c : Cause) (info : Word) : (s.takeFault w c info).faultCause = some c := rfl
@[simp] theorem State.takeFault_faultInfo (s : State) (w : Word) (c : Cause) (info : Word) : (s.takeFault w c info).faultInfo = info := rfl
@[simp] theorem State.takeFault_faultCmd (s : State) (w : Word) (c : Cause) (info : Word) : (s.takeFault w c info).faultCmd = w := rfl
@[simp] theorem State.takeFault_valid (s : State) (w : Word) (c : Cause) (info : Word) : (s.takeFault w c info).valid = s.valid := rfl
@[simp] theorem State.takeFault_prec (s : State) (w : Word) (c : Cause) (info : Word) : (s.takeFault w c info).prec = s.prec := rfl
@[simp] theorem State.takeFault_br (s : State) (w : Word) (c : Cause) (info : Word) : (s.takeFault w c info).br = s.br := rfl
@[simp] theorem State.takeFault_rstRd (s : State) (w : Word) (c : Cause) (info : Word) : (s.takeFault w c info).rstRd = s.rstRd := rfl
@[simp] theorem State.takeFault_bw (s : State) (w : Word) (c : Cause) (info : Word) : (s.takeFault w c info).bw = s.bw := rfl
@[simp] theorem State.takeFault_rstWr (s : State) (w : Word) (c : Cause) (info : Word) : (s.takeFault w c info).rstWr = s.rstWr := rfl
@[simp] theorem State.takeFault_dcp (s : State) (w : Word) (c : Cause) (info : Word) : (s.takeFault w c info).dcp = s.dcp := rfl
@[simp] theorem State.takeFault_htDc (s : State) (w : Word) (c : Cause) (info : Word) : (s.takeFault w c info).htDc = s.htDc := rfl
@[simp] theorem State.takeFault_htAc (s : State) (w : Word) (c : Cause) (info : Word) : (s.takeFault w c info).htAc = s.htAc := rfl
@[simp] theorem State.takeFault_fqDc (s : State) (w : Word) (c : Cause) (info : Word) : (s.takeFault w c info).fqDc = s.fqDc := rfl
@[simp] theorem State.takeFault_fqAc (s : State) (w : Word) (c : Cause) (info : Word) : (s.takeFault w c info).fqAc = s.fqAc := rfl
@[simp] theorem State.takeFault_qt (s : State) (w : Word) (c : Cause) (info : Word) : (s.takeFault w c info).qt = s.qt := rfl
@[simp] theorem State.takeFault_blkI (s : State) (w : Word) (c : Cause) (info : Word) : (s.takeFault w c info).blkI = s.blkI := rfl
@[simp] theorem State.takeFault_blkF (s : State) (w : Word) (c : Cause) (info : Word) : (s.takeFault w c info).blkF = s.blkF := rfl
@[simp] theorem State.takeFault_blkP (s : State) (w : Word) (c : Cause) (info : Word) : (s.takeFault w c info).blkP = s.blkP := rfl
@[simp] theorem State.takeFault_lj (s : State) (w : Word) (c : Cause) (info : Word) : (s.takeFault w c info).lj = s.lj := rfl
@[simp] theorem State.takeFault_inMem (s : State) (w : Word) (c : Cause) (info : Word) : (s.takeFault w c info).inMem = s.inMem := rfl
@[simp] theorem State.takeFault_outMem (s : State) (w : Word) (c : Cause) (info : Word) : (s.takeFault w c info).outMem = s.outMem := rfl
@[simp] theorem State.takeFault_host (s : State) (w : Word) (c : Cause) (info : Word) : (s.takeFault w c info).host = s.host := rfl
@[simp] theorem State.takeFault_hostData (s : State) (w : Word) (c : Cause) (info : Word) : (s.takeFault w c info).hostData = s.hostData := rfl
@[simp] theorem State.takeFault_draws (s : State) (w : Word) (c : Cause) (info : Word) : (s.takeFault w c info).draws = s.draws := rfl

/-! ### `raise` -/

@[simp] theorem State.raise_params (s : State) (i : Instr) (r : Raise) : (s.raise i r).params = s.params := rfl
@[simp] theorem State.raise_arg (s : State) (i : Instr) (r : Raise) : (s.raise i r).arg = s.arg := rfl
@[simp] theorem State.raise_res0 (s : State) (i : Instr) (r : Raise) : (s.raise i r).res0 = s.res0 := rfl
@[simp] theorem State.raise_res1 (s : State) (i : Instr) (r : Raise) : (s.raise i r).res1 = s.res1 := rfl
@[simp] theorem State.raise_busy (s : State) (i : Instr) (r : Raise) : (s.raise i r).busy = false := rfl
@[simp] theorem State.raise_fault (s : State) (i : Instr) (r : Raise) : (s.raise i r).fault = true := rfl
@[simp] theorem State.raise_segEnd (s : State) (i : Instr) (r : Raise) : (s.raise i r).segEnd = false := rfl
@[simp] theorem State.raise_faultCause (s : State) (i : Instr) (r : Raise) : (s.raise i r).faultCause = some r.1 := rfl
@[simp] theorem State.raise_faultInfo (s : State) (i : Instr) (r : Raise) : (s.raise i r).faultInfo = r.2 := rfl
@[simp] theorem State.raise_faultCmd (s : State) (i : Instr) (r : Raise) : (s.raise i r).faultCmd = encode i := rfl
@[simp] theorem State.raise_valid (s : State) (i : Instr) (r : Raise) : (s.raise i r).valid = s.valid := rfl
@[simp] theorem State.raise_prec (s : State) (i : Instr) (r : Raise) : (s.raise i r).prec = s.prec := rfl
@[simp] theorem State.raise_br (s : State) (i : Instr) (r : Raise) : (s.raise i r).br = s.br := rfl
@[simp] theorem State.raise_rstRd (s : State) (i : Instr) (r : Raise) : (s.raise i r).rstRd = s.rstRd := rfl
@[simp] theorem State.raise_bw (s : State) (i : Instr) (r : Raise) : (s.raise i r).bw = s.bw := rfl
@[simp] theorem State.raise_rstWr (s : State) (i : Instr) (r : Raise) : (s.raise i r).rstWr = s.rstWr := rfl
@[simp] theorem State.raise_dcp (s : State) (i : Instr) (r : Raise) : (s.raise i r).dcp = s.dcp := rfl
@[simp] theorem State.raise_htDc (s : State) (i : Instr) (r : Raise) : (s.raise i r).htDc = s.htDc := rfl
@[simp] theorem State.raise_htAc (s : State) (i : Instr) (r : Raise) : (s.raise i r).htAc = s.htAc := rfl
@[simp] theorem State.raise_fqDc (s : State) (i : Instr) (r : Raise) : (s.raise i r).fqDc = s.fqDc := rfl
@[simp] theorem State.raise_fqAc (s : State) (i : Instr) (r : Raise) : (s.raise i r).fqAc = s.fqAc := rfl
@[simp] theorem State.raise_qt (s : State) (i : Instr) (r : Raise) : (s.raise i r).qt = s.qt := rfl
@[simp] theorem State.raise_blkI (s : State) (i : Instr) (r : Raise) : (s.raise i r).blkI = s.blkI := rfl
@[simp] theorem State.raise_blkF (s : State) (i : Instr) (r : Raise) : (s.raise i r).blkF = s.blkF := rfl
@[simp] theorem State.raise_blkP (s : State) (i : Instr) (r : Raise) : (s.raise i r).blkP = s.blkP := rfl
@[simp] theorem State.raise_lj (s : State) (i : Instr) (r : Raise) : (s.raise i r).lj = s.lj := rfl
@[simp] theorem State.raise_inMem (s : State) (i : Instr) (r : Raise) : (s.raise i r).inMem = s.inMem := rfl
@[simp] theorem State.raise_outMem (s : State) (i : Instr) (r : Raise) : (s.raise i r).outMem = s.outMem := rfl
@[simp] theorem State.raise_host (s : State) (i : Instr) (r : Raise) : (s.raise i r).host = s.host := rfl
@[simp] theorem State.raise_hostData (s : State) (i : Instr) (r : Raise) : (s.raise i r).hostData = s.hostData := rfl
@[simp] theorem State.raise_draws (s : State) (i : Instr) (r : Raise) : (s.raise i r).draws = s.draws := rfl

/-! ### `raiseMid` -/

@[simp] theorem State.raiseMid_params (s : State) (i : Instr) (r : Raise) : (s.raiseMid i r).params = s.params := rfl
@[simp] theorem State.raiseMid_arg (s : State) (i : Instr) (r : Raise) : (s.raiseMid i r).arg = s.arg := rfl
@[simp] theorem State.raiseMid_res0 (s : State) (i : Instr) (r : Raise) : (s.raiseMid i r).res0 = s.res0 := rfl
@[simp] theorem State.raiseMid_res1 (s : State) (i : Instr) (r : Raise) : (s.raiseMid i r).res1 = s.res1 := rfl
@[simp] theorem State.raiseMid_busy (s : State) (i : Instr) (r : Raise) : (s.raiseMid i r).busy = false := rfl
@[simp] theorem State.raiseMid_fault (s : State) (i : Instr) (r : Raise) : (s.raiseMid i r).fault = true := rfl
@[simp] theorem State.raiseMid_segEnd (s : State) (i : Instr) (r : Raise) : (s.raiseMid i r).segEnd = false := rfl
@[simp] theorem State.raiseMid_faultCause (s : State) (i : Instr) (r : Raise) : (s.raiseMid i r).faultCause = some r.1 := rfl
@[simp] theorem State.raiseMid_faultInfo (s : State) (i : Instr) (r : Raise) : (s.raiseMid i r).faultInfo = r.2 := rfl
@[simp] theorem State.raiseMid_faultCmd (s : State) (i : Instr) (r : Raise) : (s.raiseMid i r).faultCmd = encode i := rfl
@[simp] theorem State.raiseMid_valid (s : State) (i : Instr) (r : Raise) : (s.raiseMid i r).valid = s.valid := rfl
@[simp] theorem State.raiseMid_prec (s : State) (i : Instr) (r : Raise) : (s.raiseMid i r).prec = s.prec := rfl
@[simp] theorem State.raiseMid_br (s : State) (i : Instr) (r : Raise) : (s.raiseMid i r).br = s.br := rfl
@[simp] theorem State.raiseMid_rstRd (s : State) (i : Instr) (r : Raise) : (s.raiseMid i r).rstRd = s.rstRd := rfl
@[simp] theorem State.raiseMid_bw (s : State) (i : Instr) (r : Raise) : (s.raiseMid i r).bw = s.bw := rfl
@[simp] theorem State.raiseMid_rstWr (s : State) (i : Instr) (r : Raise) : (s.raiseMid i r).rstWr = s.rstWr := rfl
@[simp] theorem State.raiseMid_dcp (s : State) (i : Instr) (r : Raise) : (s.raiseMid i r).dcp = s.dcp := rfl
@[simp] theorem State.raiseMid_htDc (s : State) (i : Instr) (r : Raise) : (s.raiseMid i r).htDc = s.htDc := rfl
@[simp] theorem State.raiseMid_htAc (s : State) (i : Instr) (r : Raise) : (s.raiseMid i r).htAc = s.htAc := rfl
@[simp] theorem State.raiseMid_fqDc (s : State) (i : Instr) (r : Raise) : (s.raiseMid i r).fqDc = s.fqDc := rfl
@[simp] theorem State.raiseMid_fqAc (s : State) (i : Instr) (r : Raise) : (s.raiseMid i r).fqAc = s.fqAc := rfl
@[simp] theorem State.raiseMid_qt (s : State) (i : Instr) (r : Raise) : (s.raiseMid i r).qt = s.qt := rfl
@[simp] theorem State.raiseMid_blkI (s : State) (i : Instr) (r : Raise) : (s.raiseMid i r).blkI = s.blkI := rfl
@[simp] theorem State.raiseMid_blkF (s : State) (i : Instr) (r : Raise) : (s.raiseMid i r).blkF = s.blkF := rfl
@[simp] theorem State.raiseMid_blkP (s : State) (i : Instr) (r : Raise) : (s.raiseMid i r).blkP = s.blkP := rfl
@[simp] theorem State.raiseMid_lj (s : State) (i : Instr) (r : Raise) : (s.raiseMid i r).lj = s.lj := rfl
@[simp] theorem State.raiseMid_inMem (s : State) (i : Instr) (r : Raise) : (s.raiseMid i r).inMem = s.inMem := rfl
@[simp] theorem State.raiseMid_outMem (s : State) (i : Instr) (r : Raise) : (s.raiseMid i r).outMem = s.outMem := rfl
@[simp] theorem State.raiseMid_host (s : State) (i : Instr) (r : Raise) : (s.raiseMid i r).host = s.host := rfl
@[simp] theorem State.raiseMid_hostData (s : State) (i : Instr) (r : Raise) : (s.raiseMid i r).hostData = s.hostData := rfl
@[simp] theorem State.raiseMid_draws (s : State) (i : Instr) (r : Raise) : (s.raiseMid i r).draws = s.draws + 1 := rfl

/-! ### `setPred` -/

@[simp] theorem State.setPred_params (s : State) (c : Fin 4) (v : Word) : (s.setPred c v).params = s.params := rfl
@[simp] theorem State.setPred_arg (s : State) (c : Fin 4) (v : Word) : (s.setPred c v).arg = s.arg := rfl
@[simp] theorem State.setPred_res0 (s : State) (c : Fin 4) (v : Word) : (s.setPred c v).res0 = s.res0 := rfl
@[simp] theorem State.setPred_res1 (s : State) (c : Fin 4) (v : Word) : (s.setPred c v).res1 = s.res1 := rfl
@[simp] theorem State.setPred_busy (s : State) (c : Fin 4) (v : Word) : (s.setPred c v).busy = s.busy := rfl
@[simp] theorem State.setPred_fault (s : State) (c : Fin 4) (v : Word) : (s.setPred c v).fault = s.fault := rfl
@[simp] theorem State.setPred_segEnd (s : State) (c : Fin 4) (v : Word) : (s.setPred c v).segEnd = s.segEnd := rfl
@[simp] theorem State.setPred_faultCause (s : State) (c : Fin 4) (v : Word) : (s.setPred c v).faultCause = s.faultCause := rfl
@[simp] theorem State.setPred_faultInfo (s : State) (c : Fin 4) (v : Word) : (s.setPred c v).faultInfo = s.faultInfo := rfl
@[simp] theorem State.setPred_faultCmd (s : State) (c : Fin 4) (v : Word) : (s.setPred c v).faultCmd = s.faultCmd := rfl
@[simp] theorem State.setPred_valid (s : State) (c : Fin 4) (v : Word) : (s.setPred c v).valid = s.valid := rfl
@[simp] theorem State.setPred_prec (s : State) (c : Fin 4) (v : Word) : (s.setPred c v).prec = s.prec := rfl
@[simp] theorem State.setPred_br (s : State) (c : Fin 4) (v : Word) : (s.setPred c v).br = s.br := rfl
@[simp] theorem State.setPred_rstRd (s : State) (c : Fin 4) (v : Word) : (s.setPred c v).rstRd = s.rstRd := rfl
@[simp] theorem State.setPred_bw (s : State) (c : Fin 4) (v : Word) : (s.setPred c v).bw = s.bw := rfl
@[simp] theorem State.setPred_rstWr (s : State) (c : Fin 4) (v : Word) : (s.setPred c v).rstWr = s.rstWr := rfl
@[simp] theorem State.setPred_dcp (s : State) (c : Fin 4) (v : Word) : (s.setPred c v).dcp = s.dcp.set c.val { set := true, value := v } c.isLt := rfl
@[simp] theorem State.setPred_htDc (s : State) (c : Fin 4) (v : Word) : (s.setPred c v).htDc = s.htDc := rfl
@[simp] theorem State.setPred_htAc (s : State) (c : Fin 4) (v : Word) : (s.setPred c v).htAc = s.htAc := rfl
@[simp] theorem State.setPred_fqDc (s : State) (c : Fin 4) (v : Word) : (s.setPred c v).fqDc = s.fqDc := rfl
@[simp] theorem State.setPred_fqAc (s : State) (c : Fin 4) (v : Word) : (s.setPred c v).fqAc = s.fqAc := rfl
@[simp] theorem State.setPred_qt (s : State) (c : Fin 4) (v : Word) : (s.setPred c v).qt = s.qt := rfl
@[simp] theorem State.setPred_blkI (s : State) (c : Fin 4) (v : Word) : (s.setPred c v).blkI = s.blkI := rfl
@[simp] theorem State.setPred_blkF (s : State) (c : Fin 4) (v : Word) : (s.setPred c v).blkF = s.blkF := rfl
@[simp] theorem State.setPred_blkP (s : State) (c : Fin 4) (v : Word) : (s.setPred c v).blkP = s.blkP := rfl
@[simp] theorem State.setPred_lj (s : State) (c : Fin 4) (v : Word) : (s.setPred c v).lj = s.lj := rfl
@[simp] theorem State.setPred_inMem (s : State) (c : Fin 4) (v : Word) : (s.setPred c v).inMem = s.inMem := rfl
@[simp] theorem State.setPred_outMem (s : State) (c : Fin 4) (v : Word) : (s.setPred c v).outMem = s.outMem := rfl
@[simp] theorem State.setPred_host (s : State) (c : Fin 4) (v : Word) : (s.setPred c v).host = s.host := rfl
@[simp] theorem State.setPred_hostData (s : State) (c : Fin 4) (v : Word) : (s.setPred c v).hostData = s.hostData := rfl
@[simp] theorem State.setPred_draws (s : State) (c : Fin 4) (v : Word) : (s.setPred c v).draws = s.draws := rfl

/-! ### `clearPreds` -/

@[simp] theorem State.clearPreds_params (s : State) : s.clearPreds.params = s.params := rfl
@[simp] theorem State.clearPreds_arg (s : State) : s.clearPreds.arg = s.arg := rfl
@[simp] theorem State.clearPreds_res0 (s : State) : s.clearPreds.res0 = s.res0 := rfl
@[simp] theorem State.clearPreds_res1 (s : State) : s.clearPreds.res1 = s.res1 := rfl
@[simp] theorem State.clearPreds_busy (s : State) : s.clearPreds.busy = s.busy := rfl
@[simp] theorem State.clearPreds_fault (s : State) : s.clearPreds.fault = s.fault := rfl
@[simp] theorem State.clearPreds_segEnd (s : State) : s.clearPreds.segEnd = s.segEnd := rfl
@[simp] theorem State.clearPreds_faultCause (s : State) : s.clearPreds.faultCause = s.faultCause := rfl
@[simp] theorem State.clearPreds_faultInfo (s : State) : s.clearPreds.faultInfo = s.faultInfo := rfl
@[simp] theorem State.clearPreds_faultCmd (s : State) : s.clearPreds.faultCmd = s.faultCmd := rfl
@[simp] theorem State.clearPreds_valid (s : State) : s.clearPreds.valid = s.valid := rfl
@[simp] theorem State.clearPreds_prec (s : State) : s.clearPreds.prec = s.prec := rfl
@[simp] theorem State.clearPreds_br (s : State) : s.clearPreds.br = s.br := rfl
@[simp] theorem State.clearPreds_rstRd (s : State) : s.clearPreds.rstRd = s.rstRd := rfl
@[simp] theorem State.clearPreds_bw (s : State) : s.clearPreds.bw = s.bw := rfl
@[simp] theorem State.clearPreds_rstWr (s : State) : s.clearPreds.rstWr = s.rstWr := rfl
@[simp] theorem State.clearPreds_dcp (s : State) : s.clearPreds.dcp = Vector.replicate 4 Pred.unset := rfl
@[simp] theorem State.clearPreds_htDc (s : State) : s.clearPreds.htDc = s.htDc := rfl
@[simp] theorem State.clearPreds_htAc (s : State) : s.clearPreds.htAc = s.htAc := rfl
@[simp] theorem State.clearPreds_fqDc (s : State) : s.clearPreds.fqDc = s.fqDc := rfl
@[simp] theorem State.clearPreds_fqAc (s : State) : s.clearPreds.fqAc = s.fqAc := rfl
@[simp] theorem State.clearPreds_qt (s : State) : s.clearPreds.qt = s.qt := rfl
@[simp] theorem State.clearPreds_blkI (s : State) : s.clearPreds.blkI = s.blkI := rfl
@[simp] theorem State.clearPreds_blkF (s : State) : s.clearPreds.blkF = s.blkF := rfl
@[simp] theorem State.clearPreds_blkP (s : State) : s.clearPreds.blkP = s.blkP := rfl
@[simp] theorem State.clearPreds_lj (s : State) : s.clearPreds.lj = s.lj := rfl
@[simp] theorem State.clearPreds_inMem (s : State) : s.clearPreds.inMem = s.inMem := rfl
@[simp] theorem State.clearPreds_outMem (s : State) : s.clearPreds.outMem = s.outMem := rfl
@[simp] theorem State.clearPreds_host (s : State) : s.clearPreds.host = s.host := rfl
@[simp] theorem State.clearPreds_hostData (s : State) : s.clearPreds.hostData = s.hostData := rfl
@[simp] theorem State.clearPreds_draws (s : State) : s.clearPreds.draws = s.draws := rfl

/-! ### `setSink` -/

@[simp] theorem State.setSink_params (s : State) (k : Sink) : (s.setSink k).params = s.params := rfl
@[simp] theorem State.setSink_arg (s : State) (k : Sink) : (s.setSink k).arg = s.arg := rfl
@[simp] theorem State.setSink_res0 (s : State) (k : Sink) : (s.setSink k).res0 = s.res0 := rfl
@[simp] theorem State.setSink_res1 (s : State) (k : Sink) : (s.setSink k).res1 = s.res1 := rfl
@[simp] theorem State.setSink_busy (s : State) (k : Sink) : (s.setSink k).busy = s.busy := rfl
@[simp] theorem State.setSink_fault (s : State) (k : Sink) : (s.setSink k).fault = s.fault := rfl
@[simp] theorem State.setSink_segEnd (s : State) (k : Sink) : (s.setSink k).segEnd = s.segEnd := rfl
@[simp] theorem State.setSink_faultCause (s : State) (k : Sink) : (s.setSink k).faultCause = s.faultCause := rfl
@[simp] theorem State.setSink_faultInfo (s : State) (k : Sink) : (s.setSink k).faultInfo = s.faultInfo := rfl
@[simp] theorem State.setSink_faultCmd (s : State) (k : Sink) : (s.setSink k).faultCmd = s.faultCmd := rfl
@[simp] theorem State.setSink_valid (s : State) (k : Sink) : (s.setSink k).valid = s.valid := rfl
@[simp] theorem State.setSink_prec (s : State) (k : Sink) : (s.setSink k).prec = s.prec := rfl
@[simp] theorem State.setSink_br (s : State) (k : Sink) : (s.setSink k).br = s.br := rfl
@[simp] theorem State.setSink_rstRd (s : State) (k : Sink) : (s.setSink k).rstRd = s.rstRd := rfl
@[simp] theorem State.setSink_bw (s : State) (k : Sink) : (s.setSink k).bw = k.w := rfl
@[simp] theorem State.setSink_rstWr (s : State) (k : Sink) : (s.setSink k).rstWr = s.rstWr := rfl
@[simp] theorem State.setSink_dcp (s : State) (k : Sink) : (s.setSink k).dcp = s.dcp := rfl
@[simp] theorem State.setSink_htDc (s : State) (k : Sink) : (s.setSink k).htDc = s.htDc := rfl
@[simp] theorem State.setSink_htAc (s : State) (k : Sink) : (s.setSink k).htAc = s.htAc := rfl
@[simp] theorem State.setSink_fqDc (s : State) (k : Sink) : (s.setSink k).fqDc = s.fqDc := rfl
@[simp] theorem State.setSink_fqAc (s : State) (k : Sink) : (s.setSink k).fqAc = s.fqAc := rfl
@[simp] theorem State.setSink_qt (s : State) (k : Sink) : (s.setSink k).qt = s.qt := rfl
@[simp] theorem State.setSink_blkI (s : State) (k : Sink) : (s.setSink k).blkI = s.blkI := rfl
@[simp] theorem State.setSink_blkF (s : State) (k : Sink) : (s.setSink k).blkF = s.blkF := rfl
@[simp] theorem State.setSink_blkP (s : State) (k : Sink) : (s.setSink k).blkP = s.blkP := rfl
@[simp] theorem State.setSink_lj (s : State) (k : Sink) : (s.setSink k).lj = s.lj := rfl
@[simp] theorem State.setSink_inMem (s : State) (k : Sink) : (s.setSink k).inMem = s.inMem := rfl
@[simp] theorem State.setSink_outMem (s : State) (k : Sink) : (s.setSink k).outMem = k.out := rfl
@[simp] theorem State.setSink_host (s : State) (k : Sink) : (s.setSink k).host = s.host := rfl
@[simp] theorem State.setSink_hostData (s : State) (k : Sink) : (s.setSink k).hostData = s.hostData := rfl
@[simp] theorem State.setSink_draws (s : State) (k : Sink) : (s.setSink k).draws = s.draws := rfl

/-! ### `drawRes0` -/

@[simp] theorem State.drawRes0_params (s : State) : s.drawRes0.params = s.params := rfl
@[simp] theorem State.drawRes0_arg (s : State) : s.drawRes0.arg = s.arg := rfl
@[simp] theorem State.drawRes0_res0 (s : State) : s.drawRes0.res0 = s.drawn .res0 := rfl
@[simp] theorem State.drawRes0_res1 (s : State) : s.drawRes0.res1 = s.res1 := rfl
@[simp] theorem State.drawRes0_busy (s : State) : s.drawRes0.busy = s.busy := rfl
@[simp] theorem State.drawRes0_fault (s : State) : s.drawRes0.fault = s.fault := rfl
@[simp] theorem State.drawRes0_segEnd (s : State) : s.drawRes0.segEnd = s.segEnd := rfl
@[simp] theorem State.drawRes0_faultCause (s : State) : s.drawRes0.faultCause = s.faultCause := rfl
@[simp] theorem State.drawRes0_faultInfo (s : State) : s.drawRes0.faultInfo = s.faultInfo := rfl
@[simp] theorem State.drawRes0_faultCmd (s : State) : s.drawRes0.faultCmd = s.faultCmd := rfl
@[simp] theorem State.drawRes0_valid (s : State) : s.drawRes0.valid = s.valid := rfl
@[simp] theorem State.drawRes0_prec (s : State) : s.drawRes0.prec = s.prec := rfl
@[simp] theorem State.drawRes0_br (s : State) : s.drawRes0.br = s.br := rfl
@[simp] theorem State.drawRes0_rstRd (s : State) : s.drawRes0.rstRd = s.rstRd := rfl
@[simp] theorem State.drawRes0_bw (s : State) : s.drawRes0.bw = s.bw := rfl
@[simp] theorem State.drawRes0_rstWr (s : State) : s.drawRes0.rstWr = s.rstWr := rfl
@[simp] theorem State.drawRes0_dcp (s : State) : s.drawRes0.dcp = s.dcp := rfl
@[simp] theorem State.drawRes0_htDc (s : State) : s.drawRes0.htDc = s.htDc := rfl
@[simp] theorem State.drawRes0_htAc (s : State) : s.drawRes0.htAc = s.htAc := rfl
@[simp] theorem State.drawRes0_fqDc (s : State) : s.drawRes0.fqDc = s.fqDc := rfl
@[simp] theorem State.drawRes0_fqAc (s : State) : s.drawRes0.fqAc = s.fqAc := rfl
@[simp] theorem State.drawRes0_qt (s : State) : s.drawRes0.qt = s.qt := rfl
@[simp] theorem State.drawRes0_blkI (s : State) : s.drawRes0.blkI = s.blkI := rfl
@[simp] theorem State.drawRes0_blkF (s : State) : s.drawRes0.blkF = s.blkF := rfl
@[simp] theorem State.drawRes0_blkP (s : State) : s.drawRes0.blkP = s.blkP := rfl
@[simp] theorem State.drawRes0_lj (s : State) : s.drawRes0.lj = s.lj := rfl
@[simp] theorem State.drawRes0_inMem (s : State) : s.drawRes0.inMem = s.inMem := rfl
@[simp] theorem State.drawRes0_outMem (s : State) : s.drawRes0.outMem = s.outMem := rfl
@[simp] theorem State.drawRes0_host (s : State) : s.drawRes0.host = s.host := rfl
@[simp] theorem State.drawRes0_hostData (s : State) : s.drawRes0.hostData = s.hostData := rfl
@[simp] theorem State.drawRes0_draws (s : State) : s.drawRes0.draws = s.draws := rfl

/-! ### `drawReader` -/

@[simp] theorem State.drawReader_params (s : State) : s.drawReader.params = s.params := rfl
@[simp] theorem State.drawReader_arg (s : State) : s.drawReader.arg = s.arg := rfl
@[simp] theorem State.drawReader_res0 (s : State) : s.drawReader.res0 = s.res0 := rfl
@[simp] theorem State.drawReader_res1 (s : State) : s.drawReader.res1 = s.res1 := rfl
@[simp] theorem State.drawReader_busy (s : State) : s.drawReader.busy = s.busy := rfl
@[simp] theorem State.drawReader_fault (s : State) : s.drawReader.fault = s.fault := rfl
@[simp] theorem State.drawReader_segEnd (s : State) : s.drawReader.segEnd = s.segEnd := rfl
@[simp] theorem State.drawReader_faultCause (s : State) : s.drawReader.faultCause = s.faultCause := rfl
@[simp] theorem State.drawReader_faultInfo (s : State) : s.drawReader.faultInfo = s.faultInfo := rfl
@[simp] theorem State.drawReader_faultCmd (s : State) : s.drawReader.faultCmd = s.faultCmd := rfl
@[simp] theorem State.drawReader_valid (s : State) : s.drawReader.valid = s.valid := rfl
@[simp] theorem State.drawReader_prec (s : State) : s.drawReader.prec = s.prec := rfl
@[simp] theorem State.drawReader_rstRd (s : State) : s.drawReader.rstRd = s.rstRd := rfl
@[simp] theorem State.drawReader_bw (s : State) : s.drawReader.bw = s.bw := rfl
@[simp] theorem State.drawReader_rstWr (s : State) : s.drawReader.rstWr = s.rstWr := rfl
@[simp] theorem State.drawReader_dcp (s : State) : s.drawReader.dcp = s.dcp := rfl
@[simp] theorem State.drawReader_htDc (s : State) : s.drawReader.htDc = s.htDc := rfl
@[simp] theorem State.drawReader_htAc (s : State) : s.drawReader.htAc = s.htAc := rfl
@[simp] theorem State.drawReader_fqDc (s : State) : s.drawReader.fqDc = s.fqDc := rfl
@[simp] theorem State.drawReader_fqAc (s : State) : s.drawReader.fqAc = s.fqAc := rfl
@[simp] theorem State.drawReader_qt (s : State) : s.drawReader.qt = s.qt := rfl
@[simp] theorem State.drawReader_blkI (s : State) : s.drawReader.blkI = s.blkI := rfl
@[simp] theorem State.drawReader_blkF (s : State) : s.drawReader.blkF = s.blkF := rfl
@[simp] theorem State.drawReader_blkP (s : State) : s.drawReader.blkP = s.blkP := rfl
@[simp] theorem State.drawReader_lj (s : State) : s.drawReader.lj = s.lj := rfl
@[simp] theorem State.drawReader_inMem (s : State) : s.drawReader.inMem = s.inMem := rfl
@[simp] theorem State.drawReader_outMem (s : State) : s.drawReader.outMem = s.outMem := rfl
@[simp] theorem State.drawReader_host (s : State) : s.drawReader.host = s.host := rfl
@[simp] theorem State.drawReader_hostData (s : State) : s.drawReader.hostData = s.hostData := rfl
@[simp] theorem State.drawReader_draws (s : State) : s.drawReader.draws = s.draws := rfl

/-! ### `drawRstRd` -/

@[simp] theorem State.drawRstRd_params (s : State) : s.drawRstRd.params = s.params := rfl
@[simp] theorem State.drawRstRd_arg (s : State) : s.drawRstRd.arg = s.arg := rfl
@[simp] theorem State.drawRstRd_res0 (s : State) : s.drawRstRd.res0 = s.res0 := rfl
@[simp] theorem State.drawRstRd_res1 (s : State) : s.drawRstRd.res1 = s.res1 := rfl
@[simp] theorem State.drawRstRd_busy (s : State) : s.drawRstRd.busy = s.busy := rfl
@[simp] theorem State.drawRstRd_fault (s : State) : s.drawRstRd.fault = s.fault := rfl
@[simp] theorem State.drawRstRd_segEnd (s : State) : s.drawRstRd.segEnd = s.segEnd := rfl
@[simp] theorem State.drawRstRd_faultCause (s : State) : s.drawRstRd.faultCause = s.faultCause := rfl
@[simp] theorem State.drawRstRd_faultInfo (s : State) : s.drawRstRd.faultInfo = s.faultInfo := rfl
@[simp] theorem State.drawRstRd_faultCmd (s : State) : s.drawRstRd.faultCmd = s.faultCmd := rfl
@[simp] theorem State.drawRstRd_valid (s : State) : s.drawRstRd.valid = s.valid := rfl
@[simp] theorem State.drawRstRd_prec (s : State) : s.drawRstRd.prec = s.prec := rfl
@[simp] theorem State.drawRstRd_br (s : State) : s.drawRstRd.br = s.br := rfl
@[simp] theorem State.drawRstRd_rstRd (s : State) : s.drawRstRd.rstRd = (s.drawn .rstRd).setWidth 3 := rfl
@[simp] theorem State.drawRstRd_bw (s : State) : s.drawRstRd.bw = s.bw := rfl
@[simp] theorem State.drawRstRd_rstWr (s : State) : s.drawRstRd.rstWr = s.rstWr := rfl
@[simp] theorem State.drawRstRd_dcp (s : State) : s.drawRstRd.dcp = s.dcp := rfl
@[simp] theorem State.drawRstRd_htDc (s : State) : s.drawRstRd.htDc = s.htDc := rfl
@[simp] theorem State.drawRstRd_htAc (s : State) : s.drawRstRd.htAc = s.htAc := rfl
@[simp] theorem State.drawRstRd_fqDc (s : State) : s.drawRstRd.fqDc = s.fqDc := rfl
@[simp] theorem State.drawRstRd_fqAc (s : State) : s.drawRstRd.fqAc = s.fqAc := rfl
@[simp] theorem State.drawRstRd_qt (s : State) : s.drawRstRd.qt = s.qt := rfl
@[simp] theorem State.drawRstRd_blkI (s : State) : s.drawRstRd.blkI = s.blkI := rfl
@[simp] theorem State.drawRstRd_blkF (s : State) : s.drawRstRd.blkF = s.blkF := rfl
@[simp] theorem State.drawRstRd_blkP (s : State) : s.drawRstRd.blkP = s.blkP := rfl
@[simp] theorem State.drawRstRd_lj (s : State) : s.drawRstRd.lj = s.lj := rfl
@[simp] theorem State.drawRstRd_inMem (s : State) : s.drawRstRd.inMem = s.inMem := rfl
@[simp] theorem State.drawRstRd_outMem (s : State) : s.drawRstRd.outMem = s.outMem := rfl
@[simp] theorem State.drawRstRd_host (s : State) : s.drawRstRd.host = s.host := rfl
@[simp] theorem State.drawRstRd_hostData (s : State) : s.drawRstRd.hostData = s.hostData := rfl
@[simp] theorem State.drawRstRd_draws (s : State) : s.drawRstRd.draws = s.draws := rfl

/-! ### `drawWriter` -/

@[simp] theorem State.drawWriter_params (s : State) : s.drawWriter.params = s.params := rfl
@[simp] theorem State.drawWriter_arg (s : State) : s.drawWriter.arg = s.arg := rfl
@[simp] theorem State.drawWriter_res0 (s : State) : s.drawWriter.res0 = s.res0 := rfl
@[simp] theorem State.drawWriter_res1 (s : State) : s.drawWriter.res1 = s.res1 := rfl
@[simp] theorem State.drawWriter_busy (s : State) : s.drawWriter.busy = s.busy := rfl
@[simp] theorem State.drawWriter_fault (s : State) : s.drawWriter.fault = s.fault := rfl
@[simp] theorem State.drawWriter_segEnd (s : State) : s.drawWriter.segEnd = s.segEnd := rfl
@[simp] theorem State.drawWriter_faultCause (s : State) : s.drawWriter.faultCause = s.faultCause := rfl
@[simp] theorem State.drawWriter_faultInfo (s : State) : s.drawWriter.faultInfo = s.faultInfo := rfl
@[simp] theorem State.drawWriter_faultCmd (s : State) : s.drawWriter.faultCmd = s.faultCmd := rfl
@[simp] theorem State.drawWriter_valid (s : State) : s.drawWriter.valid = s.valid := rfl
@[simp] theorem State.drawWriter_prec (s : State) : s.drawWriter.prec = s.prec := rfl
@[simp] theorem State.drawWriter_br (s : State) : s.drawWriter.br = s.br := rfl
@[simp] theorem State.drawWriter_rstRd (s : State) : s.drawWriter.rstRd = s.rstRd := rfl
@[simp] theorem State.drawWriter_rstWr (s : State) : s.drawWriter.rstWr = s.rstWr := rfl
@[simp] theorem State.drawWriter_dcp (s : State) : s.drawWriter.dcp = s.dcp := rfl
@[simp] theorem State.drawWriter_htDc (s : State) : s.drawWriter.htDc = s.htDc := rfl
@[simp] theorem State.drawWriter_htAc (s : State) : s.drawWriter.htAc = s.htAc := rfl
@[simp] theorem State.drawWriter_fqDc (s : State) : s.drawWriter.fqDc = s.fqDc := rfl
@[simp] theorem State.drawWriter_fqAc (s : State) : s.drawWriter.fqAc = s.fqAc := rfl
@[simp] theorem State.drawWriter_qt (s : State) : s.drawWriter.qt = s.qt := rfl
@[simp] theorem State.drawWriter_blkI (s : State) : s.drawWriter.blkI = s.blkI := rfl
@[simp] theorem State.drawWriter_blkF (s : State) : s.drawWriter.blkF = s.blkF := rfl
@[simp] theorem State.drawWriter_blkP (s : State) : s.drawWriter.blkP = s.blkP := rfl
@[simp] theorem State.drawWriter_lj (s : State) : s.drawWriter.lj = s.lj := rfl
@[simp] theorem State.drawWriter_inMem (s : State) : s.drawWriter.inMem = s.inMem := rfl
@[simp] theorem State.drawWriter_outMem (s : State) : s.drawWriter.outMem = s.outMem.draw s.bw.pos.toNat (s.bw.lim.toNat - s.bw.pos.toNat) s.draws := rfl
@[simp] theorem State.drawWriter_host (s : State) : s.drawWriter.host = s.host := rfl
@[simp] theorem State.drawWriter_hostData (s : State) : s.drawWriter.hostData = s.hostData := rfl
@[simp] theorem State.drawWriter_draws (s : State) : s.drawWriter.draws = s.draws := rfl

/-! ### `drawRstWr` -/

@[simp] theorem State.drawRstWr_params (s : State) : s.drawRstWr.params = s.params := rfl
@[simp] theorem State.drawRstWr_arg (s : State) : s.drawRstWr.arg = s.arg := rfl
@[simp] theorem State.drawRstWr_res0 (s : State) : s.drawRstWr.res0 = s.res0 := rfl
@[simp] theorem State.drawRstWr_res1 (s : State) : s.drawRstWr.res1 = s.res1 := rfl
@[simp] theorem State.drawRstWr_busy (s : State) : s.drawRstWr.busy = s.busy := rfl
@[simp] theorem State.drawRstWr_fault (s : State) : s.drawRstWr.fault = s.fault := rfl
@[simp] theorem State.drawRstWr_segEnd (s : State) : s.drawRstWr.segEnd = s.segEnd := rfl
@[simp] theorem State.drawRstWr_faultCause (s : State) : s.drawRstWr.faultCause = s.faultCause := rfl
@[simp] theorem State.drawRstWr_faultInfo (s : State) : s.drawRstWr.faultInfo = s.faultInfo := rfl
@[simp] theorem State.drawRstWr_faultCmd (s : State) : s.drawRstWr.faultCmd = s.faultCmd := rfl
@[simp] theorem State.drawRstWr_valid (s : State) : s.drawRstWr.valid = s.valid := rfl
@[simp] theorem State.drawRstWr_prec (s : State) : s.drawRstWr.prec = s.prec := rfl
@[simp] theorem State.drawRstWr_br (s : State) : s.drawRstWr.br = s.br := rfl
@[simp] theorem State.drawRstWr_rstRd (s : State) : s.drawRstWr.rstRd = s.rstRd := rfl
@[simp] theorem State.drawRstWr_bw (s : State) : s.drawRstWr.bw = s.bw := rfl
@[simp] theorem State.drawRstWr_rstWr (s : State) : s.drawRstWr.rstWr = (s.drawn .rstWr).setWidth 3 := rfl
@[simp] theorem State.drawRstWr_dcp (s : State) : s.drawRstWr.dcp = s.dcp := rfl
@[simp] theorem State.drawRstWr_htDc (s : State) : s.drawRstWr.htDc = s.htDc := rfl
@[simp] theorem State.drawRstWr_htAc (s : State) : s.drawRstWr.htAc = s.htAc := rfl
@[simp] theorem State.drawRstWr_fqDc (s : State) : s.drawRstWr.fqDc = s.fqDc := rfl
@[simp] theorem State.drawRstWr_fqAc (s : State) : s.drawRstWr.fqAc = s.fqAc := rfl
@[simp] theorem State.drawRstWr_qt (s : State) : s.drawRstWr.qt = s.qt := rfl
@[simp] theorem State.drawRstWr_blkI (s : State) : s.drawRstWr.blkI = s.blkI := rfl
@[simp] theorem State.drawRstWr_blkF (s : State) : s.drawRstWr.blkF = s.blkF := rfl
@[simp] theorem State.drawRstWr_blkP (s : State) : s.drawRstWr.blkP = s.blkP := rfl
@[simp] theorem State.drawRstWr_lj (s : State) : s.drawRstWr.lj = s.lj := rfl
@[simp] theorem State.drawRstWr_inMem (s : State) : s.drawRstWr.inMem = s.inMem := rfl
@[simp] theorem State.drawRstWr_outMem (s : State) : s.drawRstWr.outMem = s.outMem := rfl
@[simp] theorem State.drawRstWr_host (s : State) : s.drawRstWr.host = s.host := rfl
@[simp] theorem State.drawRstWr_hostData (s : State) : s.drawRstWr.hostData = s.hostData := rfl
@[simp] theorem State.drawRstWr_draws (s : State) : s.drawRstWr.draws = s.draws := rfl

/-! ### `drawPred` -/

@[simp] theorem State.drawPred_params (s : State) (c : Fin 4) : (s.drawPred c).params = s.params := rfl
@[simp] theorem State.drawPred_arg (s : State) (c : Fin 4) : (s.drawPred c).arg = s.arg := rfl
@[simp] theorem State.drawPred_res0 (s : State) (c : Fin 4) : (s.drawPred c).res0 = s.res0 := rfl
@[simp] theorem State.drawPred_res1 (s : State) (c : Fin 4) : (s.drawPred c).res1 = s.res1 := rfl
@[simp] theorem State.drawPred_busy (s : State) (c : Fin 4) : (s.drawPred c).busy = s.busy := rfl
@[simp] theorem State.drawPred_fault (s : State) (c : Fin 4) : (s.drawPred c).fault = s.fault := rfl
@[simp] theorem State.drawPred_segEnd (s : State) (c : Fin 4) : (s.drawPred c).segEnd = s.segEnd := rfl
@[simp] theorem State.drawPred_faultCause (s : State) (c : Fin 4) : (s.drawPred c).faultCause = s.faultCause := rfl
@[simp] theorem State.drawPred_faultInfo (s : State) (c : Fin 4) : (s.drawPred c).faultInfo = s.faultInfo := rfl
@[simp] theorem State.drawPred_faultCmd (s : State) (c : Fin 4) : (s.drawPred c).faultCmd = s.faultCmd := rfl
@[simp] theorem State.drawPred_valid (s : State) (c : Fin 4) : (s.drawPred c).valid = s.valid := rfl
@[simp] theorem State.drawPred_prec (s : State) (c : Fin 4) : (s.drawPred c).prec = s.prec := rfl
@[simp] theorem State.drawPred_br (s : State) (c : Fin 4) : (s.drawPred c).br = s.br := rfl
@[simp] theorem State.drawPred_rstRd (s : State) (c : Fin 4) : (s.drawPred c).rstRd = s.rstRd := rfl
@[simp] theorem State.drawPred_bw (s : State) (c : Fin 4) : (s.drawPred c).bw = s.bw := rfl
@[simp] theorem State.drawPred_rstWr (s : State) (c : Fin 4) : (s.drawPred c).rstWr = s.rstWr := rfl
@[simp] theorem State.drawPred_dcp (s : State) (c : Fin 4) : (s.drawPred c).dcp = s.dcp.set c.val (s.drawnPred c.val) c.isLt := rfl
@[simp] theorem State.drawPred_htDc (s : State) (c : Fin 4) : (s.drawPred c).htDc = s.htDc := rfl
@[simp] theorem State.drawPred_htAc (s : State) (c : Fin 4) : (s.drawPred c).htAc = s.htAc := rfl
@[simp] theorem State.drawPred_fqDc (s : State) (c : Fin 4) : (s.drawPred c).fqDc = s.fqDc := rfl
@[simp] theorem State.drawPred_fqAc (s : State) (c : Fin 4) : (s.drawPred c).fqAc = s.fqAc := rfl
@[simp] theorem State.drawPred_qt (s : State) (c : Fin 4) : (s.drawPred c).qt = s.qt := rfl
@[simp] theorem State.drawPred_blkI (s : State) (c : Fin 4) : (s.drawPred c).blkI = s.blkI := rfl
@[simp] theorem State.drawPred_blkF (s : State) (c : Fin 4) : (s.drawPred c).blkF = s.blkF := rfl
@[simp] theorem State.drawPred_blkP (s : State) (c : Fin 4) : (s.drawPred c).blkP = s.blkP := rfl
@[simp] theorem State.drawPred_lj (s : State) (c : Fin 4) : (s.drawPred c).lj = s.lj := rfl
@[simp] theorem State.drawPred_inMem (s : State) (c : Fin 4) : (s.drawPred c).inMem = s.inMem := rfl
@[simp] theorem State.drawPred_outMem (s : State) (c : Fin 4) : (s.drawPred c).outMem = s.outMem := rfl
@[simp] theorem State.drawPred_host (s : State) (c : Fin 4) : (s.drawPred c).host = s.host := rfl
@[simp] theorem State.drawPred_hostData (s : State) (c : Fin 4) : (s.drawPred c).hostData = s.hostData := rfl
@[simp] theorem State.drawPred_draws (s : State) (c : Fin 4) : (s.drawPred c).draws = s.draws := rfl

/-! ### `drawPreds` -/

@[simp] theorem State.drawPreds_params (s : State) : s.drawPreds.params = s.params := rfl
@[simp] theorem State.drawPreds_arg (s : State) : s.drawPreds.arg = s.arg := rfl
@[simp] theorem State.drawPreds_res0 (s : State) : s.drawPreds.res0 = s.res0 := rfl
@[simp] theorem State.drawPreds_res1 (s : State) : s.drawPreds.res1 = s.res1 := rfl
@[simp] theorem State.drawPreds_busy (s : State) : s.drawPreds.busy = s.busy := rfl
@[simp] theorem State.drawPreds_fault (s : State) : s.drawPreds.fault = s.fault := rfl
@[simp] theorem State.drawPreds_segEnd (s : State) : s.drawPreds.segEnd = s.segEnd := rfl
@[simp] theorem State.drawPreds_faultCause (s : State) : s.drawPreds.faultCause = s.faultCause := rfl
@[simp] theorem State.drawPreds_faultInfo (s : State) : s.drawPreds.faultInfo = s.faultInfo := rfl
@[simp] theorem State.drawPreds_faultCmd (s : State) : s.drawPreds.faultCmd = s.faultCmd := rfl
@[simp] theorem State.drawPreds_valid (s : State) : s.drawPreds.valid = s.valid := rfl
@[simp] theorem State.drawPreds_prec (s : State) : s.drawPreds.prec = s.prec := rfl
@[simp] theorem State.drawPreds_br (s : State) : s.drawPreds.br = s.br := rfl
@[simp] theorem State.drawPreds_rstRd (s : State) : s.drawPreds.rstRd = s.rstRd := rfl
@[simp] theorem State.drawPreds_bw (s : State) : s.drawPreds.bw = s.bw := rfl
@[simp] theorem State.drawPreds_rstWr (s : State) : s.drawPreds.rstWr = s.rstWr := rfl
@[simp] theorem State.drawPreds_dcp (s : State) : s.drawPreds.dcp = Vector.ofFn fun c : Fin 4 => s.drawnPred c.val := rfl
@[simp] theorem State.drawPreds_htDc (s : State) : s.drawPreds.htDc = s.htDc := rfl
@[simp] theorem State.drawPreds_htAc (s : State) : s.drawPreds.htAc = s.htAc := rfl
@[simp] theorem State.drawPreds_fqDc (s : State) : s.drawPreds.fqDc = s.fqDc := rfl
@[simp] theorem State.drawPreds_fqAc (s : State) : s.drawPreds.fqAc = s.fqAc := rfl
@[simp] theorem State.drawPreds_qt (s : State) : s.drawPreds.qt = s.qt := rfl
@[simp] theorem State.drawPreds_blkI (s : State) : s.drawPreds.blkI = s.blkI := rfl
@[simp] theorem State.drawPreds_blkF (s : State) : s.drawPreds.blkF = s.blkF := rfl
@[simp] theorem State.drawPreds_blkP (s : State) : s.drawPreds.blkP = s.blkP := rfl
@[simp] theorem State.drawPreds_lj (s : State) : s.drawPreds.lj = s.lj := rfl
@[simp] theorem State.drawPreds_inMem (s : State) : s.drawPreds.inMem = s.inMem := rfl
@[simp] theorem State.drawPreds_outMem (s : State) : s.drawPreds.outMem = s.outMem := rfl
@[simp] theorem State.drawPreds_host (s : State) : s.drawPreds.host = s.host := rfl
@[simp] theorem State.drawPreds_hostData (s : State) : s.drawPreds.hostData = s.hostData := rfl
@[simp] theorem State.drawPreds_draws (s : State) : s.drawPreds.draws = s.draws := rfl

/-! ### `drawBlkI` -/

@[simp] theorem State.drawBlkI_params (s : State) : s.drawBlkI.params = s.params := by simp only [State.drawBlkI]
@[simp] theorem State.drawBlkI_arg (s : State) : s.drawBlkI.arg = s.arg := by simp only [State.drawBlkI]
@[simp] theorem State.drawBlkI_res0 (s : State) : s.drawBlkI.res0 = s.res0 := by simp only [State.drawBlkI]
@[simp] theorem State.drawBlkI_res1 (s : State) : s.drawBlkI.res1 = s.res1 := by simp only [State.drawBlkI]
@[simp] theorem State.drawBlkI_busy (s : State) : s.drawBlkI.busy = s.busy := by simp only [State.drawBlkI]
@[simp] theorem State.drawBlkI_fault (s : State) : s.drawBlkI.fault = s.fault := by simp only [State.drawBlkI]
@[simp] theorem State.drawBlkI_segEnd (s : State) : s.drawBlkI.segEnd = s.segEnd := by simp only [State.drawBlkI]
@[simp] theorem State.drawBlkI_faultCause (s : State) : s.drawBlkI.faultCause = s.faultCause := by simp only [State.drawBlkI]
@[simp] theorem State.drawBlkI_faultInfo (s : State) : s.drawBlkI.faultInfo = s.faultInfo := by simp only [State.drawBlkI]
@[simp] theorem State.drawBlkI_faultCmd (s : State) : s.drawBlkI.faultCmd = s.faultCmd := by simp only [State.drawBlkI]
@[simp] theorem State.drawBlkI_valid (s : State) : s.drawBlkI.valid = s.valid := by simp only [State.drawBlkI]
@[simp] theorem State.drawBlkI_prec (s : State) : s.drawBlkI.prec = s.prec := by simp only [State.drawBlkI]
@[simp] theorem State.drawBlkI_br (s : State) : s.drawBlkI.br = s.br := by simp only [State.drawBlkI]
@[simp] theorem State.drawBlkI_rstRd (s : State) : s.drawBlkI.rstRd = s.rstRd := by simp only [State.drawBlkI]
@[simp] theorem State.drawBlkI_bw (s : State) : s.drawBlkI.bw = s.bw := by simp only [State.drawBlkI]
@[simp] theorem State.drawBlkI_rstWr (s : State) : s.drawBlkI.rstWr = s.rstWr := by simp only [State.drawBlkI]
@[simp] theorem State.drawBlkI_dcp (s : State) : s.drawBlkI.dcp = s.dcp := by simp only [State.drawBlkI]
@[simp] theorem State.drawBlkI_htDc (s : State) : s.drawBlkI.htDc = s.htDc := by simp only [State.drawBlkI]
@[simp] theorem State.drawBlkI_htAc (s : State) : s.drawBlkI.htAc = s.htAc := by simp only [State.drawBlkI]
@[simp] theorem State.drawBlkI_fqDc (s : State) : s.drawBlkI.fqDc = s.fqDc := by simp only [State.drawBlkI]
@[simp] theorem State.drawBlkI_fqAc (s : State) : s.drawBlkI.fqAc = s.fqAc := by simp only [State.drawBlkI]
@[simp] theorem State.drawBlkI_qt (s : State) : s.drawBlkI.qt = s.qt := by simp only [State.drawBlkI]
@[simp] theorem State.drawBlkI_blkI (s : State) : s.drawBlkI.blkI = Vector.ofFn fun i : Fin 64 => s.drawn (.blkI i.val) := by simp only [State.drawBlkI]
@[simp] theorem State.drawBlkI_blkF (s : State) : s.drawBlkI.blkF = s.blkF := by simp only [State.drawBlkI]
@[simp] theorem State.drawBlkI_blkP (s : State) : s.drawBlkI.blkP = s.blkP := by simp only [State.drawBlkI]
@[simp] theorem State.drawBlkI_lj (s : State) : s.drawBlkI.lj = s.lj := by simp only [State.drawBlkI]
@[simp] theorem State.drawBlkI_inMem (s : State) : s.drawBlkI.inMem = s.inMem := by simp only [State.drawBlkI]
@[simp] theorem State.drawBlkI_outMem (s : State) : s.drawBlkI.outMem = s.outMem := by simp only [State.drawBlkI]
@[simp] theorem State.drawBlkI_host (s : State) : s.drawBlkI.host = s.host := by simp only [State.drawBlkI]
@[simp] theorem State.drawBlkI_hostData (s : State) : s.drawBlkI.hostData = s.hostData := by simp only [State.drawBlkI]
@[simp] theorem State.drawBlkI_draws (s : State) : s.drawBlkI.draws = s.draws := by simp only [State.drawBlkI]

/-! ### `drawOut` -/

@[simp] theorem State.drawOut_params (s : State) (a n : Nat) : (s.drawOut a n).params = s.params := rfl
@[simp] theorem State.drawOut_arg (s : State) (a n : Nat) : (s.drawOut a n).arg = s.arg := rfl
@[simp] theorem State.drawOut_res0 (s : State) (a n : Nat) : (s.drawOut a n).res0 = s.res0 := rfl
@[simp] theorem State.drawOut_res1 (s : State) (a n : Nat) : (s.drawOut a n).res1 = s.res1 := rfl
@[simp] theorem State.drawOut_busy (s : State) (a n : Nat) : (s.drawOut a n).busy = s.busy := rfl
@[simp] theorem State.drawOut_fault (s : State) (a n : Nat) : (s.drawOut a n).fault = s.fault := rfl
@[simp] theorem State.drawOut_segEnd (s : State) (a n : Nat) : (s.drawOut a n).segEnd = s.segEnd := rfl
@[simp] theorem State.drawOut_faultCause (s : State) (a n : Nat) : (s.drawOut a n).faultCause = s.faultCause := rfl
@[simp] theorem State.drawOut_faultInfo (s : State) (a n : Nat) : (s.drawOut a n).faultInfo = s.faultInfo := rfl
@[simp] theorem State.drawOut_faultCmd (s : State) (a n : Nat) : (s.drawOut a n).faultCmd = s.faultCmd := rfl
@[simp] theorem State.drawOut_valid (s : State) (a n : Nat) : (s.drawOut a n).valid = s.valid := rfl
@[simp] theorem State.drawOut_prec (s : State) (a n : Nat) : (s.drawOut a n).prec = s.prec := rfl
@[simp] theorem State.drawOut_br (s : State) (a n : Nat) : (s.drawOut a n).br = s.br := rfl
@[simp] theorem State.drawOut_rstRd (s : State) (a n : Nat) : (s.drawOut a n).rstRd = s.rstRd := rfl
@[simp] theorem State.drawOut_bw (s : State) (a n : Nat) : (s.drawOut a n).bw = s.bw := rfl
@[simp] theorem State.drawOut_rstWr (s : State) (a n : Nat) : (s.drawOut a n).rstWr = s.rstWr := rfl
@[simp] theorem State.drawOut_dcp (s : State) (a n : Nat) : (s.drawOut a n).dcp = s.dcp := rfl
@[simp] theorem State.drawOut_htDc (s : State) (a n : Nat) : (s.drawOut a n).htDc = s.htDc := rfl
@[simp] theorem State.drawOut_htAc (s : State) (a n : Nat) : (s.drawOut a n).htAc = s.htAc := rfl
@[simp] theorem State.drawOut_fqDc (s : State) (a n : Nat) : (s.drawOut a n).fqDc = s.fqDc := rfl
@[simp] theorem State.drawOut_fqAc (s : State) (a n : Nat) : (s.drawOut a n).fqAc = s.fqAc := rfl
@[simp] theorem State.drawOut_qt (s : State) (a n : Nat) : (s.drawOut a n).qt = s.qt := rfl
@[simp] theorem State.drawOut_blkI (s : State) (a n : Nat) : (s.drawOut a n).blkI = s.blkI := rfl
@[simp] theorem State.drawOut_blkF (s : State) (a n : Nat) : (s.drawOut a n).blkF = s.blkF := rfl
@[simp] theorem State.drawOut_blkP (s : State) (a n : Nat) : (s.drawOut a n).blkP = s.blkP := rfl
@[simp] theorem State.drawOut_lj (s : State) (a n : Nat) : (s.drawOut a n).lj = s.lj := rfl
@[simp] theorem State.drawOut_inMem (s : State) (a n : Nat) : (s.drawOut a n).inMem = s.inMem := rfl
@[simp] theorem State.drawOut_outMem (s : State) (a n : Nat) : (s.drawOut a n).outMem = s.outMem.draw a n s.draws := rfl
@[simp] theorem State.drawOut_host (s : State) (a n : Nat) : (s.drawOut a n).host = s.host := rfl
@[simp] theorem State.drawOut_hostData (s : State) (a n : Nat) : (s.drawOut a n).hostData = s.hostData := rfl
@[simp] theorem State.drawOut_draws (s : State) (a n : Nat) : (s.drawOut a n).draws = s.draws := rfl

/-! ### `drawRows` -/

@[simp] theorem State.drawRows_params (s : State) (n : Nat) : (s.drawRows n).params = s.params := rfl
@[simp] theorem State.drawRows_arg (s : State) (n : Nat) : (s.drawRows n).arg = s.arg := rfl
@[simp] theorem State.drawRows_res0 (s : State) (n : Nat) : (s.drawRows n).res0 = s.res0 := rfl
@[simp] theorem State.drawRows_res1 (s : State) (n : Nat) : (s.drawRows n).res1 = s.res1 := rfl
@[simp] theorem State.drawRows_busy (s : State) (n : Nat) : (s.drawRows n).busy = s.busy := rfl
@[simp] theorem State.drawRows_fault (s : State) (n : Nat) : (s.drawRows n).fault = s.fault := rfl
@[simp] theorem State.drawRows_segEnd (s : State) (n : Nat) : (s.drawRows n).segEnd = s.segEnd := rfl
@[simp] theorem State.drawRows_faultCause (s : State) (n : Nat) : (s.drawRows n).faultCause = s.faultCause := rfl
@[simp] theorem State.drawRows_faultInfo (s : State) (n : Nat) : (s.drawRows n).faultInfo = s.faultInfo := rfl
@[simp] theorem State.drawRows_faultCmd (s : State) (n : Nat) : (s.drawRows n).faultCmd = s.faultCmd := rfl
@[simp] theorem State.drawRows_valid (s : State) (n : Nat) : (s.drawRows n).valid = s.valid := rfl
@[simp] theorem State.drawRows_prec (s : State) (n : Nat) : (s.drawRows n).prec = s.prec := rfl
@[simp] theorem State.drawRows_br (s : State) (n : Nat) : (s.drawRows n).br = s.br := rfl
@[simp] theorem State.drawRows_rstRd (s : State) (n : Nat) : (s.drawRows n).rstRd = s.rstRd := rfl
@[simp] theorem State.drawRows_bw (s : State) (n : Nat) : (s.drawRows n).bw = s.bw := rfl
@[simp] theorem State.drawRows_rstWr (s : State) (n : Nat) : (s.drawRows n).rstWr = s.rstWr := rfl
@[simp] theorem State.drawRows_dcp (s : State) (n : Nat) : (s.drawRows n).dcp = s.dcp := rfl
@[simp] theorem State.drawRows_htDc (s : State) (n : Nat) : (s.drawRows n).htDc = s.htDc := rfl
@[simp] theorem State.drawRows_htAc (s : State) (n : Nat) : (s.drawRows n).htAc = s.htAc := rfl
@[simp] theorem State.drawRows_fqDc (s : State) (n : Nat) : (s.drawRows n).fqDc = s.fqDc := rfl
@[simp] theorem State.drawRows_fqAc (s : State) (n : Nat) : (s.drawRows n).fqAc = s.fqAc := rfl
@[simp] theorem State.drawRows_qt (s : State) (n : Nat) : (s.drawRows n).qt = s.qt := rfl
@[simp] theorem State.drawRows_blkI (s : State) (n : Nat) : (s.drawRows n).blkI = s.blkI := rfl
@[simp] theorem State.drawRows_blkF (s : State) (n : Nat) : (s.drawRows n).blkF = s.blkF := rfl
@[simp] theorem State.drawRows_blkP (s : State) (n : Nat) : (s.drawRows n).blkP = s.blkP := rfl
@[simp] theorem State.drawRows_inMem (s : State) (n : Nat) : (s.drawRows n).inMem = s.inMem := rfl
@[simp] theorem State.drawRows_outMem (s : State) (n : Nat) : (s.drawRows n).outMem = s.outMem := rfl
@[simp] theorem State.drawRows_host (s : State) (n : Nat) : (s.drawRows n).host = s.host := rfl
@[simp] theorem State.drawRows_hostData (s : State) (n : Nat) : (s.drawRows n).hostData = s.hostData := rfl
@[simp] theorem State.drawRows_draws (s : State) (n : Nat) : (s.drawRows n).draws = s.draws := rfl

/-! ### `coreReset` -/

@[simp] theorem State.coreReset_params (s : State) : s.coreReset.params = s.params := rfl
@[simp] theorem State.coreReset_arg (s : State) : s.coreReset.arg = State.reset.arg := rfl
@[simp] theorem State.coreReset_res0 (s : State) : s.coreReset.res0 = State.reset.res0 := rfl
@[simp] theorem State.coreReset_res1 (s : State) : s.coreReset.res1 = State.reset.res1 := rfl
@[simp] theorem State.coreReset_busy (s : State) : s.coreReset.busy = State.reset.busy := rfl
@[simp] theorem State.coreReset_fault (s : State) : s.coreReset.fault = State.reset.fault := rfl
@[simp] theorem State.coreReset_segEnd (s : State) : s.coreReset.segEnd = State.reset.segEnd := rfl
@[simp] theorem State.coreReset_faultCause (s : State) : s.coreReset.faultCause = State.reset.faultCause := rfl
@[simp] theorem State.coreReset_faultInfo (s : State) : s.coreReset.faultInfo = State.reset.faultInfo := rfl
@[simp] theorem State.coreReset_faultCmd (s : State) : s.coreReset.faultCmd = State.reset.faultCmd := rfl
@[simp] theorem State.coreReset_valid (s : State) : s.coreReset.valid = State.reset.valid := rfl
@[simp] theorem State.coreReset_prec (s : State) : s.coreReset.prec = State.reset.prec := rfl
@[simp] theorem State.coreReset_br (s : State) : s.coreReset.br = State.reset.br := rfl
@[simp] theorem State.coreReset_rstRd (s : State) : s.coreReset.rstRd = State.reset.rstRd := rfl
@[simp] theorem State.coreReset_bw (s : State) : s.coreReset.bw = State.reset.bw := rfl
@[simp] theorem State.coreReset_rstWr (s : State) : s.coreReset.rstWr = State.reset.rstWr := rfl
@[simp] theorem State.coreReset_dcp (s : State) : s.coreReset.dcp = State.reset.dcp := rfl
@[simp] theorem State.coreReset_htDc (s : State) : s.coreReset.htDc = State.reset.htDc := rfl
@[simp] theorem State.coreReset_htAc (s : State) : s.coreReset.htAc = State.reset.htAc := rfl
@[simp] theorem State.coreReset_fqDc (s : State) : s.coreReset.fqDc = State.reset.fqDc := rfl
@[simp] theorem State.coreReset_fqAc (s : State) : s.coreReset.fqAc = State.reset.fqAc := rfl
@[simp] theorem State.coreReset_qt (s : State) : s.coreReset.qt = State.reset.qt := rfl
@[simp] theorem State.coreReset_blkI (s : State) : s.coreReset.blkI = State.reset.blkI := rfl
@[simp] theorem State.coreReset_blkF (s : State) : s.coreReset.blkF = Vector.replicate 64 (s.num.ofInt 0) := rfl
@[simp] theorem State.coreReset_blkP (s : State) : s.coreReset.blkP = State.reset.blkP := rfl
@[simp] theorem State.coreReset_lj (s : State) : s.coreReset.lj = State.reset.lj := rfl
@[simp] theorem State.coreReset_inMem (s : State) : s.coreReset.inMem = s.inMem := rfl
@[simp] theorem State.coreReset_outMem (s : State) : s.coreReset.outMem = s.outMem := rfl
@[simp] theorem State.coreReset_host (s : State) : s.coreReset.host = s.host := rfl
@[simp] theorem State.coreReset_hostData (s : State) : s.coreReset.hostData = s.hostData := rfl
@[simp] theorem State.coreReset_draws (s : State) : s.coreReset.draws = s.draws := rfl

/-! ### `withOutcome` -/

@[simp] theorem State.withOutcome_params (s : State) (t : State) : (s.withOutcome t).params = s.params := rfl
@[simp] theorem State.withOutcome_arg (s : State) (t : State) : (s.withOutcome t).arg = s.arg := rfl
@[simp] theorem State.withOutcome_res0 (s : State) (t : State) : (s.withOutcome t).res0 = s.res0 := rfl
@[simp] theorem State.withOutcome_res1 (s : State) (t : State) : (s.withOutcome t).res1 = s.res1 := rfl
@[simp] theorem State.withOutcome_busy (s : State) (t : State) : (s.withOutcome t).busy = t.busy := rfl
@[simp] theorem State.withOutcome_fault (s : State) (t : State) : (s.withOutcome t).fault = t.fault := rfl
@[simp] theorem State.withOutcome_segEnd (s : State) (t : State) : (s.withOutcome t).segEnd = t.segEnd := rfl
@[simp] theorem State.withOutcome_faultCause (s : State) (t : State) : (s.withOutcome t).faultCause = t.faultCause := rfl
@[simp] theorem State.withOutcome_faultInfo (s : State) (t : State) : (s.withOutcome t).faultInfo = t.faultInfo := rfl
@[simp] theorem State.withOutcome_faultCmd (s : State) (t : State) : (s.withOutcome t).faultCmd = t.faultCmd := rfl
@[simp] theorem State.withOutcome_valid (s : State) (t : State) : (s.withOutcome t).valid = s.valid := rfl
@[simp] theorem State.withOutcome_prec (s : State) (t : State) : (s.withOutcome t).prec = s.prec := rfl
@[simp] theorem State.withOutcome_br (s : State) (t : State) : (s.withOutcome t).br = s.br := rfl
@[simp] theorem State.withOutcome_rstRd (s : State) (t : State) : (s.withOutcome t).rstRd = s.rstRd := rfl
@[simp] theorem State.withOutcome_bw (s : State) (t : State) : (s.withOutcome t).bw = s.bw := rfl
@[simp] theorem State.withOutcome_rstWr (s : State) (t : State) : (s.withOutcome t).rstWr = s.rstWr := rfl
@[simp] theorem State.withOutcome_dcp (s : State) (t : State) : (s.withOutcome t).dcp = s.dcp := rfl
@[simp] theorem State.withOutcome_htDc (s : State) (t : State) : (s.withOutcome t).htDc = s.htDc := rfl
@[simp] theorem State.withOutcome_htAc (s : State) (t : State) : (s.withOutcome t).htAc = s.htAc := rfl
@[simp] theorem State.withOutcome_fqDc (s : State) (t : State) : (s.withOutcome t).fqDc = s.fqDc := rfl
@[simp] theorem State.withOutcome_fqAc (s : State) (t : State) : (s.withOutcome t).fqAc = s.fqAc := rfl
@[simp] theorem State.withOutcome_qt (s : State) (t : State) : (s.withOutcome t).qt = s.qt := rfl
@[simp] theorem State.withOutcome_blkI (s : State) (t : State) : (s.withOutcome t).blkI = s.blkI := rfl
@[simp] theorem State.withOutcome_blkF (s : State) (t : State) : (s.withOutcome t).blkF = s.blkF := rfl
@[simp] theorem State.withOutcome_blkP (s : State) (t : State) : (s.withOutcome t).blkP = s.blkP := rfl
@[simp] theorem State.withOutcome_lj (s : State) (t : State) : (s.withOutcome t).lj = s.lj := rfl
@[simp] theorem State.withOutcome_inMem (s : State) (t : State) : (s.withOutcome t).inMem = s.inMem := rfl
@[simp] theorem State.withOutcome_outMem (s : State) (t : State) : (s.withOutcome t).outMem = s.outMem := rfl
@[simp] theorem State.withOutcome_host (s : State) (t : State) : (s.withOutcome t).host = s.host := rfl
@[simp] theorem State.withOutcome_hostData (s : State) (t : State) : (s.withOutcome t).hostData = s.hostData := rfl
@[simp] theorem State.withOutcome_draws (s : State) (t : State) : (s.withOutcome t).draws = t.draws := rfl

/-! ### `setTable` -/

@[simp] theorem State.setTable_params (s : State) (tc : TableClass) (th : Fin 4) (t : HuffTable) : (s.setTable tc th t).params = s.params := by
  cases tc <;> rfl
@[simp] theorem State.setTable_arg (s : State) (tc : TableClass) (th : Fin 4) (t : HuffTable) : (s.setTable tc th t).arg = s.arg := by
  cases tc <;> rfl
@[simp] theorem State.setTable_res0 (s : State) (tc : TableClass) (th : Fin 4) (t : HuffTable) : (s.setTable tc th t).res0 = s.res0 := by
  cases tc <;> rfl
@[simp] theorem State.setTable_res1 (s : State) (tc : TableClass) (th : Fin 4) (t : HuffTable) : (s.setTable tc th t).res1 = s.res1 := by
  cases tc <;> rfl
@[simp] theorem State.setTable_busy (s : State) (tc : TableClass) (th : Fin 4) (t : HuffTable) : (s.setTable tc th t).busy = s.busy := by
  cases tc <;> rfl
@[simp] theorem State.setTable_fault (s : State) (tc : TableClass) (th : Fin 4) (t : HuffTable) : (s.setTable tc th t).fault = s.fault := by
  cases tc <;> rfl
@[simp] theorem State.setTable_segEnd (s : State) (tc : TableClass) (th : Fin 4) (t : HuffTable) : (s.setTable tc th t).segEnd = s.segEnd := by
  cases tc <;> rfl
@[simp] theorem State.setTable_faultCause (s : State) (tc : TableClass) (th : Fin 4) (t : HuffTable) : (s.setTable tc th t).faultCause = s.faultCause := by
  cases tc <;> rfl
@[simp] theorem State.setTable_faultInfo (s : State) (tc : TableClass) (th : Fin 4) (t : HuffTable) : (s.setTable tc th t).faultInfo = s.faultInfo := by
  cases tc <;> rfl
@[simp] theorem State.setTable_faultCmd (s : State) (tc : TableClass) (th : Fin 4) (t : HuffTable) : (s.setTable tc th t).faultCmd = s.faultCmd := by
  cases tc <;> rfl
@[simp] theorem State.setTable_valid (s : State) (tc : TableClass) (th : Fin 4) (t : HuffTable) : (s.setTable tc th t).valid = s.valid := by
  cases tc <;> rfl
@[simp] theorem State.setTable_prec (s : State) (tc : TableClass) (th : Fin 4) (t : HuffTable) : (s.setTable tc th t).prec = s.prec := by
  cases tc <;> rfl
@[simp] theorem State.setTable_br (s : State) (tc : TableClass) (th : Fin 4) (t : HuffTable) : (s.setTable tc th t).br = s.br := by
  cases tc <;> rfl
@[simp] theorem State.setTable_rstRd (s : State) (tc : TableClass) (th : Fin 4) (t : HuffTable) : (s.setTable tc th t).rstRd = s.rstRd := by
  cases tc <;> rfl
@[simp] theorem State.setTable_bw (s : State) (tc : TableClass) (th : Fin 4) (t : HuffTable) : (s.setTable tc th t).bw = s.bw := by
  cases tc <;> rfl
@[simp] theorem State.setTable_rstWr (s : State) (tc : TableClass) (th : Fin 4) (t : HuffTable) : (s.setTable tc th t).rstWr = s.rstWr := by
  cases tc <;> rfl
@[simp] theorem State.setTable_dcp (s : State) (tc : TableClass) (th : Fin 4) (t : HuffTable) : (s.setTable tc th t).dcp = s.dcp := by
  cases tc <;> rfl
@[simp] theorem State.setTable_fqDc (s : State) (tc : TableClass) (th : Fin 4) (t : HuffTable) : (s.setTable tc th t).fqDc = s.fqDc := by
  cases tc <;> rfl
@[simp] theorem State.setTable_fqAc (s : State) (tc : TableClass) (th : Fin 4) (t : HuffTable) : (s.setTable tc th t).fqAc = s.fqAc := by
  cases tc <;> rfl
@[simp] theorem State.setTable_qt (s : State) (tc : TableClass) (th : Fin 4) (t : HuffTable) : (s.setTable tc th t).qt = s.qt := by
  cases tc <;> rfl
@[simp] theorem State.setTable_blkI (s : State) (tc : TableClass) (th : Fin 4) (t : HuffTable) : (s.setTable tc th t).blkI = s.blkI := by
  cases tc <;> rfl
@[simp] theorem State.setTable_blkF (s : State) (tc : TableClass) (th : Fin 4) (t : HuffTable) : (s.setTable tc th t).blkF = s.blkF := by
  cases tc <;> rfl
@[simp] theorem State.setTable_blkP (s : State) (tc : TableClass) (th : Fin 4) (t : HuffTable) : (s.setTable tc th t).blkP = s.blkP := by
  cases tc <;> rfl
@[simp] theorem State.setTable_lj (s : State) (tc : TableClass) (th : Fin 4) (t : HuffTable) : (s.setTable tc th t).lj = s.lj := by
  cases tc <;> rfl
@[simp] theorem State.setTable_inMem (s : State) (tc : TableClass) (th : Fin 4) (t : HuffTable) : (s.setTable tc th t).inMem = s.inMem := by
  cases tc <;> rfl
@[simp] theorem State.setTable_outMem (s : State) (tc : TableClass) (th : Fin 4) (t : HuffTable) : (s.setTable tc th t).outMem = s.outMem := by
  cases tc <;> rfl
@[simp] theorem State.setTable_host (s : State) (tc : TableClass) (th : Fin 4) (t : HuffTable) : (s.setTable tc th t).host = s.host := by
  cases tc <;> rfl
@[simp] theorem State.setTable_hostData (s : State) (tc : TableClass) (th : Fin 4) (t : HuffTable) : (s.setTable tc th t).hostData = s.hostData := by
  cases tc <;> rfl
@[simp] theorem State.setTable_draws (s : State) (tc : TableClass) (th : Fin 4) (t : HuffTable) : (s.setTable tc th t).draws = s.draws := by
  cases tc <;> rfl

/-! ### `setFreq` -/

@[simp] theorem State.setFreq_params (s : State) (tc : TableClass) (th : Fin 4) (t : FreqModel) : (s.setFreq tc th t).params = s.params := by
  cases tc <;> rfl
@[simp] theorem State.setFreq_arg (s : State) (tc : TableClass) (th : Fin 4) (t : FreqModel) : (s.setFreq tc th t).arg = s.arg := by
  cases tc <;> rfl
@[simp] theorem State.setFreq_res0 (s : State) (tc : TableClass) (th : Fin 4) (t : FreqModel) : (s.setFreq tc th t).res0 = s.res0 := by
  cases tc <;> rfl
@[simp] theorem State.setFreq_res1 (s : State) (tc : TableClass) (th : Fin 4) (t : FreqModel) : (s.setFreq tc th t).res1 = s.res1 := by
  cases tc <;> rfl
@[simp] theorem State.setFreq_busy (s : State) (tc : TableClass) (th : Fin 4) (t : FreqModel) : (s.setFreq tc th t).busy = s.busy := by
  cases tc <;> rfl
@[simp] theorem State.setFreq_fault (s : State) (tc : TableClass) (th : Fin 4) (t : FreqModel) : (s.setFreq tc th t).fault = s.fault := by
  cases tc <;> rfl
@[simp] theorem State.setFreq_segEnd (s : State) (tc : TableClass) (th : Fin 4) (t : FreqModel) : (s.setFreq tc th t).segEnd = s.segEnd := by
  cases tc <;> rfl
@[simp] theorem State.setFreq_faultCause (s : State) (tc : TableClass) (th : Fin 4) (t : FreqModel) : (s.setFreq tc th t).faultCause = s.faultCause := by
  cases tc <;> rfl
@[simp] theorem State.setFreq_faultInfo (s : State) (tc : TableClass) (th : Fin 4) (t : FreqModel) : (s.setFreq tc th t).faultInfo = s.faultInfo := by
  cases tc <;> rfl
@[simp] theorem State.setFreq_faultCmd (s : State) (tc : TableClass) (th : Fin 4) (t : FreqModel) : (s.setFreq tc th t).faultCmd = s.faultCmd := by
  cases tc <;> rfl
@[simp] theorem State.setFreq_valid (s : State) (tc : TableClass) (th : Fin 4) (t : FreqModel) : (s.setFreq tc th t).valid = s.valid := by
  cases tc <;> rfl
@[simp] theorem State.setFreq_prec (s : State) (tc : TableClass) (th : Fin 4) (t : FreqModel) : (s.setFreq tc th t).prec = s.prec := by
  cases tc <;> rfl
@[simp] theorem State.setFreq_br (s : State) (tc : TableClass) (th : Fin 4) (t : FreqModel) : (s.setFreq tc th t).br = s.br := by
  cases tc <;> rfl
@[simp] theorem State.setFreq_rstRd (s : State) (tc : TableClass) (th : Fin 4) (t : FreqModel) : (s.setFreq tc th t).rstRd = s.rstRd := by
  cases tc <;> rfl
@[simp] theorem State.setFreq_bw (s : State) (tc : TableClass) (th : Fin 4) (t : FreqModel) : (s.setFreq tc th t).bw = s.bw := by
  cases tc <;> rfl
@[simp] theorem State.setFreq_rstWr (s : State) (tc : TableClass) (th : Fin 4) (t : FreqModel) : (s.setFreq tc th t).rstWr = s.rstWr := by
  cases tc <;> rfl
@[simp] theorem State.setFreq_dcp (s : State) (tc : TableClass) (th : Fin 4) (t : FreqModel) : (s.setFreq tc th t).dcp = s.dcp := by
  cases tc <;> rfl
@[simp] theorem State.setFreq_htDc (s : State) (tc : TableClass) (th : Fin 4) (t : FreqModel) : (s.setFreq tc th t).htDc = s.htDc := by
  cases tc <;> rfl
@[simp] theorem State.setFreq_htAc (s : State) (tc : TableClass) (th : Fin 4) (t : FreqModel) : (s.setFreq tc th t).htAc = s.htAc := by
  cases tc <;> rfl
@[simp] theorem State.setFreq_qt (s : State) (tc : TableClass) (th : Fin 4) (t : FreqModel) : (s.setFreq tc th t).qt = s.qt := by
  cases tc <;> rfl
@[simp] theorem State.setFreq_blkI (s : State) (tc : TableClass) (th : Fin 4) (t : FreqModel) : (s.setFreq tc th t).blkI = s.blkI := by
  cases tc <;> rfl
@[simp] theorem State.setFreq_blkF (s : State) (tc : TableClass) (th : Fin 4) (t : FreqModel) : (s.setFreq tc th t).blkF = s.blkF := by
  cases tc <;> rfl
@[simp] theorem State.setFreq_blkP (s : State) (tc : TableClass) (th : Fin 4) (t : FreqModel) : (s.setFreq tc th t).blkP = s.blkP := by
  cases tc <;> rfl
@[simp] theorem State.setFreq_lj (s : State) (tc : TableClass) (th : Fin 4) (t : FreqModel) : (s.setFreq tc th t).lj = s.lj := by
  cases tc <;> rfl
@[simp] theorem State.setFreq_inMem (s : State) (tc : TableClass) (th : Fin 4) (t : FreqModel) : (s.setFreq tc th t).inMem = s.inMem := by
  cases tc <;> rfl
@[simp] theorem State.setFreq_outMem (s : State) (tc : TableClass) (th : Fin 4) (t : FreqModel) : (s.setFreq tc th t).outMem = s.outMem := by
  cases tc <;> rfl
@[simp] theorem State.setFreq_host (s : State) (tc : TableClass) (th : Fin 4) (t : FreqModel) : (s.setFreq tc th t).host = s.host := by
  cases tc <;> rfl
@[simp] theorem State.setFreq_hostData (s : State) (tc : TableClass) (th : Fin 4) (t : FreqModel) : (s.setFreq tc th t).hostData = s.hostData := by
  cases tc <;> rfl
@[simp] theorem State.setFreq_draws (s : State) (tc : TableClass) (th : Fin 4) (t : FreqModel) : (s.setFreq tc th t).draws = s.draws := by
  cases tc <;> rfl

/-! ### `drawFreq` -/

@[simp] theorem State.drawFreq_params (s : State) (td ta : Fin 4) : (s.drawFreq td ta).params = s.params := by
  simp [State.drawFreq]
@[simp] theorem State.drawFreq_arg (s : State) (td ta : Fin 4) : (s.drawFreq td ta).arg = s.arg := by
  simp [State.drawFreq]
@[simp] theorem State.drawFreq_res0 (s : State) (td ta : Fin 4) : (s.drawFreq td ta).res0 = s.res0 := by
  simp [State.drawFreq]
@[simp] theorem State.drawFreq_res1 (s : State) (td ta : Fin 4) : (s.drawFreq td ta).res1 = s.res1 := by
  simp [State.drawFreq]
@[simp] theorem State.drawFreq_busy (s : State) (td ta : Fin 4) : (s.drawFreq td ta).busy = s.busy := by
  simp [State.drawFreq]
@[simp] theorem State.drawFreq_fault (s : State) (td ta : Fin 4) : (s.drawFreq td ta).fault = s.fault := by
  simp [State.drawFreq]
@[simp] theorem State.drawFreq_segEnd (s : State) (td ta : Fin 4) : (s.drawFreq td ta).segEnd = s.segEnd := by
  simp [State.drawFreq]
@[simp] theorem State.drawFreq_faultCause (s : State) (td ta : Fin 4) : (s.drawFreq td ta).faultCause = s.faultCause := by
  simp [State.drawFreq]
@[simp] theorem State.drawFreq_faultInfo (s : State) (td ta : Fin 4) : (s.drawFreq td ta).faultInfo = s.faultInfo := by
  simp [State.drawFreq]
@[simp] theorem State.drawFreq_faultCmd (s : State) (td ta : Fin 4) : (s.drawFreq td ta).faultCmd = s.faultCmd := by
  simp [State.drawFreq]
@[simp] theorem State.drawFreq_valid (s : State) (td ta : Fin 4) : (s.drawFreq td ta).valid = s.valid := by
  simp [State.drawFreq]
@[simp] theorem State.drawFreq_prec (s : State) (td ta : Fin 4) : (s.drawFreq td ta).prec = s.prec := by
  simp [State.drawFreq]
@[simp] theorem State.drawFreq_br (s : State) (td ta : Fin 4) : (s.drawFreq td ta).br = s.br := by
  simp [State.drawFreq]
@[simp] theorem State.drawFreq_rstRd (s : State) (td ta : Fin 4) : (s.drawFreq td ta).rstRd = s.rstRd := by
  simp [State.drawFreq]
@[simp] theorem State.drawFreq_bw (s : State) (td ta : Fin 4) : (s.drawFreq td ta).bw = s.bw := by
  simp [State.drawFreq]
@[simp] theorem State.drawFreq_rstWr (s : State) (td ta : Fin 4) : (s.drawFreq td ta).rstWr = s.rstWr := by
  simp [State.drawFreq]
@[simp] theorem State.drawFreq_dcp (s : State) (td ta : Fin 4) : (s.drawFreq td ta).dcp = s.dcp := by
  simp [State.drawFreq]
@[simp] theorem State.drawFreq_htDc (s : State) (td ta : Fin 4) : (s.drawFreq td ta).htDc = s.htDc := by
  simp [State.drawFreq]
@[simp] theorem State.drawFreq_htAc (s : State) (td ta : Fin 4) : (s.drawFreq td ta).htAc = s.htAc := by
  simp [State.drawFreq]
@[simp] theorem State.drawFreq_qt (s : State) (td ta : Fin 4) : (s.drawFreq td ta).qt = s.qt := by
  simp [State.drawFreq]
@[simp] theorem State.drawFreq_blkI (s : State) (td ta : Fin 4) : (s.drawFreq td ta).blkI = s.blkI := by
  simp [State.drawFreq]
@[simp] theorem State.drawFreq_blkF (s : State) (td ta : Fin 4) : (s.drawFreq td ta).blkF = s.blkF := by
  simp [State.drawFreq]
@[simp] theorem State.drawFreq_blkP (s : State) (td ta : Fin 4) : (s.drawFreq td ta).blkP = s.blkP := by
  simp [State.drawFreq]
@[simp] theorem State.drawFreq_lj (s : State) (td ta : Fin 4) : (s.drawFreq td ta).lj = s.lj := by
  simp [State.drawFreq]
@[simp] theorem State.drawFreq_inMem (s : State) (td ta : Fin 4) : (s.drawFreq td ta).inMem = s.inMem := by
  simp [State.drawFreq]
@[simp] theorem State.drawFreq_outMem (s : State) (td ta : Fin 4) : (s.drawFreq td ta).outMem = s.outMem := by
  simp [State.drawFreq]
@[simp] theorem State.drawFreq_host (s : State) (td ta : Fin 4) : (s.drawFreq td ta).host = s.host := by
  simp [State.drawFreq]
@[simp] theorem State.drawFreq_hostData (s : State) (td ta : Fin 4) : (s.drawFreq td ta).hostData = s.hostData := by
  simp [State.drawFreq]
@[simp] theorem State.drawFreq_draws (s : State) (td ta : Fin 4) : (s.drawFreq td ta).draws = s.draws := by
  simp [State.drawFreq]

/-! ### Derived reads over updates -/

@[simp] theorem State.finish_isValid (s : State) (b : Bool) (m : Nat) : (s.finish b).isValid m = s.isValid m := rfl
@[simp] theorem State.setTable_isValid (s : State) (tc : TableClass) (th : Fin 4) (t : HuffTable) (m : Nat) : (s.setTable tc th t).isValid m = s.isValid m := by cases tc <;> rfl
@[simp] theorem State.setFreq_isValid (s : State) (tc : TableClass) (th : Fin 4) (f : FreqModel) (m : Nat) : (s.setFreq tc th f).isValid m = s.isValid m := by cases tc <;> rfl
@[simp] theorem State.setPred_isValid (s : State) (c : Fin 4) (v : Word) (m : Nat) : (s.setPred c v).isValid m = s.isValid m := rfl
@[simp] theorem State.clearPreds_isValid (s : State) (m : Nat) : (s.clearPreds).isValid m = s.isValid m := rfl
@[simp] theorem State.setSink_isValid (s : State) (k : Sink) (m : Nat) : (s.setSink k).isValid m = s.isValid m := rfl
@[simp] theorem State.finish_table (s : State) (b : Bool) (tc' : TableClass) (th' : Fin 4) : (s.finish b).table tc' th' = s.table tc' th' := rfl
@[simp] theorem State.setValid_table (s : State) (n : Nat) (b : Bool) (tc' : TableClass) (th' : Fin 4) : (s.setValid n b).table tc' th' = s.table tc' th' := rfl
@[simp] theorem State.setFreq_table (s : State) (tc : TableClass) (th : Fin 4) (f : FreqModel) (tc' : TableClass) (th' : Fin 4) : (s.setFreq tc th f).table tc' th' = s.table tc' th' := by cases tc <;> rfl
@[simp] theorem State.setPred_table (s : State) (c : Fin 4) (v : Word) (tc' : TableClass) (th' : Fin 4) : (s.setPred c v).table tc' th' = s.table tc' th' := rfl
@[simp] theorem State.clearPreds_table (s : State) (tc' : TableClass) (th' : Fin 4) : (s.clearPreds).table tc' th' = s.table tc' th' := rfl
@[simp] theorem State.setSink_table (s : State) (k : Sink) (tc' : TableClass) (th' : Fin 4) : (s.setSink k).table tc' th' = s.table tc' th' := rfl
@[simp] theorem State.finish_freq (s : State) (b : Bool) (tc' : TableClass) (th' : Fin 4) : (s.finish b).freq tc' th' = s.freq tc' th' := rfl
@[simp] theorem State.setValid_freq (s : State) (n : Nat) (b : Bool) (tc' : TableClass) (th' : Fin 4) : (s.setValid n b).freq tc' th' = s.freq tc' th' := rfl
@[simp] theorem State.setTable_freq (s : State) (tc : TableClass) (th : Fin 4) (t : HuffTable) (tc' : TableClass) (th' : Fin 4) : (s.setTable tc th t).freq tc' th' = s.freq tc' th' := by cases tc <;> rfl
@[simp] theorem State.setPred_freq (s : State) (c : Fin 4) (v : Word) (tc' : TableClass) (th' : Fin 4) : (s.setPred c v).freq tc' th' = s.freq tc' th' := rfl
@[simp] theorem State.clearPreds_freq (s : State) (tc' : TableClass) (th' : Fin 4) : (s.clearPreds).freq tc' th' = s.freq tc' th' := rfl
@[simp] theorem State.setSink_freq (s : State) (k : Sink) (tc' : TableClass) (th' : Fin 4) : (s.setSink k).freq tc' th' = s.freq tc' th' := rfl
@[simp] theorem State.finish_pred (s : State) (b : Bool) (c' : Fin 4) : (s.finish b).pred c' = s.pred c' := rfl
@[simp] theorem State.setValid_pred (s : State) (n : Nat) (b : Bool) (c' : Fin 4) : (s.setValid n b).pred c' = s.pred c' := rfl
@[simp] theorem State.setTable_pred (s : State) (tc : TableClass) (th : Fin 4) (t : HuffTable) (c' : Fin 4) : (s.setTable tc th t).pred c' = s.pred c' := by cases tc <;> rfl
@[simp] theorem State.setFreq_pred (s : State) (tc : TableClass) (th : Fin 4) (f : FreqModel) (c' : Fin 4) : (s.setFreq tc th f).pred c' = s.pred c' := by cases tc <;> rfl
@[simp] theorem State.setSink_pred (s : State) (k : Sink) (c' : Fin 4) : (s.setSink k).pred c' = s.pred c' := rfl
@[simp] theorem State.finish_sink (s : State) (b : Bool) : (s.finish b).sink = s.sink := rfl
@[simp] theorem State.setValid_sink (s : State) (n : Nat) (b : Bool) : (s.setValid n b).sink = s.sink := rfl
@[simp] theorem State.setTable_sink (s : State) (tc : TableClass) (th : Fin 4) (t : HuffTable) : (s.setTable tc th t).sink = s.sink := by cases tc <;> rfl
@[simp] theorem State.setFreq_sink (s : State) (tc : TableClass) (th : Fin 4) (f : FreqModel) : (s.setFreq tc th f).sink = s.sink := by cases tc <;> rfl
@[simp] theorem State.setPred_sink (s : State) (c : Fin 4) (v : Word) : (s.setPred c v).sink = s.sink := rfl
@[simp] theorem State.clearPreds_sink (s : State) : (s.clearPreds).sink = s.sink := rfl
@[simp] theorem State.finish_argNat (s : State) (b : Bool) (i : Fin 4) : (s.finish b).argNat i = s.argNat i := rfl
@[simp] theorem State.setValid_argNat (s : State) (n : Nat) (b : Bool) (i : Fin 4) : (s.setValid n b).argNat i = s.argNat i := rfl
@[simp] theorem State.setTable_argNat (s : State) (tc : TableClass) (th : Fin 4) (t : HuffTable) (i : Fin 4) : (s.setTable tc th t).argNat i = s.argNat i := by cases tc <;> rfl
@[simp] theorem State.setFreq_argNat (s : State) (tc : TableClass) (th : Fin 4) (f : FreqModel) (i : Fin 4) : (s.setFreq tc th f).argNat i = s.argNat i := by cases tc <;> rfl
@[simp] theorem State.setPred_argNat (s : State) (c : Fin 4) (v : Word) (i : Fin 4) : (s.setPred c v).argNat i = s.argNat i := rfl
@[simp] theorem State.clearPreds_argNat (s : State) (i : Fin 4) : (s.clearPreds).argNat i = s.argNat i := rfl
@[simp] theorem State.setSink_argNat (s : State) (k : Sink) (i : Fin 4) : (s.setSink k).argNat i = s.argNat i := rfl
@[simp] theorem State.finish_drawn (s : State) (b : Bool) (e : Drawn) : (s.finish b).drawn e = s.drawn e := rfl
@[simp] theorem State.setValid_drawn (s : State) (n : Nat) (b : Bool) (e : Drawn) : (s.setValid n b).drawn e = s.drawn e := rfl
@[simp] theorem State.setTable_drawn (s : State) (tc : TableClass) (th : Fin 4) (t : HuffTable) (e : Drawn) : (s.setTable tc th t).drawn e = s.drawn e := by cases tc <;> rfl
@[simp] theorem State.setFreq_drawn (s : State) (tc : TableClass) (th : Fin 4) (f : FreqModel) (e : Drawn) : (s.setFreq tc th f).drawn e = s.drawn e := by cases tc <;> rfl
@[simp] theorem State.setPred_drawn (s : State) (c : Fin 4) (v : Word) (e : Drawn) : (s.setPred c v).drawn e = s.drawn e := rfl
@[simp] theorem State.clearPreds_drawn (s : State) (e : Drawn) : (s.clearPreds).drawn e = s.drawn e := rfl
@[simp] theorem State.setSink_drawn (s : State) (k : Sink) (e : Drawn) : (s.setSink k).drawn e = s.drawn e := rfl

/-! ### Reading back what was written -/

@[simp] theorem State.setTable_table (s : State) (tc tc' : TableClass) (th th' : Fin 4) (t : HuffTable) :
    (s.setTable tc th t).table tc' th' = if tc' = tc ∧ th' = th then t else s.table tc' th' := by
  cases tc <;> cases tc' <;> simp [State.setTable, State.table, Vector.getElem_set, Fin.ext_iff, eq_comm]

@[simp] theorem State.setFreq_freq (s : State) (tc tc' : TableClass) (th th' : Fin 4) (f : FreqModel) :
    (s.setFreq tc th f).freq tc' th' = if tc' = tc ∧ th' = th then f else s.freq tc' th' := by
  cases tc <;> cases tc' <;> simp [State.setFreq, State.freq, Vector.getElem_set, Fin.ext_iff, eq_comm]

theorem State.setValid_isValid (s : State) (n m : Nat) (b : Bool) (hm : m < 17) :
    (s.setValid n b).isValid m = if m = n then b else s.isValid m := by
  by_cases h : m = n
  · subst h
    cases b <;> simp [State.isValid, hm]
  · cases b <;> simp [State.isValid, h, hm]

@[simp] theorem State.coreReset_isValid (s : State) (n : Nat) : s.coreReset.isValid n = false := by
  simp [State.isValid, State.reset]

@[simp] theorem State.clearPreds_pred (s : State) (c : Fin 4) : s.clearPreds.pred c = 0 := by
  simp [State.pred]

@[simp] theorem State.setPred_pred (s : State) (c c' : Fin 4) (v : Word) :
    (s.setPred c v).pred c' = if c' = c then v.toInt else s.pred c' := by
  by_cases h : c = c'
  · subst h; simp [State.pred]
  · have : (c : Nat) ≠ c' := fun e => h (Fin.ext e)
    simp [State.pred, this, Ne.symm h]

@[simp] theorem State.setSink_sink (s : State) (k : Sink) : (s.setSink k).sink = k := rfl

/-! ### NUM of the instance -/

@[simp] theorem Numerics.of_ref : Numerics.of .ref = Numerics.ref := rfl
@[simp] theorem Numerics.of_declared (id : Nat) : Numerics.of (.declared id) = Config.declaredNum id := rfl

/-- NUM is fixed by the parameters, so whatever keeps them keeps it. -/
theorem State.num_congr {s t : State} (h : t.params = s.params) : t.num = s.num := by rw [State.num, State.num, h]

theorem State.num_ref {s : State} (h : s.params.num = .ref) : s.num = Numerics.ref := by rw [State.num, h, Numerics.of_ref]

theorem State.num_declared {s : State} {id : Nat} (h : s.params.num = .declared id) : s.num = Config.declaredNum id := by
  rw [State.num, h, Numerics.of_declared]

@[simp] theorem State.finish_num (s : State) (b : Bool) : (s.finish b).num = s.num := rfl
@[simp] theorem State.takeFault_num (s : State) (w : Word) (c : Cause) (info : Word) : (s.takeFault w c info).num = s.num := rfl
@[simp] theorem State.raise_num (s : State) (i : Instr) (r : Raise) : (s.raise i r).num = s.num := rfl
@[simp] theorem State.raiseMid_num (s : State) (i : Instr) (r : Raise) : (s.raiseMid i r).num = s.num := rfl
@[simp] theorem State.coreReset_num (s : State) : s.coreReset.num = s.num := rfl
@[simp] theorem State.resetOf_num (p : Params) : (State.resetOf p).num = Numerics.of p.num := rfl

/-- `State.reset` is the reset state of its own parameters. -/
theorem State.resetOf_reset : State.resetOf State.reset.params = State.reset := rfl

/-- The core's reset, of an instance with nothing in its memories and no move made or pending, is its power-on reset. -/
theorem State.coreReset_resetOf (p : Params) : (State.resetOf p).coreReset = State.resetOf p := rfl

end Sys2Proof.Machine
end

