-- ==== Sys2Proof/Laws/Ops.lean ====
section
/-! SUPPORT. What each shared operation can do, said once: the checks, the way a command is built from its checks, and the
way from a host move to a command. -/

namespace Sys2Proof.Machine

/-! ### Sequenced checks -/

theorem bind_ok_iff {ε α β : Type} (x : Except ε α) (f : α → Except ε β) (b : β) :
    (x >>= f) = .ok b ↔ ∃ a, x = .ok a ∧ f a = .ok b := by
  cases x <;> simp [bind, Except.bind]

theorem bind_error_iff {ε α β : Type} (x : Except ε α) (f : α → Except ε β) (e : ε) :
    (x >>= f) = .error e ↔ x = .error e ∨ ∃ a, x = .ok a ∧ f a = .error e := by
  cases x <;> simp [bind, Except.bind]

theorem require_ok_iff (b : Bool) (r : Raise) : require b r = .ok () ↔ b = true := by
  cases b <;> simp [require]

theorem require_error_iff (b : Bool) (r e : Raise) : require b r = .error e ↔ b = false ∧ r = e := by
  cases b <;> simp [require]

theorem pure_ok_iff {ε α : Type} (a b : α) : (pure a : Except ε α) = .ok b ↔ a = b := by
  simp [pure, Except.pure]

theorem pure_error_iff {ε α : Type} (a : α) (e : ε) : (pure a : Except ε α) = .error e ↔ False := by
  simp [pure, Except.pure]

/-! ### Fields -/

theorem indexField_ok_iff (f : Byte) (i : Fin 4) : indexField f = .ok i ↔ f.toNat = i.val := by
  unfold indexField
  split
  · simp [Fin.ext_iff]
  · have := i.isLt
    simp
    omega

theorem indexField_error_iff (f : Byte) (r : Raise) :
    indexField f = .error r ↔ 4 ≤ f.toNat ∧ r = (.badArg, fieldInfo f) := by
  unfold indexField
  split <;> rename_i h
  · simp
    omega
  · simp [eq_comm]
    omega

/-- The field value of a table class. -/
theorem classField_ok_iff (f : Byte) (c : TableClass) :
    classField f = .ok c ↔ f = match c with | .dc => 0 | .ac => 1 := by
  unfold classField
  split
  · rename_i h
    cases c <;> simp [h]
  · split
    · rename_i h
      cases c <;> simp [h]
    · rename_i h0 h1
      cases c <;> simp_all

theorem classField_error_iff (f : Byte) (r : Raise) :
    classField f = .error r ↔ 1 < f.toNat ∧ r = (.badArg, fieldInfo f) := by
  have h0 : f = 0 ↔ f.toNat = 0 := by rw [← BitVec.toNat_inj]; rfl
  have h1 : f = 1 ↔ f.toNat = 1 := by rw [← BitVec.toNat_inj]; rfl
  unfold classField
  split
  · rename_i h
    rw [h0] at h
    simp [h]
  · split
    · rename_i h
      rw [h1] at h
      simp [h]
    · rename_i a b
      rw [h0] at a
      rw [h1] at b
      simp [eq_comm]
      omega

theorem precisionField_ok_iff (f : Byte) (b : Bool) : precisionField f = .ok b ↔ f = if b then 1 else 0 := by
  unfold precisionField
  split
  · rename_i h
    cases b <;> simp [h]
  · split
    · rename_i h
      cases b <;> simp [h]
    · rename_i h0 h1
      cases b <;> simp_all

theorem countField_ok_iff (max n : Nat) (f : Byte) : countField max f = .ok n ↔ f.toNat = n ∧ n ≤ max := by
  unfold countField
  split
  · rename_i h
    constructor
    · rintro ⟨⟩
      exact ⟨rfl, h⟩
    · rintro ⟨rfl, _⟩
      rfl
  · rename_i h
    constructor
    · rintro ⟨⟩
    · rintro ⟨rfl, h'⟩
      exact absurd h' h

theorem countField_error_iff (max : Nat) (f : Byte) (r : Raise) :
    countField max f = .error r ↔ max < f.toNat ∧ r = (.badArg, fieldInfo f) := by
  unfold countField
  split <;> rename_i h
  · simp
    omega
  · simp [eq_comm]
    omega

theorem tableFields_ok_iff (tc th : Byte) (c : TableClass) (i : Fin 4) :
    tableFields tc th = .ok (c, i) ↔ classField tc = .ok c ∧ indexField th = .ok i := by
  cases h : classField tc <;> cases h' : indexField th <;>
    simp [tableFields, h, h', bind, Except.bind, pure, Except.pure]

theorem tableFields_error_iff (tc th : Byte) (r : Raise) :
    tableFields tc th = .error r ↔
      classField tc = .error r ∨ (∃ c, classField tc = .ok c) ∧ indexField th = .error r := by
  cases h : classField tc <;> cases h' : indexField th <;>
    simp [tableFields, h, h', bind, Except.bind, pure, Except.pure]

theorem blockFields_ok_iff (c td ta : Byte) (x y z : Fin 4) :
    blockFields c td ta = .ok (x, y, z) ↔ indexField c = .ok x ∧ indexField td = .ok y ∧ indexField ta = .ok z := by
  cases h : indexField c <;> cases h' : indexField td <;> cases h'' : indexField ta <;>
    simp [blockFields, h, h', h'', bind, Except.bind, pure, Except.pure]

theorem State.needs_ok_iff (s : State) (n : Nat) : s.needs n = .ok () ↔ s.isValid n = true := require_ok_iff _ _

theorem State.needs_error_iff (s : State) (n : Nat) (r : Raise) :
    s.needs n = .error r ↔ s.isValid n = false ∧ r = (.notReady, BitVec.ofNat 32 n) := by
  rw [State.needs, require_error_iff, eq_comm (a := r)]

theorem State.precision_ok_iff (s : State) (p : Nat) :
    s.precision = .ok p ↔ s.prec.toNat = p ∧ 2 ≤ p ∧ p ≤ 16 := by
  unfold State.precision
  split
  · rename_i h
    constructor
    · rintro ⟨⟩
      exact ⟨rfl, h⟩
    · rintro ⟨rfl, _⟩
      rfl
  · rename_i h
    constructor
    · rintro ⟨⟩
    · rintro ⟨rfl, h'⟩
      exact absurd h' h

/-! ### A command and its checks -/

@[simp] theorem State.checked_ok {α : Type} (s : State) (i : Instr) (a : α) (k : α → State) :
    s.checked i (.ok a) k = k a := rfl

@[simp] theorem State.checked_error {α : Type} (s : State) (i : Instr) (r : Raise) (k : α → State) :
    s.checked i (.error r) k = s.raise i r := rfl

/-- A command either faults in its checks, and nothing but the fault is recorded, or goes on with what they answer. -/
theorem State.checked_cases {α : Type} (s : State) (i : Instr) (x : Except Raise α) (k : α → State) :
    (∃ r, x = .error r ∧ s.checked i x k = s.raise i r) ∨ ∃ a, x = .ok a ∧ s.checked i x k = k a := by
  cases x with
  | error r => exact .inl ⟨r, rfl, rfl⟩
  | ok a => exact .inr ⟨a, rfl, rfl⟩

theorem State.checked_finish {α : Type} (s : State) (i : Instr) (x : Except Raise α) (k : α → State) (P : State → Prop)
    (he : ∀ r, x = .error r → P (s.raise i r)) (hk : ∀ a, x = .ok a → P (k a)) : P (s.checked i x k) := by
  cases x with
  | error r => exact he r rfl
  | ok a => exact hk a rfl

/-- Every command answers a next state: a command's fault is the sticky fault state. -/
theorem exec_next (i : Instr) (s : State) : ∃ t, exec i s = .next t := by
  cases i <;> exact ⟨_, rfl⟩

/-! ### The outcomes of the reader and writer commands -/

@[simp] theorem State.finishRead_got (s : State) (i : Instr) (v : Nat) (r : Reader) :
    s.finishRead i (.got v r) = { s with br := r, res0 := BitVec.ofNat 32 v }.finish false := rfl

@[simp] theorem State.finishRead_noMore (s : State) (i : Instr) (r : Reader) :
    s.finishRead i (.noMore r) = { s with br := r, res0 := 0 }.finish true := rfl

@[simp] theorem State.finishRead_fail (s : State) (i : Instr) (f : Raise) :
    s.finishRead i (.fail f) = s.drawReader.drawRes0.raiseMid i f := rfl

@[simp] theorem State.finishWrite_ok (s : State) (i : Instr) (k : Sink) :
    s.finishWrite i (.ok k) = (s.setSink k).finish false := rfl

@[simp] theorem State.finishWrite_error (s : State) (i : Instr) (f : Raise) :
    s.finishWrite i (.error f) = s.drawWriter.raiseMid i f := rfl

@[simp] theorem Bits.andThen_got {α β : Type} (v : α) (r : Reader) (k : α → Reader → Bits β) :
    (Bits.got v r).andThen k = k v r := rfl

@[simp] theorem Bits.andThen_noMore {α β : Type} (r : Reader) (k : α → Reader → Bits β) :
    (Bits.noMore r : Bits α).andThen k = .noMore r := rfl

@[simp] theorem Bits.andThen_fail {α β : Type} (f : Raise) (k : α → Reader → Bits β) :
    (Bits.fail f : Bits α).andThen k = .fail f := rfl

/-! ### From a host move to a command -/

theorem regAt_cmd : regAt Reg.cmd.offset = some .cmd := rfl

/-- The host write of a command word issues it. -/
theorem hostMove_command (w : Word) (s : State) (hb : s.busy = false) : hostMove (commandMove w) s = issue w s := by
  simp [hostMove, commandMove, hb, alignedWord, Reg.offset, writeOffset, regAt, writeReg]

theorem issue_refused (w : Word) (s : State) (hf : s.fault = true) (hw : w ≠ sresetWord) : issue w s = .next s := by
  simp [issue, hf, hw]

theorem issue_decoded (w : Word) (i : Instr) (s : State) (hf : s.fault = false ∨ w = sresetWord)
    (hd : decode w = .ok i) : issue w s = exec i s := by
  rcases hf with hf | hf
  · simp [issue, hf, hd]
  · subst hf
    simp [issue, hd]

theorem issue_illegal (w : Word) (e : DecodeError) (s : State) (hf : s.fault = false) (hd : decode w = .error e) :
    issue w s = .next (s.takeFault w .illegalCmd w) := by
  simp [issue, hf, hd]

theorem step_idle (s : State) (h : s.host = []) : step s = .next s := by
  simp [step, nextMove, h]

theorem step_move (s : State) (mv : HostMove) (rest : List HostMove) (h : s.host = mv :: rest) :
    step s = hostMove mv { s with host := rest } := by
  simp [step, nextMove, h]

end Sys2Proof.Machine
end

