-- ==== Sys2Proof/Laws/BitIo.lean ====
section
/-! SUPPORT. The reader functions as the delivery of the bits of a segment, and the writer functions as the appending of
bits. -/

namespace Sys2Proof.Machine

/-! ### Numbers and bits -/

@[simp] theorem byteBits_length (b : Byte) : (byteBits b).length = 8 := by simp [byteBits]

theorem byteBits_take (b : Byte) (n : Nat) (h : 0 < n) (h8 : n ≤ 8) :
    (byteBits b).take n = b.msb :: (byteBits (b <<< 1)).take (n - 1) := by
  obtain ⟨k, rfl⟩ : ∃ k, n = k + 1 := ⟨n - 1, by omega⟩
  apply List.ext_getElem
  · simp
    omega
  · intro i h1 h2
    simp only [byteBits, List.length_take, List.length_map, List.length_range] at h1
    rcases i with _ | i
    · simp [byteBits, BitVec.msb_eq_getLsbD_last]
    · simp only [byteBits, List.getElem_take, List.getElem_map, List.getElem_range, List.getElem_cons_succ,
        BitVec.getLsbD_shiftLeft, Nat.add_sub_cancel]
      have e : 7 - (i + 1) = 7 - i - 1 := by omega
      have : 7 - i < 8 := by omega
      have h0 : ¬ 7 - i < 1 := by omega
      simp [e, this, h0]

@[simp] theorem bitsValue_nil : bitsValue [] = 0 := rfl

theorem bitsValue_from (v : Nat) (l : List Bool) :
    l.foldl (fun v b => 2 * v + b.toNat) v = v * 2 ^ l.length + bitsValue l := by
  induction l generalizing v with
  | nil => simp
  | cons b l ih =>
    have h0 := ih (2 * 0 + b.toNat)
    rw [List.foldl_cons, ih, List.length_cons, Nat.pow_succ,
      show bitsValue (b :: l) = _ from h0]
    ring

theorem bitsValue_cons (b : Bool) (l : List Bool) : bitsValue (b :: l) = b.toNat * 2 ^ l.length + bitsValue l := by
  rw [bitsValue, List.foldl_cons, bitsValue_from]
  simp

theorem bitsValue_append (l l' : List Bool) : bitsValue (l ++ l') = bitsValue l * 2 ^ l'.length + bitsValue l' := by
  rw [bitsValue, List.foldl_append, bitsValue_from]
  rfl

theorem bitsValue_lt (l : List Bool) : bitsValue l < 2 ^ l.length := by
  induction l with
  | nil => simp
  | cons b l ih =>
    rw [bitsValue_cons, List.length_cons, Nat.pow_succ]
    cases b <;> simp <;> omega

@[simp] theorem numBits_length (v n : Nat) : (numBits v n).length = n := by simp [numBits]

theorem numBits_succ (v n : Nat) : numBits v (n + 1) = v.testBit n :: numBits v n := by
  rw [numBits, numBits, List.range_succ_eq_map, List.map_cons, List.map_map]
  simp only [Nat.add_sub_cancel, Nat.sub_zero]
  congr 1
  apply List.map_congr_left
  intro i hi
  rw [Function.comp, show n - (i + 1) = n - 1 - i by omega]

theorem bitsValue_numBits (v n : Nat) : bitsValue (numBits v n) = v % 2 ^ n := by
  induction n with
  | zero => simp [numBits, Nat.mod_one]
  | succ n ih =>
    rw [numBits_succ, bitsValue_cons, numBits_length, ih, Nat.mod_pow_succ, Nat.testBit_eq_decide_div_mod_eq]
    rcases Nat.mod_two_eq_zero_or_one (v / 2 ^ n) with h | h <;> simp [h]
    omega

theorem numBits_bitsValue (l : List Bool) : numBits (bitsValue l) l.length = l := by
  induction l with
  | nil => rfl
  | cons b l ih =>
    have hlt := bitsValue_lt l
    rw [List.length_cons, numBits_succ, bitsValue_cons]
    have h1 : (b.toNat * 2 ^ l.length + bitsValue l).testBit l.length = b := by
      rw [Nat.mul_comm, Nat.testBit_two_pow_mul_add _ hlt]
      cases b <;> simp
    have h2 : numBits (b.toNat * 2 ^ l.length + bitsValue l) l.length = numBits (bitsValue l) l.length := by
      apply List.map_congr_left
      intro i hi
      have := List.mem_range.1 hi
      rw [Nat.mul_comm, Nat.testBit_two_pow_mul_add _ hlt, if_pos (by omega)]
    rw [h1, h2, ih]

/-! ### Segments -/

theorem segment_zero (m : Memory) (lim pos : Nat) : segment m lim 0 pos = ([], .runsOut pos) := rfl

/-- The number of bytes left in the window is fuel enough, and more changes nothing. -/
theorem segment_fuel (m : Memory) (lim fuel pos : Nat) (h : lim - pos ≤ fuel) :
    segment m lim fuel pos = segment m lim (lim - pos) pos := by
  induction fuel using Nat.strong_induction_on generalizing pos with
  | _ fuel ih =>
    rcases fuel with _ | fuel
    · rw [show lim - pos = 0 by omega]
    · by_cases hp : lim ≤ pos
      · rw [show lim - pos = 0 by omega]
        simp [segment, hp]
      · obtain ⟨g, hg⟩ : ∃ g, lim - pos = g + 1 := ⟨lim - pos - 1, by omega⟩
        rw [hg, segment, segment]
        by_cases hp1 : lim ≤ pos + 1
        · rw [ih fuel (by omega) (pos + 1) (by omega), ih g (by omega) (pos + 1) (by omega)]
          simp [hp, hp1]
        · rw [ih fuel (by omega) (pos + 1) (by omega), ih g (by omega) (pos + 1) (by omega),
            ih fuel (by omega) (pos + 2) (by omega), ih g (by omega) (pos + 2) (by omega)]

/-- The segment from a position, one byte at a time. -/
theorem segment_step (m : Memory) (lim pos : Nat) :
    segment m lim (lim - pos) pos =
      if lim ≤ pos then ([], .runsOut pos)
      else if m.inByte pos ≠ 0xFF then
        (m.inByte pos :: (segment m lim (lim - (pos + 1)) (pos + 1)).1, (segment m lim (lim - (pos + 1)) (pos + 1)).2)
      else if lim ≤ pos + 1 then ([], .runsOut (pos + 1))
      else if m.inByte (pos + 1) = 0 then
        (0xFF :: (segment m lim (lim - (pos + 2)) (pos + 2)).1, (segment m lim (lim - (pos + 2)) (pos + 2)).2)
      else ([], .marker pos (m.inByte (pos + 1))) := by
  by_cases hp : lim ≤ pos
  · rw [show lim - pos = 0 by omega]
    simp [segment, hp]
  · obtain ⟨g, hg⟩ : ∃ g, lim - pos = g + 1 := ⟨lim - pos - 1, by omega⟩
    rw [hg, segment, segment_fuel m lim g (pos + 1) (by omega), segment_fuel m lim g (pos + 2) (by omega)]

/-! ### The reader -/

theorem Reader.rest_eos (r : Reader) (m : Memory) (h : r.eos = true) : r.rest m = ([], .marker r.pos.toNat r.marker) := by
  simp [Reader.rest, h]

theorem Reader.rest_open (r : Reader) (m : Memory) (h : r.eos = false) :
    r.rest m = segment m r.lim.toNat (r.lim.toNat - r.pos.toNat) r.pos.toNat := by
  simp [Reader.rest, h]

/-- Everything `takeBit` does: the top bit of the buffer is the first of the bits still to come. -/
theorem takeBit_spec (m : Memory) (r : Reader) (h0 : r.cnt ≠ 0) (h8 : r.cnt.toNat ≤ 8) :
    ∃ b r', takeBit r = .got b r' ∧ r.bits m = b :: r'.bits m ∧ (r'.rest m) = (r.rest m) ∧ r'.lim = r.lim ∧
      r'.eos = r.eos ∧ r'.marker = r.marker ∧ r'.cnt.toNat + 1 = r.cnt.toNat := by
  have hc : 0 < r.cnt.toNat := by
    rcases Nat.eq_zero_or_pos r.cnt.toNat with h | h
    · exact absurd (BitVec.toNat_inj.1 h) h0
    · exact h
  have hcnt : (r.cnt - 1).toNat = r.cnt.toNat - 1 := by
    have := r.cnt.isLt
    rw [BitVec.toNat_sub]
    simp
    omega
  refine ⟨_, _, rfl, ?_, rfl, rfl, rfl, rfl, by simp only [hcnt]; omega⟩
  simp only [Reader.bits, hcnt]
  rw [byteBits_take _ _ hc h8]
  rfl

/-- Everything `refill` does, on an empty byte buffer. -/
theorem refill_spec (m : Memory) (r : Reader) (h0 : r.cnt = 0) :
    (∃ b bs, (r.rest m).1 = b :: bs ∧ ∃ r', refill m r = .got () r' ∧ r'.cnt = 8 ∧ r'.buf = b ∧ r'.eos = r.eos ∧
      r'.marker = r.marker ∧ r'.lim = r.lim ∧ r'.rest m = (bs, (r.rest m).2)) ∨
    ((r.rest m).1 = [] ∧ ∃ pos second, (r.rest m).2 = .marker pos second ∧ ∃ r', refill m r = .noMore r' ∧
      Reader.Ended m pos second r r') ∨
    ((r.rest m).1 = [] ∧ ∃ addr, (r.rest m).2 = .runsOut addr ∧
      refill m r = .fail (.ioRead, BitVec.ofNat 32 addr)) := by
  unfold refill
  cases he : r.eos with
  | true =>
    refine .inr (.inl ⟨by rw [Reader.rest_eos r m he], r.pos.toNat, r.marker, by rw [Reader.rest_eos r m he], r, rfl, ?_⟩)
    exact ⟨by simp [Reader.bits, Reader.rest_eos r m he, h0], rfl, rfl, h0, he, rfl⟩
  | false =>
    have hr := Reader.rest_open r m he
    rw [segment_step] at hr
    have hlim := r.lim.isLt
    simp only [Bool.false_eq_true, ↓reduceIte]
    by_cases h1 : r.lim.toNat ≤ r.pos.toNat
    · rw [if_pos h1] at hr ⊢
      exact .inr (.inr ⟨by rw [hr], r.pos.toNat, by rw [hr], by simp⟩)
    · rw [if_neg h1] at hr ⊢
      have hp1 : (r.pos + 1).toNat = r.pos.toNat + 1 := by
        rw [BitVec.toNat_add]
        simp
        omega
      by_cases hff : m.inByte r.pos.toNat = 0xFF
      · rw [if_neg (by simpa using hff)] at hr
        rw [if_pos hff]
        by_cases h2 : r.lim.toNat ≤ r.pos.toNat + 1
        · rw [if_pos h2] at hr ⊢
          refine .inr (.inr ⟨by rw [hr], r.pos.toNat + 1, by rw [hr], ?_⟩)
          rw [← hp1, BitVec.ofNat_toNat, BitVec.setWidth_eq]
        · rw [if_neg h2] at hr ⊢
          have hp2 : (r.pos + 2).toNat = r.pos.toNat + 2 := by
            rw [BitVec.toNat_add]
            simp
            omega
          by_cases h3 : m.inByte (r.pos.toNat + 1) = 0
          · rw [if_pos h3] at hr ⊢
            refine .inl ⟨0xFF, _, by rw [hr], _, rfl, rfl, hff, rfl, rfl, rfl, ?_⟩
            rw [Reader.rest_open _ m rfl]
            simp only [hp2, hr]
          · rw [if_neg h3] at hr ⊢
            refine .inr (.inl ⟨by rw [hr], r.pos.toNat, _, by rw [hr], _, rfl, ?_⟩)
            exact ⟨by simp [Reader.bits, Reader.rest, h0], rfl, rfl, h0, rfl, rfl⟩
      · rw [if_pos hff] at hr
        rw [if_neg hff]
        refine .inl ⟨_, _, by rw [hr], _, rfl, rfl, rfl, rfl, rfl, rfl, ?_⟩
        rw [Reader.rest_open _ m rfl]
        simp only [hp1, hr]

/-- Everything `nextBit` does: it delivers the first of the bits still to come, or says how the segment has ended. -/
theorem nextBit_spec (m : Memory) (r : Reader) (h8 : r.cnt.toNat ≤ 8) :
    (∃ b l, r.bits m = b :: l ∧ ∃ r', nextBit m r = .got b r' ∧ r'.bits m = l ∧ (r'.rest m).2 = (r.rest m).2 ∧
      r'.lim = r.lim ∧ r'.eos = r.eos ∧ r'.marker = r.marker ∧ r'.cnt.toNat ≤ 7) ∨
    (r.bits m = [] ∧ ∃ pos second, (r.rest m).2 = .marker pos second ∧ ∃ r', nextBit m r = .noMore r' ∧
      Reader.Ended m pos second r r') ∨
    (r.bits m = [] ∧ ∃ addr, (r.rest m).2 = .runsOut addr ∧
      nextBit m r = .fail (.ioRead, BitVec.ofNat 32 addr)) := by
  unfold nextBit
  by_cases h0 : r.cnt = 0
  · rw [if_pos h0]
    have hb : r.bits m = (r.rest m).1.flatMap byteBits := by simp [Reader.bits, h0]
    rcases refill_spec m r h0 with ⟨b, bs, h1, r', hr, hcnt, hbuf, heos, hmark, hlim, hrest⟩ |
        ⟨h1, pos, second, h2, r', hr, hend⟩ | ⟨h1, addr, h2, hr⟩
    · obtain ⟨bit, r'', ht, hbits, hrest', hlim', heos', hmark', hcnt'⟩ :=
        takeBit_spec m r' (by rw [hcnt]; decide) (by rw [hcnt]; decide)
      refine .inl ⟨bit, r''.bits m, ?_, r'', by rw [hr]; exact ht, rfl, by rw [hrest', hrest], by rw [hlim', hlim],
        heos'.trans heos, hmark'.trans hmark, ?_⟩
      · rw [← hbits, hb, h1, Reader.bits, hrest, hcnt, hbuf]
        simp [List.take_of_length_le]
      · rw [hcnt] at hcnt'
        have : ((8 : BitVec 4)).toNat = 8 := rfl
        omega
    · exact .inr (.inl ⟨by rw [hb, h1]; rfl, pos, second, h2, r', by rw [hr]; rfl, hend⟩)
    · exact .inr (.inr ⟨by rw [hb, h1]; rfl, addr, h2, by rw [hr]; rfl⟩)
  · rw [if_neg h0]
    obtain ⟨b, r', ht, hbits, hrest, hlim, heos, hmark, hcnt⟩ := takeBit_spec m r h0 h8
    exact .inl ⟨b, _, hbits, r', ht, rfl, by rw [hrest], hlim, heos, hmark, by omega⟩

theorem Reader.After.refl (m : Memory) (r : Reader) (h8 : r.cnt.toNat ≤ 8) : Reader.After m 0 r r :=
  ⟨rfl, rfl, rfl, rfl, rfl, h8, fun h => absurd h (Nat.lt_irrefl 0), fun _ => rfl⟩

theorem Reader.After.trans {m : Memory} {n k : Nat} {r r' r'' : Reader} (h : Reader.After m n r r')
    (h' : Reader.After m k r' r'') : Reader.After m (n + k) r r'' where
  bits := by rw [h'.bits, h.bits, List.drop_drop]
  segmentEnd := h'.segmentEnd.trans h.segmentEnd
  lim := h'.lim.trans h.lim
  eos := h'.eos.trans h.eos
  marker := h'.marker.trans h.marker
  cnt := h'.cnt
  lazy := by
    intro hp
    rcases Nat.eq_zero_or_pos k with hk | hk
    · rw [h'.none hk]
      exact h.lazy (by omega)
    · exact h'.lazy hk
  none := by
    intro h0
    rw [h'.none (by omega), h.none (by omega)]

/-- Everything `nextBit` does, in the words of `Reader.After` and `Reader.Ended`. -/
theorem nextBit_cases (m : Memory) (r : Reader) (h8 : r.cnt.toNat ≤ 8) :
    (∃ b l, r.bits m = b :: l ∧ ∃ r', nextBit m r = .got b r' ∧ Reader.After m 1 r r') ∨
    (r.bits m = [] ∧ ∃ pos second, (r.rest m).2 = .marker pos second ∧ ∃ r', nextBit m r = .noMore r' ∧
      Reader.Ended m pos second r r') ∨
    (r.bits m = [] ∧ ∃ addr, (r.rest m).2 = .runsOut addr ∧
      nextBit m r = .fail (.ioRead, BitVec.ofNat 32 addr)) := by
  rcases nextBit_spec m r h8 with ⟨b, l, hb, r', hn, hl, he, hlim, heos, hmark, hc⟩ | h | h
  · exact .inl ⟨b, l, hb, r', hn, by rw [hl, hb]; rfl, he, hlim, heos, hmark, by omega, fun _ => hc, by simp⟩
  · exact .inr (.inl h)
  · exact .inr (.inr h)

theorem Reader.Ended.of_after {m : Memory} {n pos : Nat} {second : Byte} {r r' r'' : Reader}
    (h : Reader.After m n r r') (h' : Reader.Ended m pos second r' r'') : Reader.Ended m pos second r r'' :=
  ⟨h'.bits, h'.pos, h'.lim.trans h.lim, h'.cnt, h'.eos, h'.marker⟩

/-- Everything the loop of `get_bits` does. -/
theorem getBitsFrom_spec (m : Memory) (n v : Nat) (r : Reader) (h8 : r.cnt.toNat ≤ 8) :
    (n ≤ (r.bits m).length ∧ ∃ r', getBitsFrom m n v r = .got (v * 2 ^ n + bitsValue ((r.bits m).take n)) r' ∧
      Reader.After m n r r') ∨
    ((r.bits m).length < n ∧ ∃ pos second, (r.rest m).2 = .marker pos second ∧ ∃ r', getBitsFrom m n v r = .noMore r' ∧
      Reader.Ended m pos second r r') ∨
    ((r.bits m).length < n ∧ ∃ addr, (r.rest m).2 = .runsOut addr ∧
      getBitsFrom m n v r = .fail (.ioRead, BitVec.ofNat 32 addr)) := by
  induction n generalizing v r with
  | zero => exact .inl ⟨Nat.zero_le _, r, by simp [getBitsFrom], Reader.After.refl m r h8⟩
  | succ n ih =>
    rcases nextBit_cases m r h8 with ⟨b, l, hb, r', hn, ha⟩ | ⟨hb, pos, second, he, r', hn, hend⟩ | ⟨hb, addr, he, hn⟩
    · have hl : r'.bits m = l := by rw [ha.bits, hb]; rfl
      rcases ih (2 * v + b.toNat) r' ha.cnt with ⟨hle, r'', hg, ha'⟩ | ⟨hlt, pos, second, he, r'', hg, hend⟩ |
          ⟨hlt, addr, he, hg⟩
      · rw [hl] at hle
        refine .inl ⟨by rw [hb, List.length_cons]; omega, r'', ?_, ?_⟩
        · rw [getBitsFrom, hn, Bits.andThen_got, hg, hl, hb, List.take_succ_cons, bitsValue_cons, List.length_take,
            min_eq_left hle, Nat.pow_succ]
          congr 1
          ring
        · have := ha.trans ha'
          rwa [Nat.add_comm 1 n] at this
      · rw [hl] at hlt
        refine .inr (.inl ⟨by rw [hb, List.length_cons]; omega, pos, second, ha.segmentEnd ▸ he, r'', ?_, ?_⟩)
        · rw [getBitsFrom, hn, Bits.andThen_got, hg]
        · exact Reader.Ended.of_after ha hend
      · rw [hl] at hlt
        refine .inr (.inr ⟨by rw [hb, List.length_cons]; omega, addr, ha.segmentEnd ▸ he, ?_⟩)
        rw [getBitsFrom, hn, Bits.andThen_got, hg]
    · exact .inr (.inl ⟨by rw [hb]; simp, pos, second, he, r', by rw [getBitsFrom, hn]; rfl, hend⟩)
    · exact .inr (.inr ⟨by rw [hb]; simp, addr, he, by rw [getBitsFrom, hn]; rfl⟩)

/-- Everything `get_bits` does: the next `n` bits of the segment as a number, or how the segment has ended. -/
theorem getBits_spec (m : Memory) (n : Nat) (r : Reader) (h8 : r.cnt.toNat ≤ 8) :
    (n ≤ (r.bits m).length ∧ ∃ r', getBits m n r = .got (bitsValue ((r.bits m).take n)) r' ∧ Reader.After m n r r') ∨
    ((r.bits m).length < n ∧ ∃ pos second, (r.rest m).2 = .marker pos second ∧ ∃ r', getBits m n r = .noMore r' ∧
      Reader.Ended m pos second r r') ∨
    ((r.bits m).length < n ∧ ∃ addr, (r.rest m).2 = .runsOut addr ∧
      getBits m n r = .fail (.ioRead, BitVec.ofNat 32 addr)) := by
  have := getBitsFrom_spec m n 0 r h8
  simpa [getBits] using this

/-! ### The writer -/

theorem fullBytes_of_lt (l : List Bool) (h : l.length < 8) : fullBytes l = [] := by
  simp [fullBytes, Nat.div_eq_of_lt h]

/-- Whole bytes in front stay whole bytes. -/
theorem fullBytes_append (w x : List Bool) (h : 8 ∣ w.length) : fullBytes (w ++ x) = fullBytes w ++ fullBytes x := by
  obtain ⟨q, hq⟩ := h
  have e : (w ++ x).length / 8 = q + x.length / 8 := by
    rw [List.length_append, hq]
    omega
  have e' : w.length / 8 = q := by omega
  rw [fullBytes, e, List.range_add, List.map_append, fullBytes, e', fullBytes, List.map_map]
  congr 1
  · apply List.map_congr_left
    intro i hi
    have := List.mem_range.1 hi
    rw [List.drop_append_of_le_length (by omega), List.take_append_of_le_length (by rw [List.length_drop]; omega)]
  · apply List.map_congr_left
    intro i hi
    rw [Function.comp, show 8 * (q + i) = w.length + 8 * i by omega, List.drop_length_add_append]

theorem fullBytes_eight (l : List Bool) (h : l.length = 8) : fullBytes l = [BitVec.ofNat 8 (bitsValue l)] := by
  simp [fullBytes, h, List.take_of_length_le]

theorem stuff_append (a b : List Byte) : stuff (a ++ b) = stuff a ++ stuff b := List.flatMap_append

/-- The bits held after bits are appended. -/
def heldBits (l : List Bool) : List Bool := l.drop (8 * (l.length / 8))

theorem heldBits_length (l : List Bool) : (heldBits l).length = l.length % 8 := by
  simp only [heldBits, List.length_drop]
  omega

theorem fullBytes_split (l x : List Bool) : fullBytes (l ++ x) = fullBytes l ++ fullBytes (heldBits l ++ x) := by
  have hl : l = l.take (8 * (l.length / 8)) ++ heldBits l := (List.take_append_drop _ _).symm
  have hd : 8 ∣ (l.take (8 * (l.length / 8))).length := ⟨l.length / 8, by rw [List.length_take]; omega⟩
  have hh : (heldBits l).length < 8 := by rw [heldBits_length]; omega
  have h1 : fullBytes l = fullBytes (l.take (8 * (l.length / 8))) := by
    conv_lhs => rw [hl, fullBytes_append _ _ hd, fullBytes_of_lt _ hh, List.append_nil]
  conv_lhs => rw [hl, List.append_assoc, fullBytes_append _ _ hd]
  rw [h1]

theorem heldBits_split (l x : List Bool) : heldBits (l ++ x) = heldBits (heldBits l ++ x) := by
  have hl : l = l.take (8 * (l.length / 8)) ++ heldBits l := (List.take_append_drop _ _).symm
  have ht : (l.take (8 * (l.length / 8))).length = 8 * (l.length / 8) := by rw [List.length_take]; omega
  have hlen := heldBits_length l
  have e : 8 * ((l ++ x).length / 8) =
      (l.take (8 * (l.length / 8))).length + 8 * ((heldBits l ++ x).length / 8) := by
    simp only [List.length_append, ht, hlen]
    omega
  have hd : (l ++ x).drop (8 * ((l ++ x).length / 8)) =
      (heldBits l ++ x).drop (8 * ((heldBits l ++ x).length / 8)) := by
    rw [e]
    conv_lhs => rw [← List.drop_drop]
    congr 1
    rw [ht]
    conv_lhs => rw [List.drop_append_of_le_length (by omega)]
    rfl
  exact hd

/-- What the writer holds after bits are appended. -/
theorem Sink.append_joined (k : Sink) (bits x : List Bool) :
    (k.append bits).w.joined x = heldBits (k.w.joined bits) ++ x := by
  have h8 : (heldBits (k.w.joined bits)).length < 8 := by rw [heldBits_length]; omega
  have hv := bitsValue_lt (heldBits (k.w.joined bits))
  have hv8 : bitsValue (heldBits (k.w.joined bits)) < 2 ^ 8 :=
    Nat.lt_of_lt_of_le hv (Nat.pow_le_pow_right (by omega) (by omega))
  have e1 : (k.append bits).w.buf.toNat = bitsValue (heldBits (k.w.joined bits)) := by
    show (BitVec.ofNat 8 _).toNat = _
    rw [BitVec.toNat_ofNat]
    exact Nat.mod_eq_of_lt hv8
  have e2 : (k.append bits).w.cnt.toNat = (heldBits (k.w.joined bits)).length := by
    show (BitVec.ofNat 3 _).toNat = _
    rw [BitVec.toNat_ofNat]
    exact Nat.mod_eq_of_lt h8
  rw [Writer.joined, e1, e2, numBits_bitsValue]

/-- The bytes of two appends are those of one. -/
theorem Sink.append_outBytes (k : Sink) (a b : List Bool) :
    k.w.outBytes (a ++ b) = k.w.outBytes a ++ (k.append a).w.outBytes b := by
  rw [Writer.outBytes, Writer.outBytes, Writer.outBytes, Sink.append_joined, ← stuff_append, ← fullBytes_split,
    Writer.joined, Writer.joined, List.append_assoc]

/-- The parts of `Sink.append`. -/
theorem Sink.append_eq (k : Sink) (a : List Bool) :
    k.append a =
      { w := { pos := k.w.pos + BitVec.ofNat 32 (k.w.outBytes a).length, lim := k.w.lim,
               buf := BitVec.ofNat 8 (bitsValue (heldBits (k.w.joined a))),
               cnt := BitVec.ofNat 3 (heldBits (k.w.joined a)).length },
        out := k.out.setList k.w.pos.toNat (k.w.outBytes a) } := rfl

theorem Sink.append_pos (k : Sink) (a : List Bool) (h : k.w.room a) :
    (k.append a).w.pos.toNat = k.w.pos.toNat + (k.w.outBytes a).length := by
  have := k.w.lim.isLt
  unfold Writer.room at h
  show (k.w.pos + BitVec.ofNat 32 _).toNat = _
  rw [BitVec.toNat_add, BitVec.toNat_ofNat]
  omega

@[simp] theorem Sink.append_lim (k : Sink) (a : List Bool) : (k.append a).w.lim = k.w.lim := rfl

theorem Sink.append_room (k : Sink) (a b : List Bool) :
    k.w.room (a ++ b) ↔ k.w.room a ∧ (k.append a).w.room b := by
  constructor
  · intro h
    have ha : k.w.room a := by
      unfold Writer.room at *
      rw [Sink.append_outBytes, List.length_append] at h
      omega
    refine ⟨ha, ?_⟩
    unfold Writer.room at *
    rw [Sink.append_outBytes, List.length_append] at h
    rw [Sink.append_pos k a ha, Sink.append_lim]
    omega
  · rintro ⟨ha, hb⟩
    unfold Writer.room at hb ⊢
    rw [Sink.append_pos k a ha, Sink.append_lim] at hb
    rw [Sink.append_outBytes, List.length_append]
    omega

/-- Two appends are one. -/
theorem Sink.append_append (k : Sink) (a b : List Bool) (h : k.w.room a) :
    (k.append a).append b = k.append (a ++ b) := by
  have hj := Sink.append_joined k a b
  have hl : k.w.joined (a ++ b) = k.w.joined a ++ b := by rw [Writer.joined, Writer.joined, List.append_assoc]
  have hh : heldBits ((k.append a).w.joined b) = heldBits (k.w.joined (a ++ b)) := by
    rw [hj, hl, ← heldBits_split]
  have hp := Sink.append_pos k a h
  have ho := Sink.append_outBytes k a b
  have hw : (k.append a).w.pos = k.w.pos + BitVec.ofNat 32 (k.w.outBytes a).length := rfl
  rw [Sink.append_eq (k.append a) b, Sink.append_eq k (a ++ b), hh, ho, List.length_append, Memory.setList_append, hp,
    hw, BitVec.add_assoc, ← BitVec.ofNat_add]
  rfl

theorem Sink.append_nil (k : Sink) (h : k.w.ok) : k.append [] = k := by
  have hc := k.w.cnt.isLt
  have hl : (numBits k.w.buf.toNat k.w.cnt.toNat).length < 8 := by rw [numBits_length]; omega
  have hj : k.w.joined [] = numBits k.w.buf.toNat k.w.cnt.toNat := by rw [Writer.joined, List.append_nil]
  have ho : k.w.outBytes [] = [] := by rw [Writer.outBytes, hj, fullBytes_of_lt _ hl]; rfl
  have hh : heldBits (k.w.joined []) = numBits k.w.buf.toNat k.w.cnt.toNat := by
    rw [hj, heldBits, Nat.div_eq_of_lt hl]
    rfl
  rw [Sink.append_eq, hh, ho, bitsValue_numBits, numBits_length, Nat.mod_eq_of_lt h.2]
  simp [Memory.setList]

/-- A byte written, or the window is full. -/
theorem writeOut_spec (b : Byte) (k : Sink) (h : k.w.pos.toNat ≤ k.w.lim.toNat) :
    (k.w.pos.toNat < k.w.lim.toNat ∧
      writeOut b k = .ok { w := { k.w with pos := k.w.pos + 1 }, out := k.out.set k.w.pos.toNat b } ∧
      (k.w.pos + 1).toNat = k.w.pos.toNat + 1) ∨
    (k.w.pos = k.w.lim ∧ writeOut b k = .error (.ioWrite, k.w.lim)) := by
  have := k.w.lim.isLt
  by_cases hp : k.w.lim.toNat ≤ k.w.pos.toNat
  · have e : k.w.pos = k.w.lim := BitVec.toNat_inj.1 (by omega)
    exact .inr ⟨e, by rw [writeOut, if_pos hp, e]⟩
  · refine .inl ⟨by omega, by rw [writeOut, if_neg hp], ?_⟩
    rw [BitVec.toNat_add]
    simp
    omega

/-- A byte emitted with its stuffing, or the window is full. -/
theorem emitByte_spec (b : Byte) (k : Sink) (h : k.w.pos.toNat ≤ k.w.lim.toNat) :
    (k.w.pos.toNat + (stuff [b]).length ≤ k.w.lim.toNat ∧
      emitByte b k = .ok { w := { k.w with pos := k.w.pos + BitVec.ofNat 32 (stuff [b]).length },
                           out := k.out.setList k.w.pos.toNat (stuff [b]) }) ∨
    (k.w.lim.toNat < k.w.pos.toNat + (stuff [b]).length ∧ emitByte b k = .error (.ioWrite, k.w.lim)) := by
  rcases writeOut_spec b k h with ⟨hlt, hw, hp⟩ | ⟨he, hw⟩
  · by_cases hff : b = 0xFF
    · have hs : stuff [b] = [b, 0] := by simp [stuff, hff]
      rcases writeOut_spec 0 { w := { k.w with pos := k.w.pos + 1 }, out := k.out.set k.w.pos.toNat b }
        (by show (k.w.pos + 1).toNat ≤ k.w.lim.toNat; omega) with ⟨hlt', hw', _⟩ | ⟨he', hw'⟩
      · simp only [hp] at hlt'
        refine .inl ⟨by rw [hs]; simp; omega, ?_⟩
        rw [hs, emitByte, hw]
        simp only [bind, Except.bind, if_pos hff, hw', hp, List.length_cons, List.length_nil, Memory.setList,
          BitVec.add_assoc]
        rfl
      · refine .inr ⟨?_, ?_⟩
        · have := congrArg BitVec.toNat he'
          simp only [hp] at this
          rw [hs]
          simp
          omega
        · rw [emitByte, hw]
          simp only [bind, Except.bind, if_pos hff, hw']
    · have hs : stuff [b] = [b] := by simp only [stuff, List.flatMap_cons, List.flatMap_nil, if_neg hff, List.append_nil]
      refine .inl ⟨by rw [hs]; simp; omega, ?_⟩
      rw [emitByte, hw, hs]
      simp only [bind, Except.bind, if_neg hff, List.length_cons, List.length_nil, Memory.setList]
      rfl
  · refine .inr ⟨?_, ?_⟩
    · have := congrArg BitVec.toNat he
      have hpos : 0 < (stuff [b]).length := by simp only [stuff, List.flatMap_cons, List.flatMap_nil]; split <;> simp
      omega
    · rw [emitByte, hw]
      rfl

/-- Everything one pass of `put_bits` does. -/
theorem putBit_spec (b : Bool) (k : Sink) (h : k.w.ok) :
    (k.w.room [b] ∧ putBit b k = .ok (k.append [b])) ∨ (¬k.w.room [b] ∧ putBit b k = .error (.ioWrite, k.w.lim)) := by
  have hc := k.w.cnt.isLt
  have hbuf := h.2
  have hjl : (k.w.joined [b]).length = k.w.cnt.toNat + 1 := by simp [Writer.joined]
  have hjv : bitsValue (k.w.joined [b]) = 2 * k.w.buf.toNat + b.toNat := by
    rw [Writer.joined, bitsValue_append, bitsValue_numBits, Nat.mod_eq_of_lt hbuf, bitsValue_cons]
    simp
    omega
  have hbv : ((k.w.buf <<< 1) ||| (BitVec.ofBool b).setWidth 8) = BitVec.ofNat 8 (bitsValue (k.w.joined [b])) := by
    rw [hjv]
    apply BitVec.eq_of_toNat_eq
    have h7 : k.w.buf.toNat < 2 ^ 7 := Nat.lt_of_lt_of_le hbuf (Nat.pow_le_pow_right (by omega) (by omega))
    have e1 : (k.w.buf <<< 1).toNat = 2 * k.w.buf.toNat := by
      rw [BitVec.toNat_shiftLeft, Nat.shiftLeft_eq]
      omega
    have e2 : ((BitVec.ofBool b).setWidth 8).toNat = b.toNat := by cases b <;> rfl
    rw [BitVec.toNat_or, e1, e2, BitVec.toNat_ofNat]
    have hb1 : b.toNat < 2 ^ 1 := by cases b <;> simp
    have := Nat.two_pow_add_eq_or_of_lt hb1 k.w.buf.toNat
    rw [Nat.pow_one] at this
    rw [← this]
    cases b <;> simp at * <;> omega
  by_cases h8 : k.w.cnt.toNat + 1 = 8
  · have hob : k.w.outBytes [b] = stuff [BitVec.ofNat 8 (bitsValue (k.w.joined [b]))] := by
      rw [Writer.outBytes, fullBytes_eight _ (by omega)]
    have hap : k.append [b] =
        { w := { pos := k.w.pos + BitVec.ofNat 32 (k.w.outBytes [b]).length, lim := k.w.lim, buf := 0, cnt := 0 },
          out := k.out.setList k.w.pos.toNat (k.w.outBytes [b]) } := by
      have hd : (k.w.joined [b]).drop (8 * ((k.w.joined [b]).length / 8)) = [] := by
        rw [hjl, h8]
        exact List.drop_eq_nil_of_le (by rw [hjl, h8])
      simp [Sink.append, hd]
    have hput : putBit b k =
        emitByte (BitVec.ofNat 8 (bitsValue (k.w.joined [b]))) { k with w := { k.w with buf := 0, cnt := 0 } } := by
      simp only [putBit, if_pos h8, hbv]
    rcases emitByte_spec (BitVec.ofNat 8 (bitsValue (k.w.joined [b]))) { k with w := { k.w with buf := 0, cnt := 0 } }
      h.1 with ⟨hr, he⟩ | ⟨hr, he⟩
    · exact .inl ⟨by rw [Writer.room, hob]; exact hr, by rw [hput, he, hap, hob]⟩
    · exact .inr ⟨by rw [Writer.room, hob]; exact Nat.not_le_of_lt hr, by rw [hput, he]⟩
  · have hob : k.w.outBytes [b] = [] := by rw [Writer.outBytes, fullBytes_of_lt _ (by omega)]; rfl
    have hd : (k.w.joined [b]).length / 8 = 0 := Nat.div_eq_of_lt (by omega)
    refine .inl ⟨by rw [Writer.room, hob]; exact h.1, ?_⟩
    have hcnt : k.w.cnt + 1 = BitVec.ofNat 3 (k.w.cnt.toNat + 1) := by
      apply BitVec.eq_of_toNat_eq
      simp
    have hh : heldBits (k.w.joined [b]) = k.w.joined [b] := by
      rw [heldBits, hd]
      rfl
    rw [Sink.append_eq, hh, hob, hjl]
    simp [putBit, h8, hbv, Memory.setList]
    exact hcnt

theorem Sink.append_ok (k : Sink) (a : List Bool) (h : k.w.room a) : (k.append a).w.ok := by
  have h8 : (heldBits (k.w.joined a)).length < 8 := by rw [heldBits_length]; omega
  refine ⟨?_, ?_⟩
  · rw [Sink.append_pos k a h]
    exact h
  · show (BitVec.ofNat 8 (bitsValue (heldBits (k.w.joined a)))).toNat <
      2 ^ (BitVec.ofNat 3 (heldBits (k.w.joined a)).length).toNat
    rw [BitVec.toNat_ofNat, BitVec.toNat_ofNat, Nat.mod_eq_of_lt (b := 2 ^ 3) h8]
    exact Nat.lt_of_le_of_lt (Nat.mod_le _ _) (bitsValue_lt _)

/-- Everything `put_bits` does: the bits are appended, or the window is too small and its end is the address that could not
be written. -/
theorem putBits_spec (v n : Nat) (k : Sink) (h : k.w.ok) :
    (k.w.room (numBits v n) ∧ putBits v n k = .ok (k.append (numBits v n))) ∨
      (¬k.w.room (numBits v n) ∧ putBits v n k = .error (.ioWrite, k.w.lim)) := by
  induction n generalizing k with
  | zero =>
    refine .inl ⟨?_, ?_⟩
    · have hc := k.w.cnt.isLt
      have : k.w.outBytes [] = [] := by
        rw [Writer.outBytes, Writer.joined, List.append_nil, fullBytes_of_lt _ (by rw [numBits_length]; omega)]
        rfl
      show k.w.pos.toNat + (k.w.outBytes []).length ≤ _
      rw [this]
      exact h.1
    · exact congrArg Except.ok (Sink.append_nil k h).symm
  | succ n ih =>
    rw [numBits_succ, ← List.singleton_append]
    rcases putBit_spec (v.testBit n) k h with ⟨hr, hp⟩ | ⟨hr, hp⟩
    · rcases ih (k.append [v.testBit n]) (Sink.append_ok k _ hr) with ⟨hr', hp'⟩ | ⟨hr', hp'⟩
      · refine .inl ⟨(Sink.append_room k _ _).2 ⟨hr, hr'⟩, ?_⟩
        rw [putBits, hp, ← Sink.append_append k _ _ hr]
        exact hp'
      · refine .inr ⟨fun hn => hr' ((Sink.append_room k _ _).1 hn).2, ?_⟩
        rw [putBits, hp]
        exact hp'
    · refine .inr ⟨fun hn => hr ((Sink.append_room k _ _).1 hn).1, ?_⟩
      rw [putBits, hp]
      rfl

/-- The padding of `flush_bits` as bits. -/
theorem padding_bits (n : Nat) : numBits (2 ^ n - 1) n = List.replicate n true := by
  apply List.ext_getElem
  · simp
  · intro i h1 h2
    simp only [numBits_length] at h1
    simp only [numBits, List.getElem_map, List.getElem_range, List.getElem_replicate, Nat.testBit_two_pow_sub_one]
    simp
    omega

/-- Everything `flush_bits` does. -/
theorem flushBits_spec (k : Sink) (h : k.w.ok) :
    (k.w.room k.w.padding ∧ flushBits k = .ok (k.append k.w.padding)) ∨
      (¬k.w.room k.w.padding ∧ flushBits k = .error (.ioWrite, k.w.lim)) := by
  by_cases hc : k.w.cnt = 0
  · have hp : k.w.padding = [] := by simp [Writer.padding, hc]
    have := putBits_spec 0 0 k h
    rw [hp, flushBits, if_pos hc]
    rcases this with ⟨hr, _⟩ | ⟨_, he⟩
    · exact .inl ⟨hr, by rw [Sink.append_nil k h]⟩
    · simp [putBits] at he
  · have hp : k.w.padding = numBits (2 ^ (8 - k.w.cnt.toNat) - 1) (8 - k.w.cnt.toNat) := by
      rw [padding_bits, Writer.padding, if_neg hc]
    rw [hp, flushBits, if_neg hc]
    exact putBits_spec _ _ k h

end Sys2Proof.Machine
end

