-- ==== Sys2Proof/Laws/Numerics.lean ====
section
/-! SUPPORT. The exact numbers of BLK_F are the real numbers they stand for: the ring operations, the sign, and rounding. Then
the one-dimensional transforms over any NUM. -/

namespace Sys2Proof.Machine

/-! ### The three roots -/

theorem root1_sq : root1 * root1 = 2 := Real.mul_self_sqrt (by norm_num)

theorem root1_pos : 0 < root1 := Real.sqrt_pos.2 (by norm_num)

theorem root1_le : root1 ≤ 3 / 2 := by
  have := root1_sq
  have := root1_pos
  nlinarith

theorem root2_sq : root2 * root2 = 2 + root1 := Real.mul_self_sqrt (by linarith [root1_pos])

theorem root2_pos : 0 < root2 := Real.sqrt_pos.2 (by linarith [root1_pos])

theorem root2_le : root2 ≤ 2 := by
  have := root2_sq
  have := root2_pos
  have := root1_le
  nlinarith

theorem root3_sq : root3 * root3 = 2 + root2 := Real.mul_self_sqrt (by linarith [root2_pos])

theorem root3_pos : 0 < root3 := Real.sqrt_pos.2 (by linarith [root2_pos])

theorem root3_le : root3 ≤ 2 := by
  have := root3_sq
  have := root3_pos
  have := root2_le
  nlinarith

/-! ### Ring operations -/

@[simp] theorem Root1.toReal_ofInt (z : Int) : (Root1.ofInt z).toReal = z := by simp [Root1.ofInt, Root1.toReal]

@[simp] theorem Root1.toReal_zero : Root1.zero.toReal = 0 := by simp [Root1.toReal]

@[simp] theorem Root1.toReal_add (x y : Root1) : (x.add y).toReal = x.toReal + y.toReal := by
  simp only [Root1.add, Root1.toReal, Int.cast_add]
  ring

@[simp] theorem Root1.toReal_neg (x : Root1) : x.neg.toReal = -x.toReal := by
  simp only [Root1.neg, Root1.toReal, Int.cast_neg]
  ring

@[simp] theorem Root1.toReal_mul (x y : Root1) : (x.mul y).toReal = x.toReal * y.toReal := by
  simp only [Root1.mul, Root1.toReal, Int.cast_add, Int.cast_mul, Int.cast_ofNat]
  linear_combination -((x.b : ℝ) * y.b) * root1_sq

@[simp] theorem Root1.toReal_square2 : Root1.square2.toReal = 2 + root1 := by simp [Root1.square2, Root1.toReal]

@[simp] theorem Root2.toReal_ofInt (z : Int) : (Root2.ofInt z).toReal = z := by simp [Root2.ofInt, Root2.toReal]

@[simp] theorem Root2.toReal_zero : Root2.zero.toReal = 0 := by simp [Root2.toReal]

@[simp] theorem Root2.toReal_add (x y : Root2) : (x.add y).toReal = x.toReal + y.toReal := by
  simp only [Root2.add, Root2.toReal, Root1.toReal_add]
  ring

@[simp] theorem Root2.toReal_neg (x : Root2) : x.neg.toReal = -x.toReal := by
  simp only [Root2.neg, Root2.toReal, Root1.toReal_neg]
  ring

@[simp] theorem Root2.toReal_mul (x y : Root2) : (x.mul y).toReal = x.toReal * y.toReal := by
  simp only [Root2.mul, Root2.toReal, Root1.toReal_add, Root1.toReal_mul, Root1.toReal_square2]
  linear_combination -(x.b.toReal * y.b.toReal) * root2_sq

@[simp] theorem Root2.toReal_square3 : Root2.square3.toReal = 2 + root2 := by simp [Root2.square3, Root2.toReal]

@[simp] theorem Root3.toReal_ofInt (z : Int) : (Root3.ofInt z).toReal = z := by simp [Root3.ofInt, Root3.toReal]

@[simp] theorem Root3.toReal_zero : Root3.zero.toReal = 0 := by simp [Root3.toReal]

@[simp] theorem Root3.toReal_add (x y : Root3) : (x.add y).toReal = x.toReal + y.toReal := by
  simp only [Root3.add, Root3.toReal, Root2.toReal_add]
  ring

@[simp] theorem Root3.toReal_neg (x : Root3) : x.neg.toReal = -x.toReal := by
  simp only [Root3.neg, Root3.toReal, Root2.toReal_neg]
  ring

@[simp] theorem Root3.toReal_mul (x y : Root3) : (x.mul y).toReal = x.toReal * y.toReal := by
  simp only [Root3.mul, Root3.toReal, Root2.toReal_add, Root2.toReal_mul, Root2.toReal_square3]
  linear_combination -(x.b.toReal * y.b.toReal) * root3_sq

theorem Root3.toReal_half (x : Root3) (h : x.even = true) : 2 * x.half.toReal = x.toReal := by
  have key : ∀ z : Int, z % 2 = 0 → (z : ℝ) = 2 * ((z / 2 : Int) : ℝ) := by
    intro z hz
    exact_mod_cast (show z = 2 * (z / 2) by omega)
  simp only [Root3.even, Bool.and_eq_true, decide_eq_true_eq] at h
  obtain ⟨⟨⟨⟨⟨⟨⟨h1, h2⟩, h3⟩, h4⟩, h5⟩, h6⟩, h7⟩, h8⟩ := h
  simp only [Root3.half, Root3.toReal, Root2.toReal, Root1.toReal]
  rw [key _ h1, key _ h2, key _ h3, key _ h4, key _ h5, key _ h6, key _ h7, key _ h8]
  ring

@[simp] theorem Exact.toReal_norm (x : Root3) (e : Nat) : (Exact.norm x e).toReal = x.toReal / 2 ^ e := by
  induction e generalizing x with
  | zero => rfl
  | succ e ih =>
    unfold Exact.norm
    split
    · rename_i h
      rw [ih, ← Root3.toReal_half x h, pow_succ]
      field_simp
    · rfl

@[simp] theorem Exact.toReal_zero : Exact.zero.toReal = 0 := by simp [Exact.toReal]

@[simp] theorem Exact.toReal_ofInt (z : Int) : (Exact.ofInt z).toReal = z := by simp [Exact.ofInt, Exact.toReal]

@[simp] theorem Exact.toReal_add (x y : Exact) : (x.add y).toReal = x.toReal + y.toReal := by
  rw [Exact.add, Exact.toReal_norm, Root3.toReal_add, Root3.toReal_mul, Root3.toReal_mul, Root3.toReal_ofInt,
    Root3.toReal_ofInt, Exact.toReal, Exact.toReal, pow_add]
  push_cast
  field_simp

@[simp] theorem Exact.toReal_mul (x y : Exact) : (x.mul y).toReal = x.toReal * y.toReal := by
  rw [Exact.mul, Exact.toReal_norm, Root3.toReal_mul, Exact.toReal, Exact.toReal, pow_add]
  field_simp

/-! ### The sign -/

/-- The sign of a real number as −1, 0 or 1. -/
noncomputable def sgn (x : ℝ) : Int := SignType.sign x

theorem sgn_pos {x : ℝ} (h : 0 < x) : sgn x = 1 := by simp [sgn, h]

theorem sgn_neg {x : ℝ} (h : x < 0) : sgn x = -1 := by simp [sgn, h]

@[simp] theorem sgn_zero : sgn 0 = 0 := by simp [sgn]

theorem sgn_mul (x y : ℝ) : sgn (x * y) = sgn x * sgn y := by simp [sgn, sign_mul]

theorem sgn_int (z : Int) : z.sign = sgn z := by
  rcases lt_trichotomy z 0 with h | rfl | h
  · rw [Int.sign_eq_neg_one_of_neg h, sgn_neg (by exact_mod_cast h)]
  · simp
  · rw [Int.sign_eq_one_of_pos h, sgn_pos (by exact_mod_cast h)]

theorem sgn_nonneg_iff (x : ℝ) : 0 ≤ sgn x ↔ 0 ≤ x := by
  rcases lt_trichotomy x 0 with h | rfl | h
  · rw [sgn_neg h]
    simp [h]
  · simp
  · rw [sgn_pos h]
    simp [h.le]

theorem sgn_neg_iff (x : ℝ) : sgn x < 0 ↔ x < 0 := by
  rw [← not_le, ← not_le, sgn_nonneg_iff]

/-- The sign of `a + b·r` from those of `a`, `b` and `a² − r²·b²`. -/
theorem rootSign_spec (a b r : ℝ) (hr : 0 < r) :
    rootSign (sgn a) (sgn b) (sgn (a * a + -((r * r) * (b * b)))) = sgn (a + b * r) := by
  have hf : a * a + -((r * r) * (b * b)) = (a + b * r) * (a - b * r) := by ring
  rw [hf, sgn_mul]
  rcases lt_trichotomy b 0 with hb | rfl | hb
  · have hbr : b * r < 0 := mul_neg_of_neg_of_pos hb hr
    rcases lt_trichotomy a 0 with ha | rfl | ha
    · rw [sgn_neg ha, sgn_neg hb, sgn_neg (by linarith : a + b * r < 0)]
      rfl
    · rw [sgn_zero, sgn_neg hb, zero_add, sgn_neg hbr]
      rfl
    · rw [sgn_pos ha, sgn_neg hb, sgn_pos (by linarith : 0 < a - b * r)]
      simp [rootSign]
  · simp [rootSign]
  · have hbr : 0 < b * r := mul_pos hb hr
    rcases lt_trichotomy a 0 with ha | rfl | ha
    · rw [sgn_neg ha, sgn_pos hb, sgn_neg (by linarith : a - b * r < 0)]
      simp [rootSign]
    · rw [sgn_zero, sgn_pos hb, zero_add, sgn_pos hbr]
      rfl
    · rw [sgn_pos ha, sgn_pos hb, sgn_pos (by linarith : 0 < a + b * r)]
      rfl

theorem Root1.sign_spec (x : Root1) : x.sign = sgn x.toReal := by
  rw [Root1.toReal, ← rootSign_spec _ _ _ root1_pos, root1_sq, Root1.sign, sgn_int, sgn_int, sgn_int]
  push_cast
  ring_nf

theorem Root2.sign_spec (x : Root2) : x.sign = sgn x.toReal := by
  rw [Root2.toReal, ← rootSign_spec _ _ _ root2_pos, root2_sq, Root2.sign]
  simp only [Root1.sign_spec, Root1.toReal_add, Root1.toReal_neg, Root1.toReal_mul, Root1.toReal_square2]

theorem Root3.sign_spec (x : Root3) : x.sign = sgn x.toReal := by
  rw [Root3.toReal, ← rootSign_spec _ _ _ root3_pos, root3_sq, Root3.sign]
  simp only [Root2.sign_spec, Root2.toReal_add, Root2.toReal_neg, Root2.toReal_mul, Root2.toReal_square3]

/-! ### Rounding -/

theorem abs_mul_le {z : Int} {r c : ℝ} (h0 : 0 ≤ r) (h : r ≤ c) : |(z : ℝ) * r| ≤ c * (z.natAbs : ℝ) := by
  rw [abs_mul, abs_of_nonneg h0, mul_comm, Nat.cast_natAbs, Int.cast_abs]
  exact mul_le_mul_of_nonneg_right h (abs_nonneg _)

/-- The magnitude is at most 8 times the weight. -/
theorem Root3.abs_le_weight (x : Root3) : |x.toReal| ≤ 8 * (x.weight : ℝ) := by
  have p1 := root1_pos.le
  have p2 := root2_pos.le
  have p3 := root3_pos.le
  have l1 := root1_le
  have l2 := root2_le
  have l3 := root3_le
  have p12 := mul_nonneg p1 p2
  have l12 : root1 * root2 ≤ 3 := by nlinarith
  have p13 := mul_nonneg p1 p3
  have l13 : root1 * root3 ≤ 3 := by nlinarith
  have p23 := mul_nonneg p2 p3
  have l23 : root2 * root3 ≤ 4 := by nlinarith
  have p123 := mul_nonneg p12 p3
  have l123 : root1 * root2 * root3 ≤ 6 := by nlinarith
  have e : x.toReal = x.a.a.a * 1 + x.a.a.b * root1 + x.a.b.a * root2 + x.a.b.b * (root1 * root2) +
      x.b.a.a * root3 + x.b.a.b * (root1 * root3) + x.b.b.a * (root2 * root3) +
      x.b.b.b * (root1 * root2 * root3) := by
    simp only [Root3.toReal, Root2.toReal, Root1.toReal]
    ring
  have b1 := abs_mul_le (z := x.a.a.a) (r := 1) (c := 8) (by norm_num) (by norm_num)
  have b2 := abs_mul_le (z := x.a.a.b) (c := 8) p1 (by linarith)
  have b3 := abs_mul_le (z := x.a.b.a) (c := 8) p2 (by linarith)
  have b4 := abs_mul_le (z := x.a.b.b) (c := 8) p12 (by linarith)
  have b5 := abs_mul_le (z := x.b.a.a) (c := 8) p3 (by linarith)
  have b6 := abs_mul_le (z := x.b.a.b) (c := 8) p13 (by linarith)
  have b7 := abs_mul_le (z := x.b.b.a) (c := 8) p23 (by linarith)
  have b8 := abs_mul_le (z := x.b.b.b) (c := 8) p123 (by linarith)
  rw [e, Root3.weight]
  push_cast
  have c1 := abs_le.1 b1
  have c2 := abs_le.1 b2
  have c3 := abs_le.1 b3
  have c4 := abs_le.1 b4
  have c5 := abs_le.1 b5
  have c6 := abs_le.1 b6
  have c7 := abs_le.1 b7
  have c8 := abs_le.1 b8
  refine abs_le.2 ⟨?_, ?_⟩
  · linarith [c1.1, c2.1, c3.1, c4.1, c5.1, c6.1, c7.1, c8.1]
  · linarith [c1.2, c2.2, c3.2, c4.2, c5.2, c6.2, c7.2, c8.2]

/-- The binary search finds the floor of `y/d + 1/2`. -/
theorem roundSearch_spec (y : Root3) (d bits acc : Nat) (hd : 0 < d) (h0 : 0 ≤ y.toReal)
    (hl : acc ≤ ⌊y.toReal / d + 1 / 2⌋₊) (hu : ⌊y.toReal / d + 1 / 2⌋₊ < acc + 2 ^ bits) :
    roundSearch y d bits acc = ⌊y.toReal / d + 1 / 2⌋₊ := by
  have hd' : (0 : ℝ) < d := by exact_mod_cast hd
  have hx : 0 ≤ y.toReal / d + 1 / 2 := by positivity
  induction bits generalizing acc with
  | zero =>
    simp only [roundSearch]
    rw [Nat.pow_zero] at hu
    omega
  | succ b ih =>
    simp only [roundSearch]
    have hc : 0 ≤ ((y.add y).add (Root3.ofInt ((d : Int) - 2 * ((acc + 2 ^ b : Nat) : Int) * d))).sign ↔
        acc + 2 ^ b ≤ ⌊y.toReal / d + 1 / 2⌋₊ := by
      rw [Root3.sign_spec, sgn_nonneg_iff, Nat.le_floor_iff hx, Root3.toReal_add, Root3.toReal_add, Root3.toReal_ofInt]
      have : (y.toReal / d + 1 / 2) * (2 * d) = 2 * y.toReal + d := by field_simp
      push_cast
      constructor
      · intro h
        nlinarith
      · intro h
        nlinarith
    rw [Nat.pow_succ] at hu
    split
    · rename_i h
      exact ih _ (hc.1 h) (by omega)
    · rename_i h
      exact ih _ hl (by have := mt hc.2 h; omega)

theorem bitlen_lt (n : Nat) : n < 2 ^ bitlen n := by
  unfold bitlen
  split
  · rename_i h
    simp [h]
  · exact Nat.lt_log2_self

/-- `roundDiv x d` is `rnd(x/d)`. -/
theorem roundDiv_spec (x : Root3) (d : Nat) (hd : 0 < d) : roundDiv x d = rndReal (x.toReal / d) := by
  have hd' : (0 : ℝ) < d := by exact_mod_cast hd
  have h1 : (1 : ℝ) ≤ d := by exact_mod_cast hd
  have key : ∀ y : Root3, 0 ≤ y.toReal → y.toReal ≤ 8 * (x.weight : ℝ) →
      (roundSearch y d (bitlen (8 * x.weight) + 1) 0 : Int) = ⌊|y.toReal / d| + 1 / 2⌋ := by
    intro y hy hw
    have hq : 0 ≤ y.toReal / d := by positivity
    rw [roundSearch_spec y d _ 0 hd hy (Nat.zero_le _), abs_of_nonneg hq]
    · exact (Int.natCast_floor_eq_floor (by positivity)).trans rfl
    · have hle : y.toReal / d + 1 / 2 ≤ ((8 * x.weight + 1 : Nat) : ℝ) := by
        have : y.toReal / d ≤ y.toReal := div_le_self hy h1
        push_cast
        linarith
      have hb := bitlen_lt (8 * x.weight)
      have := Nat.floor_le_floor hle
      rw [Nat.floor_natCast] at this
      rw [Nat.pow_succ]
      omega
  have hlt : x.sign < 0 ↔ x.toReal < 0 := by rw [Root3.sign_spec, sgn_neg_iff]
  have habs := abs_le.1 (Root3.abs_le_weight x)
  unfold roundDiv rndReal
  have hdiv : x.toReal / d < 0 ↔ x.toReal < 0 := by rw [div_lt_iff₀ hd', zero_mul]
  by_cases hneg : x.toReal < 0
  · simp only [if_pos (hlt.2 hneg), if_pos (hdiv.2 hneg)]
    have := key x.neg (by rw [Root3.toReal_neg]; linarith) (by rw [Root3.toReal_neg]; linarith [habs.1])
    rw [this, Root3.toReal_neg, neg_div, abs_neg]
  · simp only [if_neg (mt hlt.1 hneg), if_neg (mt hdiv.1 hneg)]
    exact key x (not_lt.1 hneg) habs.2

/-- `quant(f, q) = rnd(f / q)` of REF (44_transform.md R222). -/
theorem Exact.quant_spec (f : Exact) (q : Nat) (hq : 0 < q) : f.quant q = rndReal (f.toReal / q) := by
  rw [Exact.quant, roundDiv_spec _ _ (Nat.mul_pos (by positivity) hq), Exact.toReal, div_div]
  push_cast
  rfl

/-- `round(f) = rnd(f)` of REF (44_transform.md R222). -/
theorem Exact.round_spec (f : Exact) : f.round = rndReal f.toReal := by
  rw [Exact.round, roundDiv_spec _ _ (by positivity), Exact.toReal]
  push_cast
  rfl

/-! ### One-dimensional transforms of a block -/

theorem at8_onRows {F : Type} (f : (Nat → F) → Nat → F) (v : Vector F 64) (r c : Fin 8) :
    at8 (onRows f v) r.val c.val = f (at8 v r.val) c.val := by
  have h : (8 * r.val + c.val) % 64 = 8 * r.val + c.val := Nat.mod_eq_of_lt (by omega)
  have hr : (8 * r.val + c.val) / 8 = r.val := by omega
  have hc : (8 * r.val + c.val) % 8 = c.val := by omega
  simp only [at8, onRows, Vector.getElem_ofFn, h, hr, hc]

theorem at8_onCols {F : Type} (f : (Nat → F) → Nat → F) (v : Vector F 64) (r c : Fin 8) :
    at8 (onCols f v) r.val c.val = f (fun y => at8 v y c.val) r.val := by
  have h : (8 * r.val + c.val) % 64 = 8 * r.val + c.val := Nat.mod_eq_of_lt (by omega)
  have hr : (8 * r.val + c.val) / 8 = r.val := by omega
  have hc : (8 * r.val + c.val) % 8 = c.val := by omega
  simp only [at8, onCols, Vector.getElem_ofFn, h, hr, hc]

/-- `fwd1` is NUM's sum of products with the basis (44_transform.md R224). -/
theorem fwd1_eq_dot8 (n : Numerics NumValue) (t : Nat → NumValue) (u : Nat) : fwd1 n t u = dot8 n (n.basis u) t := rfl

/-- `inv1` is NUM's sum of products with the basis (44_transform.md R225). -/
theorem inv1_eq_dot8 (n : Numerics NumValue) (t : Nat → NumValue) (x : Nat) : inv1 n t x = dot8 n (fun u => n.basis u x) t := rfl

end Sys2Proof.Machine
end

