-- ==== Sys2Proof/Laws/PerInstr.lean ====
section
/-! SUPPORT. Statements made once per instruction. FieldCodec: the fields of a command decode to it, whatever the values of
its operand fields (30_encoding.md R81, R82, R84). -/

namespace Sys2Proof.Laws

/-- Decoding the fields of `i` gives back `i`. -/
def FieldCodec.Statement (i : Instr) : Prop := decodeFields (fieldsFor i) = .ok i

theorem FieldCodec.nop : FieldCodec.Statement .nop := rfl

theorem FieldCodec.sreset : FieldCodec.Statement .sreset := rfl

theorem FieldCodec.brInit : FieldCodec.Statement .brInit := rfl

theorem FieldCodec.brBit : FieldCodec.Statement .brBit := rfl

theorem FieldCodec.brBits (n : Byte) : FieldCodec.Statement (.brBits n) := rfl

theorem FieldCodec.brResync : FieldCodec.Statement .brResync := rfl

theorem FieldCodec.bwInit : FieldCodec.Statement .bwInit := rfl

theorem FieldCodec.bwBits (n : Byte) : FieldCodec.Statement (.bwBits n) := rfl

theorem FieldCodec.bwFlush : FieldCodec.Statement .bwFlush := rfl

theorem FieldCodec.bwRst : FieldCodec.Statement .bwRst := rfl

theorem FieldCodec.htLoad (tc th : Byte) : FieldCodec.Statement (.htLoad tc th) := rfl

theorem FieldCodec.htStore (tc th : Byte) : FieldCodec.Statement (.htStore tc th) := rfl

theorem FieldCodec.htDec (tc th : Byte) : FieldCodec.Statement (.htDec tc th) := rfl

theorem FieldCodec.htEnc (tc th : Byte) : FieldCodec.Statement (.htEnc tc th) := rfl

theorem FieldCodec.fqClr (tc th : Byte) : FieldCodec.Statement (.fqClr tc th) := rfl

theorem FieldCodec.fqInc (tc th : Byte) : FieldCodec.Statement (.fqInc tc th) := rfl

theorem FieldCodec.htAdapt (tc th : Byte) : FieldCodec.Statement (.htAdapt tc th) := rfl

theorem FieldCodec.cfExt (n : Byte) : FieldCodec.Statement (.cfExt n) := rfl

theorem FieldCodec.cfCat : FieldCodec.Statement .cfCat := rfl

theorem FieldCodec.blkDec (c td ta : Byte) : FieldCodec.Statement (.blkDec c td ta) := rfl

theorem FieldCodec.blkSkip (c td ta : Byte) : FieldCodec.Statement (.blkSkip c td ta) := rfl

theorem FieldCodec.blkEnc (c td ta : Byte) : FieldCodec.Statement (.blkEnc c td ta) := rfl

theorem FieldCodec.blkDry (c td ta : Byte) : FieldCodec.Statement (.blkDry c td ta) := rfl

theorem FieldCodec.dcRst : FieldCodec.Statement .dcRst := rfl

theorem FieldCodec.qtLoad (pq tq : Byte) : FieldCodec.Statement (.qtLoad pq tq) := rfl

theorem FieldCodec.dequant (tq : Byte) : FieldCodec.Statement (.dequant tq) := rfl

theorem FieldCodec.quant (tq : Byte) : FieldCodec.Statement (.quant tq) := rfl

theorem FieldCodec.idct : FieldCodec.Statement .idct := rfl

theorem FieldCodec.fdct : FieldCodec.Statement .fdct := rfl

theorem FieldCodec.pixOut : FieldCodec.Statement .pixOut := rfl

theorem FieldCodec.pixIn : FieldCodec.Statement .pixIn := rfl

theorem FieldCodec.ljSetup : FieldCodec.Statement .ljSetup := rfl

theorem FieldCodec.ljHtLoad : FieldCodec.Statement .ljHtLoad := rfl

theorem FieldCodec.ljLinLoad : FieldCodec.Statement .ljLinLoad := rfl

theorem FieldCodec.ljDecode : FieldCodec.Statement .ljDecode := rfl

theorem FieldCodec.unpack10 : FieldCodec.Statement .unpack10 := rfl

theorem FieldCodec.unpack12 : FieldCodec.Statement .unpack12 := rfl

theorem FieldCodec.unpack14 : FieldCodec.Statement .unpack14 := rfl

theorem FieldCodec.unpack12v : FieldCodec.Statement .unpack12v := rfl

end Sys2Proof.Laws
end

