-- ==== Sys2Proof/Tests/Slice0.lean ====
section
/-! SUPPORT. Tests of the model, and a witness for the hypotheses of every statement. Words are written out from
30_encoding.md R82, R84, R90; expected results are those of the examples of the command rules and of 95_test_vectors.md. -/

namespace Sys2Proof.Tests

open Sys2Proof Sys2Proof.Machine

/-! ### WellFormed: an ill-formed term for each check, beside the largest legal one -/

theorem test_wf_brBits : WellFormed (.brBits 16) = true ∧ WellFormed (.brBits 17) = false := by decide

theorem test_wf_bwBits : WellFormed (.bwBits 16) = true ∧ WellFormed (.bwBits 17) = false := by decide

theorem test_wf_cfExt : WellFormed (.cfExt 15) = true ∧ WellFormed (.cfExt 16) = false := by decide

theorem test_wf_tableClass : [Instr.htLoad 2 0, .htStore 2 0, .htDec 2 0, .htEnc 2 0, .fqClr 2 0, .fqInc 2 0, .htAdapt 2 0].map
    WellFormed = List.replicate 7 false := by decide

theorem test_wf_tableIndex : [Instr.htLoad 1 4, .htStore 1 4, .htDec 1 4, .htEnc 1 4, .fqClr 1 4, .fqInc 1 4, .htAdapt 1 4].map
    WellFormed = List.replicate 7 false := by decide

theorem test_wf_tables_legal : [Instr.htLoad 1 3, .htStore 1 3, .htDec 1 3, .htEnc 1 3, .fqClr 1 3, .fqInc 1 3, .htAdapt 1 3].map
    WellFormed = List.replicate 7 true := by decide

theorem test_wf_blocks : [Instr.blkDec 3 3 3, .blkDec 4 0 0, .blkDec 0 4 0, .blkDec 0 0 4, .blkSkip 3 3 3, .blkSkip 4 0 0,
    .blkSkip 0 4 0, .blkSkip 0 0 4].map WellFormed = [true, false, false, false, true, false, false, false] := by decide

theorem test_wf_blocks_encode : [Instr.blkEnc 3 3 3, .blkEnc 4 0 0, .blkEnc 0 4 0, .blkEnc 0 0 4, .blkDry 3 3 3, .blkDry 4 0 0,
    .blkDry 0 4 0, .blkDry 0 0 4].map WellFormed = [true, false, false, false, true, false, false, false] := by decide

theorem test_wf_quant : [Instr.qtLoad 1 3, .qtLoad 2 0, .qtLoad 0 4, .dequant 3, .dequant 4, .quant 3, .quant 4].map WellFormed =
    [true, false, false, true, false, true, false] := by decide

/-! ### Decoding: every constructor, by a word written out from its encoding -/

theorem test_decode_bits :
    decode 0b00000000000000000000000000000000 = .ok .nop ∧
    decode 0b00010010000000000000000000001100 = .ok (.brBits 12) ∧
    decode 0b00100001000000000000000000010000 = .ok (.bwBits 16) ∧
    decode 0b00110010000000000000000100000010 = .ok (.htDec 1 2) ∧
    decode 0b01000010000000110000000100000010 = .ok (.blkDec 3 1 2) ∧
    decode 0b01010000000000000000000100000011 = .ok (.qtLoad 1 3) ∧
    decode 0b01100011000000000000000000000000 = .ok .ljDecode ∧
    decode 0b01110010000000000000000000000000 = .ok .unpack14 := by decide

theorem test_decode_system : decode 0x00000000 = .ok .nop ∧ decode 0x01000000 = .ok .sreset := by decide

theorem test_decode_reader : decode 0x10000000 = .ok .brInit ∧ decode 0x11000000 = .ok .brBit ∧
    decode 0x12000010 = .ok (.brBits 16) ∧ decode 0x13000000 = .ok .brResync := by decide

theorem test_decode_writer : decode 0x20000000 = .ok .bwInit ∧ decode 0x21000008 = .ok (.bwBits 8) ∧
    decode 0x22000000 = .ok .bwFlush ∧ decode 0x23000000 = .ok .bwRst := by decide

theorem test_decode_huffman : decode 0x30000101 = .ok (.htLoad 1 1) ∧ decode 0x31000002 = .ok (.htStore 0 2) ∧
    decode 0x32000103 = .ok (.htDec 1 3) ∧ decode 0x33000001 = .ok (.htEnc 0 1) ∧ decode 0x34000100 = .ok (.fqClr 1 0) ∧
    decode 0x35000102 = .ok (.fqInc 1 2) ∧ decode 0x36000003 = .ok (.htAdapt 0 3) := by decide

theorem test_decode_coefficient : decode 0x4000000B = .ok (.cfExt 11) ∧ decode 0x41000000 = .ok .cfCat ∧
    decode 0x42020101 = .ok (.blkDec 2 1 1) ∧ decode 0x43010203 = .ok (.blkSkip 1 2 3) ∧
    decode 0x44030201 = .ok (.blkEnc 3 2 1) ∧ decode 0x45000102 = .ok (.blkDry 0 1 2) ∧ decode 0x46000000 = .ok .dcRst := by
  decide

theorem test_decode_transform : decode 0x50000103 = .ok (.qtLoad 1 3) ∧ decode 0x51000002 = .ok (.dequant 2) ∧
    decode 0x52000003 = .ok (.quant 3) ∧ decode 0x53000000 = .ok .idct ∧ decode 0x54000000 = .ok .fdct ∧
    decode 0x55000000 = .ok .pixOut ∧ decode 0x56000000 = .ok .pixIn := by decide

theorem test_decode_lj92 : decode 0x60000000 = .ok .ljSetup ∧ decode 0x61000000 = .ok .ljHtLoad ∧
    decode 0x62000000 = .ok .ljLinLoad ∧ decode 0x63000000 = .ok .ljDecode := by decide

theorem test_decode_unpack : decode 0x70000000 = .ok .unpack10 ∧ decode 0x71000000 = .ok .unpack12 ∧
    decode 0x72000000 = .ok .unpack14 ∧ decode 0x73000000 = .ok .unpack12v := by decide

theorem test_decode_illegal : decode 0x02000000 = .error .unknownOpcode ∧ decode 0x37000000 = .error .unknownOpcode ∧
    decode 0xFF000000 = .error .unknownOpcode ∧ decode 0x00000001 = .error .reservedField ∧
    decode 0x12000100 = .error .reservedField ∧ decode 0x30010000 = .error .reservedField ∧
    decode 0x51010000 = .error .reservedField := by decide

theorem test_decode_field_out_of_range : decode 0x12000011 = .ok (.brBits 17) ∧ decode 0x42FF0000 = .ok (.blkDec 255 0 0) := by
  decide

theorem test_encode : encode (.blkDec 2 1 1) = 0x42020101 ∧ encode (.qtLoad 1 3) = 0x50000103 ∧ encode .sreset = 0x01000000 := by
  decide

theorem test_table_word : decodeTableWord 32 0x30000101 = some (.htLoad 1 1) ∧ decodeTableWord 32 0x02000000 = none := by decide

/-! ### Small states -/

/-- The state after a command; the state itself where the command does not answer a next state. -/
def after (i : Instr) (s : State) : State :=
  match exec i s with
  | .next t => t
  | .fault _ => s
  | .refused _ => s

/-- The reset state with IN bytes from address `a` up. -/
def withIn (a : Nat) (bs : List Byte) : State := { State.reset with inMem := Memory.setList [] a bs }

/-- The argument registers A0 to A3. -/
def args (s : State) (a0 a1 a2 a3 : Word) : State := { s with arg := #v[a0, a1, a2, a3] }

/-- The reader at the start of a window, VALID bit 15 set. -/
def reading (s : State) (pos lim : Word) : State :=
  { s with br := { Reader.reset with pos := pos, lim := lim }, valid := s.valid ||| 0x8000 }

/-- The writer at the start of a window, VALID bit 16 set. -/
def writing (s : State) (pos lim : Word) : State :=
  { s with bw := { Writer.reset with pos := pos, lim := lim }, valid := s.valid ||| 0x10000 }

/-- The first bytes of OUT. -/
def outBytes (s : State) (a n : Nat) : List (Option Byte) := (List.range n).map fun i => s.outMem.get? (a + i)

/-- DC table 0 of 42_huffman.md R157's example, as a payload. -/
def dcPayload : List Byte :=
  [0, 1, 5, 1, 1, 1, 1, 1, 1, 0, 0, 0, 0, 0, 0, 0] ++ [0, 1, 2, 3, 4, 5, 6, 7, 8, 9, 10, 11]

/-- AC table 0 of 43_coefficient.md R203's example, as a payload. -/
def acPayload : List Byte := [1, 1, 1, 1, 1, 1, 0, 0, 0, 0, 0, 0, 0, 0, 0, 0] ++ [1, 0, 2, 0x11, 0xF0, 3]

/-- The table of 45_lj92.md R261's example, as a payload. -/
def ljPayload : List Byte := [1, 1, 1, 1, 1, 0, 0, 0, 0, 0, 0, 0, 0, 0, 0, 0] ++ [0, 1, 2, 3, 4]

/-- The specification of a payload. -/
def specOf (p : List Byte) : HuffSpec := { counts := Vector.ofFn fun i : Fin 16 => p.getD i.val 0, syms := p.drop 16 }

/-- The table of a payload. -/
def tableOf (p : List Byte) : HuffTable :=
  match buildTable (specOf p) with
  | .ok t => t
  | .error _ => HuffTable.empty

/-- A state with the tables of R157 and R203 in slots DC 0 and AC 0. -/
def withTables (s : State) : State :=
  { (s.setTable .dc 0 (tableOf dcPayload)).setTable .ac 0 (tableOf acPayload) with valid := s.valid ||| 0x11 }

/-- A block in natural order, by the list of its first coefficients. -/
def block (l : List Word) : Vector Word 64 := Vector.ofFn fun i : Fin 64 => l.getD i.val 0

/-! ### One step of every command, by the examples of the command rules -/

theorem test_nop : (after .nop { State.reset with segEnd := true, res0 := 7 }).segEnd = false ∧
    (after .nop { State.reset with segEnd := true, res0 := 7 }).res0 = 7 := by decide

theorem test_sreset : (after .sreset { (withIn 0 [5]) with fault := true, prec := 12 }).prec = 8 ∧
    (after .sreset { (withIn 0 [5]) with fault := true, prec := 12 }).fault = false ∧
    (after .sreset { (withIn 0 [5]) with fault := true, prec := 12 }).inMem = [(0, 5)] := by decide

/-- 41_bitio.md R124. -/
theorem test_brInit : (after .brInit (args State.reset 0 6 0 0)).br.lim = 6 ∧
    (after .brInit (args State.reset 0 6 0 0)).isValid 15 = true := by decide

theorem test_brInit_bad : (after .brInit (args State.reset 2 1 0 0)).faultCause = some .badArg ∧
    (after .brInit (args State.reset 2 1 0 0)).faultInfo = 1 := by decide

/-- 41_bitio.md R125. -/
theorem test_brBit : (after .brBit (reading (withIn 0 [0x80, 0xFF, 0xD9]) 0 3)).res0 = 1 ∧
    (after .brBit (reading (withIn 0 [0x80, 0xFF, 0xD9]) 0 3)).br.pos = 1 := by decide

theorem test_brBit_marker : (after .brBit (reading (withIn 0 [0xFF, 0xD9]) 0 2)).segEnd = true ∧
    (after .brBit (reading (withIn 0 [0xFF, 0xD9]) 0 2)).br = { Reader.reset with lim := 2, eos := true, marker := 0xD9 } := by
  decide

/-- 41_bitio.md R126: a stuffed pair is the byte 0xFF. -/
theorem test_brBits : (after (.brBits 11) (reading (withIn 0 [0xFF, 0x00, 0x3C, 0xFF, 0xD9]) 0 5)).res0 = 0x7F9 ∧
    (after (.brBits 11) (reading (withIn 0 [0xFF, 0x00, 0x3C, 0xFF, 0xD9]) 0 5)).br.stateWord = 0x05E0 := by decide

/-- 41_bitio.md R127. -/
theorem test_brResync : (after .brResync (reading (withIn 1 [0xFF, 0xD0, 0x40]) 1 6)).br.pos = 3 ∧
    (after .brResync (reading (withIn 1 [0xFF, 0xD0, 0x40]) 1 6)).rstRd = 1 := by decide

theorem test_brResync_fill : (after .brResync (reading (withIn 1 [0xFF, 0xFF, 0xD0]) 1 6)).faultInfo = 0xFFFF ∧
    (after .brResync (reading (withIn 1 [0xFF, 0xFF, 0xD0]) 1 6)).faultCause = some .badMarker := by decide

/-- 41_bitio.md R134. -/
theorem test_bwInit : (after .bwInit (args State.reset 0 64 0 0)).bw = { Writer.reset with lim := 64 } ∧
    (after .bwInit (args State.reset 0 64 0 0)).isValid 16 = true := by decide

/-- 41_bitio.md R135. -/
theorem test_bwBits : outBytes (after (.bwBits 8) (writing (args State.reset 0xFF 0 0 0) 0 64)) 0 3 =
    [some 0xFF, some 0x00, none] := by decide

theorem test_bwBits_held : (after (.bwBits 3) (writing (args State.reset 5 0 0 0) 2 64)).bw.stateWord = 0x0305 := by decide

/-- 41_bitio.md R136. -/
theorem test_bwFlush :
    outBytes (after .bwFlush { writing State.reset 2 64 with bw := { pos := 2, lim := 64, buf := 5, cnt := 3 } }) 2 2 =
      [some 0xBF, none] := by decide

/-- 41_bitio.md R137: the last step of its example. -/
theorem test_bwRst :
    outBytes (after .bwRst { writing State.reset 2 64 with bw := { pos := 2, lim := 64, buf := 1, cnt := 1 } }) 2 5 =
      [some 0xFF, some 0x00, some 0xFF, some 0xD0, none] := by decide

/-- 42_huffman.md R157: the codes `00`, `010` ... `111111110` of its example. -/
theorem test_htLoad : (after (.htLoad 0 0) (args (withIn 0 dcPayload) 0 28 0 0)).res0 = 28 ∧
    ((after (.htLoad 0 0) (args (withIn 0 dcPayload) 0 28 0 0)).table .dc 0).dec.map (fun k => (k.size.toNat, k.code.toNat)) =
      [(2, 0), (3, 2), (3, 3), (3, 4), (3, 5), (3, 6), (4, 14), (5, 30), (6, 62), (7, 126), (8, 254), (9, 510)] := by decide

theorem test_htLoad_overfull : (after (.htLoad 0 0) (args (withIn 0 ([3] ++ List.replicate 18 0)) 0 19 0 0)).faultInfo = 4 := by decide

/-- 42_huffman.md R158. -/
theorem test_htStore : outBytes (after (.htStore 1 0) (args (withTables State.reset) 100 0 0 0)) 115 8 =
    [some 0, some 1, some 0, some 2, some 0x11, some 0xF0, some 3, none] := by decide

/-- 42_huffman.md R159. -/
theorem test_htDec : (after (.htDec 0 0) (reading (withTables (withIn 0 [0xB8, 0])) 0 2)).res0 = 4 ∧
    (after (.htDec 0 0) (reading (withTables (withIn 0 [0xB8, 0])) 0 2)).br.cnt = 5 := by decide

/-- 42_huffman.md R160. -/
theorem test_htEnc : (after (.htEnc 0 0) (writing (args (withTables State.reset) 4 0 0 0) 0 64)).bw.stateWord = 0x0305 := by decide

theorem test_htEnc_noCode : (after (.htEnc 0 0) (writing (args (withTables State.reset) 12 0 0 0) 0 64)).faultCause = some .noCode := by decide

/-- 42_huffman.md R161, R162. -/
theorem test_fqClr : ((after (.fqClr 1 0) (State.reset.setFreq .ac 0 (Vector.replicate 257 9))).freq .ac 0)[3] = 0 := by decide

theorem test_fqInc : ((after (.fqInc 1 0) (args State.reset 0xF0 0 0 0)).freq .ac 0)[0xF0] = 1 := by decide

theorem test_fqInc_overflow :
    (after (.fqInc 1 0) (State.reset.setFreq .ac 0 (Vector.replicate 257 0xFFFFFFFF))).faultCause = some .adaptOverflow := by decide

/-- 43_coefficient.md R201. -/
theorem test_cfExt : (after (.cfExt 11) State.reset).res0 = 0xFFFFF801 ∧
    (after (.cfExt 3) (args State.reset 2 0 0 0)).res0 = 0xFFFFFFFB := by decide

/-- 43_coefficient.md R202. -/
theorem test_cfCat : (after .cfCat (args State.reset 0xFFFFFFFE 0 0 0)).res0 = 2 ∧
    (after .cfCat (args State.reset 0xFFFFFFFE 0 0 0)).res1 = 1 := by decide

/-- 43_coefficient.md R203. -/
theorem test_blkDec :
    let t := after (.blkDec 0 0 0) (reading (withTables (withIn 0 [0x97, 0x3D, 0xBF, 0xFF, 0xD9])) 0 5)
    t.blkI[0] = 5 ∧ t.blkI[1] = 0xFFFFFFFE ∧ t.blkI[16] = 1 ∧ t.res0 = 4 ∧ t.br.pos = 3 ∧ t.br.cnt = 6 := by decide

/-- 43_coefficient.md R207. -/
theorem test_blkSkip :
    let t := after (.blkSkip 0 0 0) (reading (withTables (withIn 0 [0x97, 0x3D, 0xBF, 0xFF, 0xD9])) 0 5)
    t.blkI[0] = 0 ∧ t.pred 0 = 5 ∧ t.br.pos = 3 ∧ t.br.cnt = 6 := by decide

/-- 43_coefficient.md R204. -/
theorem test_blkEnc :
    let t := after (.blkEnc 0 0 0)
      (writing (withTables { State.reset with blkI := block ([5, -2] ++ List.replicate 14 0 ++ [1]) }) 0 64)
    outBytes t 0 3 = [some 0x97, some 0x3D, none] ∧ t.bw.stateWord = 0x0202 := by decide

/-- 43_coefficient.md R205. -/
theorem test_blkDry :
    let t := after (.blkDry 0 0 0) { State.reset with blkI := block (List.replicate 63 0 ++ [1]) }
    (t.freq .dc 0)[0] = 1 ∧ (t.freq .ac 0)[0xF0] = 3 ∧ (t.freq .ac 0)[0xE1] = 1 ∧ (t.freq .ac 0)[0] = 0 := by decide

theorem test_dcRst : (after .dcRst (State.reset.setPred 0 5)).dcpvWord = 0 := by decide

/-- 44_transform.md R235: payload entries 1, 2 and 3 go to places 1, 8 and 16. -/
theorem test_qtLoad :
    let t := after (.qtLoad 0 0) (withIn 0 ([16, 11, 10, 17] ++ List.replicate 60 99))
    t.qt[0].q[0] = 16 ∧ t.qt[0].q[1] = 11 ∧ t.qt[0].q[8] = 10 ∧ t.qt[0].q[16] = 17 ∧ t.res0 = 64 := by decide

/-- 42_huffman.md R163, R167: CODESIZE of its example; the sentinel stands last. -/
theorem test_codeSize : (codeSize [10, 4, 4, 1, 1]).take 5 = [1, 2, 3, 4, 4] := by decide

/-- 42_huffman.md R165: one borrow from length 17, then the sentinel's code removed. -/
theorem test_adjustBits : (adjustBits (List.replicate 15 0 ++ [3, 1, 2] ++ List.replicate 15 0)).drop 14 =
    0 :: 2 :: 3 :: List.replicate 16 0 := by decide

/-- 44_transform.md R236, R237: 64·16 = 1024; 1016/16 = 63.5 rounds to 64, −1016/16 to −64. -/
theorem test_dequant :
    let s := { State.reset with
      valid := 0x100, blkI := block [64], qt := State.reset.qt.set 0 { q := Vector.replicate 64 16, pq := false } }
    (after (.dequant 0) s).blkF[0] = Exact.ofInt 1024 := by decide

theorem test_quant :
    let s := { State.reset with
      valid := 0x100, qt := State.reset.qt.set 0 { q := Vector.replicate 64 16, pq := false }
      blkF := ((Vector.replicate 64 Exact.zero).set 0 (Exact.ofInt 1016)).set 1 (Exact.ofInt (-1016)) }
    (after (.quant 0) s).blkI[0] = 64 ∧ (after (.quant 0) s).blkI[1] = 0xFFFFFFC0 := by decide

/-- 44_transform.md R238, R239, `P_dc` (R242). -/
theorem test_idct : (after .idct { State.reset with blkF := (Vector.replicate 64 Exact.zero).set 0 (Exact.ofInt 1024) }).blkF[13] =
    Exact.ofInt 128 := by decide +kernel

theorem test_fdct : (after .fdct { State.reset with blkF := Vector.replicate 64 (Exact.ofInt 127) }).blkF[0] = Exact.ofInt 1016 := by
  decide +kernel

/-- 44_transform.md R240, R241. -/
theorem test_pixOut :
    let s := { State.reset with
      blkF := (((Vector.replicate 64 Exact.zero).set 0 (Exact.ofInt 128)).set 1 (Exact.ofInt (-200))).set 2
        (Numerics.ref.mul (Exact.ofInt 50) (Numerics.ref.basis 1 3)) }
    (after .pixOut s).blkP[0] = 255 ∧ (after .pixOut s).blkP[1] = 0 ∧ (after .pixOut s).blkP[2] = 133 := by decide

theorem test_pixIn : (after .pixIn { State.reset with blkP := Vector.replicate 64 255 }).blkF[7] = Exact.ofInt 127 := by decide

/-! ### Another NUM (44_transform.md R222): the basis held to 8 binary places -/

/-- REF with every basis value rounded to a multiple of 1/256. -/
def fixedPoint : Numerics NumValue :=
  { Numerics.ref with basis := fun u x => Exact.norm (Root3.ofInt ((cosBasis u x).mul (Exact.ofInt 256)).round) 8 }

/-- An instance that is built with the declared NUM `id`, BLK_F[0] = 1024. -/
def declaredState (id : Nat) : State :=
  { State.resetOf { State.reset.params with num := .declared id } with
    blkF := (Vector.replicate 64 Exact.zero).set 0 (Exact.ofInt 1024) }

/-- basis(0, x) = 0.353553 becomes 91/256, so 1024 becomes 1024·(91/256)² = 8281/64, where REF has 128 (`test_idct`). -/
theorem test_idct_fixedPoint (id : Nat) (h : Config.declaredNum id = fixedPoint) :
    (after .idct (declaredState id)).blkF[13] = { num := Root3.ofInt 8281, exp := 6 } := by
  have hf : (after .idct (declaredState id)).blkF = idct2 (Config.declaredNum id) (declaredState 0).blkF := rfl
  have hc : (idct2 fixedPoint (declaredState 0).blkF)[13] = { num := Root3.ofInt 8281, exp := 6 } := by decide +kernel
  simp only [hf, h, hc]

/-- 10_state.md R39: SRESET gives BLK_F the zero of the instance's own NUM. -/
theorem test_sreset_declared (id : Nat) : (after .sreset (declaredState id)).blkF[7] = (Config.declaredNum id).ofInt 0 ∧
    (after .sreset (declaredState id)).params.num = .declared id := ⟨rfl, rfl⟩

/-- 45_lj92.md R252. -/
theorem test_ljSetup : (after .ljSetup (args State.reset 0x00020002 0x0701010C 4 12)).lj.cfgWord = 0x0000710C ∧
    (after .ljSetup (args State.reset 0x00020002 0x0701010C 4 12)).res0 = 4 := by decide

theorem test_ljSetup_predictor0 : (after .ljSetup (args State.reset 0x00020002 0x0001010C 4 12)).faultInfo = 0x100 := by decide

/-- 45_lj92.md R253, R261. -/
theorem test_ljHtLoad :
    let t := after .ljHtLoad (args (withIn 16 ljPayload) 16 37 0 0)
    t.lj.maxBits = 5 ∧ t.lj.lut.drop 15 = [⟨0, 1⟩, ⟨1, 2⟩, ⟨1, 2⟩, ⟨1, 2⟩, ⟨1, 2⟩, ⟨1, 2⟩, ⟨1, 2⟩, ⟨1, 2⟩, ⟨1, 2⟩, ⟨2, 3⟩, ⟨2, 3⟩,
      ⟨2, 3⟩, ⟨2, 3⟩, ⟨3, 4⟩, ⟨3, 4⟩, ⟨4, 5⟩, ⟨0, 0⟩] := by decide

/-- 45_lj92.md R262. -/
theorem test_ljLinLoad :
    (after .ljLinLoad (args (withIn 64 [0, 0, 0x10, 0, 0x40, 0, 0, 1]) 64 4 0 0)).lj.lin = [0, 16, 64, 256] := by decide

/-- A session for the example of 45_lj92.md R263. -/
def ljState : State :=
  { reading (args (withIn 0 [0xEB, 0x9D, 0xDF, 0xFF, 0xD9]) 0 0 0 0) 0 5 with
    lj := { LjSession.reset with x := 2, y := 2, bits := 12, nc := 1, ss := 7, maxBits := 5, spec := specOf ljPayload }
    valid := 0xB000 }

/-- 45_lj92.md R263. -/
theorem test_ljDecode : outBytes (after .ljDecode ljState) 0 9 =
    [some 5, some 8, some 3, some 8, some 8, some 8, some 6, some 8, none] ∧ (after .ljDecode ljState).br.cnt = 4 := by decide

theorem test_ljDecode_truncated :
    (after .ljDecode { ljState with inMem := Memory.setList [] 0 [0xEB, 0xFF, 0xD9] }).faultInfo = 1 ∧
    (after .ljDecode { ljState with inMem := Memory.setList [] 0 [0xEB, 0xFF, 0xD9] }).faultCause = some .truncated := by decide

/-- 46_unpack.md R297 to R300. -/
theorem test_unpack10 : outBytes (after .unpack10 (args (withIn 0 [0x12, 0x34, 0x56, 0x78, 0x9A]) 0 5 0 0)) 0 8 =
    [some 0x48, some 0, some 0x45, some 3, some 0x9E, some 1, some 0x9A, some 0] := by decide

theorem test_unpack12 : outBytes (after .unpack12 (args (withIn 0 [0xAB, 0xCD, 0xEF]) 0 3 1 0)) 0 6 =
    [none, some 0xBC, some 0x0A, some 0xEF, some 0x0D, none] := by decide

theorem test_unpack14 : outBytes (after .unpack14 (args (withIn 0 [0x12, 0x34, 0x56, 0x78, 0x9A, 0xBC, 0xDE]) 0 7 0 0)) 0 8 =
    [some 0x8D, some 4, some 0x67, some 5, some 0x6A, some 0x22, some 0xDE, some 0x3C] := by decide

theorem test_unpack12v : outBytes (after .unpack12v (args (withIn 4 [0xAB, 0xCD, 0xEF]) 4 3 0 0)) 0 4 =
    [some 0xBC, some 0x0A, some 0xEF, some 0x0D] ∧
    (after .unpack12v (args (withIn 4 [0xAB, 0xCD, 0xEF]) 3 3 0 0)).faultCause = some .ioRead := by decide

theorem test_unpack_partial_group : (after .unpack10 (args State.reset 0 6 0 0)).faultCause = some .badArg ∧
    (after .unpack10 (args State.reset 0 6 0 0)).faultInfo = 6 := by decide

/-! ### The host interface -/

/-- What a step answers, as a state; the state itself where it stops. -/
def stepped (s : State) : State :=
  match step s with
  | .next t => t
  | .fault _ => s
  | .refused _ => s

theorem test_step_command : (stepped (State.reset.withFetchWord 32 0x4000000B)).res0 = 0xFFFFF801 := by decide

theorem test_step_illegal : (stepped (State.reset.withFetchWord 32 0x12000100)).faultCmd = 0x12000100 ∧
    (stepped (State.reset.withFetchWord 32 0x12000100)).causeWord = 1 := by decide

theorem test_step_refused_in_fault : (stepped ({ State.reset with fault := true }.withFetchWord 32 0x4000000B)).res0 = 0 := by
  decide

theorem test_step_idle : step State.reset = .next State.reset := rfl

theorem test_write_prec : (stepped { State.reset with host := [.writeReg 32 0x18 0xFFFFFFEC] }).readOffset 0x18 = 12 := by decide

theorem test_write_readOnly : (stepped { State.reset with host := [.writeReg 32 0x30 5] }).res0 = 0 := by decide

theorem test_read_status :
    (stepped { State.reset with segEnd := true, fault := true, host := [.readReg 32 4] }).hostData = 6 := by decide

/-! ### The zig-zag table (43_coefficient.md R192) -/

/-- The construction of R192: the 15 anti-diagonals, even ones with the row decreasing. -/
def antiDiagonals : List Nat :=
  (List.range 15).flatMap fun d =>
    let rows := (List.range 8).filter fun r => r ≤ d && d - r < 8
    (if d % 2 = 0 then rows.reverse else rows).map fun r => 8 * r + (d - r)

theorem test_zigzag_construction : zigzag.toList.map Fin.val = antiDiagonals := by decide

theorem test_zigzag_place : ∀ i : Fin 64, zigzag[zigzagPlace i] = i := by decide

/-! ### The reset state -/

theorem reset_memory_wf : State.reset.inMem.wf = true ∧ State.reset.outMem.wf = true := by decide

theorem reset_invariants : State.reset.memoryOk ∧ State.reset.writerOk ∧ State.reset.readerOk ∧ State.reset.faultOk := by decide

/-! ### Witnesses: for every statement with hypotheses, states and operands that meet them -/

theorem witness_IllegalWordsFault : ∃ (s : State) (w : Word), s.fault = false ∧ ∀ row ∈ opcodeRows, w &&& row.1 ≠ row.2 :=
  ⟨State.reset, 0x30010000, by decide, by simp [opcodeRows]⟩

theorem witness_FieldsOutOfRangeFault :
    [Instr.brBits 17, .bwBits 255, .cfExt 16, .htLoad 2 0, .htDec 1 4, .blkDec 4 4 4, .blkEnc 3 4 4, .blkDry 3 3 4, .qtLoad 2 4,
      .qtLoad 1 4, .quant 4].map (fun i => ((fieldRanges i).find? (fun p => p.2 < p.1.toNat)).map Prod.fst) =
    [some 17, some 255, some 16, some 2, some 4, some 4, some 4, some 4, some 2, some 4, some 4] := by decide

theorem witness_StepRunsTheCommand : ∃ (s : State) (w : Word) (i : Instr), s.busy = false ∧ (s.fault = false ∨ w = 0x01000000) ∧
    decode w = .ok i ∧ ∃ mv rest, s.host = mv :: rest :=
  ⟨{ State.reset with fault := true, host := [.writeReg 32 0 0x01000000] }, 0x01000000, .sreset, by decide, by decide, rfl, _, _, rfl⟩

theorem witness_StepRunsTheCommand_fetch : ∃ (s : State) (nbits w : Nat) (i : Instr), s.busy = false ∧ s.fault = false ∧
    s.host = [] ∧ decodeTableWord nbits w = some i :=
  ⟨State.reset, 32, 0x42020101, .blkDec 2 1 1, by decide, by decide, rfl, by decide⟩

theorem witness_FaultStateRefusesCommands : ∃ (s t : State) (w : Word) (mv : HostMove), s.fault = true ∧ w ≠ 0x01000000 ∧
    mv ≠ .reset ∧ mv ≠ .writeReg 32 0 0x01000000 ∧ hostMove mv s = .next t :=
  ⟨{ State.reset with fault := true }, _, 0x01000001, .writeReg 32 0x20 7, by decide, by decide, by decide, by decide, rfl⟩

theorem witness_RegisterWriteThenRead : ∃ (s : State) (off off' : Nat), s.busy = false ∧ off % 4 = 0 ∧ off' % 4 = 0 ∧ off ≠ 0 :=
  ⟨State.reset, 0x1FC, 0x200, by decide, by decide, by decide, by decide⟩

/-- The edges of the writable ranges of the map. -/
theorem witness_RegisterWriteThenRead_edges : [0x014, 0x018, 0x01C, 0x020, 0x02C, 0x030, 0x0FC, 0x100, 0x1FC, 0x200, 0x2FC,
    0x300].map writeMask = [0, 0x1F, 0, 0xFFFFFFFF, 0xFFFFFFFF, 0, 0, 0xFFFFFFFF, 0xFFFFFFFF, 0xFFFF, 0xFFFF, 0] ∧
    regAt 0x300 = none ∧ regAt 0x0FC = none ∧ regAt 0x102 = none := by decide

theorem witness_HostAccesses_width : ∃ (s : State) (mv : HostMove) (width off : Nat), s.busy = false ∧
    ¬(width = 32 ∧ off % 4 = 0) ∧ ((∃ v, mv = .writeReg width off v) ∨ mv = .readReg width off) :=
  ⟨State.reset, .readReg 16 0x20, 16, 0x20, by decide, by decide, Or.inr rfl⟩

theorem witness_HostAccesses_busy : ∃ (s : State) (mv : HostMove), s.busy = true ∧ mv ≠ .reset ∧ (∀ width, mv ≠ .readReg width 4) ∧
    ∀ width v, mv ≠ .writeReg width 4 v :=
  ⟨{ State.reset with busy := true }, .writeReg 32 0 0, by decide, by decide, by simp, by simp⟩

theorem witness_HostAccesses_memory : ∃ (s : State) (a b : Nat), s.busy = false ∧ a < s.params.inSize ∧ s.params.inSize ≤ b ∧
    a < s.params.outSize ∧ s.params.outSize ≤ b :=
  ⟨State.reset, 4095, 4096, by decide, by decide, by decide, by decide, by decide⟩

theorem witness_CommandsLeaveInputsAlone : ∃ (i : Instr) (s t : State), exec i s = .next t ∧ i ≠ .sreset ∧ i ≠ .pixOut ∧
    i ≠ .cfCat :=
  ⟨.nop, State.reset, _, rfl, by decide, by decide, by decide⟩

theorem witness_OnlyResetLeavesTheFaultState : ∃ (s t : State) (mv : HostMove), s.busy = false ∧ s.fault = true ∧
    hostMove mv s = .next t ∧ t.fault = false ∧ (mv = .reset ∨ mv = .writeReg 32 0 0x01000000) :=
  ⟨{ State.reset with fault := true }, _, .reset, by decide, by decide, rfl, by decide, Or.inl rfl⟩

/-- The reader at a marker with no bit left. -/
def atMarker : State :=
  { withTables (withIn 0 [0xFF, 0xD9]) with
    br := { Reader.reset with lim := 2, eos := true, marker := 0xD9 }, valid := 0x8011 }

theorem witness_SegmentEndOutcome : ∃ (i : Instr) (s t : State), exec i s = .next t ∧ t.segEnd = true :=
  ⟨.brBit, atMarker, _, rfl, by decide⟩

theorem witness_SegmentEndOutcome_again : ∃ s : State, s.isValid 15 = true ∧ s.br.eos = true ∧ s.br.cnt = 0 ∧
    tableFields 0 0 = .ok (.dc, 0) ∧ s.isValid (tableBit .dc 0) = true ∧ blockFields 3 0 0 = .ok (3, 0, 0) ∧
    s.isValid (tableBit .ac 0) = true :=
  ⟨atMarker, by decide, by decide, by decide, rfl, by decide, rfl, by decide⟩

theorem witness_ValidBits_set : ∃ (i : Instr) (s t : State) (n : Nat), exec i s = .next t ∧ s.isValid n = false ∧
    t.isValid n = true ∧ t.fault = false ∧ setsBit s i n :=
  ⟨.bwInit, args State.reset 0 64 0 0, _, 16, rfl, by decide, by decide, by decide, rfl⟩

theorem witness_ValidBits_cleared : ∃ (s t : State), exec .ljLinLoad s = .next t ∧ s.isValid 14 = true ∧ t.isValid 14 = false ∧
    s.argNat 1 = 0 :=
  ⟨{ State.reset with valid := 0x4000 }, _, rfl, by decide, by decide, by decide⟩

theorem witness_ValidBits_needed : ∃ (i : Instr) (s : State) (n : Nat), WellFormed i = true ∧
    (neededBits i).find? (fun b => !s.isValid b) = some n :=
  ⟨.blkDec 3 3 3, { State.reset with valid := 0x0008 }, 7, by decide, by decide⟩

theorem witness_CausesOfACommand : ∃ (i : Instr) (s t : State), i ≠ .sreset ∧ exec i s = .next t ∧ t.fault = true ∧
    ∀ tc th, i ≠ .htAdapt tc th :=
  ⟨.brBit, State.reset, _, by decide, rfl, by decide, by simp⟩

theorem witness_WhatAFaultLeaves_before : ∃ (i : Instr) (s t : State) (c : Cause), s.fault = false ∧ exec i s = .next t ∧
    t.fault = true ∧ t.faultCause = some c ∧ midCommand i c = false :=
  ⟨.brBit, State.reset, _, .notReady, by decide, rfl, by decide, by decide, by decide⟩

theorem witness_WhatAFaultLeaves_midway : ∃ (i : Instr) (s t : State) (c : Cause), s.fault = false ∧ exec i s = .next t ∧
    t.fault = true ∧ t.faultCause = some c ∧ midCommand i c = true :=
  ⟨.brBit, reading State.reset 0 0, _, .ioRead, by decide, rfl, by decide, by decide, by decide⟩

theorem witness_Frames : ∃ s : State, ∀ i ∈ [Instr.nop, .brBit, .bwFlush, .htDec 0 0, .dcRst, .idct, .ljDecode, .unpack12],
    ∃ t, exec i s = .next t :=
  ⟨atMarker, by simp [exec, execNop, execBrBit, execBwFlush, execHtDec, execDcRst, execIdct, execLjDecode, execUnpack12]⟩

theorem witness_Frames_families : [Instr.nop, .brBit, .bwFlush, .htDec 0 0, .dcRst, .idct, .ljDecode, .unpack12].map family =
    [0, 1, 2, 3, 4, 5, 6, 7] := by decide

/-- The whole of IN as a window, and one byte more. -/
theorem witness_OpeningAWindow : ∃ s u : State, (s.argNat 0 ≤ s.argNat 1 ∧ s.argNat 1 ≤ s.params.inSize ∧
    s.argNat 1 ≤ s.params.outSize) ∧ ¬(u.argNat 0 ≤ u.argNat 1 ∧ u.argNat 1 ≤ u.params.inSize) ∧
    ¬(u.argNat 0 ≤ u.argNat 1 ∧ u.argNat 1 ≤ u.params.outSize) :=
  ⟨args State.reset 4096 4096 0 0, args State.reset 0 4097 0 0, by decide, by decide, by decide⟩

theorem witness_ReadingBits_value : ∃ (s : State) (i : Instr) (n : Nat),
    (i = .brBit ∧ n = 1 ∨ i = .brBits (BitVec.ofNat 8 n) ∧ n ≤ 16) ∧ s.isValid 15 = true ∧ s.br.cnt.toNat ≤ 8 ∧
    n ≤ (s.br.bits s.inMem).length :=
  ⟨reading (withIn 0 [0xFF, 0x00, 0x3C, 0xFF, 0xD9]) 0 5, .brBits 16, 16, by decide, by decide, by decide, by decide⟩

theorem witness_ReadingBits_marker : ∃ (s : State) (pos : Nat) (second : Byte), s.isValid 15 = true ∧ s.br.cnt.toNat ≤ 8 ∧
    (s.br.bits s.inMem).length < 1 ∧ (s.br.rest s.inMem).2 = .marker pos second :=
  ⟨reading (withIn 0 [0xFF, 0xD9]) 0 2, 0, 0xD9, by decide, by decide, by decide, by decide⟩

theorem witness_ReadingBits_runsOut : ∃ (s : State) (addr : Nat), s.isValid 15 = true ∧ s.br.cnt.toNat ≤ 8 ∧
    (s.br.bits s.inMem).length < 16 ∧ (s.br.rest s.inMem).2 = .runsOut addr :=
  ⟨reading (withIn 0 [0x3C, 0xFF]) 0 2, 2, by decide, by decide, by decide, by decide⟩

theorem witness_RestartMarkerRead : ∃ s : State, s.isValid 15 = true ∧ s.br.pos.toNat + 1 < s.br.lim.toNat ∧
    s.inMem.inByte s.br.pos.toNat = 0xFF ∧ (s.inMem.inByte (s.br.pos.toNat + 1)).toNat = 0xD0 + s.rstRd.toNat :=
  ⟨{ reading (withIn 0 [0xFF, 0xD7]) 0 2 with rstRd := 7 }, by decide, by decide, by decide, by decide⟩

theorem witness_RestartMarkerRead_window : ∃ s u : State, s.isValid 15 = true ∧ s.br.lim.toNat ≤ s.br.pos.toNat ∧
    u.isValid 15 = true ∧ u.br.pos.toNat < u.br.lim.toNat ∧ u.br.lim.toNat ≤ u.br.pos.toNat + 1 :=
  ⟨reading State.reset 2 2, reading State.reset 1 2, by decide, by decide, by decide, by decide, by decide⟩

theorem witness_RestartMarkerRead_other : ∃ s : State, s.isValid 15 = true ∧ s.br.pos.toNat + 1 < s.br.lim.toNat ∧
    ¬(s.inMem.inByte s.br.pos.toNat = 0xFF ∧ (s.inMem.inByte (s.br.pos.toNat + 1)).toNat = 0xD0 + s.rstRd.toNat) :=
  ⟨reading (withIn 0 [0xFF, 0xD1]) 0 2, by decide, by decide, by decide⟩

theorem witness_RestartMarkerRead_notReady : State.reset.isValid 15 = false := by decide

theorem witness_WritingBits_room : ∃ (s : State) (n : Nat) (bits : List Bool), n ≤ 16 ∧ bits = numBits (s.argNat 0) n ∧
    s.isValid 16 = true ∧ s.bw.ok ∧ s.bw.room bits :=
  ⟨writing (args State.reset 0xFFFF 0 0 0) 0 4, 16, _, by decide, rfl, by decide, by decide, by decide⟩

theorem witness_WritingBits_full : ∃ (s : State) (n : Nat) (bits : List Bool), n ≤ 16 ∧ bits = numBits (s.argNat 0) n ∧
    s.isValid 16 = true ∧ s.bw.ok ∧ ¬s.bw.room bits :=
  ⟨writing (args State.reset 0xFFFF 0 0 0) 0 3, 16, _, by decide, rfl, by decide, by decide, by decide⟩

theorem witness_WritingBits_flush : ∃ s u : State, s.isValid 16 = true ∧ s.bw.ok ∧ s.bw.room s.bw.padding ∧
    u.isValid 16 = true ∧ u.bw.ok ∧ ¬u.bw.room u.bw.padding :=
  ⟨writing State.reset 4 4, { writing State.reset 4 4 with bw := { pos := 4, lim := 4, buf := 1, cnt := 1 } }, by decide, by decide,
    by decide, by decide, by decide, by decide⟩

theorem witness_RestartMarkerWritten : ∃ s u : State,
    (s.isValid 16 = true ∧ s.bw.ok ∧ s.bw.room s.bw.padding ∧
      (s.sink.append s.bw.padding).w.pos.toNat + 2 ≤ s.bw.lim.toNat) ∧
    u.isValid 16 = true ∧ u.bw.ok ∧
      ¬(u.bw.room u.bw.padding ∧ (u.sink.append u.bw.padding).w.pos.toNat + 2 ≤ u.bw.lim.toNat) :=
  ⟨{ writing State.reset 0 4 with bw := { pos := 0, lim := 4, buf := 0x7F, cnt := 7 } }, writing State.reset 3 4, by decide,
    by decide, by decide, by decide⟩

theorem witness_WrittenBitsReadBack : ∃ (vs : List (Nat × Nat)) (k k' k'' : Sink) (m : Memory) (r : Reader),
    (∀ p ∈ vs, p.2 ≤ 16 ∧ p.1 < 2 ^ p.2) ∧ k.w.pos.toNat ≤ k.w.lim.toNat ∧ k.w.buf = 0 ∧ k.w.cnt = 0 ∧
    writeAll vs k = .ok k' ∧ flushBits k' = .ok k'' ∧ r.pos = k.w.pos ∧ r.cnt = 0 ∧ r.eos = false ∧
    k''.w.pos.toNat ≤ r.lim.toNat ∧ ∀ a, k.w.pos.toNat ≤ a → a < k''.w.pos.toNat → m.get? a = k''.out.get? a :=
  ⟨[(5, 3), (0xFFFF, 16), (0, 0)], { w := { Writer.reset with lim := 9 }, out := [] }, _, _, _, { Reader.reset with lim := 9 },
    by decide, by decide, by decide, by decide, rfl, rfl, by decide, by decide, by decide, by decide, fun _ _ _ => rfl⟩

theorem witness_CodesAreCanonical : ∃ (p : HuffSpec) (t : HuffTable), p.counted ∧ buildTable p = .ok t :=
  ⟨specOf dcPayload, _, by decide, rfl⟩

theorem witness_CodesArePrefixFree : ∃ p q : HuffSpec, 2 ^ 16 < p.kraft ∧ q.kraft ≤ 2 ^ 16 :=
  ⟨specOf ([3] ++ List.replicate 18 0), specOf ([2] ++ List.replicate 17 0), by decide, by decide⟩

/-- A payload with its limit one past its last byte, with one byte less, with no room for the counts, past IN, of too many
symbols, of too many codes. -/
theorem witness_HuffmanTableLoad : ∃ s u v w x y : State, tableFields 1 3 = .ok (.ac, 3) ∧
    (let p := payloadAt s.inMem (s.argNat 0);
      s.argNat 1 ≤ s.params.inSize ∧ s.argNat 0 + 16 + p.syms.length ≤ s.argNat 1 ∧ p.syms.length ≤ 256 ∧ p.kraft ≤ 2 ^ 16) ∧
    (let p := payloadAt u.inMem (u.argNat 0);
      u.argNat 1 ≤ u.params.inSize ∧ u.argNat 0 + 16 ≤ u.argNat 1 ∧ p.syms.length ≤ 256 ∧
        u.argNat 1 < u.argNat 0 + 16 + p.syms.length) ∧
    (v.argNat 1 ≤ v.params.inSize ∧ v.argNat 1 < v.argNat 0 + 16) ∧ w.params.inSize < w.argNat 1 ∧
    (let p := payloadAt x.inMem (x.argNat 0);
      x.argNat 1 ≤ x.params.inSize ∧ x.argNat 0 + 16 ≤ x.argNat 1 ∧ 256 < p.syms.length) ∧
    (let p := payloadAt y.inMem (y.argNat 0);
      y.argNat 1 ≤ y.params.inSize ∧ y.argNat 0 + 16 + p.syms.length ≤ y.argNat 1 ∧ p.syms.length ≤ 256 ∧ 2 ^ 16 < p.kraft) :=
  ⟨args (withIn 0 dcPayload) 0 28 0 0, args (withIn 0 dcPayload) 0 27 0 0, args State.reset 0 15 0 0, args State.reset 0 4097 0 0,
    args (withIn 0 (List.replicate 14 0 ++ [128, 129])) 0 16 0 0, args (withIn 0 ([3] ++ List.replicate 18 0)) 0 19 0 0, rfl,
    by decide, by decide, by decide, by decide,
    ⟨by decide, by decide, by simp only [payloadAt, Memory.readList, List.length_map, List.length_range]; decide⟩, by decide⟩

theorem witness_HuffmanTableStore : ∃ s u : State, tableFields 1 0 = .ok (.ac, 0) ∧ s.isValid (tableBit .ac 0) = true ∧
    s.argNat 0 + 16 + (s.table .ac 0).spec.syms.length ≤ s.params.outSize ∧ u.isValid (tableBit .ac 0) = true ∧
    u.params.outSize < u.argNat 0 + 16 + (u.table .ac 0).spec.syms.length :=
  ⟨args (withTables State.reset) 4074 0 0 0, args (withTables State.reset) 4075 0 0 0, rfl, by decide, by decide, by decide,
    by decide⟩

/-- The tables of `withTables` are those of their specifications. -/
theorem tables_ok : (tableOf dcPayload).ok ∧ (tableOf acPayload).ok := ⟨rfl, rfl⟩

theorem witness_SymbolDecode : ∃ s : State, tableFields 0 0 = .ok (.dc, 0) ∧ s.isValid (tableBit .dc 0) = true ∧
    s.isValid 15 = true ∧ (s.table .dc 0).ok ∧ s.br.cnt.toNat ≤ 8 ∧
    ∃ k ∈ (s.table .dc 0).dec, k.bits <+: s.br.bits s.inMem :=
  ⟨reading (withTables (withIn 0 [0xB8, 0xFF, 0xD9])) 0 3, rfl, by decide, by decide, tables_ok.1, by decide, by decide⟩

theorem witness_SymbolDecode_notFound : ∃ s : State, (s.table .dc 0).ok ∧ s.isValid (tableBit .dc 0) = true ∧
    s.isValid 15 = true ∧ s.br.cnt.toNat ≤ 8 ∧ (∀ k ∈ (s.table .dc 0).dec, ¬k.bits <+: s.br.bits s.inMem) ∧
    16 ≤ (s.br.bits s.inMem).length :=
  ⟨reading (withTables (withIn 0 [0xFF, 0x00, 0xFF, 0x00])) 0 4, tables_ok.1, by decide, by decide, by decide, by decide, by decide⟩

theorem witness_SymbolDecode_marker : ∃ (s : State) (pos : Nat) (second : Byte), (s.table .dc 0).ok ∧
    s.isValid (tableBit .dc 0) = true ∧ s.isValid 15 = true ∧ s.br.cnt.toNat ≤ 8 ∧
    (∀ k ∈ (s.table .dc 0).dec, ¬k.bits <+: s.br.bits s.inMem) ∧ (s.br.bits s.inMem).length < 16 ∧
    (s.br.rest s.inMem).2 = .marker pos second :=
  ⟨reading (withTables (withIn 0 [0xFF, 0x00, 0xFF, 0xD9])) 0 4, 2, 0xD9, tables_ok.1, by decide, by decide, by decide, by decide,
    by decide, by decide⟩

theorem witness_SymbolDecode_runsOut : ∃ (s : State) (addr : Nat), (s.table .dc 0).ok ∧ s.isValid (tableBit .dc 0) = true ∧
    s.isValid 15 = true ∧ s.br.cnt.toNat ≤ 8 ∧ (∀ k ∈ (s.table .dc 0).dec, ¬k.bits <+: s.br.bits s.inMem) ∧
    (s.br.bits s.inMem).length < 16 ∧ (s.br.rest s.inMem).2 = .runsOut addr :=
  ⟨reading (withTables (withIn 0 [0xFF, 0x00])) 0 2, 2, tables_ok.1, by decide, by decide, by decide, by decide, by decide, by decide⟩

theorem witness_SymbolEncode : ∃ s u v : State, tableFields 0 0 = .ok (.dc, 0) ∧
    (∀ x ∈ [s, u, v], x.isValid (tableBit .dc 0) = true ∧ x.isValid 16 = true ∧ x.bw.ok) ∧
    (s.table .dc 0).enc[(BitVec.ofNat 8 (s.argNat 0) : Byte).toFin].size = 0 ∧
    ((u.table .dc 0).enc[(BitVec.ofNat 8 (u.argNat 0) : Byte).toFin].size ≠ 0 ∧
      u.bw.room (encBits (u.table .dc 0).enc (BitVec.ofNat 8 (u.argNat 0)))) ∧
    (v.table .dc 0).enc[(BitVec.ofNat 8 (v.argNat 0) : Byte).toFin].size ≠ 0 ∧
      ¬v.bw.room (encBits (v.table .dc 0).enc (BitVec.ofNat 8 (v.argNat 0))) :=
  ⟨writing (args (withTables State.reset) 12 0 0 0) 0 0, writing (args (withTables State.reset) 11 0 0 0) 0 2,
    writing (args (withTables State.reset) 11 0 0 0) 0 1, rfl, by decide, by decide, by decide, by decide⟩

theorem witness_FrequencyCounts : ∃ s u : State, tableFields 1 3 = .ok (.ac, 3) ∧
    (s.freq .ac 3)[(BitVec.ofNat 8 (s.argNat 0) : Byte).toNat]!.toNat < 2 ^ 32 - 1 ∧
    (u.freq .ac 3)[(BitVec.ofNat 8 (u.argNat 0) : Byte).toNat]!.toNat = 2 ^ 32 - 1 :=
  ⟨args State.reset 255 0 0 0, args (State.reset.setFreq .ac 3 (Vector.replicate 257 0xFFFFFFFF)) 255 0 0 0, rfl, by decide,
    by decide⟩

theorem witness_FrequencyCounts_range : ∃ (s : State) (e : Raise), blockFields 3 3 3 = .ok (3, 3, 3) ∧
    blockItems s.blkI (s.pred 3) = .error e :=
  ⟨{ State.reset with blkI := block [32768] }, _, rfl, rfl⟩

/-- The counts of a model with every symbol `n` times. -/
def allAt (n : Word) : State := (State.reset.setFreq .dc 0 (Vector.replicate 257 n)).setFreq .ac 0 (Vector.replicate 257 n)

/-- 43_coefficient.md R205: one DC item and End-Of-Block; the last count that can be raised, and the first that can't. -/
theorem witness_FrequencyCounts_items : ∃ items : List Item,
    blockItems (allAt 0xFFFFFFFE).blkI ((allAt 0xFFFFFFFE).pred 0) = .ok items ∧
    blockItems (allAt 0xFFFFFFFF).blkI ((allAt 0xFFFFFFFF).pred 0) = .ok items ∧ items = [Item.coded .dc 0 0, Item.eob] ∧
    (∀ j it, items[j]? = some it →
      ((allAt 0xFFFFFFFE).freq it.cls 0)[it.sym.toNat]!.toNat +
        ((items.take j).countP fun x => x.cls = it.cls && x.sym.toNat = it.sym.toNat) < 2 ^ 32 - 1) ∧
    items[0]? = some (Item.coded .dc 0 0) ∧ ((allAt 0xFFFFFFFF).freq .dc 0)[0]!.toNat = 2 ^ 32 - 1 := by
  refine ⟨[Item.coded .dc 0 0, Item.eob], rfl, rfl, rfl, fun j it h => ?_, rfl, by decide⟩
  match j with
  | 0 =>
    obtain rfl : Item.coded .dc 0 0 = it := by simpa using h
    decide
  | 1 =>
    obtain rfl : Item.eob = it := by simpa using h
    decide
  | j + 2 => simp at h

theorem witness_TableAdaptation_empty : ∃ s : State, tableFields 0 3 = .ok (.dc, 3) ∧ ∀ b : Byte, (s.freq .dc 3)[b.toNat]! = 0 :=
  ⟨State.reset, rfl, fun b => by
    have h : b.toNat < 257 := by have := b.isLt; omega
    rw [getElem!_pos (State.reset.freq .dc 3) b.toNat h]
    simp [State.freq, State.reset]⟩

/-- A model whose first counts are these. -/
def model (l : List Nat) : FreqModel := Vector.ofFn fun i : Fin 257 => BitVec.ofNat 32 (l.getD i.val 0)

/-- Fibonacci counts 1, 2, 3, 5, ...: the first code size is their number. -/
def fibonacci : (n a b : Nat) → List Nat
  | 0, _, _ => []
  | n + 1, a, b => a :: fibonacci n b (a + b)

/-- Groups that are merged one after the other into the first. -/
def chainOk : Group → List Group → Bool
  | _, [] => true
  | v, w :: l =>
    (v.before w || w.before v) && l.all (fun g => v.before g && w.before g) &&
      chainOk (if v.before w then v.merge w else w.merge v) l

/-- The code sizes of such a chain. -/
def chainSize : Group → List Group → Nat → Nat
  | _, [] => fun _ => 0
  | v, w :: l => fun k =>
    let m := if v.before w then v.merge w else w.merge v
    chainSize m l k + if k ∈ m.members then 1 else 0

theorem chainSize_spec (v : Group) (l : List Group) (h : chainOk v l = true) : CodeSizes (v :: l) (chainSize v l) := by
  induction l generalizing v with
  | nil => exact .done v
  | cons w l ih =>
    simp only [chainOk, Bool.and_eq_true, Bool.or_eq_true, decide_eq_true_eq, List.all_eq_true] at h
    obtain ⟨⟨hvw, hl⟩, hc⟩ := h
    by_cases hb : v.before w
    · rw [if_pos hb] at hc
      have := CodeSizes.merge (v :: w :: l) l v w _ (.refl _) hb (fun g hg => (hl g hg).2) (ih _ hc)
      simpa only [chainSize, if_pos hb] using this
    · rw [if_neg hb] at hc
      have := CodeSizes.merge (v :: w :: l) l w v _ (.swap _ _ _) (hvw.resolve_left hb) (fun g hg => (hl g hg).1) (ih _ hc)
      simpa only [chainSize, if_neg hb] using this

theorem CodeSizes.of_perm {gs hs : List Group} {size : Nat → Nat} (h : CodeSizes hs size) (hp : gs.Perm hs) (h2 : 2 ≤ hs.length) :
    CodeSizes gs size := by
  cases h with
  | done g => simp at h2
  | merge _ rest v1 v2 size hp' h1 h2 hs => exact .merge gs rest v1 v2 size (hp.trans hp') h1 h2 hs

/-- The sentinel's group. -/
def sentinelGroup : Group := { rep := 256, weight := 1, members := [256] }

/-- The group of one symbol. -/
def symbolGroup (p : Nat × Nat) : Group := { rep := p.1, weight := p.2, members := [p.1] }

/-- The counts of R167's example, in the order in which they are merged. -/
def counts167 : List (Nat × Nat) := [(3, 1), (2, 4), (1, 4), (0, 10)]

/-- Fibonacci counts of the symbols 0 to 32. -/
def counts33 : List (Nat × Nat) := (fibonacci 33 1 2).zipIdx.map fun p => (p.2, p.1)

/-- The groups that merging starts from, by the list of counts. -/
def listGroups (l : List (Nat × Nat)) : List Group :=
  ((List.range 256).map fun k => { rep := k, weight := (l.lookup k).getD 0 % 2 ^ 32, members := [k] : Group }).filter
    (fun g => g.weight ≠ 0) ++ [sentinelGroup]

theorem countsOf_toNat (l : List (Nat × Nat)) (k : Nat) (hk : k ∈ List.range 256) :
    ({ rep := k, weight := (countsOf l)[k]!.toNat, members := [k] } : Group) =
      { rep := k, weight := (l.lookup k).getD 0 % 2 ^ 32, members := [k] } := by
  have h : k < 257 := by have := List.mem_range.1 hk; omega
  rw [getElem!_pos (countsOf l) k h]
  simp [countsOf]

theorem symbolGroups_countsOf (l : List (Nat × Nat)) : symbolGroups (countsOf l) = listGroups l :=
  congrArg (fun gs : List Group => gs.filter (fun g => g.weight ≠ 0) ++ [sentinelGroup]) (List.map_congr_left (countsOf_toNat l))

theorem symbolGroups_167 : (symbolGroups (countsOf counts167)).Perm (sentinelGroup :: counts167.map symbolGroup) :=
  have h : listGroups counts167 = counts167.reverse.map symbolGroup ++ [sentinelGroup] := by decide
  (List.Perm.of_eq ((symbolGroups_countsOf _).trans h)).trans (by decide)

theorem symbolGroups_33 : (symbolGroups (countsOf counts33)).Perm (sentinelGroup :: counts33.map symbolGroup) :=
  have h : listGroups counts33 = counts33.map symbolGroup ++ [sentinelGroup] := by decide +kernel
  (List.Perm.of_eq ((symbolGroups_countsOf _).trans h)).trans List.perm_append_comm

theorem witness_TableAdaptation : ∃ (s : State) (size : Nat → Nat), tableFields 1 2 = .ok (.ac, 2) ∧
    (∃ b : Byte, (s.freq .ac 2)[b.toNat]! ≠ 0) ∧ CodeSizes (symbolGroups (s.freq .ac 2)) size ∧ (∀ k, k ≤ 256 → size k ≤ 32) ∧
    [0, 1, 2, 3, 256].map size = [1, 2, 3, 4, 4] :=
  ⟨State.reset.setFreq .ac 2 (countsOf counts167), _, rfl, ⟨0, by decide +kernel⟩,
    CodeSizes.of_perm (chainSize_spec _ _ (by decide)) symbolGroups_167 (by decide), by decide +kernel, by decide⟩

theorem witness_TableAdaptation_overflow : ∃ (s : State) (size : Nat → Nat), (∃ b : Byte, (s.freq .ac 2)[b.toNat]! ≠ 0) ∧
    CodeSizes (symbolGroups (s.freq .ac 2)) size ∧ 32 < size 0 ∧ ∀ j, j < 0 → size j ≤ 32 :=
  ⟨State.reset.setFreq .ac 2 (countsOf counts33), _, ⟨0, by decide +kernel⟩,
    CodeSizes.of_perm (chainSize_spec _ _ (by decide)) symbolGroups_33 (by decide), by decide, by simp⟩

/-- 42_huffman.md R168: the tie at the frequency 3. -/
theorem test_codeSize_tie :
    [2, 5, 9, 256].map ((codeSize (((countsOf [(2, 7), (5, 3), (9, 3)]).toList.map BitVec.toNat).set 256 1)).getD · 0) = [1, 2, 3, 3] := by
  decide +kernel

theorem witness_ScalarCoefficients : ∃ s u v : State, ∃ n m : Byte, n.toNat ≤ 15 ∧ 15 < m.toNat ∧ |s.arg[0].toInt| ≤ 32767 ∧
    |u.arg[0].toInt| ≤ 32767 ∧ 32767 < |v.arg[0].toInt| :=
  ⟨args State.reset 0x7FFF 0 0 0, args State.reset 0xFFFF8001 0 0 0, args State.reset 0xFFFF8000 0 0 0, 15, 16, by decide, by decide, by decide,
    by decide, by decide⟩

theorem witness_BlockItemsShape : ∃ (b : Vector Word 64) (p : Int) (items : List Item), blockItems b p = .ok items ∧ b[63] = 0 ∧
    (blockValues b p).find? (fun v => 15 < cat v) = none :=
  ⟨block [5], 3, _, rfl, by decide, by decide⟩

/-- The first value that cannot be coded: the DC difference 32768, or −32768 at ZZ[2] = 8 before 32768 at ZZ[3] = 16. -/
theorem witness_BlockItemsShape_range :
    (blockValues (block [5, 0, 32768]) (-32763)).find? (fun v => 15 < cat v) = some 32768 ∧
    (blockValues (block ([5, 0, 0, 0, 0, 0, 0, 0, 0xFFFF8000] ++ List.replicate 7 0 ++ [32768])) 0).find? (fun v => 15 < cat v) =
      some (-32768) := by decide

/-- The state of 43_coefficient.md R203's example: a coded block, then an end marker. -/
def blockState : State := reading (withTables (withIn 0 [0x97, 0x3D, 0xBF, 0xFF, 0xD9])) 0 5

/-- The block of the example. -/
def exampleBlock : Vector Word 64 := block ([5, -2] ++ List.replicate 14 0 ++ [1])

/-- The items of the example. -/
def exampleItems : List Item := [Item.coded .dc 0 5, Item.coded .ac 0 (-2), Item.coded .ac 1 1, Item.eob]

theorem exampleBlock_items : blockItems exampleBlock 0 = .ok exampleItems := by decide

theorem witness_BlockDecode : ∃ (s : State) (b : Vector Word 64) (items : List Item) (rest : List Bool),
    blockFields 3 0 0 = .ok (3, 0, 0) ∧ s.isValid (tableBit .dc 0) = true ∧ s.isValid (tableBit .ac 0) = true ∧
    s.isValid 15 = true ∧ (s.table .dc 0).ok ∧ (s.table .ac 0).ok ∧ s.br.cnt.toNat ≤ 8 ∧
    blockItems b (s.pred 3) = .ok items ∧
    (∀ it ∈ items, (encOf (s.table .dc 0).enc (s.table .ac 0).enc it.cls)[it.sym.toFin].size ≠ 0) ∧
    s.br.bits s.inMem = items.flatMap (Item.bits (s.table .dc 0).enc (s.table .ac 0).enc) ++ rest :=
  ⟨blockState, exampleBlock, exampleItems, List.replicate 6 true, rfl, by decide, by decide, by decide, tables_ok.1, tables_ok.2,
    by decide, exampleBlock_items, by decide, by decide⟩

/-- A window of these bytes before the tables of the examples, predictor 3 at `p`. -/
def coded (bs : List Byte) (p : Word) : State :=
  { reading (withTables (withIn 0 bs)) 0 (BitVec.ofNat 32 bs.length) with dcp := #v[Pred.unset, Pred.unset, Pred.unset, ⟨true, p⟩] }

/-- A DC table with the codes `0` for 16, `10` for 15 and `11` for 0. -/
def oddPayload : List Byte := [1, 2, 0, 0, 0, 0, 0, 0, 0, 0, 0, 0, 0, 0, 0, 0] ++ [16, 15, 0]

/-- The same with the odd DC table. -/
def codedOdd (bs : List Byte) : State := (coded bs 0).setTable .dc 0 (tableOf oddPayload)

/-- What every clause about BLK_DEC and BLK_SKIP asks of the state. -/
abbrev decodable (s : State) : Prop :=
  s.isValid (tableBit .dc 0) = true ∧ s.isValid (tableBit .ac 0) = true ∧ s.isValid 15 = true ∧ (s.table .dc 0).ok ∧
    (s.table .ac 0).ok ∧ s.br.cnt.toNat ≤ 8

theorem coded_valid : ∀ n ∈ [0, 4, 15], (((0 : BitVec 17) ||| 0x11) ||| 0x8000).getLsbD n = true := by decide

theorem coded_decodable (bs : List Byte) (p : Word) : decodable (coded bs p) :=
  ⟨coded_valid 0 (by simp), coded_valid 4 (by simp), coded_valid 15 (by simp), tables_ok.1, tables_ok.2,
    by simp [coded, reading, Reader.reset]⟩

theorem codedOdd_decodable (bs : List Byte) : decodable (codedOdd bs) := by
  have h : (tableOf oddPayload).ok := rfl
  exact ⟨coded_valid 0 (by simp), coded_valid 4 (by simp), coded_valid 15 (by simp), h, tables_ok.2,
    by simp [codedOdd, State.setTable, coded, reading, Reader.reset]⟩

/-- The bits left and the end of the segment. -/
def left (s : State) : List Bool := s.br.bits s.inMem

/-- How the segment ends. -/
def ends (s : State) : SegmentEnd := (s.br.rest s.inMem).2

/-- The DC item: category 16; no code in 16 bits; the segment's end inside the code and inside the extra bits. -/
theorem witness_BlockDecode_dc :
    (∃ k ∈ ((codedOdd [0, 0xFF, 0xD9]).table .dc 0).dec, k.bits <+: left (codedOdd [0, 0xFF, 0xD9]) ∧ 15 < k.sym.toNat) ∧
    (noCode (tableOf dcPayload).dec (left (coded [0xFF, 0, 0xFF, 0, 0xFF, 0xD9] 0)) ∧
      16 ≤ (left (coded [0xFF, 0, 0xFF, 0, 0xFF, 0xD9] 0)).length) ∧
    (endsInside (tableOf dcPayload).dec 16 categoryBits (left (coded [0xFF, 0, 0xFF, 0xD9] 0)) ∧
      ends (coded [0xFF, 0, 0xFF, 0xD9] 0) = .marker 2 0xD9) ∧
    endsInside (tableOf oddPayload).dec 16 categoryBits (left (codedOdd [0x80, 0xFE])) ∧
      ends (codedOdd [0x80, 0xFE]) = .runsOut 2 := by decide

/-- A DC value one above the range, and one at its end. -/
theorem witness_BlockDecode_range : ∃ code : List Bool, codedAs (tableOf dcPayload).dec 1 1 1 code ∧
    code <+: left (coded [0x5F, 0xFF, 0xD9] 0x7FFFFFFF) ∧
    ¬(-2 ^ 31 ≤ (coded [0x5F, 0xFF, 0xD9] 0x7FFFFFFF).pred 3 + extend 1 1 ∧
      (coded [0x5F, 0xFF, 0xD9] 0x7FFFFFFF).pred 3 + extend 1 1 ≤ 2 ^ 31 - 1) ∧
    (coded [0x5F, 0xFF, 0xD9] 0x7FFFFFFE).pred 3 + extend 1 1 = 2 ^ 31 - 1 :=
  ⟨[false, true, false, true], by decide, by decide, by decide, by decide⟩

/-- Fifteen items 0x01 and three ZRL: the last ends at position 63. -/
def fullItems : List (Byte × Nat) := List.replicate 15 (1, 1) ++ List.replicate 3 (0xF0, 0)

/-- Their codes. -/
def fullCodes : List (List Bool) := List.replicate 15 [false, true] ++ List.replicate 3 [true, true, true, true, false]

theorem fullCodes_spell : List.Forall₂ (fun it : Byte × Nat => codedAs (tableOf acPayload).dec it.1 (it.1.toNat % 16) it.2)
    fullItems fullCodes := by
  have h1 : codedAs (tableOf acPayload).dec 1 1 1 [false, true] := by decide
  have h2 : codedAs (tableOf acPayload).dec 0xF0 0 0 [true, true, true, true, false] := by decide
  repeat' first | exact .nil | refine .cons h1 ?_ | refine .cons h2 ?_

theorem witness_BlockDecode_full : ∃ (code : List Bool) (rest : List Bool) (blk : Vector Word 64),
    codedAs (tableOf dcPayload).dec 0 0 0 code ∧
    left (coded [0x15, 0x55, 0x55, 0x55, 0xF7, 0xBD, 0xFF, 0xD9] 5) = code ++ fullCodes.flatten ++ rest ∧
    acPlace 1 ((Vector.replicate 64 0).set 0 5) fullItems = some (64, blk) :=
  ⟨[false, false], [true], _, by decide, by decide, rfl⟩

/-- Behind the DC item: End-Of-Block; the symbol 0x11 with the segment's end before its extra bit; no code in 16 bits; the
segment's end inside a code. -/
theorem witness_BlockDecode_ac :
    (∃ q ∈ (tableOf acPayload).dec, q.bits <+: (left (coded [0x2F, 0xFF, 0xD9] 5)).drop 2 ∧ q.sym = 0) ∧
    (∃ q ∈ (tableOf acPayload).dec, q.bits <+: (left (coded [0x15, 0x5E, 0xFF, 0xD9] 5)).drop 12 ∧ ¬acMeaningless 6 q.sym ∧
      ((left (coded [0x15, 0x5E, 0xFF, 0xD9] 5)).drop 12).length < q.size.toNat + q.sym.toNat % 16) ∧
    (noCode (tableOf acPayload).dec ((left (coded [0x3F, 0xFF, 0, 0xFF, 0, 0xFF, 0xD9] 5)).drop 2) ∧
      16 ≤ ((left (coded [0x3F, 0xFF, 0, 0xFF, 0, 0xFF, 0xD9] 5)).drop 2).length) ∧
    noCode (tableOf acPayload).dec ((left (coded [0x3F, 0xFF, 0xD9] 5)).drop 2) ∧
      ends (coded [0x3F, 0xFF, 0xD9] 5) = .marker 1 0xD9 := by decide

/-- Where the meanings of AC symbols end. -/
theorem witness_BlockDecode_meaningless :
    [(48, 0xF0), (49, 0xF0), (62, 0x11), (63, 0x11), (1, 0x10), (1, 0xE0), (1, 0x00), (63, 0x0F)].map
      (fun p : Nat × Byte => decide (acMeaningless p.1 p.2)) = [false, true, false, true, true, true, false, false] := by decide

/-- 43_coefficient.md R197: the ZRL that ends at position 63 completes the block, one that leaves it is BAD_SYMBOL. -/
theorem test_blkDec_zrl :
    (after (.blkDec 3 0 0) (coded [0x15, 0x55, 0x55, 0x55, 0xF7, 0xBD, 0xFF, 0xD9] 5)).res0 = 64 ∧
    (after (.blkDec 3 0 0) (coded [0x3D, 0xEF, 0x7B, 0xFF, 0xD9] 5)).faultInfo = 0xF0 := by decide

theorem witness_BlockSkipFollowsBlockDecode : ∃ s t u v : State, s.fault = false ∧ exec (.blkDec 0 0 0) s = .next t ∧
    t.fault = false ∧ u.fault = false ∧ exec (.blkDec 0 0 0) u = .next v ∧ v.fault = true ∧ v.faultCause = some .notReady :=
  ⟨blockState, _, State.reset, _, by decide, rfl, by decide, by decide, rfl, by decide, by decide⟩

/-- The example ready to be written, in a window of `n` bytes. -/
def encodeState (n : Word) : State := writing (withTables { State.reset with blkI := exampleBlock }) 0 n

theorem witness_BlockEncode : ∃ (s u : State) (items : List Item), blockFields 0 0 0 = .ok (0, 0, 0) ∧
    (∀ x ∈ [s, u], x.isValid (tableBit .dc 0) = true ∧ x.isValid (tableBit .ac 0) = true ∧ x.isValid 16 = true ∧ x.bw.ok ∧
      blockItems x.blkI (x.pred 0) = .ok items ∧
      (items.find? fun it => (encOf (x.table .dc 0).enc (x.table .ac 0).enc it.cls)[it.sym.toFin].size = 0) = none) ∧
    s.bw.room (items.flatMap (Item.bits (s.table .dc 0).enc (s.table .ac 0).enc)) ∧
    ¬u.bw.room (items.flatMap (Item.bits (u.table .dc 0).enc (u.table .ac 0).enc)) :=
  ⟨encodeState 2, encodeState 1, exampleItems, rfl, by
    intro x hx
    rcases List.mem_cons.1 hx with rfl | hx
    · exact ⟨by decide, by decide, by decide, by decide, exampleBlock_items, by decide⟩
    · obtain rfl := List.mem_singleton.1 hx
      exact ⟨by decide, by decide, by decide, by decide, exampleBlock_items, by decide⟩, by decide, by decide⟩

theorem witness_BlockEncode_range : ∃ (s : State) (e : Raise), s.isValid (tableBit .dc 0) = true ∧
    s.isValid (tableBit .ac 0) = true ∧ s.isValid 16 = true ∧ s.bw.ok ∧ blockItems s.blkI (s.pred 0) = .error e :=
  ⟨writing (withTables { State.reset with blkI := block [32768] }) 0 9, _, by decide, by decide, by decide, by decide, rfl⟩

theorem witness_BlockEncode_noCode : ∃ (s : State) (items : List Item) (it : Item), s.isValid (tableBit .dc 0) = true ∧
    s.isValid (tableBit .ac 0) = true ∧ s.isValid 16 = true ∧ s.bw.ok ∧ blockItems s.blkI (s.pred 0) = .ok items ∧
    (items.find? fun it => (encOf (s.table .dc 0).enc (s.table .ac 0).enc it.cls)[it.sym.toFin].size = 0) = some it :=
  ⟨writing (withTables { State.reset with blkI := block [5, 100] }) 0 9, [Item.coded .dc 0 5, Item.coded .ac 0 100, Item.eob],
    Item.coded .ac 0 100, by decide, by decide, by decide, by decide, by decide, by decide⟩

theorem witness_QuantTableLoad : ∃ s u v : State, (1 : Byte).toNat ≤ 1 ∧ (3 : Byte).toNat = (3 : Fin 4).val ∧
    s.params.inSize < s.argNat 0 + 64 ∧
    (u.argNat 0 + 64 ≤ u.params.inSize ∧ ∃ k : Fin 64, (u.inMem.inByte (u.argNat 0 + k.val)).toNat = 0) ∧
    (v.argNat 0 + 64 ≤ v.params.inSize ∧ ∀ k : Fin 64, (v.inMem.inByte (v.argNat 0 + k.val)).toNat ≠ 0) :=
  ⟨args State.reset 4033 0 0 0, args (withIn 0 [0]) 0 0 0 0, args (withIn 4032 (List.replicate 64 9)) 4032 0 0 0, by decide,
    by decide, by decide, ⟨by decide, 0, by decide⟩, ⟨by decide, by decide⟩⟩

theorem witness_QuantTableLoad_wide : ∃ u v : State, (u.params.inSize < u.argNat 0 + 128) ∧ v.argNat 0 + 128 ≤ v.params.inSize ∧
    ∀ k : Fin 64, 256 * (v.inMem.inByte (v.argNat 0 + 2 * k.val)).toNat +
      (v.inMem.inByte (v.argNat 0 + 2 * k.val + 1)).toNat ≠ 0 :=
  ⟨args State.reset 3969 0 0 0, args (withIn 0 (List.replicate 128 1)) 0 0 0 0, by decide, by decide, by decide +kernel⟩

/-- Quantisation table 3 loaded with ones, and a block in BLK_F. -/
def quantState (f : Exact) : State :=
  { State.reset with
    valid := 0x800, qt := Vector.replicate 4 { q := Vector.replicate 64 1, pq := false }, blkF := Vector.replicate 64 f }

theorem quantState_blkF (f : Exact) (k : Fin 64) : (quantState f).blkF[k] = f := by simp [quantState]

theorem quantState_q (f : Exact) (k : Fin 64) : (quantState f).qt[(3 : Fin 4)].q[k] = 1#16 := by simp [quantState]

theorem quantState_quant (f : Exact) (k : Fin 64) :
    (quantState f).num.quant (quantState f).blkF[k] (quantState f).qt[(3 : Fin 4)].q[k].toNat = f.quant 1 := by
  rw [quantState_q, quantState_blkF]
  rfl

theorem witness_QuantiseAndDequantise : ∃ s : State, s.params.num = .ref ∧ (3 : Byte).toNat = (3 : Fin 4).val ∧
    s.isValid (quantBit 3) = true ∧ (∀ k : Fin 64, s.qt[(3 : Fin 4)].q[k] ≠ 0) ∧
    ∀ k : Fin 64, -2 ^ 31 ≤ s.num.quant s.blkF[k] s.qt[(3 : Fin 4)].q[k].toNat ∧
      s.num.quant s.blkF[k] s.qt[(3 : Fin 4)].q[k].toNat ≤ 2 ^ 31 - 1 := by
  refine ⟨quantState Exact.zero, rfl, by decide, by decide, fun k => ?_, fun k => ?_⟩
  · rw [quantState_q]
    decide
  · rw [quantState_quant]
    decide

theorem witness_QuantiseAndDequantise_range : ∃ s : State, s.isValid (quantBit 3) = true ∧
    (∀ k : Fin 64, s.qt[(3 : Fin 4)].q[k] ≠ 0) ∧
    ∃ k : Fin 64, ¬(-2 ^ 31 ≤ s.num.quant s.blkF[k] s.qt[(3 : Fin 4)].q[k].toNat ∧
      s.num.quant s.blkF[k] s.qt[(3 : Fin 4)].q[k].toNat ≤ 2 ^ 31 - 1) ∧ ∀ j : Fin 64, ¬j < k := by
  refine ⟨quantState (Exact.ofInt (2 ^ 31)), by decide, fun k => ?_, 0, ?_, by simp⟩
  · rw [quantState_q]
    decide
  · rw [quantState_quant]
    decide

theorem witness_CosineTransforms : ∃ s u : State, s.params.num = .ref ∧ u.params.num = .declared 0 :=
  ⟨State.reset, declaredState 0, rfl, rfl⟩

theorem witness_TransformsUndoEachOther : ∃ s : State, s.params.num = .ref ∧ s.blkF[(1 : Fin 64)] ≠ s.blkF[(0 : Fin 64)] :=
  ⟨{ State.reset with blkF := (Vector.replicate 64 Exact.zero).set 0 (Exact.ofInt 1024) }, rfl, by decide⟩

theorem witness_LevelShift : ∃ s t u v : State, s.params.num = .ref ∧ (2 ≤ s.prec.toNat ∧ s.prec.toNat ≤ 16) ∧ (2 ≤ t.prec.toNat ∧ t.prec.toNat ≤ 16) ∧
    ¬(2 ≤ u.prec.toNat ∧ u.prec.toNat ≤ 16) ∧ ¬(2 ≤ v.prec.toNat ∧ v.prec.toNat ≤ 16) :=
  ⟨{ State.reset with prec := 2 }, { State.reset with prec := 16 }, { State.reset with prec := 1 }, { State.reset with prec := 17 },
    rfl, by decide, by decide, by decide, by decide⟩

theorem witness_SamplesSurviveTheRoundTrip : ∃ s : State, s.params.num = .ref ∧ 2 ≤ s.prec.toNat ∧ s.prec.toNat ≤ 16 ∧
    ∀ k : Fin 64, s.blkP[k].toNat < 2 ^ s.prec.toNat :=
  ⟨{ State.reset with prec := 2, blkP := Vector.replicate 64 3 }, rfl, by decide, by decide, by decide⟩

/-- Each branch of the checks of LJ_SETUP. -/
theorem witness_LjSessionSetup : [args State.reset 0x00000001 0x0701010C 0 12, args State.reset 0x00020002 0x07010101 4 1,
    args State.reset 0x00020002 0x0705050C 20 12, args State.reset 0x00020002 0x0702010C 4 12,
    args State.reset 0x00020002 0x0801010C 4 12, args State.reset 0x00020002 0x0001010C 4 12,
    args State.reset 0x00020002 0xF101010C 4 12, args State.reset 0x00020002 0x0101010C 4 32,
    args State.reset 0x00020002 0x0101010C 5 12, args State.reset 0x00020002 0x0101010C 4 13].map
      (fun s => ((after .ljSetup s).causeWord.toNat, (after .ljSetup s).faultInfo.toNat)) =
    [(13, 1), (13, 2), (13, 3), (13, 4), (13, 5), (15, 0x100), (15, 0x20F), (2, 32), (14, 1), (14, 2)] := by decide

theorem witness_LjTableLoads : ∃ s u v w x y : State,
    (let p := payloadAt s.inMem (s.argNat 0);
      s.argNat 1 ≤ s.params.inSize ∧ s.argNat 0 + 16 + p.syms.length ≤ s.argNat 1 ∧ p.syms.length ≤ 256 ∧ p.kraft ≤ 2 ^ 16) ∧
    (let p := payloadAt u.inMem (u.argNat 0);
      u.argNat 1 ≤ u.params.inSize ∧ u.argNat 0 + 16 ≤ u.argNat 1 ∧ p.syms.length ≤ 256 ∧
        u.argNat 1 < u.argNat 0 + 16 + p.syms.length) ∧
    (v.argNat 1 ≤ v.params.inSize ∧ v.argNat 1 < v.argNat 0 + 16) ∧ w.params.inSize < w.argNat 1 ∧
    (let p := payloadAt x.inMem (x.argNat 0);
      x.argNat 1 ≤ x.params.inSize ∧ x.argNat 0 + 16 ≤ x.argNat 1 ∧ 256 < p.syms.length) ∧
    (let p := payloadAt y.inMem (y.argNat 0);
      y.argNat 1 ≤ y.params.inSize ∧ y.argNat 0 + 16 + p.syms.length ≤ y.argNat 1 ∧ p.syms.length ≤ 256 ∧ 2 ^ 16 < p.kraft) :=
  ⟨args (withIn 0 ljPayload) 0 21 0 0, args (withIn 0 ljPayload) 0 20 0 0, args State.reset 0 15 0 0, args State.reset 0 4097 0 0,
    args (withIn 0 (List.replicate 14 0 ++ [128, 129])) 0 16 0 0, args (withIn 0 ([3] ++ List.replicate 18 0)) 0 19 0 0,
    by decide, by decide, by decide, by decide,
    ⟨by decide, by decide, by simp only [payloadAt, Memory.readList, List.length_map, List.length_range]; decide⟩, by decide⟩

theorem witness_LjTableLoads_linear : ∃ s t u v : State, 65536 < s.argNat 1 ∧ t.argNat 1 = 0 ∧
    (1 ≤ u.argNat 1 ∧ u.argNat 1 ≤ 65536 ∧ u.params.inSize < u.argNat 0 + 2 * u.argNat 1) ∧
    1 ≤ v.argNat 1 ∧ v.argNat 1 ≤ 65536 ∧ v.argNat 0 + 2 * v.argNat 1 ≤ v.params.inSize :=
  ⟨args State.reset 0 65537 0 0, args State.reset 0xFFFFFFFF 0 0 0, args State.reset 0 65536 0 0, args State.reset 0 2048 0 0,
    by decide, by decide, by decide, by decide⟩

/-- The slots of the table of 45_lj92.md R261's example. -/
theorem ljSlots : buildSlots (specOf ljPayload) = .ok [⟨1, 0, 0⟩, ⟨2, 2, 1⟩, ⟨3, 6, 2⟩, ⟨4, 14, 3⟩, ⟨5, 30, 4⟩] := by decide

theorem witness_LookupAgreesWithBitSerial : ∃ (p : HuffSpec) (slots : List Slot) (m : Memory) (r : Reader) (pos : Nat)
    (second : Byte) (e : LutEntry), buildSlots p = .ok slots ∧ r.cnt.toNat ≤ 8 ∧ (r.rest m).2 = .marker pos second ∧
    (buildLut slots p.maxBits)[bitsValue ((r.bits m ++ List.replicate p.maxBits false).take p.maxBits)]? = some e ∧
    1 ≤ e.len.toNat ∧ e.len.toNat ≤ (r.bits m).length :=
  ⟨specOf ljPayload, _, Memory.setList [] 0 [0xEB, 0xFF, 0xD9], { Reader.reset with lim := 3 }, 1, 0xD9, ⟨3, 4⟩, ljSlots, by decide,
    by decide, by decide, by decide, by decide⟩

theorem witness_LookupAgreesWithBitSerial_faults : ∃ (p : HuffSpec) (slots : List Slot) (m : Memory) (r r' : Reader) (e e' : LutEntry),
    buildSlots p = .ok slots ∧ (r.rest m).2 = .marker 1 0xD9 ∧ (r'.rest m).2 = .marker 1 0xD9 ∧
    (buildLut slots p.maxBits)[bitsValue ((r.bits m ++ List.replicate p.maxBits false).take p.maxBits)]? = some e ∧
    e.len.toNat = 0 ∧ p.maxBits ≤ (r.bits m).length ∧
    (buildLut slots p.maxBits)[bitsValue ((r'.bits m ++ List.replicate p.maxBits false).take p.maxBits)]? = some e' ∧
    (r'.bits m).length < e'.len.toNat :=
  ⟨specOf ljPayload, _, Memory.setList [] 0 [0xFE, 0xFF, 0xD9], { Reader.reset with lim := 3 },
    { Reader.reset with pos := 1, lim := 3 }, ⟨0, 0⟩, ⟨0, 1⟩, ljSlots, by decide, by decide, by decide, by decide, by decide, by decide,
    by decide⟩

/-- The example of 45_lj92.md R263 meets the hypotheses of the image statement. -/
theorem witness_LjImageDecode : ∃ (slots : List Slot) (ds : List Int) (codes : List (List Bool)) (rest : List Bool),
    ljState.isValid 12 = true ∧ ljState.isValid 13 = true ∧ ljState.isValid 15 = true ∧
    buildSlots ljState.lj.spec = .ok slots ∧ ljState.br.cnt.toNat ≤ 8 ∧ ljState.argNat 0 + 2 * 4 ≤ ljState.params.outSize ∧
    ds.length = ljState.lj.x.toNat * ljState.lj.y.toNat * ljState.lj.nc.toNat ∧ List.Forall₂ (ljCodes slots) ds codes ∧
    ljState.br.bits ljState.inMem = codes.flatten ++ rest ∧ ljState.isValid 14 = false := by
  refine ⟨_, [5, -2, 3, 1], [numBits 0x75 7, numBits 0x19 5, numBits 0x1B 5, numBits 5 3], List.replicate 4 true, by decide, by decide,
    by decide, ljSlots, by decide, by decide, by decide, ?_, by decide, by decide⟩
  refine .cons ⟨⟨4, 14, 3⟩, by decide, .inl (by decide)⟩ (.cons ⟨⟨3, 6, 2⟩, by decide, .inl (by decide)⟩
    (.cons ⟨⟨3, 6, 2⟩, by decide, .inl (by decide)⟩ (.cons ⟨⟨2, 2, 1⟩, by decide, .inl (by decide)⟩ .nil)))

/-- The session of the example with its lookup table, over a window of these bytes, with LIN of `n` entries if `n` is not 0. -/
def ljOver (bs : List Byte) (n : Nat) : State :=
  { ljState with
    inMem := Memory.setList [] 0 bs, br := { Reader.reset with lim := BitVec.ofNat 32 bs.length }
    valid := if n = 0 then 0xB000 else 0xF000
    lj := { ljState.lj with lut := buildLut [⟨1, 0, 0⟩, ⟨2, 2, 1⟩, ⟨3, 6, 2⟩, ⟨4, 14, 3⟩, ⟨5, 30, 4⟩] 5, lin := List.replicate n 7 } }

theorem ljOver_header : 1 ≤ (ljOver [] 0).lj.x.toNat ∧ 1 ≤ (ljOver [] 0).lj.y.toNat ∧ 2 ≤ (ljOver [] 0).lj.bits.toNat ∧
    (ljOver [] 0).lj.bits.toNat ≤ 16 ∧ 1 ≤ (ljOver [] 0).lj.nc.toNat ∧ (ljOver [] 0).lj.nc.toNat ≤ 4 ∧
    1 ≤ (ljOver [] 0).lj.ss.toNat ∧ (ljOver [] 0).lj.pt = 0 := by decide

theorem ljOver_maxBits : (ljOver [] 0).lj.maxBits.toNat = (ljOver [] 0).lj.spec.maxBits := by decide

theorem ljOver_lin : (ljOver [] 2053).lj.lin ≠ [] ∧ (ljOver [] 2053).lj.lin.length ≤ 65536 := by decide +kernel

/-- The session is as 10_state.md R36 describes it. -/
theorem witness_LjImageDecode_session (bs : List Byte) : (ljOver bs 0).ljOk ∧ (ljOver bs 2053).ljOk :=
  ⟨⟨fun _ => ljOver_header, fun _ => ⟨_, ljSlots, ljOver_maxBits, congrArg (buildLut _) ljOver_maxBits⟩,
      ⟨fun h => absurd h (by decide : ¬(ljOver [] 0).isValid linEnBit = true), fun h => absurd rfl h⟩, Nat.zero_le _⟩,
    ⟨fun _ => ljOver_header, fun _ => ⟨_, ljSlots, ljOver_maxBits, congrArg (buildLut _) ljOver_maxBits⟩,
      ⟨fun _ => ljOver_lin.1, fun _ => (by decide : (ljOver [] 2053).isValid linEnBit = true)⟩, ljOver_lin.2⟩⟩

/-- Behind none, one and two samples: no code in MAXBITS bits; the segment's end inside a code; the window's end inside extra bits; the first sample 2053 of the example beside a LIN of 2053 entries; an image one byte too long for OUT. -/
theorem witness_LjImageDecode_faults :
    (let slots : List Slot := [⟨1, 0, 0⟩, ⟨2, 2, 1⟩, ⟨3, 6, 2⟩, ⟨4, 14, 3⟩, ⟨5, 30, 4⟩]
    (noCode slots (left (ljOver [0xF8, 0xFF, 0xD9] 0)) ∧ 5 ≤ (left (ljOver [0xF8, 0xFF, 0xD9] 0)).length) ∧
    (endsInside slots 5 categoryBits ((left (ljOver [0xEB, 0xFF, 0xD9] 0)).drop 7) ∧
      ends (ljOver [0xEB, 0xFF, 0xD9] 0) = .marker 1 0xD9) ∧
    (endsInside slots 5 categoryBits ((left (ljOver [0xAE] 0)).drop 4) ∧ ends (ljOver [0xAE] 0) = .runsOut 1) ∧
    (numBits 0x75 7 <+: left (ljOver [0xEB, 0x9D] 2053) ∧
      (ljOver [] 2053).lj.lin.length ≤ (ljReconstruct (ljOver [] 2053).lj [] 0 5).toNat) ∧
    4096 < (args State.reset 4089 0 0 0).argNat 0 + 2 * 4) := by decide +kernel

/-- A category above 16 in front. -/
theorem witness_LjImageDecode_badSymbol : ∃ (p : HuffSpec) (slots : List Slot), buildSlots p = .ok slots ∧
    ∃ q ∈ slots, q.bits <+: left (ljOver [0x00, 0xFF, 0xD9] 0) ∧ 16 < q.sym.toNat :=
  ⟨specOf ([1, 0, 0, 0, 0, 0, 0, 0, 0, 0, 0, 0, 0, 0, 0, 0] ++ [17]), [⟨1, 0, 17⟩], by decide, ⟨1, 0, 17⟩, by decide, by decide, by decide⟩

theorem witness_LjPredictors : ∃ s t : State, s.argNat 1 / 16777216 % 16 = 0 ∧ exec .ljSetup s = .next t :=
  ⟨State.reset, _, by decide, rfl⟩

/-- Each branch of the checks of the unpack commands, at its edge. -/
theorem witness_UnpackCommands : [args State.reset 0 4 0 0, args State.reset 3 3 0 0, args State.reset 4094 3 0 0,
    args State.reset 4 3 4093 0, args (withIn 4093 [1, 2, 3]) 4093 3 4092 0].map
      (fun s => ((after .unpack12v s).causeWord.toNat, (after .unpack12v s).faultInfo.toNat)) =
    [(2, 4), (3, 3), (3, 4096), (4, 4096), (0, 0)] := by decide

theorem witness_WideUnpackEqualsScalar : ∃ s t u v : State, exec .unpack12 s = .next t ∧ exec .unpack12v s = .next u ∧
    4 ≤ s.argNat 0 ∧ v.argNat 0 < 4 ∧ v.argNat 1 % 3 = 0 :=
  ⟨args (withIn 4 [1, 2, 3]) 4 3 0 0, _, _, args (withIn 3 [1, 2, 3]) 3 3 0 0, rfl, rfl, by decide, by decide, by decide⟩

theorem witness_Invariants : ∃ s t : State, s.memoryOk ∧ s.writerOk ∧ s.readerOk ∧ s.faultOk ∧ step s = .next t :=
  ⟨State.reset.withFetchWord 32 0x46000000, _, by decide, by decide, by decide, by decide, rfl⟩

theorem witness_TablesStaySound : ∃ s t : State, s.tablesOk ∧ s.quantOk ∧ s.sentinelOk ∧ s.predsOk ∧ s.ljOk ∧ step s = .next t := by
  refine ⟨State.reset.withFetchWord 32 0x46000000, _, fun tc th => ?_, fun tq h => ?_, fun tc th => ?_, by decide,
    ⟨fun h => absurd h (by decide), fun h => absurd h (by decide), by decide, by decide⟩, rfl⟩
  · cases tc <;> (simp only [State.table, State.withFetchWord, State.reset, Fin.getElem_fin, Vector.getElem_replicate]; rfl)
  · exact absurd h (by revert tq; decide)
  · cases tc <;> simp [State.freq, State.withFetchWord, State.reset]

theorem witness_ResetIsSound : Params.wf { inSize := 1, outSize := 4294967295, num := .declared 7 } ∧
    Params.wf { inSize := 4294967295, outSize := 1, num := .ref } := by decide

end Sys2Proof.Tests
end

section
/-! SUPPORT. What a step can do, said once: a step is a move of the host that touches no unit of the core, an illegal command
word, a command, or a reset; and what every command leaves as it was, in whatever way it ends. -/

namespace Sys2Proof.Machine

/-! ### From a step to a command -/

/-- `t` is `s` after a move of the host that neither issues a command nor resets the core: a writable register, a byte of IN
or what the host read last may differ (10_state.md R22, 20_memory.md R60). -/
structure State.HostFrame (s t : State) : Prop where
  fields : t = { s with
    arg := t.arg, prec := t.prec, blkI := t.blkI, blkP := t.blkP, inMem := t.inMem, host := t.host, hostData := t.hostData }
  inMem : t.inMem = s.inMem ∨ ∃ a v, a < s.params.inSize ∧ t.inMem = s.inMem.set a v

theorem writeReg_cases {r : Reg} {v : Word} {s t : State} (h : writeReg r v s = .next t) :
    (r = .cmd ∧ issue v s = .next t) ∨ s.HostFrame t := by
  cases r with
  | cmd => exact .inl ⟨rfl, h⟩
  | _ =>
    obtain rfl := Host.Outcome.next.inj h
    exact .inr ⟨rfl, .inl rfl⟩

theorem writeOffset_cases {off : Nat} {v : Word} {s t : State} (h : writeOffset off v s = .next t) :
    issue v s = .next t ∨ s.HostFrame t := by
  unfold writeOffset at h
  split at h
  · obtain rfl := Host.Outcome.next.inj h
    exact .inr ⟨rfl, .inl rfl⟩
  · exact (writeReg_cases h).imp_left And.right

theorem hostMove_cases {mv : HostMove} {s t : State} (h : hostMove mv s = .next t) :
    (∃ w, issue w s = .next t) ∨ t = s.coreReset ∨ s.HostFrame t := by
  cases mv with
  | writeReg width off v =>
    simp only [hostMove] at h
    split_ifs at h
    exact (writeOffset_cases h).imp (⟨v, ·⟩) .inr
  | readReg width off =>
    simp only [hostMove] at h
    split_ifs at h
    obtain rfl := Host.Outcome.next.inj h
    exact .inr (.inr ⟨rfl, .inl rfl⟩)
  | writeIn a v =>
    simp only [hostMove] at h
    split_ifs at h with hb ha
    obtain rfl := Host.Outcome.next.inj h
    exact .inr (.inr ⟨rfl, .inr ⟨a, v, ha, rfl⟩⟩)
  | readOut a =>
    simp only [hostMove] at h
    split_ifs at h
    obtain rfl := Host.Outcome.next.inj h
    exact .inr (.inr ⟨rfl, .inl rfl⟩)
  | reset => exact .inr (.inl (Host.Outcome.next.inj h).symm)

theorem exec_sreset {s t : State} (h : exec .sreset s = .next t) : t = s.coreReset := (Host.Outcome.next.inj h).symm

/-- A command word leaves no trace, is illegal, resets the core, or runs its command outside the fault state
(60_exceptions.md R316). -/
theorem issue_cases {w : Word} {s t : State} (h : issue w s = .next t) :
    t = s ∨ t = s.coreReset ∨
      s.fault = false ∧ (t = s.takeFault w .illegalCmd w ∨ ∃ i, i ≠ .sreset ∧ decode w = .ok i ∧ exec i s = .next t) := by
  have hd : decode sresetWord = .ok .sreset := rfl
  by_cases hw : w = sresetWord
  · subst hw
    rw [issue_decoded _ _ s (.inr rfl) hd] at h
    exact .inr (.inl (exec_sreset h))
  · cases hf : s.fault with
    | true =>
      rw [issue_refused w s hf hw] at h
      exact .inl (Host.Outcome.next.inj h).symm
    | false =>
      cases hi : decode w with
      | error e =>
        rw [issue_illegal w e s hf hi] at h
        exact .inr (.inr ⟨rfl, .inl (Host.Outcome.next.inj h).symm⟩)
      | ok i =>
        rw [issue_decoded w i s (.inl hf) hi] at h
        by_cases hs : i = .sreset
        · subst hs
          exact .inr (.inl (exec_sreset h))
        · exact .inr (.inr ⟨rfl, .inr ⟨i, hs, rfl, h⟩⟩)

/-- An invariant holds after every step if the host's own moves, an illegal command word, every command that runs and a reset
of the core keep it. -/
theorem step_keeps (P : State → Prop) (host : ∀ s t, s.HostFrame t → P s → P t)
    (illegal : ∀ s w, P s → P (s.takeFault w .illegalCmd w))
    (command : ∀ i s t, i ≠ .sreset → s.fault = false → exec i s = .next t → P s → P t)
    (reset : ∀ s, P s → P s.coreReset) {s t : State} (hs : P s) (h : step s = .next t) : P t := by
  cases hq : s.host with
  | nil =>
    rw [step_idle s hq] at h
    exact Host.Outcome.next.inj h ▸ hs
  | cons mv rest =>
    rw [step_move s mv rest hq] at h
    have hs' : P { s with host := rest } := host s _ ⟨rfl, .inl rfl⟩ hs
    rcases hostMove_cases h with ⟨w, hw⟩ | rfl | hf
    · rcases issue_cases hw with rfl | rfl | ⟨hf, rfl | ⟨i, hi, -, he⟩⟩
      · exact hs'
      · exact reset _ hs'
      · exact illegal _ w hs'
      · exact command i _ t hi hf he hs'
    · exact reset _ hs'
    · exact host _ t hf hs'

/-! ### What a command leaves as it was -/

theorem require_bind_ok_iff {α : Type} (b : Bool) (r : Raise) (f : Unit → Except Raise α) (a : α) :
    (require b r >>= f) = .ok a ↔ b = true ∧ f () = .ok a := by
  cases b <;> simp [require, bind, Except.bind]

/-- What no command but SRESET writes: the parameters, IN, the host's own fields, the argument registers and PREC. -/
def State.inputs (s : State) : Params × Memory × List HostMove × Word × Vector Word 4 × BitVec 5 :=
  (s.params, s.inMem, s.host, s.hostData, s.arg, s.prec)

/-- What a command that raises no fault leaves as it was: FAULT, the fault registers, BUSY and the draw counter
(60_exceptions.md R318). -/
def State.faultRegs (s : State) : Bool × Option Cause × Word × Word × Bool × Nat :=
  (s.fault, s.faultCause, s.faultInfo, s.faultCmd, s.busy, s.draws)

theorem State.inputs_eq_iff (s t : State) : t.inputs = s.inputs ↔ t.params = s.params ∧ t.inMem = s.inMem ∧
    t.host = s.host ∧ t.hostData = s.hostData ∧ t.arg = s.arg ∧ t.prec = s.prec := by
  simp [State.inputs]

theorem State.faultRegs_eq_iff (s t : State) : t.faultRegs = s.faultRegs ↔ t.fault = s.fault ∧
    t.faultCause = s.faultCause ∧ t.faultInfo = s.faultInfo ∧ t.faultCmd = s.faultCmd ∧ t.busy = s.busy ∧
    t.draws = s.draws := by
  simp [State.faultRegs]

/-- The fault registers of `t` record a fault of the command `i` (60_exceptions.md R312). -/
structure State.Faulted (i : Instr) (t : State) : Prop where
  fault : t.fault = true
  segEnd : t.segEnd = false
  busy : t.busy = false
  faultCause : ∃ c, t.faultCause = some c
  faultCmd : t.faultCmd = encode i

theorem State.raise_faulted (s : State) (i : Instr) (r : Raise) : (s.raise i r).Faulted i :=
  ⟨rfl, rfl, rfl, ⟨_, rfl⟩, rfl⟩

theorem State.raiseMid_faulted (s : State) (i : Instr) (r : Raise) : (s.raiseMid i r).Faulted i :=
  ⟨rfl, rfl, rfl, ⟨_, rfl⟩, rfl⟩

/-- The commands that write VALID: those that stand in a column of the table of 10_state.md R26. -/
def writesValid (i : Instr) : Bool :=
  match i with
  | .sreset | .brInit | .bwInit | .htLoad _ _ | .htAdapt _ _ | .qtLoad _ _ | .ljSetup | .ljHtLoad | .ljLinLoad => true
  | _ => false

/-- What a command other than SRESET leaves as it was, in whatever way it ends, and the two ways it can end. -/
structure State.Spares (i : Instr) (s t : State) : Prop where
  inputs : t.inputs = s.inputs
  blkP : i = .pixOut ∨ t.blkP = s.blkP
  res1 : i = .cfCat ∨ t.res1 = s.res1
  br : i = .brInit ∨ usesReader i = true ∨ t.br = s.br
  valid : writesValid i = true ∨ t.valid = s.valid
  outcome : t.faultRegs = s.faultRegs ∨ t.Faulted i

/-- A fault of the checks spares everything, so a command spares what the state it goes on to does. -/
theorem State.checked_spares {α : Type} {s : State} {i : Instr} {x : Except Raise α} {k : α → State}
    (hk : ∀ a, s.Spares i (k a)) : s.Spares i (s.checked i x k) := by
  cases x with
  | error r => exact ⟨rfl, .inr rfl, .inr rfl, .inr (.inr rfl), .inr rfl, .inr (s.raise_faulted i r)⟩
  | ok a => exact hk a

theorem State.finishRead_spares (s : State) (i : Instr) (x : Bits Nat) (hi : usesReader i = true) :
    s.Spares i (s.finishRead i x) := by
  cases x with
  | got v r => exact ⟨rfl, .inr rfl, .inr rfl, .inr (.inl hi), .inr rfl, .inl rfl⟩
  | noMore r => exact ⟨rfl, .inr rfl, .inr rfl, .inr (.inl hi), .inr rfl, .inl rfl⟩
  | fail f => exact ⟨rfl, .inr rfl, .inr rfl, .inr (.inl hi), .inr rfl, .inr (State.raiseMid_faulted _ _ _)⟩

theorem State.finishWrite_spares (s : State) (i : Instr) (x : Except Raise Sink) : s.Spares i (s.finishWrite i x) := by
  cases x with
  | ok k => exact ⟨rfl, .inr rfl, .inr rfl, .inr (.inr rfl), .inr rfl, .inl rfl⟩
  | error f => exact ⟨rfl, .inr rfl, .inr rfl, .inr (.inr rfl), .inr rfl, .inr (State.raiseMid_faulted _ _ _)⟩

/-- Every command, by the updates it makes on each way it can end. The fields hold by computation, and by the laws of the
updates where a table or a model is chosen by its class. -/
theorem exec_spares {i : Instr} {s t : State} (hi : i ≠ .sreset) (h : exec i s = .next t) : s.Spares i t := by
  cases i with
  | sreset => exact absurd rfl hi
  | nop | dcRst | idct | fdct =>
    obtain rfl := Host.Outcome.next.inj h
    exact ⟨rfl, .inr rfl, .inr rfl, .inr (.inr rfl), .inr rfl, .inl rfl⟩
  | htStore | cfExt | dequant | quant | pixIn | unpack10 | unpack12 | unpack14 | unpack12v =>
    obtain rfl := Host.Outcome.next.inj h
    exact State.checked_spares fun _ => ⟨rfl, .inr rfl, .inr rfl, .inr (.inr rfl), .inr rfl, .inl rfl⟩
  | pixOut =>
    obtain rfl := Host.Outcome.next.inj h
    exact State.checked_spares fun _ => ⟨rfl, .inl rfl, .inr rfl, .inr (.inr rfl), .inr rfl, .inl rfl⟩
  | cfCat =>
    obtain rfl := Host.Outcome.next.inj h
    exact State.checked_spares fun _ => ⟨rfl, .inr rfl, .inl rfl, .inr (.inr rfl), .inr rfl, .inl rfl⟩
  | brInit =>
    obtain rfl := Host.Outcome.next.inj h
    exact State.checked_spares fun _ => ⟨rfl, .inr rfl, .inr rfl, .inl rfl, .inl rfl, .inl rfl⟩
  | bwInit | qtLoad | ljSetup | ljHtLoad | ljLinLoad =>
    obtain rfl := Host.Outcome.next.inj h
    exact State.checked_spares fun _ => ⟨rfl, .inr rfl, .inr rfl, .inr (.inr rfl), .inl rfl, .inl rfl⟩
  | htLoad | htAdapt =>
    obtain rfl := Host.Outcome.next.inj h
    exact State.checked_spares fun _ => ⟨by simp [State.inputs], .inr (by simp), .inr (by simp), .inr (.inr (by simp)),
      .inl rfl, .inl (by simp [State.faultRegs])⟩
  | fqClr | fqInc =>
    obtain rfl := Host.Outcome.next.inj h
    exact State.checked_spares fun _ => ⟨by simp [State.inputs], .inr (by simp), .inr (by simp), .inr (.inr (by simp)),
      .inr (by simp), .inl (by simp [State.faultRegs])⟩
  | brBit | brBits | htDec =>
    obtain rfl := Host.Outcome.next.inj h
    exact State.checked_spares fun _ => State.finishRead_spares _ _ _ rfl
  | bwBits | bwFlush | htEnc =>
    obtain rfl := Host.Outcome.next.inj h
    exact State.checked_spares fun _ => State.finishWrite_spares _ _ _
  | brResync | ljDecode =>
    obtain rfl := Host.Outcome.next.inj h
    refine State.checked_spares fun _ => ?_
    split
    · exact ⟨by simp [State.inputs], .inr (by simp), .inr (by simp), .inr (.inl rfl), .inr (by simp),
        .inr (State.raiseMid_faulted _ _ _)⟩
    · exact ⟨rfl, .inr rfl, .inr rfl, .inr (.inl rfl), .inr rfl, .inl rfl⟩
  | bwRst =>
    obtain rfl := Host.Outcome.next.inj h
    refine State.checked_spares fun _ => ?_
    split
    · exact ⟨by simp [State.inputs], .inr (by simp), .inr (by simp), .inr (.inr (by simp)), .inr (by simp),
        .inr (State.raiseMid_faulted _ _ _)⟩
    · exact ⟨rfl, .inr rfl, .inr rfl, .inr (.inr rfl), .inr rfl, .inl rfl⟩
  | blkDec | blkSkip =>
    obtain rfl := Host.Outcome.next.inj h
    refine State.checked_spares fun _ => ?_
    split
    · exact ⟨rfl, .inr rfl, .inr rfl, .inr (.inl rfl), .inr rfl, .inl rfl⟩
    · exact ⟨rfl, .inr rfl, .inr rfl, .inr (.inl rfl), .inr rfl, .inl rfl⟩
    · exact ⟨by simp [State.inputs], .inr (by simp), .inr (by simp), .inr (.inl rfl), .inr (by simp),
        .inr (State.raiseMid_faulted _ _ _)⟩
  | blkEnc | blkDry =>
    obtain rfl := Host.Outcome.next.inj h
    refine State.checked_spares fun _ => ?_
    split
    · exact ⟨by simp [State.inputs], .inr (by simp), .inr (by simp), .inr (.inr (by simp)), .inr (by simp),
        .inl (by simp [State.faultRegs])⟩
    · exact ⟨by simp [State.inputs], .inr (by simp), .inr (by simp), .inr (.inr (by simp)), .inr (by simp),
        .inr (State.raiseMid_faulted _ _ _)⟩

end Sys2Proof.Machine
end

section
/-! SUPPORT. The BitReader's invariant (10_state.md R28) through every function that reads bits, up to the commands. -/

namespace Sys2Proof.Machine

/-! ### The reader functions -/

/-- The cursor is in the window that ends at `lim`, CNT is 0..8, the undelivered bits of BUF are at the top with zeros below,
and MARKER is 0 unless EOS (10_state.md R28). -/
structure Reader.SoundIn (lim : Word) (r : Reader) : Prop where
  lim : r.lim = lim
  pos : r.pos.toNat ≤ r.lim.toNat
  cnt : r.cnt.toNat ≤ 8
  buf : r.buf.toNat % 2 ^ (8 - r.cnt.toNat) = 0
  marker : r.eos = false → r.marker = 0

/-- The reader that a reading function answers, if it answers one, has the property `P`. -/
def Bits.Leaves {α : Type} (P : Reader → Prop) (x : Bits α) : Prop :=
  match x with
  | .got _ r => P r
  | .noMore r => P r
  | .fail _ => True

theorem Bits.Leaves.andThen {α β : Type} {P : Reader → Prop} {x : Bits α} {k : α → Reader → Bits β} (hx : x.Leaves P)
    (hk : ∀ v r, P r → (k v r).Leaves P) : (x.andThen k).Leaves P := by
  cases x with
  | got v r => exact hk v r hx
  | noMore r => exact hx
  | fail f => trivial

theorem Reader.toNat_pos_add {r : Reader} {n : Nat} (h : r.pos.toNat + n ≤ r.lim.toNat) :
    (r.pos + BitVec.ofNat 32 n).toNat = r.pos.toNat + n := by
  have := r.lim.isLt
  rw [BitVec.toNat_add, BitVec.toNat_ofNat, Nat.add_mod_mod, Nat.mod_eq_of_lt (by omega)]

/-- A refill of the empty byte buffer fills it with eight bits, or stops on the marker with the buffer still empty. -/
theorem refill_sound {lim : Word} {r : Reader} (m : Memory) (h : r.SoundIn lim) :
    (refill m r).Leaves fun r' => r'.SoundIn lim := by
  obtain ⟨hlim, hpos, hcnt, hbuf, hmark⟩ := h
  unfold refill
  dsimp only
  split_ifs
  · exact ⟨hlim, hpos, hcnt, hbuf, hmark⟩
  · trivial
  · trivial
  · refine ⟨hlim, ?_, by simp, by simp [Nat.mod_one], hmark⟩
    exact (Reader.toNat_pos_add (n := 2) (by omega)).trans_le (by simp; omega)
  · exact ⟨hlim, hpos, hcnt, hbuf, fun h => by simp at h⟩
  · refine ⟨hlim, ?_, by simp, by simp [Nat.mod_one], hmark⟩
    exact (Reader.toNat_pos_add (n := 1) (by omega)).trans_le (by simp; omega)

theorem refill_got_cnt {m : Memory} {r r' : Reader} {u : Unit} (h : refill m r = .got u r') : r'.cnt = 8 := by
  unfold refill at h
  simp only at h
  split_ifs at h <;> cases h <;> rfl

/-- Delivering a bit shifts the buffer and leaves one more zero below. -/
theorem takeBit_sound {lim : Word} {r : Reader} (h : r.SoundIn lim) (h0 : r.cnt ≠ 0) :
    (takeBit r).Leaves fun r' => r'.SoundIn lim := by
  obtain ⟨hlim, hpos, hcnt, hbuf, hmark⟩ := h
  have h1 : r.cnt.toNat ≠ 0 := fun e => h0 (BitVec.toNat_inj.1 e)
  have hc : (r.cnt - 1).toNat = r.cnt.toNat - 1 := by rw [BitVec.toNat_sub]; simp; omega
  refine ⟨hlim, hpos, by simp only [hc]; omega, ?_, hmark⟩
  simp only [hc, BitVec.toNat_shiftLeft, Nat.shiftLeft_eq, pow_one]
  have e : 8 - (r.cnt.toNat - 1) = (8 - r.cnt.toNat) + 1 := by omega
  rw [Nat.mod_mod_of_dvd _ (pow_dvd_pow 2 (by omega)), e, Nat.pow_succ, Nat.mul_mod_mul_right, hbuf, Nat.zero_mul]

theorem nextBit_sound {lim : Word} {r : Reader} (m : Memory) (h : r.SoundIn lim) :
    (nextBit m r).Leaves fun r' => r'.SoundIn lim := by
  unfold nextBit
  split_ifs with h0
  · have hr := refill_sound m h
    cases hx : refill m r with
    | got u r' =>
      rw [hx] at hr
      exact takeBit_sound hr (by rw [refill_got_cnt hx]; decide)
    | noMore r' => rwa [hx] at hr
    | fail f => trivial
  · exact takeBit_sound h h0

theorem getBitsFrom_sound {lim : Word} {r : Reader} (m : Memory) (n v : Nat) (h : r.SoundIn lim) :
    (getBitsFrom m n v r).Leaves fun r' => r'.SoundIn lim := by
  induction n generalizing v r with
  | zero => exact h
  | succ n ih => exact (nextBit_sound m h).andThen fun _ _ h' => ih _ h'

theorem getBits_sound {lim : Word} {r : Reader} (m : Memory) (n : Nat) (h : r.SoundIn lim) :
    (getBits m n r).Leaves fun r' => r'.SoundIn lim := getBitsFrom_sound m n 0 h

theorem readCodeFrom_sound {lim : Word} {r : Reader} (m : Memory) (slots : List Slot) (left len code : Nat)
    (h : r.SoundIn lim) : (readCodeFrom m slots left len code r).Leaves fun r' => r'.SoundIn lim := by
  induction left generalizing len code r with
  | zero => trivial
  | succ left ih =>
    refine (nextBit_sound m h).andThen fun b r' h' => ?_
    dsimp only
    split
    · exact h'
    · exact ih _ _ h'

theorem readCode_sound {lim : Word} {r : Reader} (m : Memory) (slots : List Slot) (maxLen : Nat) (h : r.SoundIn lim) :
    (readCode m slots maxLen r).Leaves fun r' => r'.SoundIn lim := readCodeFrom_sound m slots maxLen 0 0 h

/-! ### Blocks -/

/-- The reader that a block read answers, if it answers one, has the property `P`. -/
def BlockRead.Leaves (P : Reader → Prop) (x : BlockRead) : Prop :=
  match x with
  | .boundary r => P r
  | .block _ _ _ _ r => P r
  | .fail _ => True

theorem acLoop_sound {lim : Word} {r : Reader} (m : Memory) (slots : List Slot) (dc : Word) (fuel k : Nat)
    (blk : Vector Word 64) (h : r.SoundIn lim) :
    (acLoop m slots dc fuel k blk r).Leaves fun r' => r'.SoundIn lim := by
  induction fuel generalizing k blk r with
  | zero => exact h
  | succ fuel ih =>
    unfold acLoop
    split
    · exact h
    have hc := readCode_sound m slots 16 h
    split <;> rename_i hx <;> rw [hx] at hc
    · trivial
    · exact hc
    next rs r' =>
      dsimp only
      split
      · split
        · exact hc
        · split
          · split
            · trivial
            · exact ih _ _ hc
          · trivial
      split
      · have hb := getBits_sound m (rs.toNat % 16) hc
        split <;> rename_i hy <;> rw [hy] at hb
        · trivial
        · exact hb
        · exact ih _ _ hb
      · trivial

theorem decodeBlock_sound {lim : Word} {r : Reader} (m : Memory) (dcSlots acSlots : List Slot) (pred : Int)
    (h : r.SoundIn lim) : (decodeBlock m dcSlots acSlots pred r).Leaves fun r' => r'.SoundIn lim := by
  unfold decodeBlock
  have hc := readCode_sound m dcSlots 16 h
  split <;> rename_i hx <;> rw [hx] at hc
  · trivial
  · exact hc
  next t r' =>
    split_ifs
    · trivial
    have hb := getBits_sound m t.toNat hc
    split <;> rename_i hy <;> rw [hy] at hb
    · trivial
    · exact hb
    · dsimp only
      split_ifs
      · trivial
      · exact acLoop_sound m acSlots _ _ _ _ hb

/-! ### The LJ92 image -/

theorem ljRead_sound {α : Type} {P : Reader → Prop} {x : Bits α} {v : α} {r : Reader} (hx : x.Leaves P)
    (h : ljRead x = .ok (v, r)) : P r := by
  cases x with
  | got v' r' =>
    cases h
    exact hx
  | noMore r' => cases h
  | fail f => cases h

theorem ljDiff_sound {lim : Word} {m : Memory} {slots : List Slot} {maxBits : Nat} {r r' : Reader} {d : Int}
    (hr : r.SoundIn lim) (h : ljDiff m slots maxBits r = .ok (d, r')) : r'.SoundIn lim := by
  unfold ljDiff at h
  split at h
  · cases h
  next t r₁ hs =>
    have h₁ : r₁.SoundIn lim := ljRead_sound (readCode_sound m slots maxBits hr) hs
    split_ifs at h
    · cases h
      exact h₁
    · split at h <;> cases h
      rename_i hg
      exact ljRead_sound (getBits_sound m _ h₁) hg
    · cases h
      exact h₁

theorem ljSample_sound {lim : Word} {j : LjJob} {row p : Nat} {t t' : LjRun} (ht : t.r.SoundIn lim)
    (h : ljSample j row p t = .ok t') : t'.r.SoundIn lim := by
  unfold ljSample at h
  split at h
  · cases h
  next d r hd =>
    dsimp only at h
    split at h <;> cases h
    exact ljDiff_sound ht hd

theorem ljRow_sound {lim : Word} {j : LjJob} {row n p : Nat} {t t' : LjRun} (ht : t.r.SoundIn lim)
    (h : ljRow j row n p t = .ok t') : t'.r.SoundIn lim := by
  induction n generalizing p t with
  | zero =>
    cases h
    exact ht
  | succ n ih =>
    unfold ljRow at h
    split at h
    · cases h
    next hs => exact ih (ljSample_sound ht hs) h

theorem ljRows_sound {lim : Word} {j : LjJob} {n row : Nat} {t t' : LjRun} (ht : t.r.SoundIn lim)
    (h : ljRows j n row t = .ok t') : t'.r.SoundIn lim := by
  induction n generalizing row t with
  | zero =>
    cases h
    exact ht
  | succ n ih =>
    unfold ljRows at h
    split at h
    · cases h
    next u hs =>
      have hu : u.r.SoundIn lim := ljRow_sound (t := { t with cur := [] }) ht hs
      exact ih (t := { u with prev := u.cur }) hu h

/-! ### Commands -/

theorem State.readerOk_iff (s : State) : s.readerOk ↔
    s.br.lim.toNat ≤ s.params.inSize ∧ (s.fault = false → s.br.SoundIn s.br.lim) :=
  and_congr_right fun _ => forall_congr' fun _ =>
    ⟨fun ⟨hpos, hcnt, hbuf, hmark⟩ => ⟨rfl, hpos, hcnt, hbuf, hmark⟩,
      fun ⟨_, hpos, hcnt, hbuf, hmark⟩ => ⟨hpos, hcnt, hbuf, hmark⟩⟩

/-- A fault keeps the invariant as long as BR_END is as it was. -/
theorem State.readerOk_of_fault {s t : State} (hs : s.readerOk) (hp : t.params = s.params) (hl : t.br.lim = s.br.lim)
    (hf : t.fault = true) : t.readerOk :=
  ⟨by rw [hl, hp]; exact hs.1, fun h => by rw [hf] at h; cases h⟩

theorem State.readerOk_of_sound {s t : State} (hs : s.readerOk) (hp : t.params = s.params) (hr : t.br.SoundIn s.br.lim) :
    t.readerOk :=
  t.readerOk_iff.2 ⟨by rw [hr.lim, hp]; exact hs.1, fun _ => by rw [hr.lim]; exact hr⟩

theorem State.raise_readerOk {s : State} (hs : s.readerOk) (i : Instr) (r : Raise) : (s.raise i r).readerOk :=
  State.readerOk_of_fault hs rfl rfl rfl

theorem State.finishRead_readerOk {s : State} (hs : s.readerOk) (i : Instr) {x : Bits Nat}
    (hx : x.Leaves fun r => r.SoundIn s.br.lim) : (s.finishRead i x).readerOk := by
  cases x with
  | got v r => exact State.readerOk_of_sound hs rfl hx
  | noMore r => exact State.readerOk_of_sound hs rfl hx
  | fail f => exact State.readerOk_of_fault hs rfl rfl rfl

/-- BR_INIT opens the window it has checked (41_bitio.md R124). -/
theorem execBrInit_readerOk {s t : State} (hs : s.readerOk) (h : exec .brInit s = .next t) : t.readerOk := by
  obtain rfl := Host.Outcome.next.inj h
  refine State.checked_finish _ _ _ _ _ (fun r _ => State.raise_readerOk hs _ r) fun _ hw => ?_
  rw [State.windowArgs, require_ok_iff] at hw
  simp only [Bool.and_eq_true, decide_eq_true_eq] at hw
  exact ⟨hw.2, fun _ => ⟨hw.1, Nat.zero_le _, by simp, fun _ => rfl⟩⟩

/-- BR_RESYNC moves the cursor behind the marker it has found in the window (41_bitio.md R127). -/
theorem execBrResync_readerOk {s t : State} (hs : s.readerOk) (h : exec .brResync s = .next t) : t.readerOk := by
  obtain rfl := Host.Outcome.next.inj h
  refine State.checked_finish _ _ _ _ _ (fun r _ => State.raise_readerOk hs _ r) fun _ _ => ?_
  split
  · exact State.readerOk_of_fault hs rfl rfl rfl
  next hm =>
    simp only [State.restartMarker, require_bind_ok_iff, decide_eq_true_eq] at hm
    obtain ⟨-, hp, -⟩ := hm
    refine State.readerOk_of_sound hs rfl ⟨rfl, ?_, Nat.zero_le _, by simp, fun _ => rfl⟩
    exact (Reader.toNat_pos_add (r := s.br) (n := 2) (by omega)).trans_le (by simp; omega)

theorem exec_readerOk {i : Instr} {s t : State} (hi : i ≠ .sreset) (hf : s.fault = false) (h : exec i s = .next t)
    (hs : s.readerOk) : t.readerOk := by
  have hsound : s.br.SoundIn s.br.lim := (s.readerOk_iff.1 hs).2 hf
  have hsp := exec_spares hi h
  rcases hsp.br with rfl | hu | hbr
  · exact execBrInit_readerOk hs h
  · cases i with
    | brBit =>
      obtain rfl := Host.Outcome.next.inj h
      exact State.checked_finish _ _ _ _ _ (fun r _ => State.raise_readerOk hs _ r) fun _ _ =>
        State.finishRead_readerOk hs _ ((nextBit_sound _ hsound).andThen fun _ _ hr => hr)
    | brBits n =>
      obtain rfl := Host.Outcome.next.inj h
      exact State.checked_finish _ _ _ _ _ (fun r _ => State.raise_readerOk hs _ r) fun k _ =>
        State.finishRead_readerOk hs _ (getBits_sound _ k hsound)
    | brResync => exact execBrResync_readerOk hs h
    | htDec tc th =>
      obtain rfl := Host.Outcome.next.inj h
      exact State.checked_finish _ _ _ _ _ (fun r _ => State.raise_readerOk hs _ r) fun t _ =>
        State.finishRead_readerOk hs _ ((readCode_sound _ t.dec 16 hsound).andThen fun _ _ hr => hr)
    | blkDec c td ta | blkSkip c td ta =>
      obtain rfl := Host.Outcome.next.inj h
      refine State.checked_finish _ _ _ _ _ (fun r _ => State.raise_readerOk hs _ r) fun f _ => ?_
      have hb : (s.readBlock f).Leaves _ := decodeBlock_sound _ _ _ _ hsound
      split <;> rename_i hx <;> rw [hx] at hb
      · exact State.readerOk_of_sound hs rfl hb
      · exact State.readerOk_of_sound hs rfl hb
      · exact State.readerOk_of_fault hs rfl rfl rfl
    | ljDecode =>
      obtain rfl := Host.Outcome.next.inj h
      refine State.checked_finish _ _ _ _ _ (fun r _ => State.raise_readerOk hs _ r) fun _ _ => ?_
      split
      · exact State.readerOk_of_fault hs rfl rfl rfl
      next hx => exact State.readerOk_of_sound hs rfl (ljRows_sound hsound hx)
    | _ => cases hu
  · have hp := ((State.inputs_eq_iff s t).1 hsp.inputs).1
    exact State.readerOk_of_sound hs hp (hbr ▸ hsound)

/-- Settles O57: the readers that every reading function answers are sound, commands that read nothing leave the reader. -/
theorem readerStaysSound : Obligations.ReaderStaysSound := by
  intro s t hs h
  refine step_keeps State.readerOk ?_ ?_ ?_ ?_ hs h
  · intro s t hf hs
    rw [hf.fields]
    exact hs
  · intro s w hs
    exact State.readerOk_of_fault hs rfl rfl rfl
  · intro i s t hi hf he hs
    exact exec_readerOk hi hf he hs
  · intro s _
    exact ⟨Nat.zero_le _, fun _ => ⟨Nat.le_refl 0, Nat.zero_le 8, rfl, fun _ => rfl⟩⟩

end Sys2Proof.Machine
end

section
/-! SUPPORT. The fault registers, the inputs of commands, the reset state and the host's accesses. -/

namespace Sys2Proof.Machine

/-! ### The fault registers -/

theorem State.faultOk_of_faulted {i : Instr} {t : State} (h : t.Faulted i) : t.faultOk := by
  obtain ⟨c, hc⟩ := h.faultCause
  exact ⟨h.busy, fun hf => by simp [h.fault] at hf, fun _ => ⟨by simp [hc], h.segEnd⟩⟩

/-- Settles O58: outside the fault state a command leaves the fault registers or records a fault in them. -/
theorem faultRegistersStaySound : Obligations.FaultRegistersStaySound := by
  intro s t hs h
  refine step_keeps State.faultOk ?_ ?_ ?_ ?_ hs h
  · intro s t hf hs
    rw [hf.fields]
    exact hs
  · intro s w hs
    exact ⟨rfl, fun hf => by simp at hf, fun _ => ⟨by simp, rfl⟩⟩
  · intro i s t hi hf he ⟨hb, hn, _⟩
    rcases (exec_spares hi he).outcome with hr | hr
    · obtain ⟨hfault, hcause, hinfo, hcmd, hbusy, -⟩ := (State.faultRegs_eq_iff s t).1 hr
      rw [State.faultOk, hfault, hcause, hinfo, hcmd, hbusy]
      exact ⟨hb, hn, fun h => by simp [hf] at h⟩
    · exact State.faultOk_of_faulted hr
  · intro s _
    exact ⟨rfl, fun _ => ⟨rfl, rfl, rfl⟩, fun h => by simp [State.reset] at h⟩

/-! ### The inputs of commands -/

/-- Settles O9: SRESET leaves the parameters, IN and the host's fields; every other command leaves all its inputs. -/
theorem commandsLeaveInputsAlone : Obligations.CommandsLeaveInputsAlone := by
  intro i s t h
  by_cases hi : i = .sreset
  · subst hi
    rw [exec_sreset h]
    exact ⟨rfl, rfl, rfl, rfl, fun hi => absurd rfl hi, fun hi => absurd rfl hi, fun hi => absurd rfl hi⟩
  · have hs := exec_spares hi h
    obtain ⟨hparams, hin, hhost, hdata, harg, hprec⟩ := (State.inputs_eq_iff s t).1 hs.inputs
    exact ⟨hparams, hin, hhost, hdata, fun _ => ⟨harg, hprec⟩, fun _ => hs.blkP.resolve_left,
      fun _ => hs.res1.resolve_left⟩

/-! ### The reset state -/

theorem HuffTable.empty_ok : HuffTable.empty.ok := rfl

@[simp] theorem State.resetOf_isValid (p : Params) (n : Nat) : (State.resetOf p).isValid n = false := by
  simp [State.isValid, State.resetOf, State.reset]

@[simp] theorem State.resetOf_lj (p : Params) : (State.resetOf p).lj = LjSession.reset := rfl

@[simp] theorem State.resetOf_table (p : Params) (tc : TableClass) (th : Fin 4) :
    (State.resetOf p).table tc th = HuffTable.empty := by
  cases tc <;> simp [State.table, State.resetOf, State.reset]

@[simp] theorem State.resetOf_freq (p : Params) (tc : TableClass) (th : Fin 4) :
    (State.resetOf p).freq tc th = FreqModel.cleared := by
  cases tc <;> simp [State.freq, State.resetOf, State.reset, FreqModel.cleared]

/-- Settles O60: in the reset state the memories are empty, the units have their reset values and no VALID bit is set. -/
theorem resetIsSound : Obligations.ResetIsSound := by
  intro p _
  refine ⟨⟨rfl, rfl, rfl, rfl, Nat.zero_le _⟩, ⟨Nat.zero_le _, fun _ => ⟨Nat.le_refl 0, Nat.one_pos⟩⟩,
    ⟨Nat.zero_le _, fun _ => ⟨Nat.le_refl 0, Nat.zero_le 8, rfl, fun _ => rfl⟩⟩,
    ⟨rfl, fun _ => ⟨rfl, rfl, rfl⟩, fun h => Bool.noConfusion h⟩, fun tc th => ?_, fun tq h => ?_, fun tc th => ?_,
    fun _ c _ => ?_, ?_⟩
  · rw [State.resetOf_table]
    exact HuffTable.empty_ok
  · rw [State.resetOf_isValid] at h
    cases h
  · rw [State.resetOf_freq]
    rfl
  · simp [State.resetOf, State.reset]
  · simp [State.ljOk, LjSession.reset]

/-! ### Host accesses -/

theorem hostMove_status_read (s : State) : hostMove (.readReg 32 4) s = .next { s with hostData := s.statusWord } := by
  simp [hostMove, Reg.offset, alignedWord, State.readOffset, regAt, State.readReg]

theorem hostMove_status_write (s : State) (v : Word) : hostMove (.writeReg 32 4 v) s = .next s := by
  simp [hostMove, Reg.offset, alignedWord, writeOffset, regAt, writeReg]

theorem alignedWord_iff (width off : Nat) : alignedWord width off = true ↔ width = 32 ∧ off % 4 = 0 := by
  simp [alignedWord]

/-- While BUSY every move but a reset and an access at the offset of STATUS is refused (20_memory.md R68). -/
theorem hostMove_busy {s : State} {mv : HostMove} (hb : s.busy = true) (hr : mv ≠ .reset)
    (hread : ∀ width, mv ≠ .readReg width 4) (hwrite : ∀ width v, mv ≠ .writeReg width 4 v) :
    hostMove mv s = .refused .hostAccessWhileBusy := by
  cases mv with
  | writeReg width off v =>
    have : off ≠ 4 := fun e => hwrite width v (by rw [e])
    simp [hostMove, hb, Reg.offset, this]
  | readReg width off =>
    have : off ≠ 4 := fun e => hread width (by rw [e])
    simp [hostMove, hb, Reg.offset, this]
  | writeIn a v => simp [hostMove, hb]
  | readOut a => simp [hostMove, hb]
  | reset => exact absurd rfl hr

/-- Settles O8: by the branches of `hostMove`. -/
theorem hostAccesses : Obligations.HostAccesses := by
  refine ⟨fun s mv width off hb ha hmv => ?_, fun s mv hb hr hread hwrite => hostMove_busy hb hr hread hwrite,
    fun s v => ⟨hostMove_status_write s v, hostMove_status_read s⟩, fun s a v hb => ⟨fun ha => ?_, fun ha => ?_⟩,
    fun s a hb => ⟨fun ha => ?_, fun ha => ?_⟩⟩
  · have hw : alignedWord width off = false := by rwa [← Bool.not_eq_true, alignedWord_iff]
    rcases hmv with ⟨v, rfl⟩ | rfl
    · simp [hostMove, hb, hw]
    · simp [hostMove, hb, hw]
  · refine ⟨{ s with inMem := s.inMem.set a v }, by simp [hostMove, hb, ha], rfl, ?_, fun b hba => ?_⟩
    · simp [Memory.inByte]
    · rw [Memory.get?_set, if_neg hba]
  · simp [hostMove, hb, Nat.not_lt.2 ha]
  · simp [hostMove, hb, ha]
  · simp [hostMove, hb, Nat.not_lt.2 ha]

end Sys2Proof.Machine
end

section
/-! SUPPORT. The register map: offsets and registers are one another's inverse, what a host write sets, and the places of the
fields in the words that the host reads (10_state.md R22 to R36). -/

namespace Sys2Proof.Machine

/-! ### Offsets and registers -/

theorem regAt_offset (r : Reg) : regAt r.offset = some r := by
  cases r with
  | a i => revert i; decide
  | dcp c => revert c; decide
  | blkI i => revert i; decide
  | blkP i => revert i; decide
  | _ => rfl

theorem regAt_eq_some_iff (off : Nat) (r : Reg) : regAt off = some r ↔ off = r.offset := by
  refine ⟨fun h => ?_, fun h => h ▸ regAt_offset r⟩
  unfold regAt at h
  split at h
  case h_29 =>
    split_ifs at h
    · cases h
      simp only [Reg.offset]
      omega
    · cases h
      simp only [Reg.offset]
      omega
  all_goals
    cases h
    rfl

/-- The bits that a host write sets in a register other than CMD: `writeMask`, by register. -/
def Reg.mask (r : Reg) : Word :=
  match r with
  | .prec => 0x1F
  | .a _ | .blkI _ => 0xFFFFFFFF
  | .blkP _ => 0xFFFF
  | _ => 0

theorem writeMask_offset (r : Reg) : writeMask r.offset = r.mask := by
  cases r with
  | a i => revert i; decide
  | dcp c => revert c; decide
  | blkI i => revert i; decide
  | blkP i => revert i; decide
  | _ => rfl

theorem writeMask_eq_zero {off : Nat} (ha : off % 4 = 0) (h : regAt off = none) : writeMask off = 0 := by
  have hne : ∀ r : Reg, off ≠ r.offset := fun r e => by
    rw [(regAt_eq_some_iff off r).2 e] at h
    cases h
  unfold writeMask
  split_ifs with h1 h2 h3 h4
  · exact absurd h1 (hne .prec)
  · exact absurd (by simp only [Reg.offset]; omega) (hne (.a ⟨(off - 0x020) / 4, by omega⟩))
  · exact absurd (by simp only [Reg.offset]; omega) (hne (.blkI ⟨(off - 0x100) / 4, by omega⟩))
  · exact absurd (by simp only [Reg.offset]; omega) (hne (.blkP ⟨(off - 0x200) / 4, by omega⟩))
  · rfl

theorem State.readOffset_offset (s : State) (r : Reg) : s.readOffset r.offset = s.readReg r := by
  rw [State.readOffset, regAt_offset]

/-! ### A host write and a host read -/

theorem setWidth_setWidth_eq_and (v : Word) (n : Nat) (hn : n < 32) :
    (v.setWidth n).setWidth 32 = v &&& BitVec.ofNat 32 (2 ^ n - 1) := by
  apply BitVec.eq_of_toNat_eq
  have h : 2 ^ n < 2 ^ 32 := Nat.pow_lt_pow_right (by decide) hn
  rw [BitVec.toNat_setWidth_of_le (by omega), BitVec.toNat_setWidth, BitVec.toNat_and, BitVec.toNat_ofNat,
    Nat.mod_eq_of_lt (by omega : 2 ^ n - 1 < 2 ^ 32), Nat.and_two_pow_sub_one_eq_mod]

/-- A host write of a register other than CMD sets its writable bits, changes no other register, and is ignored where none is
writable. -/
theorem writeReg_spec {r : Reg} (hr : r ≠ .cmd) (v : Word) (s : State) :
    ∃ t, writeReg r v s = .next t ∧ t.busy = s.busy ∧ (r.mask ≠ 0 → t.readReg r = v &&& r.mask) ∧ (r.mask = 0 → t = s) ∧
      ∀ r', r' ≠ r → t.readReg r' = s.readReg r' := by
  have hones : v &&& 0xFFFFFFFF = v := BitVec.and_allOnes
  cases r with
  | cmd => exact absurd rfl hr
  | prec =>
    refine ⟨_, rfl, rfl, fun _ => setWidth_setWidth_eq_and v 5 (by decide), fun h => absurd h (by decide), fun r' h => ?_⟩
    cases r' with
    | prec => exact absurd rfl h
    | _ => rfl
  | a i =>
    refine ⟨_, rfl, rfl, fun _ => ?_, fun h => absurd h (show (0xFFFFFFFF : Word) ≠ 0 by decide), fun r' h => ?_⟩
    · exact (Vector.getElem_set_self _).trans hones.symm
    · cases r' with
      | a j => exact Vector.getElem_set_ne i.isLt j.isLt fun e => h (congrArg Reg.a (Fin.ext e.symm))
      | _ => rfl
  | blkI i =>
    refine ⟨_, rfl, rfl, fun _ => ?_, fun h => absurd h (show (0xFFFFFFFF : Word) ≠ 0 by decide), fun r' h => ?_⟩
    · exact (Vector.getElem_set_self _).trans hones.symm
    · cases r' with
      | blkI j => exact Vector.getElem_set_ne i.isLt j.isLt fun e => h (congrArg Reg.blkI (Fin.ext e.symm))
      | _ => rfl
  | blkP i =>
    refine ⟨_, rfl, rfl, fun _ => ?_, fun h => absurd h (show (0xFFFF : Word) ≠ 0 by decide), fun r' h => ?_⟩
    · exact (congrArg _ (Vector.getElem_set_self _)).trans (setWidth_setWidth_eq_and v 16 (by decide))
    · cases r' with
      | blkP j =>
        exact congrArg (BitVec.setWidth 32)
          (Vector.getElem_set_ne i.isLt j.isLt fun e => h (congrArg Reg.blkP (Fin.ext e.symm)))
      | _ => rfl
  | _ => exact ⟨s, rfl, rfl, fun h => absurd rfl h, fun _ => rfl, fun _ _ => rfl⟩

theorem hostMove_write_aligned {s : State} {off : Nat} (hb : s.busy = false) (ha : off % 4 = 0) (v : Word) :
    hostMove (.writeReg 32 off v) s = writeOffset off v s := by
  simp [hostMove, hb, alignedWord, ha]

theorem hostMove_read_aligned {s : State} {off : Nat} (hb : s.busy = false) (ha : off % 4 = 0) :
    hostMove (.readReg 32 off) s = .next { s with hostData := s.readOffset off } := by
  simp [hostMove, hb, alignedWord, ha]

/-- A host write at an aligned offset other than CMD, and what every offset reads after it. -/
theorem writeOffset_spec {off : Nat} (ha : off % 4 = 0) (h0 : off ≠ 0) (v : Word) (s : State) :
    ∃ t, writeOffset off v s = .next t ∧ t.busy = s.busy ∧
      ∀ off', t.readOffset off' = if off' = off ∧ writeMask off ≠ 0 then v &&& writeMask off else s.readOffset off' := by
  cases hr : regAt off with
  | none => exact ⟨s, by simp [writeOffset, hr], rfl, fun off' => by simp [writeMask_eq_zero ha hr]⟩
  | some r =>
    obtain rfl := (regAt_eq_some_iff off r).1 hr
    obtain ⟨t, ht, hb, hsame, hro, hother⟩ := writeReg_spec (r := r) (fun e => h0 (by rw [e]; rfl)) v s
    refine ⟨t, by simp [writeOffset, hr, ht], hb, fun off' => ?_⟩
    rw [writeMask_offset]
    split_ifs with h
    · rw [h.1, State.readOffset_offset, hsame h.2]
    by_cases hm : r.mask = 0
    · rw [hro hm]
    · have hne : off' ≠ r.offset := fun e => h ⟨e, hm⟩
      cases hr' : regAt off' with
      | none => simp [State.readOffset, hr']
      | some r' =>
        obtain rfl := (regAt_eq_some_iff off' r').1 hr'
        rw [State.readOffset_offset, State.readOffset_offset, hother r' fun e => hne (by rw [e])]

/-! ### The places of the fields -/

theorem toNat_append_eq {m n : Nat} (x : BitVec m) (y : BitVec n) : (x ++ y).toNat = 2 ^ n * x.toNat + y.toNat := by
  rw [BitVec.toNat_append, Nat.shiftLeft_eq, Nat.mul_comm, Nat.two_pow_add_eq_or_of_lt y.isLt]

theorem State.statusWord_toNat (s : State) :
    s.statusWord.toNat = s.busy.toNat + 2 * s.fault.toNat + 4 * s.segEnd.toNat := by
  rw [State.statusWord, BitVec.toNat_setWidth_of_le (by decide)]
  simp only [toNat_append_eq, BitVec.toNat_ofBool]
  omega

theorem State.causeWord_toNat (s : State) :
    s.causeWord.toNat = match s.faultCause with | none => 0 | some c => c.code.toNat := by
  unfold State.causeWord
  cases s.faultCause with
  | none => rfl
  | some c => exact BitVec.toNat_setWidth_of_le (by decide)

theorem Reader.stateWord_toNat (r : Reader) : r.stateWord.toNat =
    r.buf.toNat + 2 ^ 8 * r.cnt.toNat + 2 ^ 12 * r.eos.toNat + 2 ^ 16 * r.marker.toNat := by
  rw [Reader.stateWord, BitVec.toNat_setWidth_of_le (by decide)]
  simp only [toNat_append_eq, BitVec.toNat_ofBool, BitVec.ofNat_eq_ofNat, BitVec.toNat_ofNat]
  omega

theorem Writer.stateWord_toNat (w : Writer) : w.stateWord.toNat = w.buf.toNat + 2 ^ 8 * w.cnt.toNat := by
  rw [Writer.stateWord, BitVec.toNat_setWidth_of_le (by decide), toNat_append_eq, Nat.add_comm]

theorem Pred.word_toNat (p : Pred) : p.word.toNat = if p.set then p.value.toNat else 0 := by
  unfold Pred.word
  split <;> rfl

theorem State.dcpvWord_toNat (s : State) : s.dcpvWord.toNat = ∑ c : Fin 4, 2 ^ c.val * s.dcp[c].set.toNat := by
  rw [State.dcpvWord, BitVec.toNat_setWidth_of_le (by decide), Fin.sum_univ_four]
  simp only [toNat_append_eq, BitVec.toNat_ofBool, Fin.coe_ofNat_eq_mod, Nat.reduceMod, Nat.reducePow]
  omega

theorem LjSession.dimWord_toNat (lj : LjSession) : lj.dimWord.toNat = lj.x.toNat + 2 ^ 16 * lj.y.toNat := by
  rw [LjSession.dimWord, toNat_append_eq, Nat.add_comm]

theorem LjSession.cfgWord_toNat (lj : LjSession) : lj.cfgWord.toNat = lj.bits.toNat + 2 ^ 8 * lj.nc.toNat +
    2 ^ 12 * lj.ss.toNat + 2 ^ 16 * lj.pt.toNat + 2 ^ 24 * lj.maxBits.toNat := by
  rw [LjSession.cfgWord, BitVec.toNat_setWidth_of_le (by decide)]
  simp only [toNat_append_eq, BitVec.ofNat_eq_ofNat, BitVec.toNat_ofNat]
  omega

/-- Settles O7: a write sets `Reg.mask` of its register alone, and each offset reads the word of its register. -/
theorem registerWriteThenRead : Obligations.RegisterWriteThenRead := by
  refine ⟨fun s off off' v hb ha ha' h0 => ?_, fun s off h => ?_, fun s => ?_⟩
  · obtain ⟨t, ht, htb, hread⟩ := writeOffset_spec ha h0 v s
    exact ⟨t, _, (hostMove_write_aligned hb ha v).trans ht, hostMove_read_aligned (htb.trans hb) ha', hread off'⟩
  · rcases h with rfl | h
    · rfl
    · simp [State.readOffset, h]
  · have narrow {n : Nat} (x : BitVec n) (hn : n ≤ 32) : (x.setWidth 32).toNat = x.toNat := BitVec.toNat_setWidth_of_le hn
    have reads {r : Reg} {n : Nat} (h : (s.readReg r).toNat = n) : (s.readOffset r.offset).toNat = n := by
      rw [State.readOffset_offset, h]
    exact ⟨reads (r := .status) s.statusWord_toNat, reads (r := .faultCause) s.causeWord_toNat, reads (r := .faultInfo) rfl,
      reads (r := .faultCmd) rfl, reads (r := .valid) (narrow _ (by decide)), reads (r := .prec) (narrow _ (by decide)),
      fun i => reads (r := .a i) rfl, reads (r := .r0) rfl, reads (r := .r1) rfl,
      reads (r := .brPos) rfl, reads (r := .brEnd) rfl, reads (r := .brState) s.br.stateWord_toNat,
      reads (r := .rstRd) (narrow _ (by decide)), reads (r := .bwPos) rfl, reads (r := .bwEnd) rfl,
      reads (r := .bwState) s.bw.stateWord_toNat, reads (r := .rstWr) (narrow _ (by decide)),
      fun c => reads (r := .dcp c) (Pred.word_toNat _), reads (r := .dcpv) s.dcpvWord_toNat,
      reads (r := .ljDim) s.lj.dimWord_toNat, reads (r := .ljCfg) s.lj.cfgWord_toNat,
      fun i => ⟨reads (r := .blkI i) rfl, reads (r := .blkP i) (narrow _ (by decide))⟩⟩

end Sys2Proof.Machine
end

section
/-! SUPPORT. VALID (10_state.md R26): the bit a command writes, and the first missing bit of those it needs. -/

namespace Sys2Proof.Machine

/-! ### Bits and fields -/

theorem State.isValid_of_le (s : State) {n : Nat} (h : 17 ≤ n) : s.isValid n = false := BitVec.getLsbD_of_ge _ _ h

theorem State.isValid_congr {s t : State} (h : t.valid = s.valid) (n : Nat) : t.isValid n = s.isValid n := by
  rw [State.isValid, State.isValid, h]

theorem tableBit_lt (c : TableClass) (j : Fin 4) : tableBit c j < 17 := by
  cases c <;> simp only [tableBit] <;> omega

theorem tableBit_of_tableFields {tc th : Byte} {c : TableClass} {j : Fin 4} (h : tableFields tc th = .ok (c, j)) :
    tableBit c j = 4 * tc.toNat + th.toNat := by
  obtain ⟨hc, hj⟩ := (tableFields_ok_iff tc th c j).1 h
  rw [(indexField_ok_iff th j).1 hj, (classField_ok_iff tc c).1 hc]
  cases c <;> simp [tableBit]

theorem indexField_of_index {f : Byte} (h : WellFormed.index f = true) :
    ∃ j : Fin 4, indexField f = .ok j ∧ f.toNat = j.val := by
  have hf : f.toNat < 4 := by simpa [WellFormed.index, Nat.lt_succ_iff] using h
  exact ⟨⟨f.toNat, hf⟩, (indexField_ok_iff f _).2 rfl, rfl⟩

theorem classField_of_bit {f : Byte} (h : WellFormed.bit f = true) : ∃ c, classField f = .ok c := by
  have hf : f.toNat ≤ 1 := by simpa [WellFormed.bit] using h
  cases hc : classField f with
  | ok c => exact ⟨c, rfl⟩
  | error r => exact absurd ((classField_error_iff f r).1 hc).1 (by omega)

theorem tableFields_of_wellFormed {tc th : Byte} (h : (WellFormed.bit tc && WellFormed.index th) = true) :
    ∃ c j, tableFields tc th = .ok (c, j) := by
  rw [Bool.and_eq_true] at h
  obtain ⟨c, hc⟩ := classField_of_bit h.1
  obtain ⟨j, hj, -⟩ := indexField_of_index h.2
  exact ⟨c, j, (tableFields_ok_iff tc th c j).2 ⟨hc, hj⟩⟩

theorem blockFields_of_wellFormed {c td ta : Byte}
    (h : (WellFormed.index c && WellFormed.index td && WellFormed.index ta) = true) :
    ∃ x d a, blockFields c td ta = .ok (x, d, a) ∧ td.toNat = d.val ∧ ta.toNat = a.val := by
  rw [Bool.and_eq_true, Bool.and_eq_true] at h
  obtain ⟨x, hx, -⟩ := indexField_of_index h.1.1
  obtain ⟨d, hd, hd'⟩ := indexField_of_index h.1.2
  obtain ⟨a, ha, ha'⟩ := indexField_of_index h.2
  exact ⟨x, d, a, (blockFields_ok_iff c td ta x d a).2 ⟨hx, hd, ha⟩, hd', ha'⟩

theorem countField_of_bitCount {n : Byte} (h : WellFormed.bitCount n = true) : countField 16 n = .ok n.toNat :=
  (countField_ok_iff 16 n.toNat n).2 ⟨rfl, by simpa [WellFormed.bitCount] using h⟩

/-! ### The bit a command writes -/

/-- LJ_LIN_LOAD with count 0, the one command but SRESET that clears a bit of VALID (45_lj92.md R262). -/
def emptiesLin (i : Instr) (s : State) : Prop := i = .ljLinLoad ∧ s.argNat 1 = 0

/-- What a command other than SRESET does to VALID: nothing, and then it faults or is none that sets a bit; or it writes one
bit, 0 only when it empties the linearisation table. -/
inductive ValidEffect (i : Instr) (s t : State) : Prop where
  | kept (valid : t.valid = s.valid) (sets : t.fault = true ∨ ∀ n, ¬setsBit s i n) (clears : ¬emptiesLin i s)
  | set (k : Nat) (read : ∀ n, t.isValid n = if n = k then true else s.isValid n) (sets : ∀ n, setsBit s i n ↔ n = k)
      (clears : ¬emptiesLin i s)
  | cleared (read : ∀ n, t.isValid n = if n = 14 then false else s.isValid n) (sets : ∀ n, ¬setsBit s i n)
      (clears : emptiesLin i s)

theorem isValid_of_setValid {s t : State} {k : Nat} {b : Bool} (hk : k < 17) (h : t.valid = (s.setValid k b).valid) (n : Nat) :
    t.isValid n = if n = k then b else s.isValid n := by
  rw [State.isValid_congr h]
  by_cases hn : n < 17
  · exact State.setValid_isValid s k n b hn
  · rw [if_neg (by omega), State.isValid_of_le _ (by omega), State.isValid_of_le _ (by omega)]

/-- A fault of the checks keeps VALID. -/
theorem State.checked_validEffect {α : Type} {s : State} {i : Instr} {x : Except Raise α} {k : α → State}
    (herror : ∀ r, x = .error r → ¬emptiesLin i s) (hok : ∀ a, x = .ok a → ValidEffect i s (k a)) :
    ValidEffect i s (s.checked i x k) := by
  cases x with
  | error r => exact .kept rfl (.inl rfl) (herror r rfl)
  | ok a => exact hok a rfl

theorem not_emptiesLin {i : Instr} (s : State) (h : i ≠ .ljLinLoad) : ¬emptiesLin i s := fun ⟨hi, _⟩ => h hi

/-- The checks of LJ_LIN_LOAD never fail on count 0 (45_lj92.md R262). -/
theorem State.ljLinLoadChecks_of_zero {s : State} (h : s.argNat 1 = 0) : s.ljLinLoadChecks = .ok [] := by
  simp [State.ljLinLoadChecks, h, require, bind, Except.bind, pure, Except.pure]

theorem not_setsBit {i : Instr} (s : State) (n : Nat) (h : writesValid i = false) : ¬setsBit s i n := by
  cases i with
  | sreset | brInit | bwInit | htLoad | htAdapt | qtLoad | ljSetup | ljHtLoad | ljLinLoad => cases h
  | _ => exact id

theorem State.htLoadChecks_fields {s : State} {tc th : Byte} {x : (TableClass × Fin 4) × HuffTable}
    (h : s.htLoadChecks tc th = .ok x) : tableFields tc th = .ok x.1 := by
  simp only [State.htLoadChecks, bind_ok_iff, pure_ok_iff] at h
  obtain ⟨f, hf, p, -, t, -, rfl⟩ := h
  exact hf

theorem State.htAdaptChecks_fields {s : State} {tc th : Byte} {x : (TableClass × Fin 4) × HuffTable}
    (h : s.htAdaptChecks tc th = .ok x) : tableFields tc th = .ok x.1 := by
  simp only [State.htAdaptChecks, bind_ok_iff, pure_ok_iff] at h
  obtain ⟨f, hf, p, -, t, -, rfl⟩ := h
  exact hf

theorem State.qtLoadChecks_fields {s : State} {pq tq : Byte} {x : Fin 4 × QTable} (h : s.qtLoadChecks pq tq = .ok x) :
    tq.toNat = x.1.val := by
  simp only [State.qtLoadChecks, bind_ok_iff, pure_ok_iff] at h
  obtain ⟨p, -, t, ht, -, -, -, -, rfl⟩ := h
  exact (indexField_ok_iff tq t).1 ht

theorem exec_validEffect {i : Instr} {s t : State} (hi : i ≠ .sreset) (h : exec i s = .next t) : ValidEffect i s t := by
  cases hw : writesValid i with
  | false =>
    have hv : t.valid = s.valid := (exec_spares hi h).valid.resolve_left (by rw [hw]; decide)
    have hl : i ≠ .ljLinLoad := fun e => by
      subst e
      cases hw
    exact .kept hv (.inr fun n => not_setsBit s n hw) (not_emptiesLin s hl)
  | true =>
    cases i with
    | sreset => exact absurd rfl hi
    | brInit | bwInit | ljSetup | ljHtLoad =>
      obtain rfl := Host.Outcome.next.inj h
      exact State.checked_validEffect (fun _ _ => not_emptiesLin s nofun) fun _ _ =>
        .set _ (isValid_of_setValid (by decide) rfl) (fun _ => Iff.rfl) (not_emptiesLin s nofun)
    | htLoad tc th =>
      obtain rfl := Host.Outcome.next.inj h
      refine State.checked_validEffect (fun _ _ => not_emptiesLin s nofun) fun ⟨⟨c, j⟩, x⟩ hx => ?_
      have hbit := tableBit_of_tableFields (State.htLoadChecks_fields hx)
      exact .set _ (isValid_of_setValid (tableBit_lt c j) (by simp)) (fun n => by rw [setsBit, hbit])
        (not_emptiesLin s nofun)
    | htAdapt tc th =>
      obtain rfl := Host.Outcome.next.inj h
      refine State.checked_validEffect (fun _ _ => not_emptiesLin s nofun) fun ⟨⟨c, j⟩, x⟩ hx => ?_
      have hbit := tableBit_of_tableFields (State.htAdaptChecks_fields hx)
      exact .set _ (isValid_of_setValid (tableBit_lt c j) (by simp)) (fun n => by rw [setsBit, hbit])
        (not_emptiesLin s nofun)
    | qtLoad pq tq =>
      obtain rfl := Host.Outcome.next.inj h
      refine State.checked_validEffect (fun _ _ => not_emptiesLin s nofun) fun ⟨q, x⟩ hx => ?_
      have hq : quantBit q < 17 := by simp only [quantBit]; omega
      exact .set _ (isValid_of_setValid hq rfl) (fun n => by rw [setsBit, State.qtLoadChecks_fields hx, quantBit])
        (not_emptiesLin s nofun)
    | ljLinLoad =>
      obtain rfl := Host.Outcome.next.inj h
      by_cases h0 : s.argNat 1 = 0
      · rw [State.ljLinLoadChecks_of_zero h0]
        exact .cleared (isValid_of_setValid (k := linEnBit) (b := false) (by decide) (by simp [h0])) (fun n hn => hn.2 h0)
          ⟨rfl, h0⟩
      · have hno : ¬emptiesLin .ljLinLoad s := fun hl => h0 hl.2
        exact State.checked_validEffect (fun _ _ => hno) fun _ _ =>
          .set linEnBit (isValid_of_setValid (by decide) (by simp [h0])) (fun n => and_iff_left h0) hno
    | _ => cases hw

/-! ### The bits a command needs -/

theorem find?_missing_cons {s : State} {b n : Nat} {bs : List Nat} :
    (b :: bs).find? (fun b => !s.isValid b) = some n ↔
      (s.isValid b = false ∧ b = n) ∨ s.isValid b = true ∧ bs.find? (fun b => !s.isValid b) = some n := by
  cases h : s.isValid b <;> simp [h]

/-- The checks of a list of VALID bits, in front of what goes on. -/
def State.needsAll {α : Type} (s : State) (bits : List Nat) (x : Except Raise α) : Except Raise α :=
  bits.foldr (fun b y => s.needs b >>= fun _ => y) x

/-- The first missing bit is NOT_READY with its number. -/
theorem State.needsAll_missing {α : Type} {s : State} {bits : List Nat} {n : Nat}
    (h : bits.find? (fun b => !s.isValid b) = some n) (x : Except Raise α) :
    s.needsAll bits x = .error (.notReady, BitVec.ofNat 32 n) := by
  induction bits with
  | nil => cases h
  | cons b bs ih =>
    rw [State.needsAll, List.foldr_cons, bind_error_iff]
    rcases find?_missing_cons.1 h with ⟨hb, rfl⟩ | ⟨hb, hbs⟩
    · exact .inl ((s.needs_error_iff b _).2 ⟨hb, rfl⟩)
    · exact .inr ⟨(), (s.needs_ok_iff b).2 hb, ih hbs⟩

theorem State.needs_eq_needsAll (s : State) (b : Nat) : s.needs b = s.needsAll [b] (pure ()) := (bind_pure _).symm

/-- A command whose checks begin with a list of VALID bits, the first missing of which is `n`. -/
theorem State.checked_missing {α : Type} {s : State} {i : Instr} {x : Except Raise α} {k : α → State}
    {bits : List Nat} {n : Nat} (hx : ∃ y, x = s.needsAll bits y) (h : bits.find? (fun b => !s.isValid b) = some n) :
    (Host.Outcome.next (s.checked i x k) : Result) = .next (s.takeFault (encode i) .notReady (BitVec.ofNat 32 n)) := by
  obtain ⟨y, rfl⟩ := hx
  rw [State.needsAll_missing h]
  rfl

theorem State.quantTable_eq (s : State) {tq : Byte} {q : Fin 4} (h : indexField tq = .ok q) :
    s.quantTable tq = s.needs (quantBit q) >>= fun _ => pure s.qt[q] := by
  rw [State.quantTable, h]
  rfl

/-- "A command that needs a unit whose bit is 0 faults NOT_READY", with the first such bit (10_state.md R26). -/
theorem exec_notReady {i : Instr} {s : State} {n : Nat} (hw : WellFormed i = true)
    (h : (neededBits i).find? (fun b => !s.isValid b) = some n) :
    exec i s = .next (s.takeFault (encode i) .notReady (BitVec.ofNat 32 n)) := by
  cases i with
  | brBit | brResync | bwFlush | bwRst => exact State.checked_missing ⟨_, s.needs_eq_needsAll _⟩ h
  | brBits k =>
    refine State.checked_missing ?_ h
    rw [State.brBitsChecks, countField_of_bitCount hw]
    exact ⟨_, rfl⟩
  | bwBits k =>
    refine State.checked_missing ?_ h
    rw [State.bwBitsChecks, countField_of_bitCount hw]
    exact ⟨_, rfl⟩
  | htStore tc th =>
    obtain ⟨c, j, hf⟩ := tableFields_of_wellFormed hw
    rw [neededBits, ← tableBit_of_tableFields hf] at h
    refine State.checked_missing ?_ h
    rw [State.htStoreChecks, hf]
    exact ⟨_, rfl⟩
  | htDec tc th =>
    obtain ⟨c, j, hf⟩ := tableFields_of_wellFormed hw
    rw [neededBits, ← tableBit_of_tableFields hf] at h
    refine State.checked_missing ?_ h
    rw [State.htDecChecks, hf]
    exact ⟨_, rfl⟩
  | htEnc tc th =>
    obtain ⟨c, j, hf⟩ := tableFields_of_wellFormed hw
    rw [neededBits, ← tableBit_of_tableFields hf] at h
    refine State.checked_missing ?_ h
    rw [State.htEncChecks, hf]
    exact ⟨_, rfl⟩
  | blkDec c td ta | blkSkip c td ta =>
    obtain ⟨x, d, a, hf, hd, ha⟩ := blockFields_of_wellFormed hw
    rw [neededBits, hd, ha] at h
    refine State.checked_missing ?_ h
    rw [State.blkReadChecks, hf]
    exact ⟨_, rfl⟩
  | blkEnc c td ta =>
    obtain ⟨x, d, a, hf, hd, ha⟩ := blockFields_of_wellFormed hw
    rw [neededBits, hd, ha] at h
    refine State.checked_missing ?_ h
    rw [State.blkEncChecks, hf]
    exact ⟨_, rfl⟩
  | dequant tq =>
    obtain ⟨q, hf, hq⟩ := indexField_of_index hw
    rw [neededBits, hq] at h
    refine State.checked_missing ?_ h
    rw [State.quantTable_eq s hf]
    exact ⟨_, rfl⟩
  | quant tq =>
    obtain ⟨q, hf, hq⟩ := indexField_of_index hw
    rw [neededBits, hq] at h
    refine State.checked_missing ?_ h
    rw [State.quantChecks, State.quantTable_eq s hf, bind_assoc]
    exact ⟨_, rfl⟩
  | ljDecode => exact State.checked_missing ⟨_, rfl⟩ h
  | _ => cases h

/-- The host reads VALID as its 17 bits. -/
theorem State.readReg_valid_getLsbD (s : State) (n : Nat) :
    (s.readReg .valid).getLsbD n = if n < 17 then s.isValid n else false := by
  have h : (s.readReg .valid).getLsbD n = (decide (n < 32) && s.isValid n) := BitVec.getLsbD_setWidth ..
  rw [h]
  split_ifs with hn
  · simp [show n < 32 by omega]
  · simp [s.isValid_of_le (Nat.not_lt.1 hn)]

/-- Settles O12: by the one bit that a command writes, and the order in which it checks the bits it needs. -/
theorem validBits : Obligations.ValidBits := by
  refine ⟨State.readReg_valid_getLsbD, fun i s t n h => ?_, State.coreReset_isValid, fun i s n => exec_notReady⟩
  by_cases hi : i = .sreset
  · subst hi
    rw [exec_sreset h]
    simp [setsBit]
  have hreset : i = .sreset → t.isValid n = false := fun e => absurd e hi
  cases exec_validEffect hi h with
  | kept hv hsets hclears =>
    have hn : t.isValid n = s.isValid n := State.isValid_congr hv n
    refine ⟨fun h0 h1 => ?_, fun hb hf => ?_, fun h1 h0 => ?_, hreset, fun hl _ h0 => absurd ⟨hl, h0⟩ hclears⟩
    · simp [hn, h0] at h1
    · rcases hsets with ht | hno
      · simp [hf] at ht
      · exact absurd hb (hno n)
    · simp [hn, h1] at h0
  | set k hread hsets hclears =>
    refine ⟨fun h0 h1 => ?_, fun hb _ => ?_, fun h1 h0 => ?_, hreset, fun hl _ h0 => absurd ⟨hl, h0⟩ hclears⟩
    · rw [hsets]
      by_contra hk
      simp [hread, hk, h0] at h1
    · rw [hread, if_pos ((hsets n).1 hb)]
    · simp [hread, h1] at h0
  | cleared hread hsets hclears =>
    refine ⟨fun h0 h1 => ?_, fun hb _ => absurd hb (hsets n), fun h1 h0 => .inr ⟨hclears.1, ?_, hclears.2⟩, hreset,
      fun _ hn _ => ?_⟩
    · simp [hread, h0] at h1
    · by_contra hk
      simp [hread, hk, h1] at h0
    · rw [hread, if_pos hn]

end Sys2Proof.Machine
end

section
/-! SUPPORT. The invariant of the memories and of the BitWriter (20_memory.md R60, R65; 10_state.md R29) through everything
that writes OUT or the writer, up to the commands. -/

namespace Sys2Proof.Machine

/-! ### Memories -/

/-- A memory in canonical form that lists only addresses below `size` (20_memory.md R60, R65). -/
structure Memory.SoundIn (size : Nat) (m : Memory) : Prop where
  wf : m.wf = true
  within : m.within size = true

theorem Memory.SoundIn.set {size a : Nat} {m : Memory} (h : m.SoundIn size) (v : Byte) (ha : a < size) :
    (m.set a v).SoundIn size :=
  ⟨m.set_wf a v h.wf, m.set_within a size v h.within ha⟩

theorem Memory.SoundIn.setList {size a : Nat} {m : Memory} {vs : List Byte} (h : m.SoundIn size)
    (ha : a + vs.length ≤ size) : (m.setList a vs).SoundIn size :=
  ⟨m.setList_wf a vs h.wf, m.setList_within a size vs h.within ha⟩

theorem Memory.SoundIn.draw {size a n : Nat} {m : Memory} (h : m.SoundIn size) (d : Nat) (ha : a + n ≤ size) :
    (m.draw a n d).SoundIn size :=
  ⟨m.draw_wf a n d h.wf, m.draw_within a n d size h.within ha⟩

theorem Memory.SoundIn.setSamples {size a : Nat} {m : Memory} {vs : List Sample} (h : m.SoundIn size)
    (ha : a + 2 * vs.length ≤ size) : (m.setSamples a vs).SoundIn size :=
  ⟨m.setSamples_wf a vs h.wf, m.setSamples_within a size vs h.within ha⟩

/-! ### The writer functions -/

/-- A writer whose window lies below `size`, with its cursor in the window and nothing above its CNT bits, over a sound OUT
(10_state.md R29). -/
structure Sink.SoundIn (size : Nat) (k : Sink) : Prop where
  writer : k.w.ok
  lim : k.w.lim.toNat ≤ size
  out : k.out.SoundIn size

theorem Sink.SoundIn.append {size : Nat} {k : Sink} {bits : List Bool} (h : k.SoundIn size) (hr : k.w.room bits) :
    (k.append bits).SoundIn size :=
  ⟨k.append_ok bits hr, h.lim, h.out.setList (Nat.le_trans hr h.lim)⟩

theorem writeOut_sound {size : Nat} {b : Byte} {k k' : Sink} (h : k.SoundIn size) (hk : writeOut b k = .ok k') :
    k'.SoundIn size := by
  rcases writeOut_spec b k h.writer.1 with ⟨hlt, he, hp⟩ | ⟨-, he⟩ <;> rw [he] at hk <;> cases hk
  exact ⟨⟨hp.trans_le hlt, h.writer.2⟩, h.lim, h.out.set b (Nat.lt_of_lt_of_le hlt h.lim)⟩

theorem putBits_sound {size v n : Nat} {k k' : Sink} (h : k.SoundIn size) (hk : putBits v n k = .ok k') :
    k'.SoundIn size := by
  rcases putBits_spec v n k h.writer with ⟨hr, he⟩ | ⟨-, he⟩ <;> rw [he] at hk <;> cases hk
  exact h.append hr

theorem flushBits_sound {size : Nat} {k k' : Sink} (h : k.SoundIn size) (hk : flushBits k = .ok k') :
    k'.SoundIn size := by
  rcases flushBits_spec k h.writer with ⟨hr, he⟩ | ⟨-, he⟩ <;> rw [he] at hk <;> cases hk
  exact h.append hr

theorem writeRestart_sound {size : Nat} {n : BitVec 3} {k k' : Sink} (h : k.SoundIn size)
    (hk : writeRestart n k = .ok k') : k'.SoundIn size := by
  simp only [writeRestart, bind_ok_iff] at hk
  obtain ⟨k₁, h₁, k₂, h₂, h₃⟩ := hk
  exact writeOut_sound (writeOut_sound (flushBits_sound h h₁) h₂) h₃

theorem writeCode_sound {size : Nat} {e : Vector EncEntry 256} {sym : Byte} {k k' : Sink} (h : k.SoundIn size)
    (hk : writeCode e sym k = .ok k') : k'.SoundIn size := by
  simp only [writeCode] at hk
  split_ifs at hk
  exact putBits_sound h hk

theorem writeItems_sound {size : Nat} {dcEnc acEnc : Vector EncEntry 256} {items : List Item} {k k' : Sink}
    (h : k.SoundIn size) (hk : writeItems dcEnc acEnc items k = .ok k') : k'.SoundIn size := by
  induction items generalizing k with
  | nil =>
    cases hk
    exact h
  | cons it items ih =>
    simp only [writeItems, bind_ok_iff] at hk
    obtain ⟨k₁, h₁, k₂, h₂, h₃⟩ := hk
    exact ih (putBits_sound (writeCode_sound h h₁) h₂) h₃

/-! ### The LJ92 image and the unpacked samples -/

/-- A sample is written in its place of the image (45_lj92.md R259). -/
theorem ljSample_out {size row p : Nat} {j : LjJob} {t t' : LjRun} (ht : t.out.SoundIn size)
    (hfit : j.dest + 2 * (row * j.lj.rowLength + p + 1) ≤ size) (h : ljSample j row p t = .ok t') :
    t'.out.SoundIn size := by
  unfold ljSample at h
  split at h
  · cases h
  · dsimp only at h
    split at h <;> cases h
    exact ht.setSamples (by simp only [List.length_singleton]; omega)

theorem ljRow_out {size row n p : Nat} {j : LjJob} {t t' : LjRun} (ht : t.out.SoundIn size)
    (hfit : j.dest + 2 * (row * j.lj.rowLength + p + n) ≤ size) (h : ljRow j row n p t = .ok t') :
    t'.out.SoundIn size := by
  induction n generalizing p t with
  | zero =>
    cases h
    exact ht
  | succ n ih =>
    unfold ljRow at h
    split at h
    · cases h
    next hs => exact ih (ljSample_out ht (by omega) hs) (by omega) h

theorem ljRows_out {size n row : Nat} {j : LjJob} {t t' : LjRun} (ht : t.out.SoundIn size)
    (hfit : j.dest + 2 * ((row + n) * j.lj.rowLength) ≤ size) (h : ljRows j n row t = .ok t') :
    t'.out.SoundIn size := by
  induction n generalizing row t with
  | zero =>
    cases h
    exact ht
  | succ n ih =>
    unfold ljRows at h
    split at h
    · cases h
    next u hs =>
      have hrow : (row + 1) * j.lj.rowLength ≤ (row + (n + 1)) * j.lj.rowLength := Nat.mul_le_mul_right _ (by omega)
      rw [Nat.succ_mul] at hrow
      have hu : u.out.SoundIn size := ljRow_out (t := { t with cur := [] }) ht (by omega) hs
      exact ih (t := { u with prev := u.cur }) hu (by rwa [show row + 1 + n = row + (n + 1) by omega]) h

theorem LjSession.total_eq (lj : LjSession) : lj.total = lj.y.toNat * lj.rowLength := by
  simp only [LjSession.total, LjSession.rowLength]
  ring

theorem unpackSamples_length (m : Memory) (a g n : Nat) {k : Nat} {group : (Nat → Byte) → List Sample}
    (hk : ∀ b, (group b).length = k) : (unpackSamples m a g n group).length = n * k := by
  simp [unpackSamples, List.length_flatMap, hk]

/-! ### States -/

/-- OUT and the BitWriter of a state: what `memoryOk` and `writerOk` say of them. -/
structure State.OutputOk (s : State) : Prop where
  out : s.outMem.SoundIn s.params.outSize
  lim : s.bw.lim.toNat ≤ s.params.outSize
  writer : s.fault = false → s.bw.ok

theorem State.memoryOk_and_writerOk_iff (s : State) :
    s.memoryOk ∧ s.writerOk ↔ s.inMem.SoundIn s.params.inSize ∧ s.OutputOk :=
  ⟨fun ⟨⟨hi, ho, hi', ho', hl⟩, _, hw⟩ => ⟨⟨hi, hi'⟩, ⟨ho, ho'⟩, hl, hw⟩,
    fun ⟨hi, ho⟩ => ⟨⟨hi.wf, ho.out.wf, hi.within, ho.out.within, ho.lim⟩, ho.lim, ho.writer⟩⟩

theorem State.OutputOk.sink {s : State} (hs : s.OutputOk) (hf : s.fault = false) : s.sink.SoundIn s.params.outSize :=
  ⟨hs.writer hf, hs.lim, hs.out⟩

theorem State.OutputOk.of_sink {s t : State} (hp : t.params = s.params) (hk : t.sink.SoundIn s.params.outSize) :
    t.OutputOk :=
  ⟨hp ▸ hk.out, hp ▸ hk.lim, fun _ => hk.writer⟩

/-- A command that leaves the writer keeps the invariant if the OUT it leaves is sound. -/
theorem State.OutputOk.of_out {s t : State} (hs : s.OutputOk) (hf : s.fault = false) (hp : t.params = s.params)
    (hb : t.bw = s.bw) (ho : t.outMem.SoundIn s.params.outSize) : t.OutputOk :=
  ⟨hp ▸ ho, by rw [hp, hb]; exact hs.lim, fun _ => hb ▸ hs.writer hf⟩

theorem State.OutputOk.raise {s : State} (hs : s.OutputOk) (i : Instr) (r : Raise) : (s.raise i r).OutputOk :=
  ⟨hs.out, hs.lim, fun h => by simp at h⟩

/-- A writer fault leaves the window unspecified, and the window lies in OUT (60_exceptions.md R312). -/
theorem State.OutputOk.of_writerFault {s t : State} (hs : s.OutputOk) (hf : s.fault = false) (hp : t.params = s.params)
    (hl : t.bw.lim = s.bw.lim) (ho : t.outMem = s.drawWriter.outMem) (ht : t.fault = true) : t.OutputOk := by
  have hw := (hs.writer hf).1
  have hlim := hs.lim
  refine ⟨?_, by rw [hl, hp]; exact hlim, fun h => by simp [ht] at h⟩
  rw [ho, hp, State.drawWriter_outMem]
  exact hs.out.draw _ (by omega)

theorem State.OutputOk.finishWrite {s : State} (hs : s.OutputOk) (hf : s.fault = false) (i : Instr)
    {x : Except Raise Sink} (hx : ∀ k, x = .ok k → k.SoundIn s.params.outSize) : (s.finishWrite i x).OutputOk := by
  cases x with
  | ok k => exact .of_sink (s := s) rfl (hx k rfl)
  | error f => exact hs.of_writerFault hf rfl rfl rfl rfl

/-! ### Commands -/

/-- The commands that write the BitWriter or OUT, SRESET left out. -/
def writesOutput (i : Instr) : Bool :=
  match i with
  | .bwInit | .htStore _ _ | .ljDecode | .unpack10 | .unpack12 | .unpack14 | .unpack12v => true
  | _ => usesWriter i

/-- A fault of the checks leaves the writer and OUT. -/
theorem State.checked_leavesOutput {α : Type} {s : State} {i : Instr} {x : Except Raise α} {k : α → State}
    (hk : ∀ a, (k a).sink = s.sink) : (s.checked i x k).sink = s.sink := by
  cases x with
  | error r => rfl
  | ok a => exact hk a

theorem State.finishRead_sink (s : State) (i : Instr) (x : Bits Nat) : (s.finishRead i x).sink = s.sink := by
  cases x <;> rfl

/-- Every other command leaves the BitWriter and OUT, in whatever way it ends. -/
theorem exec_leavesOutput {i : Instr} {s t : State} (hi : i ≠ .sreset) (hw : writesOutput i = false)
    (h : exec i s = .next t) : t.sink = s.sink := by
  cases i with
  | sreset => exact absurd rfl hi
  | bwInit | bwBits | bwFlush | bwRst | htStore | htEnc | blkEnc | ljDecode | unpack10 | unpack12 | unpack14
  | unpack12v => cases hw
  | nop | dcRst | idct | fdct =>
    obtain rfl := Host.Outcome.next.inj h
    rfl
  | cfExt | cfCat | dequant | quant | pixOut | pixIn | brInit | qtLoad | ljSetup | ljHtLoad | ljLinLoad =>
    obtain rfl := Host.Outcome.next.inj h
    exact State.checked_leavesOutput fun _ => rfl
  | htLoad | htAdapt | fqClr | fqInc =>
    obtain rfl := Host.Outcome.next.inj h
    exact State.checked_leavesOutput fun _ => by simp [State.sink]
  | brBit | brBits | htDec =>
    obtain rfl := Host.Outcome.next.inj h
    exact State.checked_leavesOutput fun _ => State.finishRead_sink _ _ _
  | brResync | blkDec | blkSkip | blkDry =>
    obtain rfl := Host.Outcome.next.inj h
    refine State.checked_leavesOutput fun _ => ?_
    split <;> simp [State.sink]

/-- BW_INIT opens the window it has checked, with nothing held (41_bitio.md R134). -/
theorem execBwInit_outputOk {s t : State} (hs : s.OutputOk) (h : exec .bwInit s = .next t) : t.OutputOk := by
  obtain rfl := Host.Outcome.next.inj h
  refine State.checked_finish _ _ _ _ _ (fun r _ => hs.raise _ r) fun _ hw => ?_
  rw [State.windowArgs, require_ok_iff, Bool.and_eq_true, decide_eq_true_eq, decide_eq_true_eq] at hw
  exact ⟨hs.out, hw.2, fun _ => ⟨hw.1, Nat.one_pos⟩⟩

/-- HT_STORE writes as many bytes as it has checked room for (42_huffman.md R158). -/
theorem execHtStore_outputOk {tc th : Byte} {s t : State} (hs : s.OutputOk) (hf : s.fault = false)
    (h : exec (.htStore tc th) s = .next t) : t.OutputOk := by
  obtain rfl := Host.Outcome.next.inj h
  refine State.checked_finish _ _ _ _ _ (fun r _ => hs.raise _ r) fun p hp => ?_
  simp only [State.htStoreChecks, bind_ok_iff, pure_ok_iff] at hp
  obtain ⟨f, -, -, -, ⟨⟩, hfit, rfl⟩ := hp
  rw [require_ok_iff, decide_eq_true_eq] at hfit
  refine hs.of_out hf rfl rfl (hs.out.setList ?_)
  simp only [HuffSpec.payload, List.length_append, Vector.length_toList]
  omega

/-- LJ_DECODE writes inside the range of the image, or leaves that range unspecified (45_lj92.md R263). -/
theorem execLjDecode_outputOk {s t : State} (hs : s.OutputOk) (hf : s.fault = false) (h : exec .ljDecode s = .next t) :
    t.OutputOk := by
  obtain rfl := Host.Outcome.next.inj h
  refine State.checked_finish _ _ _ _ _ (fun r _ => hs.raise _ r) fun () hc => ?_
  simp only [State.ljDecodeChecks, State.needs, require_bind_ok_iff, require_ok_iff, decide_eq_true_eq] at hc
  obtain ⟨-, -, -, hfit⟩ := hc
  split
  · exact hs.of_out hf rfl rfl (hs.out.draw _ hfit)
  next hx =>
    rw [LjSession.total_eq] at hfit
    exact hs.of_out hf rfl rfl (ljRows_out (j := s.ljJob) hs.out (by rwa [Nat.zero_add]) hx)

/-- The unpacking commands write two bytes for each sample they have checked room for (46_unpack.md R296, R297). -/
theorem State.OutputOk.unpack {s : State} (hs : s.OutputOk) (hf : s.fault = false) (i : Instr) (g pre : Nat) {k : Nat}
    {group : (Nat → Byte) → List Sample} (hk : ∀ b, (group b).length = k) :
    (s.checked i (s.unpackChecks g k pre) fun n => s.unpackWith g k n group).OutputOk := by
  refine State.checked_finish _ _ _ _ _ (fun r _ => hs.raise _ r) fun n hn => ?_
  simp only [State.unpackChecks, require_bind_ok_iff, decide_eq_true_eq, pure_ok_iff] at hn
  obtain ⟨-, -, -, hfit, rfl⟩ := hn
  exact hs.of_out hf rfl rfl (hs.out.setSamples (by rwa [unpackSamples_length _ _ _ _ hk]))

theorem exec_outputOk {i : Instr} {s t : State} (hi : i ≠ .sreset) (hf : s.fault = false) (h : exec i s = .next t)
    (hs : s.OutputOk) : t.OutputOk := by
  have hk : s.sink.SoundIn s.params.outSize := hs.sink hf
  cases hw : writesOutput i with
  | false =>
    have hp := ((State.inputs_eq_iff s t).1 (exec_spares hi h).inputs).1
    exact .of_sink hp (exec_leavesOutput hi hw h ▸ hk)
  | true =>
    cases i with
    | bwInit => exact execBwInit_outputOk hs h
    | bwBits n =>
      obtain rfl := Host.Outcome.next.inj h
      exact State.checked_finish _ _ _ _ _ (fun r _ => hs.raise _ r) fun _ _ =>
        hs.finishWrite hf _ fun _ => putBits_sound hk
    | bwFlush =>
      obtain rfl := Host.Outcome.next.inj h
      exact State.checked_finish _ _ _ _ _ (fun r _ => hs.raise _ r) fun _ _ =>
        hs.finishWrite hf _ fun _ => flushBits_sound hk
    | htEnc tc th =>
      obtain rfl := Host.Outcome.next.inj h
      exact State.checked_finish _ _ _ _ _ (fun r _ => hs.raise _ r) fun _ _ =>
        hs.finishWrite hf _ fun _ => writeCode_sound hk
    | bwRst =>
      obtain rfl := Host.Outcome.next.inj h
      refine State.checked_finish _ _ _ _ _ (fun r _ => hs.raise _ r) fun _ _ => ?_
      split
      · exact hs.of_writerFault hf rfl rfl rfl rfl
      next hx => exact .of_sink (s := s) rfl (writeRestart_sound hk hx)
    | blkEnc c td ta =>
      obtain rfl := Host.Outcome.next.inj h
      refine State.checked_finish _ _ _ _ _ (fun r _ => hs.raise _ r) fun _ _ => ?_
      split
      next hx => exact .of_sink (s := s) rfl (writeItems_sound hk hx)
      · exact hs.of_writerFault hf rfl rfl rfl rfl
    | htStore tc th => exact execHtStore_outputOk hs hf h
    | ljDecode => exact execLjDecode_outputOk hs hf h
    | unpack10 | unpack12 | unpack14 | unpack12v =>
      obtain rfl := Host.Outcome.next.inj h
      exact hs.unpack hf _ _ _ fun _ => rfl
    | _ => cases hw

/-- A host write of IN is checked against IN_SIZE (20_memory.md R60). -/
theorem State.HostFrame.inMem_sound {s t : State} (h : s.HostFrame t) (hs : s.inMem.SoundIn s.params.inSize) :
    t.inMem.SoundIn s.params.inSize := by
  rcases h.inMem with he | ⟨a, v, ha, he⟩
  · exact he ▸ hs
  · exact he ▸ hs.set v ha

/-- Settles O56: whatever writes OUT or the BitWriter has checked its bytes against OUT_SIZE or the window. -/
theorem memoryAndWriterStaySound : Obligations.MemoryAndWriterStaySound := by
  intro s t hm hw h
  rw [State.memoryOk_and_writerOk_iff]
  refine step_keeps (fun s => s.inMem.SoundIn s.params.inSize ∧ s.OutputOk) ?_ ?_ ?_ ?_
    (s.memoryOk_and_writerOk_iff.1 ⟨hm, hw⟩) h
  · intro s t hf ⟨hin, hout⟩
    have hin' := hf.inMem_sound hin
    rw [hf.fields]
    exact ⟨hin', hout.out, hout.lim, hout.writer⟩
  · intro s w ⟨hin, hout⟩
    exact ⟨hin, hout.out, hout.lim, fun h => by simp at h⟩
  · intro i s t hi hf he ⟨hin, hout⟩
    obtain ⟨hp, hm, -⟩ := (State.inputs_eq_iff s t).1 (exec_spares hi he).inputs
    exact ⟨by rw [hp, hm]; exact hin, exec_outputOk hi hf he hout⟩
  · intro s ⟨hin, hout⟩
    exact ⟨hin, hout.out, Nat.zero_le _, fun _ => ⟨Nat.le_refl 0, Nat.one_pos⟩⟩

end Sys2Proof.Machine
end

section
/-! SUPPORT. Command words: fields and words are one another's inverse, what decodes is the encoding of its command, the rows of
the opcode table are the words of the commands, and a word written to CMD runs its command (30_encoding.md R80 to R88). -/

namespace Sys2Proof

open Machine

/-! ### Words and fields -/

@[simp] theorem fieldsOf_wordOf (f : Fields) : fieldsOf (wordOf f) = f := by
  obtain ⟨op, f1, f2, f3⟩ := f
  rw [fieldsOf, wordOf, Fields.mk.injEq]
  refine ⟨?_, ?_, ?_, ?_⟩
  · rw [BitVec.extractLsb'_append_eq_of_le (by decide), BitVec.extractLsb'_append_eq_of_le (by decide)]
    exact BitVec.extractLsb'_append_eq_left
  · rw [BitVec.extractLsb'_append_eq_of_le (by decide), BitVec.extractLsb'_append_eq_of_le (by decide)]
    exact BitVec.extractLsb'_append_eq_right
  · rw [BitVec.extractLsb'_append_eq_of_le (by decide)]
    exact BitVec.extractLsb'_append_eq_right
  · exact BitVec.extractLsb'_append_eq_right

@[simp] theorem wordOf_fieldsOf (w : Word) : wordOf (fieldsOf w) = w := by
  dsimp only [wordOf, fieldsOf]
  rw [BitVec.extractLsb'_append_extractLsb'_eq_extractLsb' (by decide),
    BitVec.extractLsb'_append_extractLsb'_eq_extractLsb' (by decide),
    BitVec.extractLsb'_append_extractLsb'_eq_extractLsb' (by decide)]
  exact BitVec.extractLsb'_eq_self

theorem wordOf_eq_iff (f : Fields) (w : Word) : wordOf f = w ↔ f = fieldsOf w :=
  ⟨fun h => by rw [← h, fieldsOf_wordOf], fun h => by rw [h, wordOf_fieldsOf]⟩

theorem wordOf_and (f g : Fields) :
    wordOf f &&& wordOf g = wordOf ⟨f.op &&& g.op, f.f1 &&& g.f1, f.f2 &&& g.f2, f.f3 &&& g.f3⟩ := by
  rw [wordOf, wordOf, wordOf, ← BitVec.and_append, ← BitVec.and_append, ← BitVec.and_append]

/-! ### What decodes is its command's encoding -/

theorem decodeFields_fieldsFor (i : Instr) : decodeFields (fieldsFor i) = .ok i := by
  cases i <;> rfl

theorem ite_ok_iff {ε α : Type} {p : Prop} [Decidable p] {a b : α} {e : ε} :
    (if p then .ok a else .error e : Except ε α) = .ok b ↔ p ∧ a = b := by
  split <;> simp [*]

/-- In the branch of its OP, a format answers a command only when the fields it does not define are 0, and that command keeps
the others. -/
theorem fieldsFor_of_decodeFields {f : Fields} {i : Instr} : decodeFields f = .ok i → fieldsFor i = f := by
  obtain ⟨op, f1, f2, f3⟩ := f
  dsimp only [decodeFields]
  split
  all_goals simp only [Format.z, Format.n, Format.t, Format.b, Format.q, Format.i, ite_ok_iff, Except.ok.injEq, reduceCtorEq,
    and_imp, false_imp_iff]
  all_goals
    intros
    subst_vars
    rfl

theorem decode_ok_iff (w : Word) (i : Instr) : decode w = .ok i ↔ encode i = w := by
  rw [encode, wordOf_eq_iff]
  constructor
  · exact fieldsFor_of_decodeFields
  · intro h
    rw [decode, ← h, decodeFields_fieldsFor]

/-- Settles O2: the two clauses are the two directions of `decode_ok_iff`. -/
theorem decodeAndEncodeAgree : Obligations.DecodeAndEncodeAgree :=
  ⟨fun i => (decode_ok_iff _ i).2 rfl, fun w i => (decode_ok_iff w i).1⟩

/-! ### The rows of the opcode table -/

/-- The fields with the last `n`, the operand fields of a command with `n` operands, set to 0. -/
def clearOperands (n : Nat) (f : Fields) : Fields :=
  match n with
  | 0 => f
  | 1 => { f with f3 := 0 }
  | 2 => { f with f2 := 0, f3 := 0 }
  | _ => { f with f1 := 0, f2 := 0, f3 := 0 }

/-- The mask of a command's row: ones in every field that is no operand. -/
def rowMask (i : Instr) : Word := wordOf (clearOperands (fieldRanges i).length ⟨0xFF, 0xFF, 0xFF, 0xFF⟩)

/-- The commands of the opcode table in its order, each with operand bytes 0. -/
def rowCommands : List Instr :=
  [.nop, .sreset, .brInit, .brBit, .brBits 0, .brResync, .bwInit, .bwBits 0, .bwFlush, .bwRst, .htLoad 0 0, .htStore 0 0,
   .htDec 0 0, .htEnc 0 0, .fqClr 0 0, .fqInc 0 0, .htAdapt 0 0, .cfExt 0, .cfCat, .blkDec 0 0 0, .blkSkip 0 0 0, .blkEnc 0 0 0,
   .blkDry 0 0 0, .dcRst, .qtLoad 0 0, .dequant 0, .quant 0, .idct, .fdct, .pixOut, .pixIn, .ljSetup, .ljHtLoad, .ljLinLoad,
   .ljDecode, .unpack10, .unpack12, .unpack14, .unpack12v]

theorem opcodeRows_eq : opcodeRows = rowCommands.map fun i => (rowMask i, encode i) := by decide

theorem wordOf_and_rowMask (f : Fields) (i : Instr) :
    wordOf f &&& rowMask i = wordOf (clearOperands (fieldRanges i).length f) := by
  have hones (b : Byte) : b &&& 0xFF = b := BitVec.and_allOnes
  have hzero (b : Byte) : b &&& 0 = 0 := BitVec.and_zero
  rw [rowMask, wordOf_and]
  unfold clearOperands
  split <;> simp only [hones, hzero]

theorem encode_row_mem (i : Instr) : (rowMask i, encode i &&& rowMask i) ∈ opcodeRows := by
  rw [encode, wordOf_and_rowMask]
  cases i <;> simp [opcodeRows, rowMask, clearOperands, fieldRanges, fieldsFor, wordOf]

/-- A word of a command's row differs from it in operand fields at most, so it decodes to the same command on its own operands. -/
theorem decode_ok_of_row {w : Word} {i : Instr} (h : w &&& rowMask i = encode i) : ∃ j, decode w = .ok j := by
  rw [← wordOf_fieldsOf w, wordOf_and_rowMask, encode, wordOf_eq_iff, fieldsOf_wordOf] at h
  rw [decode]
  generalize fieldsOf w = f at h ⊢
  obtain ⟨op, f1, f2, f3⟩ := f
  cases i <;> cases h <;> exact ⟨_, rfl⟩

theorem decode_error_iff (w : Word) : (∃ e, decode w = .error e) ↔ ∀ row ∈ opcodeRows, w &&& row.1 ≠ row.2 := by
  constructor
  · rintro ⟨e, he⟩ row hrow hw
    rw [opcodeRows_eq, List.mem_map] at hrow
    obtain ⟨i, -, rfl⟩ := hrow
    obtain ⟨j, hj⟩ := decode_ok_of_row hw
    rw [he] at hj
    cases hj
  · intro hrows
    cases h : decode w with
    | error e => exact ⟨e, rfl⟩
    | ok i =>
      obtain rfl := (decode_ok_iff w i).1 h
      exact absurd rfl (hrows _ (encode_row_mem i))

/-- The OP bytes of the rows, in order, are the bytes in no listed range. -/
theorem opcodeRows_op : opcodeRows.map (fun row => (row.2.extractLsb' 24 8).toNat) =
    (List.range 256).filter fun n => ∀ range ∈ illegalOps, ¬(range.1 ≤ n ∧ n ≤ range.2) := by
  decide

theorem illegalOps_iff (op : Byte) : (∃ range ∈ illegalOps, range.1 ≤ op.toNat ∧ op.toNat ≤ range.2) ↔
    ∀ row ∈ opcodeRows, row.2.extractLsb' 24 8 ≠ op := by
  have hop : (∃ row ∈ opcodeRows, row.2.extractLsb' 24 8 = op) ↔
      ∀ range ∈ illegalOps, ¬(range.1 ≤ op.toNat ∧ op.toNat ≤ range.2) := by
    simp only [← BitVec.toNat_inj, ← List.mem_map (f := fun row : Word × Word => (row.2.extractLsb' 24 8).toNat)]
    rw [opcodeRows_op, List.mem_filter, decide_eq_true_iff]
    exact and_iff_right (List.mem_range.2 op.isLt)
  simpa using (not_congr hop).symm

/-- Settles O3: what does not decode is what matches no row, and such a word is issued as illegal. -/
theorem illegalWordsFault : Obligations.IllegalWordsFault := by
  refine ⟨decode_error_iff, illegalOps_iff, fun w => ?_, fun s w hf hw => ?_⟩
  · rw [decode_ok_iff]
    exact eq_comm
  · obtain ⟨e, he⟩ := (decode_error_iff w).2 hw
    exact issue_illegal w e s hf he

/-- Settles O1: each word's fields are those of its command. -/
theorem opcodeWordsDecode : Obligations.OpcodeWordsDecode := by
  simp only [Obligations.OpcodeWordsDecode, decode_ok_iff]
  decide

/-! ### From a step to the command -/

theorem decodeTableWord_eq_some_iff (nbits w : Nat) (i : Instr) :
    decodeTableWord nbits w = some i ↔ decode (BitVec.ofNat 32 (w % 2 ^ nbits)) = .ok i := by
  unfold decodeTableWord
  split <;> simp [*]

theorem step_withFetchWord (s : State) (nbits w : Nat) :
    step (s.withFetchWord nbits w) = hostMove (commandMove (BitVec.ofNat 32 (w % 2 ^ nbits))) s :=
  step_move (s.withFetchWord nbits w) _ s.host rfl

/-- Settles O5: by the lemma for each stage, from the queue of moves to the command. -/
theorem stepRunsTheCommand : Obligations.StepRunsTheCommand := by
  refine ⟨step_idle, step_move, fun s w => hostMove_command w s, fun s w i => issue_decoded w i s, ?_⟩
  intro s nbits w i hb hf hd
  rw [step_withFetchWord, hostMove_command _ s hb]
  exact issue_decoded _ i s (.inl hf) ((decodeTableWord_eq_some_iff nbits w i).1 hd)

end Sys2Proof
end

section
/-! SUPPORT. The ranges of the field operands (30_encoding.md R85): a command is well-formed when no field is above its greatest
legal value, and the checks of every command begin with its fields in the order of the word. -/

namespace Sys2Proof.Machine

/-! ### Well-formed commands -/

theorem wellFormed_eq_all (i : Instr) : WellFormed i = (fieldRanges i).all fun p => p.1.toNat ≤ p.2 := by
  cases i <;>
    simp [WellFormed, fieldRanges, WellFormed.bitCount, WellFormed.category, WellFormed.bit, WellFormed.index, Bool.and_assoc]

theorem wellFormed_iff (i : Instr) : WellFormed i = true ↔ (fieldRanges i).find? (fun p => p.2 < p.1.toNat) = none := by
  rw [wellFormed_eq_all]
  simp

/-! ### The check of one field -/

/-- `x` checks a field: it fails exactly when the field `p.1` is above its greatest legal value `p.2`. -/
def IsRangeCheck {α : Type} (p : Byte × Nat) (x : Except Raise α) : Prop :=
  ∀ r, x = .error r ↔ p.2 < p.1.toNat ∧ r = (.badArg, fieldInfo p.1)

theorem indexField_isRangeCheck (f : Byte) : IsRangeCheck (f, 3) (indexField f) := indexField_error_iff f

theorem classField_isRangeCheck (f : Byte) : IsRangeCheck (f, 1) (classField f) := classField_error_iff f

theorem countField_isRangeCheck (max : Nat) (f : Byte) : IsRangeCheck (f, max) (countField max f) :=
  countField_error_iff max f

/-- The flag `pq` is checked as a table class is. -/
theorem precisionField_eq (f : Byte) : precisionField f = (classField f).map (· == .ac) := by
  unfold precisionField classField
  split_ifs <;> rfl

theorem precisionField_isRangeCheck (f : Byte) : IsRangeCheck (f, 1) (precisionField f) := by
  intro r
  rw [precisionField_eq, ← classField_isRangeCheck f r]
  cases classField f <;> simp [Except.map]

/-! ### The first field out of range -/

/-- `x` begins with the checks of the fields `l`: the first one out of range is BAD_ARG with it. -/
def BeginsWithFields {α : Type} (l : List (Byte × Nat)) (x : Except Raise α) : Prop :=
  ∀ f, l.find? (fun p => p.2 < p.1.toNat) = some f → x = .error (.badArg, fieldInfo f.1)

theorem BeginsWithFields.nil {α : Type} (x : Except Raise α) : BeginsWithFields [] x := nofun

theorem IsRangeCheck.cons {α β : Type} {p : Byte × Nat} {l : List (Byte × Nat)} {x : Except Raise α}
    {k : α → Except Raise β} (hx : IsRangeCheck p x) (hk : ∀ a, BeginsWithFields l (k a)) :
    BeginsWithFields (p :: l) (x >>= k) := by
  intro f hf
  by_cases hp : p.2 < p.1.toNat
  · rw [List.find?_cons_of_pos (by simpa using hp)] at hf
    obtain rfl := Option.some.inj hf
    rw [(hx _).2 ⟨hp, rfl⟩]
    rfl
  · rw [List.find?_cons_of_neg (by simpa using hp)] at hf
    cases x with
    | error r => exact absurd ((hx r).1 rfl).1 hp
    | ok a => exact hk a f hf

theorem IsRangeCheck.single {α : Type} {p : Byte × Nat} {x : Except Raise α} (hx : IsRangeCheck p x) :
    BeginsWithFields [p] x := by
  simpa using hx.cons fun a => .nil (pure a)

theorem BeginsWithFields.bind {α β : Type} {l : List (Byte × Nat)} {x : Except Raise α} (hx : BeginsWithFields l x)
    (k : α → Except Raise β) : BeginsWithFields l (x >>= k) :=
  fun f hf => (bind_error_iff x k _).2 (.inl (hx f hf))

theorem tableFields_beginsWithFields (tc th : Byte) : BeginsWithFields [(tc, 1), (th, 3)] (tableFields tc th) :=
  (classField_isRangeCheck tc).cons fun _ => (indexField_isRangeCheck th).single.bind _

theorem blockFields_beginsWithFields (c td ta : Byte) :
    BeginsWithFields [(c, 3), (td, 3), (ta, 3)] (blockFields c td ta) :=
  (indexField_isRangeCheck c).cons fun _ => (indexField_isRangeCheck td).cons fun _ =>
    (indexField_isRangeCheck ta).single.bind _

theorem BeginsWithFields.checked {α : Type} {l : List (Byte × Nat)} {x : Except Raise α} (hx : BeginsWithFields l x)
    {f : Byte × Nat} (hf : l.find? (fun p => p.2 < p.1.toNat) = some f) (s : State) (i : Instr) (k : α → State) :
    (Host.Outcome.next (s.checked i x k) : Result) = .next (s.takeFault (encode i) .badArg (fieldInfo f.1)) := by
  rw [hx f hf]
  rfl

theorem exec_badArg {i : Instr} {f : Byte × Nat} (h : (fieldRanges i).find? (fun p => p.2 < p.1.toNat) = some f)
    (s : State) : exec i s = .next (s.takeFault (encode i) .badArg (fieldInfo f.1)) := by
  cases i with
  | brBits n | bwBits n => exact ((countField_isRangeCheck 16 n).single.bind _).checked h ..
  | cfExt n => exact (countField_isRangeCheck 15 n).single.checked h ..
  | fqClr tc th => exact (tableFields_beginsWithFields tc th).checked h ..
  | htLoad tc th | htStore tc th | htDec tc th | htEnc tc th | fqInc tc th | htAdapt tc th =>
    exact ((tableFields_beginsWithFields tc th).bind _).checked h ..
  | blkDec c td ta | blkSkip c td ta | blkEnc c td ta | blkDry c td ta =>
    exact ((blockFields_beginsWithFields c td ta).bind _).checked h ..
  | qtLoad pq tq =>
    exact ((precisionField_isRangeCheck pq).cons fun _ => (indexField_isRangeCheck tq).single.bind _).checked h ..
  | dequant tq => exact ((indexField_isRangeCheck tq).single.bind _).checked h ..
  | quant tq => exact (((indexField_isRangeCheck tq).single.bind _).bind _).checked h ..
  | _ => cases h

/-- Settles O4: the checks of a command find the field that the search for one above its range finds. -/
theorem fieldsOutOfRangeFault : Obligations.FieldsOutOfRangeFault :=
  ⟨wellFormed_iff, fun _ s _ h => exec_badArg h s⟩

end Sys2Proof.Machine
end

section
/-! SUPPORT. The reset values as they are seen from outside (10_state.md R39): what each register, table and frequency model of
the core reads after a reset. -/

namespace Sys2Proof.Machine

/-! ### The values of SRESET -/

@[simp] theorem State.coreReset_table (s : State) (tc : TableClass) (th : Fin 4) :
    s.coreReset.table tc th = HuffTable.empty :=
  State.resetOf_table s.params tc th

@[simp] theorem State.coreReset_freq (s : State) (tc : TableClass) (th : Fin 4) :
    s.coreReset.freq tc th = FreqModel.cleared :=
  State.resetOf_freq s.params tc th

@[simp] theorem State.coreReset_statusWord (s : State) : s.coreReset.statusWord = 0 := by
  simp [State.statusWord, State.reset]

@[simp] theorem State.coreReset_dcpvWord (s : State) : s.coreReset.dcpvWord = 0 := by
  simp [State.dcpvWord, State.reset]

@[simp] theorem Pred.unset_word : Pred.unset.word = 0 := rfl

@[simp] theorem Reader.reset_stateWord : Reader.reset.stateWord = 0 := by decide

@[simp] theorem Writer.reset_stateWord : Writer.reset.stateWord = 0 := by decide

@[simp] theorem LjSession.reset_dimWord : LjSession.reset.dimWord = 0 := by decide

@[simp] theorem LjSession.reset_cfgWord : LjSession.reset.cfgWord = 0 := by decide

/-- The register image of the reset state (10_state.md R39): PREC is the one register that does not read 0. A register packed
from several fields reads the word of its unit; the others are a field of the reset state. -/
theorem State.coreReset_readReg (s : State) (r : Reg) : s.coreReset.readReg r = if r = .prec then 8 else 0 := by
  cases r with
  | status => exact s.coreReset_statusWord
  | brState => exact Reader.reset_stateWord
  | bwState => exact Writer.reset_stateWord
  | dcpv => exact s.coreReset_dcpvWord
  | ljDim => exact LjSession.reset_dimWord
  | ljCfg => exact LjSession.reset_cfgWord
  | a i | dcp i | blkI i | blkP i => simp [State.readReg, State.reset]
  | _ => rfl

/-- Settles O20: NOP and DC_RST by their definitions, SRESET by the reset values of each unit. -/
theorem nopResetAndDcReset : Obligations.NopResetAndDcReset := by
  intro s
  refine ⟨rfl, rfl, s.coreReset, rfl, rfl, rfl, rfl, s.coreReset_readReg, fun i => ?_, fun tc th => ?_, fun tq => ?_, rfl, rfl,
    rfl⟩
  · simp
  · simp [FreqModel.cleared]
  · simp [State.reset]

end Sys2Proof.Machine
end

section
/-! SUPPORT. The commands of the BitReader and the BitWriter (41_bitio.md): what each does once its checks pass, and what a fault
in mid-command records. -/

namespace Sys2Proof.Machine

/-! ### The outcomes of a command -/

theorem faultsWith_of_raiseMid {i : Instr} {s t : State} {r : Raise} (h : exec i s = .next (t.raiseMid i r)) :
    faultsWith i s r.1 r.2 := ⟨_, h, rfl, rfl, rfl, rfl, rfl, rfl⟩

theorem State.windowArgs_eq_ok (s : State) (size : Nat) :
    s.windowArgs size = .ok () ↔ s.argNat 0 ≤ s.argNat 1 ∧ s.argNat 1 ≤ size := by
  simp [State.windowArgs, require_ok_iff]

theorem State.windowArgs_eq_error {s : State} {size : Nat} (h : ¬(s.argNat 0 ≤ s.argNat 1 ∧ s.argNat 1 ≤ size)) :
    s.windowArgs size = .error (.badArg, s.arg[(1 : Fin 4)]) := by
  simpa [State.windowArgs, require_error_iff] using h

/-- Settles O21: the window check passes or fails, and VALID with one bit set is VALID with that power of two. -/
theorem openingAWindow : Obligations.OpeningAWindow := by
  intro s
  refine ⟨fun h => ?_, fun h => ?_, fun h => ?_, fun h => ?_⟩
  · rw [exec, execBrInit, (s.windowArgs_eq_ok _).2 h]
    rfl
  · rw [exec, execBrInit, State.windowArgs_eq_error h]
    rfl
  · rw [exec, execBwInit, (s.windowArgs_eq_ok _).2 h]
    rfl
  · rw [exec, execBwInit, State.windowArgs_eq_error h]
    rfl

/-! ### Reading bits -/

theorem nextBit_eq_getBits (m : Memory) (r : Reader) :
    ((nextBit m r).andThen fun b r => .got b.toNat r) = getBits m 1 r := by
  simp [getBits, getBitsFrom]

theorem countField_ofNat {n : Nat} (h : n ≤ 16) : countField 16 (BitVec.ofNat 8 n) = .ok n :=
  (countField_ok_iff _ _ _).2 ⟨BitVec.toNat_ofNat n 8 ▸ Nat.mod_eq_of_lt (by omega), h⟩

/-- With a reader BR_BIT and BR_BITS are `get_bits` of 1 and of n (41_bitio.md R125, R126). -/
theorem exec_getBits {s : State} {i : Instr} {n : Nat} (hi : i = .brBit ∧ n = 1 ∨ i = .brBits (BitVec.ofNat 8 n) ∧ n ≤ 16)
    (hv : s.isValid 15 = true) : exec i s = .next (s.finishRead i (getBits s.inMem n s.br)) := by
  have hneeds : s.needs brValidBit = .ok () := (s.needs_ok_iff _).2 hv
  rcases hi with ⟨rfl, rfl⟩ | ⟨rfl, hn⟩
  · rw [exec, execBrBit, hneeds, State.checked_ok, nextBit_eq_getBits]
  · have hchecks : s.brBitsChecks (BitVec.ofNat 8 n) = .ok n := by
      rw [State.brBitsChecks, countField_ofNat hn]
      simp [hneeds, bind, Except.bind, pure, Except.pure]
    rw [exec, execBrBits, hchecks, State.checked_ok]

/-- Settles O22: by the three outcomes of `get_bits`, of which the clauses exclude one another. -/
theorem readingBits : Obligations.ReadingBits := by
  intro s i n hi hv hcnt
  have hexec := exec_getBits hi hv
  rcases getBits_spec s.inMem n s.br hcnt with ⟨hle, r, hg, ha⟩ | ⟨hlt, pos, second, he, r, hg, hend⟩ | ⟨hlt, addr, he, hg⟩
  · rw [hg] at hexec
    exact ⟨fun _ => ⟨r, ha, hexec⟩, fun _ _ h => absurd hle (Nat.not_le_of_lt h), fun _ h => absurd hle (Nat.not_le_of_lt h)⟩
  · rw [hg] at hexec
    refine ⟨fun h => absurd hlt (Nat.not_lt_of_le h), fun pos' second' _ he' => ?_, fun addr _ he' => ?_⟩
    · cases he.symm.trans he'
      exact ⟨r, hend, hexec⟩
    · cases he.symm.trans he'
  · rw [hg] at hexec
    refine ⟨fun h => absurd hlt (Nat.not_lt_of_le h), fun pos second _ he' => ?_, fun addr' _ he' => ?_⟩
    · cases he.symm.trans he'
    · cases he.symm.trans he'
      exact faultsWith_of_raiseMid hexec

/-! ### The restart marker that is read -/

/-- The second byte of RSTn, 30_encoding.md R93. -/
theorem restartByte_iff (b : Byte) (n : BitVec 3) : b = 0xD0 + n.setWidth 8 ↔ b.toNat = 0xD0 + n.toNat := by
  have := n.isLt
  rw [← BitVec.toNat_inj, BitVec.toNat_add, BitVec.toNat_setWidth]
  simp
  omega

/-- Two bytes as FAULT_INFO of BAD_MARKER. -/
theorem setWidth_append_bytes (a b : Byte) : ((a ++ b).setWidth 32 : Word) = BitVec.ofNat 32 (256 * a.toNat + b.toNat) := by
  apply BitVec.eq_of_toNat_eq
  rw [BitVec.toNat_setWidth, BitVec.toNat_append, BitVec.toNat_ofNat, ← Nat.shiftLeft_add_eq_or_of_lt b.isLt,
    Nat.shiftLeft_eq, Nat.mul_comm]

/-- The first fault of the checks of BR_RESYNC on the window and its next two bytes (41_bitio.md R127). -/
theorem State.restartMarker_eq (s : State) :
    s.restartMarker =
      if s.br.lim.toNat ≤ s.br.pos.toNat then .error (.ioRead, s.br.pos)
      else if s.br.lim.toNat ≤ s.br.pos.toNat + 1 then .error (.ioRead, s.br.pos + 1)
      else if s.inMem.inByte s.br.pos.toNat = 0xFF ∧ (s.inMem.inByte (s.br.pos.toNat + 1)).toNat = 0xD0 + s.rstRd.toNat
      then .ok ()
      else .error (.badMarker, BitVec.ofNat 32
        (256 * (s.inMem.inByte s.br.pos.toNat).toNat + (s.inMem.inByte (s.br.pos.toNat + 1)).toNat)) := by
  simp only [State.restartMarker, require, ← restartByte_iff, ← setWidth_append_bytes]
  by_cases h0 : s.br.lim.toNat ≤ s.br.pos.toNat
  · simp [h0, Nat.not_lt_of_le h0, bind, Except.bind]
  by_cases h1 : s.br.lim.toNat ≤ s.br.pos.toNat + 1
  · simp [h0, h1, Nat.lt_of_not_le h0, Nat.not_lt_of_le h1, bind, Except.bind]
  · simp [h0, h1, Nat.lt_of_not_le h0, Nat.lt_of_not_le h1, bind, Except.bind]

theorem exec_brResync_ok {s : State} (hv : s.isValid 15 = true) (h : s.restartMarker = .ok ()) :
    exec .brResync s = .next (State.finish
      { s with
        br := { pos := s.br.pos + 2, lim := s.br.lim, buf := 0, cnt := 0, eos := false, marker := 0 }
        res0 := s.rstRd.setWidth 32, rstRd := s.rstRd + 1
        dcp := Vector.replicate 4 { set := false, value := 0 } } false) := by
  rw [exec, execBrResync, (s.needs_ok_iff brValidBit).2 hv, State.checked_ok, h]
  rfl

theorem exec_brResync_error {s : State} {f : Raise} (hv : s.isValid 15 = true) (h : s.restartMarker = .error f) :
    faultsWith .brResync s f.1 f.2 := by
  refine faultsWith_of_raiseMid (t := s.drawReader.drawRes0.drawRstRd.drawPreds) ?_
  rw [exec, execBrResync, (s.needs_ok_iff brValidBit).2 hv, State.checked_ok, h]

/-- Settles O23: by the order of the checks on the window and the two bytes. -/
theorem restartMarkerRead : Obligations.RestartMarkerRead := by
  intro s
  have heq := s.restartMarker_eq
  refine ⟨fun h => exec_notReady rfl (by simp [neededBits, h]), fun hv => ⟨fun hw h0 h1 => ?_, fun hw => ?_, fun hp hw => ?_,
    fun hw hne => ?_⟩⟩
  · rw [if_neg (by omega), if_neg (by omega), if_pos ⟨h0, h1⟩] at heq
    exact exec_brResync_ok hv heq
  · rw [if_pos hw] at heq
    exact exec_brResync_error hv heq
  · rw [if_neg (by omega), if_pos hw] at heq
    exact exec_brResync_error hv heq
  · rw [if_neg (by omega), if_neg (by omega), if_neg hne] at heq
    exact exec_brResync_error hv heq

/-! ### Writing bits -/

theorem numBits_mod (v n : Nat) : numBits (v % 2 ^ n) n = numBits v n := by
  apply List.map_congr_left
  intro i hi
  have := List.mem_range.1 hi
  rw [Nat.testBit_mod_two_pow, decide_eq_true (by omega), Bool.true_and]

/-- With a writer a command that writes bits appends them, or its fault is the writer's at the window's end. -/
theorem State.finishWrite_append {s : State} {i : Instr} {x : Except Raise Sink} {bits : List Bool}
    (hexec : exec i s = .next (s.finishWrite i x))
    (hx : (s.sink.w.room bits ∧ x = .ok (s.sink.append bits)) ∨
      (¬s.sink.w.room bits ∧ x = .error (.ioWrite, s.sink.w.lim))) :
    (s.bw.room bits → exec i s = .next ((s.setSink (s.sink.append bits)).finish false)) ∧
      (¬s.bw.room bits → faultsWith i s .ioWrite s.bw.lim) := by
  rcases hx with ⟨hr, rfl⟩ | ⟨hr, rfl⟩
  · exact ⟨fun _ => hexec, fun h => absurd hr h⟩
  · exact ⟨fun h => absurd h hr, fun _ => faultsWith_of_raiseMid hexec⟩

/-- Settles O24: both commands end in `put_bits` or `flush_bits`, which append. -/
theorem writingBits : Obligations.WritingBits := by
  intro s i bits hi hv hok
  have hneeds : s.needs bwValidBit = .ok () := (s.needs_ok_iff _).2 hv
  rcases hi with ⟨n, hn, rfl, rfl⟩ | ⟨rfl, rfl⟩
  · have hchecks : s.bwBitsChecks (BitVec.ofNat 8 n) = .ok n := by
      rw [State.bwBitsChecks, countField_ofNat hn]
      simp [hneeds, bind, Except.bind, pure, Except.pure]
    refine State.finishWrite_append (x := putBits (s.argLow n) n s.sink) ?_ ?_
    · rw [exec, execBwBits, hchecks, State.checked_ok]
    · rw [← numBits_mod]
      exact putBits_spec _ n s.sink hok
  · refine State.finishWrite_append (x := flushBits s.sink) ?_ (flushBits_spec s.sink hok)
    rw [exec, execBwFlush, hneeds, State.checked_ok]

/-! ### The restart marker that is written -/

/-- Two bytes written without stuffing, or the window is full before the second. -/
theorem writeOut_writeOut_spec (a b : Byte) (k : Sink) (h : k.w.pos.toNat ≤ k.w.lim.toNat) :
    (k.w.pos.toNat + 2 ≤ k.w.lim.toNat ∧
      (writeOut a k >>= writeOut b) =
        .ok { w := { k.w with pos := k.w.pos + 2 }, out := k.out.setList k.w.pos.toNat [a, b] }) ∨
    (k.w.lim.toNat < k.w.pos.toNat + 2 ∧ (writeOut a k >>= writeOut b) = .error (.ioWrite, k.w.lim)) := by
  rcases writeOut_spec a k h with ⟨hlt, ha, hp⟩ | ⟨he, ha⟩
  · rw [ha]
    rcases writeOut_spec b { w := { k.w with pos := k.w.pos + 1 }, out := k.out.set k.w.pos.toNat a } (hp.trans_le hlt)
      with ⟨hlt', hb, -⟩ | ⟨he', hb⟩
    · refine .inl ⟨?_, hb.trans ?_⟩
      · dsimp only at hlt'
        omega
      · dsimp only
        rw [hp, BitVec.add_assoc]
        rfl
    · refine .inr ⟨?_, hb⟩
      have := congrArg BitVec.toNat he'
      dsimp only at this
      omega
  · exact .inr ⟨by rw [he]; omega, by rw [ha]; rfl⟩

/-- Everything the byte writes of BW_RST do (41_bitio.md R137). -/
theorem writeRestart_spec (n : BitVec 3) (k : Sink) (h : k.w.ok) :
    (k.w.room k.w.padding ∧ (k.append k.w.padding).w.pos.toNat + 2 ≤ k.w.lim.toNat ∧
      writeRestart n k = .ok
        { w := { (k.append k.w.padding).w with pos := (k.append k.w.padding).w.pos + 2 }
          out := (k.append k.w.padding).out.setList (k.append k.w.padding).w.pos.toNat [0xFF, 0xD0 + n.setWidth 8] }) ∨
    (¬(k.w.room k.w.padding ∧ (k.append k.w.padding).w.pos.toNat + 2 ≤ k.w.lim.toNat) ∧
      writeRestart n k = .error (.ioWrite, k.w.lim)) := by
  rcases flushBits_spec k h with ⟨hr, hf⟩ | ⟨hr, hf⟩
  · have hw : writeRestart n k = (writeOut 0xFF (k.append k.w.padding) >>= writeOut (0xD0 + n.setWidth 8)) := by
      rw [writeRestart, hf]
      rfl
    rw [hw]
    rcases writeOut_writeOut_spec 0xFF (0xD0 + n.setWidth 8) _ (k.append_ok _ hr).1 with ⟨hle, ho⟩ | ⟨hlt, ho⟩
    · exact .inl ⟨hr, hle, ho⟩
    · exact .inr ⟨fun hc => absurd hc.2 (Nat.not_le_of_lt hlt), ho⟩
  · refine .inr ⟨fun hc => hr hc.1, ?_⟩
    rw [writeRestart, hf]
    rfl

theorem exec_bwRst_ok {s : State} {k : Sink} (hv : s.isValid 16 = true) (h : writeRestart s.rstWr s.sink = .ok k) :
    exec .bwRst s = .next (State.finish
      { (s.setSink k).clearPreds with res0 := s.rstWr.setWidth 32, rstWr := s.rstWr + 1 } false) := by
  rw [exec, execBwRst, (s.needs_ok_iff bwValidBit).2 hv, State.checked_ok, h]

theorem exec_bwRst_error {s : State} {f : Raise} (hv : s.isValid 16 = true)
    (h : writeRestart s.rstWr s.sink = .error f) : faultsWith .bwRst s f.1 f.2 := by
  refine faultsWith_of_raiseMid (t := s.drawWriter.drawRes0.drawRstWr.drawPreds) ?_
  rw [exec, execBwRst, (s.needs_ok_iff bwValidBit).2 hv, State.checked_ok, h]

/-- Settles O25: by the flush and the two bytes behind it. -/
theorem restartMarkerWritten : Obligations.RestartMarkerWritten := by
  intro s
  refine ⟨fun h => exec_notReady rfl (by simp [neededBits, h]), fun hv hok => ?_⟩
  rcases writeRestart_spec s.rstWr s.sink hok with ⟨hr, hle, hw⟩ | ⟨hr, hw⟩
  · exact ⟨fun _ _ => exec_bwRst_ok hv hw, fun hc => absurd ⟨hr, hle⟩ hc⟩
  · exact ⟨fun h h' => absurd ⟨h, h'⟩ hr, fun _ => exec_bwRst_error hv hw⟩

end Sys2Proof.Machine
end

section
/-! SUPPORT. Written bits read back (41_bitio.md R132): the bytes that go out are a stuffed list of whole bytes, the segment at
them begins with that list, and reading takes the values off its bits one by one. -/

namespace Sys2Proof.Machine

/-! ### The bits that values write -/

/-- The bits of values written one after the other, each with its width. -/
def valuesBits (vs : List (Nat × Nat)) : List Bool := vs.flatMap fun p => numBits p.1 p.2

theorem valuesBits_cons (p : Nat × Nat) (vs : List (Nat × Nat)) :
    valuesBits (p :: vs) = numBits p.1 p.2 ++ valuesBits vs := rfl

theorem writeAll_ok {vs : List (Nat × Nat)} {k k' : Sink} (h : k.w.ok) (hk : writeAll vs k = .ok k') :
    k.w.room (valuesBits vs) ∧ k' = k.append (valuesBits vs) := by
  induction vs generalizing k with
  | nil =>
    obtain rfl := Except.ok.inj hk
    rcases putBits_spec 0 0 k h with ⟨hr, -⟩ | ⟨-, he⟩
    · exact ⟨hr, (k.append_nil h).symm⟩
    · cases he
  | cons p vs ih =>
    rw [writeAll] at hk
    rcases putBits_spec p.1 p.2 k h with ⟨hr, hp⟩ | ⟨-, hp⟩ <;> rw [hp] at hk
    · obtain ⟨hr', rfl⟩ := ih (k.append_ok _ hr) hk
      exact ⟨(k.append_room _ _).2 ⟨hr, hr'⟩, k.append_append _ _ hr⟩
    · cases hk

/-! ### Whole bytes and their bits -/

theorem byteBits_bitsValue {l : List Bool} (h : l.length = 8) : byteBits (BitVec.ofNat 8 (bitsValue l)) = l := by
  have hb : byteBits (BitVec.ofNat 8 (bitsValue l)) = numBits (bitsValue l % 2 ^ 8) 8 := rfl
  rw [hb, numBits_mod, ← h, numBits_bitsValue]

/-- Bits that fill whole bytes are the bits of those bytes. -/
theorem fullBytes_flatMap_byteBits {l : List Bool} (h : 8 ∣ l.length) : (fullBytes l).flatMap byteBits = l := by
  obtain ⟨q, hq⟩ := h
  induction q generalizing l with
  | zero =>
    rw [List.length_eq_zero_iff.1 hq]
    rfl
  | succ q ih =>
    have h8 : (l.take 8).length = 8 := by rw [List.length_take]; omega
    have hrest : (fullBytes (l.drop 8)).flatMap byteBits = l.drop 8 := ih (by rw [List.length_drop]; omega)
    conv_lhs => rw [← List.take_append_drop 8 l]
    rw [fullBytes_append _ _ (by rw [h8]), fullBytes_eight _ h8, List.flatMap_append, hrest, List.flatMap_singleton,
      byteBits_bitsValue h8, List.take_append_drop]

/-- The padding of `flush_bits` fills the byte that is held. -/
theorem Writer.dvd_joined_padding (w : Writer) : 8 ∣ (w.joined w.padding).length := by
  have := w.cnt.isLt
  rw [Writer.joined, Writer.padding, List.length_append, numBits_length]
  split_ifs with h0
  · simp [h0]
  · simp only [List.length_replicate]
    omega

/-- Bits appended to an empty byte and then padded fill whole bytes. -/
theorem Sink.dvd_append_padding {k : Sink} (hc : k.w.cnt = 0) (bits : List Bool) :
    8 ∣ (bits ++ (k.append bits).w.padding).length := by
  have h := (k.append bits).w.dvd_joined_padding
  have hj : k.w.joined bits = bits := by rw [Writer.joined, hc]; rfl
  rw [k.append_joined, hj, List.length_append, heldBits_length] at h
  rw [List.length_append]
  omega

/-- Values written from an empty byte and flushed are appended with a padding that fills the last byte. -/
theorem writeAll_flushBits_ok {vs : List (Nat × Nat)} {k k' k'' : Sink} (h : k.w.ok) (hc : k.w.cnt = 0)
    (hwrite : writeAll vs k = .ok k') (hflush : flushBits k' = .ok k'') :
    ∃ l, valuesBits vs <+: l ∧ 8 ∣ l.length ∧ k.w.room l ∧ k'' = k.append l := by
  obtain ⟨hroom, rfl⟩ := writeAll_ok h hwrite
  rcases flushBits_spec _ (k.append_ok _ hroom) with ⟨hpad, hf⟩ | ⟨-, hf⟩ <;> rw [hf] at hflush <;> cases hflush
  exact ⟨_, List.prefix_append _ _, Sink.dvd_append_padding hc _, (k.append_room _ _).2 ⟨hroom, hpad⟩,
    k.append_append _ _ hroom⟩

/-! ### Reading stuffed bytes -/

theorem Memory.readList_succ (m : Memory) (a n : Nat) :
    m.readList a (n + 1) = m.inByte a :: m.readList (a + 1) n := by
  simp [Memory.readList, List.range_succ_eq_map, Function.comp_def, Nat.add_assoc, Nat.add_comm 1]

theorem Memory.readList_congr {m m' : Memory} {a n : Nat} (h : ∀ b, a ≤ b → b < a + n → m.get? b = m'.get? b) :
    m.readList a n = m'.readList a n := by
  apply List.map_congr_left
  intro i hi
  have := List.mem_range.1 hi
  rw [Memory.inByte, Memory.inByte, h _ (by omega) (by omega)]

theorem stuff_cons (b : Byte) (bs : List Byte) : stuff (b :: bs) = if b = 0xFF then b :: 0 :: stuff bs else b :: stuff bs := by
  rw [stuff, List.flatMap_cons]
  split_ifs <;> rfl

/-- A segment that stands at stuffed bytes begins with those bytes, destuffed (30_encoding.md R92). -/
theorem prefix_segment_of_stuff {m : Memory} {lim pos : Nat} {bs : List Byte} (hlim : pos + (stuff bs).length ≤ lim)
    (hm : m.readList pos (stuff bs).length = stuff bs) : bs <+: (segment m lim (lim - pos) pos).1 := by
  induction bs generalizing pos with
  | nil => exact List.nil_prefix
  | cons b bs ih =>
    rw [segment_step]
    by_cases hb : b = 0xFF
    · simp only [stuff_cons, if_pos hb, List.length_cons, Memory.readList_succ, List.cons.injEq] at hlim hm
      obtain ⟨h0, h1, hrest⟩ := hm
      rw [if_neg (by omega), if_neg (by simpa [h0] using hb), if_neg (by omega), if_pos h1]
      exact List.cons_prefix_cons.2 ⟨hb, ih (by omega) hrest⟩
    · simp only [stuff_cons, if_neg hb, List.length_cons, Memory.readList_succ, List.cons.injEq] at hlim hm
      obtain ⟨h0, hrest⟩ := hm
      rw [if_neg (by omega), if_pos (by simpa [h0] using hb), h0]
      exact List.cons_prefix_cons.2 ⟨rfl, ih (by omega) hrest⟩

/-- A reader whose next bits are those of values reads these values. -/
theorem readAll_got {m : Memory} {vs : List (Nat × Nat)} {r : Reader} (hvs : ∀ p ∈ vs, p.1 < 2 ^ p.2)
    (h8 : r.cnt.toNat ≤ 8) (hr : valuesBits vs <+: r.bits m) :
    ∃ r', readAll m (vs.map Prod.snd) r = .got (vs.map Prod.fst) r' := by
  induction vs generalizing r with
  | nil => exact ⟨r, rfl⟩
  | cons p vs ih =>
    obtain ⟨l, hl⟩ := hr
    rw [valuesBits_cons, List.append_assoc] at hl
    have hlen : p.2 ≤ (r.bits m).length := by rw [← hl, List.length_append, numBits_length]; omega
    rcases getBits_spec m p.2 r h8 with ⟨-, r', hg, ha⟩ | ⟨hlt, -⟩ | ⟨hlt, -⟩
    · have hv : bitsValue ((r.bits m).take p.2) = p.1 := by
        rw [← hl, List.take_left' (numBits_length _ _), bitsValue_numBits, Nat.mod_eq_of_lt (hvs p List.mem_cons_self)]
      have hrest : valuesBits vs <+: r'.bits m := by
        rw [ha.bits, ← hl, List.drop_left' (numBits_length _ _)]
        exact List.prefix_append _ _
      obtain ⟨r'', hread⟩ := ih (fun q hq => hvs q (List.mem_cons_of_mem _ hq)) ha.cnt hrest
      refine ⟨r'', ?_⟩
      rw [List.map_cons, List.map_cons, readAll, hg, Bits.andThen_got, hread, Bits.andThen_got, hv]
    · exact absurd hlen (Nat.not_le_of_lt hlt)
    · exact absurd hlen (Nat.not_le_of_lt hlt)

/-- Settles O26: the values and the padding are appended as whole bytes, and the reader's next bits are those of the bytes. -/
theorem writtenBitsReadBack : Obligations.WrittenBitsReadBack := by
  intro vs k k' k'' m r hvs hpos hbuf hcnt hwrite hflush hrpos hrcnt heos hlim hm
  have hok : k.w.ok := ⟨hpos, by rw [hbuf, hcnt]; decide⟩
  obtain ⟨l, hl, hdvd, hroom, rfl⟩ := writeAll_flushBits_ok hok hcnt hwrite hflush
  have hout : k.w.outBytes l = stuff (fullBytes l) := by rw [Writer.outBytes, Writer.joined, hcnt]; rfl
  rw [k.append_pos l hroom, hout] at hlim hm
  have hread : m.readList k.w.pos.toNat (stuff (fullBytes l)).length = stuff (fullBytes l) := by
    rw [Memory.readList_congr hm, k.append_eq, hout]
    exact Memory.readList_setList _ _ _
  have hbits : r.bits m = (segment m r.lim.toNat (r.lim.toNat - k.w.pos.toNat) k.w.pos.toNat).1.flatMap byteBits := by
    rw [Reader.bits, r.rest_open m heos, hrcnt, hrpos]
    rfl
  refine readAll_got (fun p hp => (hvs p hp).2) (by rw [hrcnt]; decide) ?_
  calc
    valuesBits vs <+: l := hl
    _ = (fullBytes l).flatMap byteBits := (fullBytes_flatMap_byteBits hdvd).symm
    _ <+: r.bits m := hbits ▸ (prefix_segment_of_stuff hlim hread).flatMap byteBits

end Sys2Proof.Machine
end

section
/-! SUPPORT. Canonical codes (42_huffman.md R150 to R154): the lengths that counts list, the codes that lengths get, when there are
enough of them, and that no code begins another. -/

namespace Sys2Proof.Machine

/-! ### Code lengths -/

theorem codeSizes_length (i : Nat) (counts : List Nat) : (codeSizes i counts).length = counts.sum := by
  induction counts generalizing i with
  | nil => rfl
  | cons c cs ih => simp [codeSizes, ih]

theorem mem_codeSizes {z i : Nat} {counts : List Nat} (h : z ∈ codeSizes i counts) : i ≤ z ∧ z < i + counts.length := by
  induction counts generalizing i with
  | nil => simp [codeSizes] at h
  | cons c cs ih =>
    rw [codeSizes, List.mem_append, List.mem_replicate] at h
    rw [List.length_cons]
    rcases h with ⟨_, rfl⟩ | h
    · omega
    · have := ih h
      omega

theorem codeSizes_pairwise (i : Nat) (counts : List Nat) : (codeSizes i counts).Pairwise (· ≤ ·) := by
  induction counts generalizing i with
  | nil => exact .nil
  | cons c cs ih =>
    refine List.pairwise_append.2 ⟨List.pairwise_replicate_of_refl, ih (i + 1), fun a ha b hb => ?_⟩
    obtain ⟨_, rfl⟩ := List.mem_replicate.1 ha
    have := mem_codeSizes hb
    omega

theorem codeSizes_count (i j : Nat) (counts : List Nat) : (codeSizes i counts).count (i + j) = counts.getD j 0 := by
  induction counts generalizing i j with
  | nil => rfl
  | cons c cs ih =>
    rw [codeSizes, List.count_append, List.count_replicate]
    rcases j with _ | j
    · have : (codeSizes (i + 1) cs).count i = 0 := List.count_eq_zero.2 fun h => absurd (mem_codeSizes h).1 (by omega)
      simp [this]
    · rw [← Nat.add_assoc, Nat.add_right_comm, ih, if_neg (by simp; omega), Nat.zero_add, List.getD_cons_succ]

/-- A sum over the listed lengths, taken length by length. -/
theorem codeSizes_map_sum (f : Nat → Nat) (i : Nat) (counts : List Nat) :
    ((codeSizes i counts).map f).sum = ((List.range counts.length).map fun j => counts.getD j 0 * f (i + j)).sum := by
  induction counts generalizing i with
  | nil => rfl
  | cons c cs ih =>
    rw [codeSizes, List.map_append, List.sum_append, ih, List.length_cons, List.range_succ_eq_map]
    simp [Function.comp_def, Nat.add_assoc, Nat.add_comm 1]

@[simp] theorem HuffSpec.lengths_length (p : HuffSpec) : p.lengths.length = 16 := by simp [HuffSpec.lengths]

theorem HuffSpec.size_bounds {p : HuffSpec} {z : Nat} (h : z ∈ codeSizes 1 p.lengths) : 1 ≤ z ∧ z ≤ 16 := by
  have := mem_codeSizes h
  rw [p.lengths_length] at this
  omega

/-- The Kraft sum, code by code (42_huffman.md R154). -/
theorem HuffSpec.kraft_eq (p : HuffSpec) : p.kraft = ((codeSizes 1 p.lengths).map fun z => 2 ^ (16 - z)).sum := by
  rw [codeSizes_map_sum, p.lengths_length, HuffSpec.kraft]
  simp [Nat.sub_add_eq]

/-! ### Codes by length -/

/-- A code of `b.1` bits that comes after the code `a`: neither `a` nor one that `a` begins (42_huffman.md R152). -/
def CodeBefore (a b : Nat × Nat) : Prop := a.1 ≤ b.1 ∧ (a.2 + 1) * 2 ^ (b.1 - a.1) ≤ b.2

theorem assignCodes_cons_ok_iff {code si z : Nat} {zs : List Nat} {cs : List (Nat × Nat)} :
    assignCodes code si (z :: zs) = .ok cs ↔ code * 2 ^ (z - si) < 2 ^ z ∧
      ∃ rest, assignCodes (code * 2 ^ (z - si) + 1) z zs = .ok rest ∧ cs = (z, code * 2 ^ (z - si)) :: rest := by
  rw [assignCodes]
  by_cases hc : 2 ^ z ≤ code * 2 ^ (z - si)
  · simp [hc, Nat.not_lt_of_le hc]
  · rw [if_neg hc]
    cases assignCodes (code * 2 ^ (z - si) + 1) z zs <;> simp [Nat.lt_of_not_le hc, eq_comm]

/-- A sum of code values in codes of `N` bits. -/
theorem pow_scale {c si z N : Nat} (h1 : si ≤ z) (h2 : z ≤ N) : c * 2 ^ (z - si) * 2 ^ (N - z) = c * 2 ^ (N - si) := by
  rw [Nat.mul_assoc, ← Nat.pow_add]
  congr 2
  omega

/-- Codes can be assigned exactly when the codes before them and theirs, counted in codes of `N` bits, are at most all of these
(42_huffman.md R154). -/
theorem assignCodes_spec {N code si : Nat} {zs : List Nat} (hs : (si :: zs).Pairwise (· ≤ ·)) (hN : ∀ z ∈ si :: zs, z ≤ N)
    (hc : code ≤ 2 ^ si) :
    (code * 2 ^ (N - si) + (zs.map fun z => 2 ^ (N - z)).sum ≤ 2 ^ N ∧ ∃ cs, assignCodes code si zs = .ok cs) ∨
    (2 ^ N < code * 2 ^ (N - si) + (zs.map fun z => 2 ^ (N - z)).sum ∧ assignCodes code si zs = .error (.badTable, 4)) := by
  induction zs generalizing code si with
  | nil =>
    refine .inl ⟨?_, [], rfl⟩
    have := Nat.mul_le_mul_right (2 ^ (N - si)) hc
    rwa [← Nat.pow_add, Nat.add_sub_cancel' (hN si List.mem_cons_self)] at this
  | cons z zs ih =>
    obtain ⟨hsi, hzs⟩ := List.pairwise_cons.1 hs
    have hle : si ≤ z := hsi z List.mem_cons_self
    have hzN : z ≤ N := hN z (List.mem_cons_of_mem _ List.mem_cons_self)
    have hpow : 2 ^ z * 2 ^ (N - z) = 2 ^ N := by rw [← Nat.pow_add, Nat.add_sub_cancel' hzN]
    have hpos : 0 < 2 ^ (N - z) := Nat.two_pow_pos _
    rw [List.map_cons, List.sum_cons, ← pow_scale hle hzN, ← Nat.add_assoc, ← Nat.succ_mul]
    by_cases hfit : 2 ^ z ≤ code * 2 ^ (z - si)
    · refine .inr ⟨?_, by rw [assignCodes, if_pos hfit]⟩
      calc
        2 ^ N = 2 ^ z * 2 ^ (N - z) := hpow.symm
        _ < (code * 2 ^ (z - si) + 1) * 2 ^ (N - z) := Nat.mul_lt_mul_of_pos_right (Nat.lt_succ_of_le hfit) hpos
        _ ≤ _ := Nat.le_add_right _ _
    · rcases ih hzs (fun x hx => hN x (List.mem_cons_of_mem _ hx)) (Nat.succ_le_of_lt (Nat.lt_of_not_le hfit)) with
        ⟨hk, cs, hcs⟩ | ⟨hk, he⟩
      · exact .inl ⟨hk, _, assignCodes_cons_ok_iff.2 ⟨Nat.lt_of_not_le hfit, cs, hcs, rfl⟩⟩
      · exact .inr ⟨hk, by simp only [assignCodes, if_neg hfit, he]⟩

theorem assignCodes_map_fst {code si : Nat} {zs : List Nat} {cs : List (Nat × Nat)} (h : assignCodes code si zs = .ok cs) :
    cs.map Prod.fst = zs := by
  induction zs generalizing code si cs with
  | nil => cases h; rfl
  | cons z zs ih =>
    obtain ⟨_, rest, hrest, rfl⟩ := assignCodes_cons_ok_iff.1 h
    rw [List.map_cons, ih hrest]

/-- The codes in order: from the given one on, each below the number of its length and before all that follow it. -/
theorem assignCodes_ordered {code si : Nat} {zs : List Nat} {cs : List (Nat × Nat)} (h : assignCodes code si zs = .ok cs)
    (hs : (si :: zs).Pairwise (· ≤ ·)) :
    (∀ b ∈ cs, si ≤ b.1 ∧ code * 2 ^ (b.1 - si) ≤ b.2 ∧ b.2 < 2 ^ b.1) ∧ cs.Pairwise CodeBefore := by
  induction zs generalizing code si cs with
  | nil => cases h; simp
  | cons z zs ih =>
    obtain ⟨hlt, rest, hrest, rfl⟩ := assignCodes_cons_ok_iff.1 h
    obtain ⟨hsi, hzs⟩ := List.pairwise_cons.1 hs
    have hle : si ≤ z := hsi z List.mem_cons_self
    obtain ⟨hmem, hpair⟩ := ih hrest hzs
    refine ⟨fun b hb => ?_, List.pairwise_cons.2 ⟨fun b hb => ⟨(hmem b hb).1, (hmem b hb).2.1⟩, hpair⟩⟩
    rcases List.mem_cons.1 hb with rfl | hb
    · exact ⟨hle, Nat.le_refl _, hlt⟩
    · obtain ⟨hz, hcode, hb2⟩ := hmem b hb
      refine ⟨hle.trans hz, ?_, hb2⟩
      rw [← pow_scale hle hz]
      exact (Nat.mul_le_mul_right _ (Nat.le_succ _)).trans hcode

/-- The first code is the given one, each next one more, both shifted left once per step of length (42_huffman.md R152). -/
theorem assignCodes_succ {code si : Nat} {zs : List Nat} {cs : List (Nat × Nat)} (h : assignCodes code si zs = .ok cs) :
    (∀ a, cs.head? = some a → a.2 = code * 2 ^ (a.1 - si)) ∧ cs.IsChain fun a b => b.2 = (a.2 + 1) * 2 ^ (b.1 - a.1) := by
  induction zs generalizing code si cs with
  | nil => cases h; simp
  | cons z zs ih =>
    obtain ⟨_, rest, hrest, rfl⟩ := assignCodes_cons_ok_iff.1 h
    obtain ⟨hhead, hchain⟩ := ih hrest
    refine ⟨fun a ha => by cases ha; rfl, ?_⟩
    rw [List.isChain_cons]
    exact ⟨hhead, hchain⟩

/-- Every code and those before it, counted in codes of `N` bits, are among all that are assigned. -/
theorem assignCodes_le_sum {N code si : Nat} {zs : List Nat} {cs : List (Nat × Nat)} (h : assignCodes code si zs = .ok cs)
    (hs : (si :: zs).Pairwise (· ≤ ·)) (hN : ∀ z ∈ zs, z ≤ N) :
    ∀ b ∈ cs, (b.2 + 1) * 2 ^ (N - b.1) ≤ code * 2 ^ (N - si) + (zs.map fun z => 2 ^ (N - z)).sum := by
  induction zs generalizing code si cs with
  | nil => cases h; simp
  | cons z zs ih =>
    obtain ⟨_, rest, hrest, rfl⟩ := assignCodes_cons_ok_iff.1 h
    obtain ⟨hsi, hzs⟩ := List.pairwise_cons.1 hs
    rw [List.map_cons, List.sum_cons, ← pow_scale (hsi z List.mem_cons_self) (hN z List.mem_cons_self), ← Nat.add_assoc,
      ← Nat.succ_mul]
    intro b hb
    rcases List.mem_cons.1 hb with rfl | hb
    · exact Nat.le_add_right _ _
    · exact ih hrest hzs (fun x hx => hN x (List.mem_cons_of_mem _ hx)) b hb

end Sys2Proof.Machine
end

section
/-! SUPPORT. The tables of a specification (42_huffman.md R150 to R154): the slots of a decode table are the assigned codes beside
the symbols, an encode table has the last slot of each symbol. -/

namespace Sys2Proof.Machine

/-! ### The slots of a decode table -/

/-- Length and code of a slot as numbers. -/
def Slot.pair (k : Slot) : Nat × Nat := (k.size.toNat, k.code.toNat)

theorem HuffSpec.sizes_pairwise (p : HuffSpec) : (0 :: codeSizes 1 p.lengths).Pairwise (· ≤ ·) :=
  List.pairwise_cons.2 ⟨fun _ _ => Nat.zero_le _, codeSizes_pairwise 1 p.lengths⟩

/-- The codes that a specification assigns, each in its range. -/
theorem HuffSpec.code_bounds {p : HuffSpec} {codes : List (Nat × Nat)}
    (h : assignCodes 0 0 (codeSizes 1 p.lengths) = .ok codes) : ∀ c ∈ codes, 1 ≤ c.1 ∧ c.1 ≤ 16 ∧ c.2 < 2 ^ c.1 := by
  intro c hc
  have hz : c.1 ∈ codeSizes 1 p.lengths := assignCodes_map_fst h ▸ List.mem_map_of_mem hc
  obtain ⟨h1, h16⟩ := HuffSpec.size_bounds hz
  exact ⟨h1, h16, ((assignCodes_ordered h p.sizes_pairwise).1 c hc).2.2⟩

theorem zipWith_slot_pair {codes : List (Nat × Nat)} (h : ∀ c ∈ codes, 1 ≤ c.1 ∧ c.1 ≤ 16 ∧ c.2 < 2 ^ c.1) (syms : List Byte) :
    (List.zipWith (fun zc v => ({ size := BitVec.ofNat 5 zc.1, code := BitVec.ofNat 16 zc.2, sym := v } : Slot)) codes syms).map
      Slot.pair = codes.take syms.length := by
  induction codes generalizing syms with
  | nil => simp
  | cons c codes ih =>
    rcases syms with _ | ⟨v, syms⟩
    · rfl
    · obtain ⟨_, h16, hc⟩ := h c List.mem_cons_self
      have hcode : c.2 < 2 ^ 16 := hc.trans_le (Nat.pow_le_pow_right (by omega) h16)
      rw [List.zipWith_cons_cons, List.map_cons, ih (fun x hx => h x (List.mem_cons_of_mem _ hx)), List.length_cons,
        List.take_succ_cons]
      congr 1
      exact Prod.ext (Nat.mod_eq_of_lt (by omega)) (Nat.mod_eq_of_lt hcode)

theorem zipWith_slot_sym (codes : List (Nat × Nat)) (syms : List Byte) :
    (List.zipWith (fun zc v => ({ size := BitVec.ofNat 5 zc.1, code := BitVec.ofNat 16 zc.2, sym := v } : Slot)) codes syms).map
      Slot.sym = syms.take codes.length := by
  induction codes generalizing syms with
  | nil => simp
  | cons c codes ih =>
    rcases syms with _ | ⟨v, syms⟩
    · rfl
    · rw [List.zipWith_cons_cons, List.map_cons, ih, List.length_cons, List.take_succ_cons]

/-- The slots that are built are the codes assigned to the lengths of the specification, beside its symbols. -/
theorem buildSlots_ok {p : HuffSpec} {slots : List Slot} (h : buildSlots p = .ok slots) :
    ∃ codes, assignCodes 0 0 (codeSizes 1 p.lengths) = .ok codes ∧ slots.map Slot.pair = codes.take p.syms.length ∧
      slots.map Slot.sym = p.syms.take codes.length := by
  rw [buildSlots] at h
  cases hc : assignCodes 0 0 (codeSizes 1 p.lengths) with
  | error r => simp [hc] at h
  | ok codes =>
    rw [hc] at h
    obtain rfl := Except.ok.inj h
    exact ⟨codes, rfl, zipWith_slot_pair (HuffSpec.code_bounds hc) _, zipWith_slot_sym _ _⟩

theorem buildTable_ok_iff {p : HuffSpec} {t : HuffTable} :
    buildTable p = .ok t ↔ t.spec = p ∧ buildSlots p = .ok t.dec ∧ t.enc = encodeTable t.dec := by
  rw [buildTable]
  cases buildSlots p with
  | error r => simp
  | ok slots =>
    constructor
    · intro h
      obtain rfl := Except.ok.inj h
      exact ⟨rfl, rfl, rfl⟩
    · rintro ⟨rfl, ⟨⟩, henc⟩
      exact congrArg (fun enc => Except.ok { t with enc := enc }) henc.symm

/-- A table that agrees with its specification has the slots of it. -/
theorem HuffTable.ok.slots {t : HuffTable} (h : t.ok) : buildSlots t.spec = .ok t.dec := (buildTable_ok_iff.1 h).2.1

/-- A build fails with BAD_TABLE(4) or not at all, by the Kraft sum (42_huffman.md R154). -/
theorem buildTable_spec (p : HuffSpec) :
    (p.kraft ≤ 2 ^ 16 ∧ ∃ t, buildTable p = .ok t) ∨ (2 ^ 16 < p.kraft ∧ buildTable p = .error (.badTable, 4)) := by
  have hN : ∀ z ∈ 0 :: codeSizes 1 p.lengths, z ≤ 16 := by
    intro z hz
    rcases List.mem_cons.1 hz with rfl | hz
    · exact Nat.zero_le _
    · exact (HuffSpec.size_bounds hz).2
  have hspec := assignCodes_spec p.sizes_pairwise hN (Nat.zero_le (2 ^ 0))
  rw [Nat.zero_mul, Nat.zero_add, ← p.kraft_eq] at hspec
  rcases hspec with ⟨hk, codes, hc⟩ | ⟨hk, hc⟩
  · exact .inl ⟨hk, _, by rw [buildTable, buildSlots, hc]⟩
  · exact .inr ⟨hk, by rw [buildTable, buildSlots, hc]⟩

theorem slot_bounds {p : HuffSpec} {slots : List Slot} (h : buildSlots p = .ok slots) :
    ∀ k ∈ slots, 1 ≤ k.size.toNat ∧ k.size.toNat ≤ 16 ∧ k.code.toNat < 2 ^ k.size.toNat := by
  obtain ⟨codes, hc, hpair, -⟩ := buildSlots_ok h
  intro k hk
  exact HuffSpec.code_bounds hc k.pair (List.mem_of_mem_take (hpair ▸ List.mem_map_of_mem hk))

theorem slots_pairwise {p : HuffSpec} {slots : List Slot} (h : buildSlots p = .ok slots) :
    slots.Pairwise fun a b => CodeBefore a.pair b.pair := by
  obtain ⟨codes, hc, hpair, -⟩ := buildSlots_ok h
  refine List.pairwise_map.1 (hpair ▸ ?_)
  exact (assignCodes_ordered hc p.sizes_pairwise).2.sublist (List.take_sublist _ _)

/-! ### Codes as bits -/

theorem numBits_take {v n k : Nat} (h : k ≤ n) : (numBits v n).take k = numBits (v / 2 ^ (n - k)) k := by
  apply List.ext_getElem
  · simp [h]
  · intro i h1 h2
    rw [numBits_length] at h2
    simp only [numBits, List.getElem_take, List.getElem_map, List.getElem_range, Nat.testBit_div_two_pow]
    congr 1
    omega

theorem numBits_inj {v w n : Nat} (hv : v < 2 ^ n) (hw : w < 2 ^ n) (h : numBits v n = numBits w n) : v = w := by
  have := congrArg bitsValue h
  rwa [bitsValue_numBits, bitsValue_numBits, Nat.mod_eq_of_lt hv, Nat.mod_eq_of_lt hw] at this

/-- A code begins no code that comes after it. -/
theorem CodeBefore.not_prefix {a b : Nat × Nat} (h : CodeBefore a b) (ha : a.2 < 2 ^ a.1) (hb : b.2 < 2 ^ b.1) :
    ¬numBits a.2 a.1 <+: numBits b.2 b.1 := by
  obtain ⟨hle, hcode⟩ := h
  intro hpre
  rw [List.prefix_iff_eq_take, numBits_length, numBits_take hle] at hpre
  have hdiv : b.2 / 2 ^ (b.1 - a.1) < 2 ^ a.1 := by
    rw [Nat.div_lt_iff_lt_mul (Nat.two_pow_pos _), ← Nat.pow_add, Nat.add_sub_cancel' hle]
    exact hb
  have hlt : a.2 < b.2 / 2 ^ (b.1 - a.1) := (Nat.le_div_iff_mul_le (Nat.two_pow_pos _)).2 hcode
  exact hlt.ne (numBits_inj ha hdiv hpre)

/-- No code comes after one that it begins. -/
theorem CodeBefore.not_prefix_rev {a b : Nat × Nat} (h : CodeBefore a b) (ha : a.2 < 2 ^ a.1) (hb : b.2 < 2 ^ b.1) :
    ¬numBits b.2 b.1 <+: numBits a.2 a.1 := by
  intro hpre
  have hlen := hpre.length_le
  rw [numBits_length, numBits_length] at hlen
  have heq := hpre.eq_of_length (by rw [numBits_length, numBits_length]; exact Nat.le_antisymm hlen h.1)
  exact h.not_prefix ha hb (heq ▸ List.prefix_rfl)

theorem slots_prefixFree {p : HuffSpec} {slots : List Slot} (h : buildSlots p = .ok slots) :
    slots.Pairwise fun a b => ¬a.bits <+: b.bits ∧ ¬b.bits <+: a.bits :=
  (slots_pairwise h).imp_of_mem fun ha hb hab =>
    have hca := (slot_bounds h _ ha).2.2
    have hcb := (slot_bounds h _ hb).2.2
    ⟨hab.not_prefix hca hcb, hab.not_prefix_rev hca hcb⟩

/-- Settles O28: the codes fit by the Kraft sum, and each comes before those that follow it. -/
theorem codesArePrefixFree : Obligations.CodesArePrefixFree := by
  intro p
  rcases buildTable_spec p with ⟨hk, t, ht⟩ | ⟨hk, ht⟩
  · refine ⟨fun h => absurd hk (Nat.not_le_of_lt h), fun _ => ⟨t, ht, List.pairwise_map.2 ?_⟩⟩
    exact slots_prefixFree (buildTable_ok_iff.1 ht).2.1
  · exact ⟨fun _ => ht, fun h => absurd h (Nat.not_le_of_lt hk)⟩

/-! ### The canonical code -/

theorem slots_sizes {p : HuffSpec} {slots : List Slot} (hp : p.counted) (h : buildSlots p = .ok slots) :
    slots.map (fun k => k.size.toNat) = codeSizes 1 p.lengths ∧ slots.map Slot.sym = p.syms := by
  obtain ⟨codes, hc, hpair, hsym⟩ := buildSlots_ok h
  have hfst := assignCodes_map_fst hc
  have hlen : codes.length = p.syms.length := by rw [hp, ← codeSizes_length 1, ← hfst, List.length_map]
  rw [← hlen, List.take_length] at hpair
  rw [hlen, List.take_length] at hsym
  refine ⟨?_, hsym⟩
  rw [← hfst, ← hpair, List.map_map]
  rfl

theorem slots_succ {p : HuffSpec} {slots : List Slot} (h : buildSlots p = .ok slots) :
    (∀ a, slots.head? = some a → a.code = 0) ∧
      slots.IsChain fun a b => b.code.toNat = (a.code.toNat + 1) * 2 ^ (b.size.toNat - a.size.toNat) := by
  obtain ⟨codes, hc, hpair, -⟩ := buildSlots_ok h
  obtain ⟨hhead, hchain⟩ := assignCodes_succ hc
  refine ⟨fun a ha => ?_, (List.isChain_map Slot.pair).1 (hpair ▸ hchain.take _)⟩
  rcases slots with _ | ⟨k, slots⟩
  · cases ha
  · cases ha
    rcases codes with _ | ⟨c, codes⟩
    · simp at hpair
    · rcases hn : p.syms.length with _ | n
      · simp [hn] at hpair
      · rw [hn, List.take_succ_cons, List.map_cons, List.cons.injEq] at hpair
        have hcode := hhead c rfl
        rw [← hpair.1, Nat.zero_mul] at hcode
        exact BitVec.eq_of_toNat_eq hcode

/-- The entry of a symbol in an encode table: that of its last slot (42_huffman.md R153). -/
def lastEntry (slots : List Slot) (sym : Byte) : EncEntry :=
  match slots.reverse.find? (fun k => k.sym = sym) with
  | some k => { code := k.code, size := k.size }
  | none => { code := 0, size := 0 }

theorem lastEntry_concat (slots : List Slot) (k : Slot) (sym : Byte) :
    lastEntry (slots ++ [k]) sym = if k.sym = sym then { code := k.code, size := k.size } else lastEntry slots sym := by
  by_cases h : k.sym = sym <;> simp [lastEntry, h]

theorem encodeTable_concat (slots : List Slot) (k : Slot) :
    encodeTable (slots ++ [k]) = (encodeTable slots).set k.sym.toNat { code := k.code, size := k.size } k.sym.isLt := by
  rw [encodeTable, List.foldl_concat]
  rfl

theorem encodeTable_getElem (slots : List Slot) (sym : Byte) : (encodeTable slots)[sym.toFin] = lastEntry slots sym := by
  induction slots using List.reverseRecOn with
  | nil => simp [encodeTable, lastEntry]
  | append_singleton slots k ih =>
    have hsym : k.sym.toNat = sym.toNat ↔ k.sym = sym := BitVec.toNat_inj
    rw [encodeTable_concat, lastEntry_concat, ← ih]
    simp [Vector.getElem_set, hsym]

/-- Settles O27: the lengths are those that the counts list, and each code is the successor of the one before. -/
theorem codesAreCanonical : Obligations.CodesAreCanonical := by
  intro p t hp ht
  obtain ⟨hspec, hslots, henc⟩ := buildTable_ok_iff.1 ht
  obtain ⟨hsizes, hsyms⟩ := slots_sizes hp hslots
  obtain ⟨hhead, hchain⟩ := slots_succ hslots
  refine ⟨hspec, hsyms, fun i _ => ?_, hsizes ▸ codeSizes_pairwise _ _, slot_bounds hslots, hhead, fun j a b ha hb => ?_,
    fun sym => henc ▸ encodeTable_getElem t.dec sym⟩
  · rw [← codeSizes_count 1, ← hsizes, List.count, List.countP_map, Nat.add_comm i 1]
    exact List.countP_congr fun k _ => by simp
  · obtain ⟨_, rfl⟩ := List.getElem?_eq_some_iff.1 ha
    obtain ⟨hj, rfl⟩ := List.getElem?_eq_some_iff.1 hb
    exact List.isChain_iff_getElem.1 hchain j hj

end Sys2Proof.Machine
end

section
/-! SUPPORT. Symbols read and written (42_huffman.md R155, R156, R159, R160): the reading of a code takes the bits of the one slot
that the next bits begin with. -/

namespace Sys2Proof.Machine

/-! ### Reading a code -/

theorem Slot.bits_length (k : Slot) : k.bits.length = k.size.toNat := numBits_length _ _

theorem findSlot_eq_some {slots : List Slot} {bits : List Bool} {k : Slot}
    (h : findSlot slots bits.length (bitsValue bits) = some k) : k ∈ slots ∧ k.bits = bits := by
  have hk := List.find?_some h
  simp only [Bool.and_eq_true, decide_eq_true_eq] at hk
  obtain ⟨hsize, hcode⟩ := hk
  exact ⟨List.mem_of_find?_eq_some h, by rw [Slot.bits, hcode, hsize, numBits_bitsValue]⟩

theorem findSlot_eq_none {slots : List Slot} {bits : List Bool} (hs : ∀ k ∈ slots, k.code.toNat < 2 ^ k.size.toNat)
    (h : findSlot slots bits.length (bitsValue bits) = none) : ∀ k ∈ slots, k.bits ≠ bits := by
  rintro k hk rfl
  refine List.find?_eq_none.1 h k hk ?_
  rw [Slot.bits, bitsValue_numBits, Nat.mod_eq_of_lt (hs k hk)]
  simp

/-- What `read_code` has found of `left` more bits, behind the bits `pre` that it has read: the code of a slot; else no slot, and
then the bits without a code, the marker at the segment's end, or the end of the window (42_huffman.md R155). -/
inductive CodeRead (m : Memory) (slots : List Slot) (left : Nat) (pre : List Bool) (r : Reader) : Bits Byte → Prop where
  | got (k : Slot) (r' : Reader) (hk : k ∈ slots) (hlt : pre.length < k.size.toNat) (hpre : k.bits <+: pre ++ r.bits m)
      (ha : r.After m (k.size.toNat - pre.length) r') : CodeRead m slots left pre r (.got k.sym r')
  | notFound (hno : ∀ k ∈ slots, pre.length < k.size.toNat → k.size.toNat ≤ pre.length + left → ¬k.bits <+: pre ++ r.bits m)
      (hlen : left ≤ (r.bits m).length) :
      CodeRead m slots left pre r (.fail (.codeNotFound, BitVec.ofNat 32 (bitsValue (pre ++ (r.bits m).take left))))
  | marker (pos : Nat) (second : Byte) (r' : Reader) (hno : ∀ k ∈ slots, pre.length < k.size.toNat → ¬k.bits <+: pre ++ r.bits m)
      (hlen : (r.bits m).length < left) (he : (r.rest m).2 = .marker pos second) (hend : r.Ended m pos second r') :
      CodeRead m slots left pre r (.noMore r')
  | runsOut (addr : Nat) (hno : ∀ k ∈ slots, pre.length < k.size.toNat → ¬k.bits <+: pre ++ r.bits m)
      (hlen : (r.bits m).length < left) (he : (r.rest m).2 = .runsOut addr) :
      CodeRead m slots left pre r (.fail (.ioRead, BitVec.ofNat 32 addr))

/-- With no bit left, no longer code can follow. -/
theorem no_code_of_nil {slots : List Slot} {pre bits : List Bool} (h : bits = []) :
    ∀ k ∈ slots, pre.length < k.size.toNat → ¬k.bits <+: pre ++ bits := by
  intro k _ hlt hpre
  have := hpre.length_le
  rw [h, List.append_nil, k.bits_length] at this
  omega

theorem CodeRead.cons {m : Memory} {slots : List Slot} {left : Nat} {pre l : List Bool} {b : Bool} {r r' : Reader} {x : Bits Byte}
    (hb : r.bits m = b :: l) (ha : r.After m 1 r') (hno : ∀ k ∈ slots, k.bits ≠ pre ++ [b])
    (h : CodeRead m slots left (pre ++ [b]) r' x) : CodeRead m slots (left + 1) pre r x := by
  have hl : r'.bits m = l := by rw [ha.bits, hb]; rfl
  have happ : pre ++ [b] ++ r'.bits m = pre ++ r.bits m := by rw [hb, hl, List.append_assoc]; rfl
  have hlen : (pre ++ [b]).length = pre.length + 1 := List.length_append
  have hstep : ∀ k ∈ slots, pre.length < k.size.toNat → k.bits <+: pre ++ r.bits m → (pre ++ [b]).length < k.size.toNat := by
    intro k hk hlt hpre
    refine Nat.lt_of_le_of_ne (hlen ▸ hlt) fun heq => hno k hk ?_
    refine (List.prefix_of_prefix_length_le hpre (happ ▸ List.prefix_append _ _) ?_).eq_of_length ?_ <;>
      rw [k.bits_length, heq]
  cases h with
  | got k r'' hk hlt hpre ha' =>
    rw [hlen] at hlt ha'
    refine .got k r'' hk (by omega) (happ ▸ hpre) ?_
    have := ha.trans ha'
    rwa [show 1 + (k.size.toNat - (pre.length + 1)) = k.size.toNat - pre.length by omega] at this
  | notFound hno' hle =>
    rw [hl, show bitsValue (pre ++ [b] ++ l.take left) = bitsValue (pre ++ (r.bits m).take (left + 1)) by rw [hb]; simp]
    refine .notFound (fun k hk hlt hle' hpre => ?_) (by rw [hb, ← hl]; exact Nat.succ_le_succ hle)
    exact hno' k hk (hstep k hk hlt hpre) (by omega) (happ ▸ hpre)
  | marker pos second r'' hno' hlt he hend =>
    exact .marker pos second r'' (fun k hk hlt hpre => hno' k hk (hstep k hk hlt hpre) (happ ▸ hpre))
      (by rw [hb, ← hl]; exact Nat.succ_lt_succ hlt) (ha.segmentEnd ▸ he) (hend.of_after ha)
  | runsOut addr hno' hlt he =>
    exact .runsOut addr (fun k hk hlt hpre => hno' k hk (hstep k hk hlt hpre) (happ ▸ hpre))
      (by rw [hb, ← hl]; exact Nat.succ_lt_succ hlt) (ha.segmentEnd ▸ he)

theorem readCodeFrom_spec {m : Memory} {slots : List Slot} (hs : ∀ k ∈ slots, k.code.toNat < 2 ^ k.size.toNat) (left : Nat)
    (pre : List Bool) (r : Reader) (h8 : r.cnt.toNat ≤ 8) :
    CodeRead m slots left pre r (readCodeFrom m slots left pre.length (bitsValue pre) r) := by
  induction left generalizing pre r with
  | zero =>
    have := CodeRead.notFound (m := m) (slots := slots) (left := 0) (pre := pre) (r := r) (fun k _ h1 h2 => by omega)
      (Nat.zero_le _)
    rwa [List.take_zero, List.append_nil] at this
  | succ left ih =>
    rw [readCodeFrom]
    rcases nextBit_cases m r h8 with ⟨b, l, hb, r', hn, ha⟩ | ⟨hb, pos, second, he, r', hn, hend⟩ | ⟨hb, addr, he, hn⟩
    · have hlen : (pre ++ [b]).length = pre.length + 1 := List.length_append
      have hval : bitsValue (pre ++ [b]) = 2 * bitsValue pre + b.toNat := by
        rw [bitsValue_append, bitsValue_cons]
        simp [Nat.mul_comm]
      simp only [hn, Bits.andThen_got, ← hval, ← hlen]
      cases hfind : findSlot slots (pre ++ [b]).length (bitsValue (pre ++ [b])) with
      | none => exact .cons hb ha (findSlot_eq_none hs hfind) (ih (pre ++ [b]) r' ha.cnt)
      | some k =>
        obtain ⟨hk, hbits⟩ := findSlot_eq_some hfind
        have hsize : k.size.toNat = pre.length + 1 := by rw [← k.bits_length, hbits, hlen]
        refine .got k r' hk (by omega) ?_ (by rwa [hsize, Nat.add_sub_cancel_left])
        rw [hbits, hb, List.append_cons pre b l]
        exact List.prefix_append _ _
    · rw [hn]
      exact .marker pos second r' (no_code_of_nil hb) (by rw [hb]; exact Nat.succ_pos _) he hend
    · rw [hn]
      exact .runsOut addr (no_code_of_nil hb) (by rw [hb]; exact Nat.succ_pos _) he

theorem readCode_spec {m : Memory} {slots : List Slot} (hs : ∀ k ∈ slots, k.code.toNat < 2 ^ k.size.toNat) (maxLen : Nat)
    (r : Reader) (h8 : r.cnt.toNat ≤ 8) : CodeRead m slots maxLen [] r (readCode m slots maxLen r) :=
  readCodeFrom_spec hs maxLen [] r h8

/-- Of a built table at most one code stands at the front of some bits. -/
theorem slot_eq_of_prefix {p : HuffSpec} {slots : List Slot} (h : buildSlots p = .ok slots) {a b : Slot} (ha : a ∈ slots)
    (hb : b ∈ slots) {bits : List Bool} (hpa : a.bits <+: bits) (hpb : b.bits <+: bits) : a = b := by
  by_contra hne
  have : Std.Symm fun a b : Slot => ¬a.bits <+: b.bits ∧ ¬b.bits <+: a.bits := ⟨fun _ _ => And.symm⟩
  obtain ⟨hab, hba⟩ := (slots_prefixFree h).forall ha hb hne
  exact (List.prefix_or_prefix_of_prefix hpa hpb).elim hab hba

/-! ### HT_DEC -/

theorem exec_htDec {s : State} {tc th : Byte} {c : TableClass} {i : Fin 4} (hf : tableFields tc th = .ok (c, i))
    (ht : s.isValid (tableBit c i) = true) (hr : s.isValid 15 = true) :
    exec (.htDec tc th) s = .next (s.finishRead (.htDec tc th)
      ((readCode s.inMem (s.table c i).dec 16 s.br).andThen fun v r => .got v.toNat r)) := by
  have hchecks : s.htDecChecks tc th = .ok (s.table c i) := by
    rw [State.htDecChecks, hf]
    simp [(s.needs_ok_iff _).2 ht, (s.needs_ok_iff brValidBit).2 hr, bind, Except.bind, pure, Except.pure]
  rw [exec, execHtDec, hchecks, State.checked_ok]

/-- Settles O31: by what `read_code` finds, of which the clauses exclude one another, since at most one code stands there. -/
theorem symbolDecode : Obligations.SymbolDecode := by
  intro s tc th c i hf ht hr hok hcnt bits slots
  have hslots : buildSlots (s.table c i).spec = .ok slots := hok.slots
  have hbounds := slot_bounds hslots
  have hexec := exec_htDec hf ht hr
  have hall : (∀ k ∈ slots, ([] : List Bool).length < k.size.toNat → ¬k.bits <+: [] ++ bits) → ∀ k ∈ slots, ¬k.bits <+: bits :=
    fun hno k hk => hno k hk (hbounds k hk).1
  have hspec := readCode_spec (fun k hk => (hbounds k hk).2.2) 16 s.br hcnt (m := s.inMem)
  generalize readCode s.inMem slots 16 s.br = x at hexec hspec
  cases hspec with
  | got k r hk _ hpre ha =>
    refine ⟨fun k' hk' hpre' => ?_, fun hno => absurd hpre (hno k hk)⟩
    obtain rfl := slot_eq_of_prefix hslots hk' hk hpre' hpre
    refine ⟨r, ha, hexec.trans ?_⟩
    rw [Bits.andThen_got, State.finishRead_got, BitVec.ofNat_toNat]
  | notFound hno hlen =>
    have hno' : ∀ k ∈ slots, ¬k.bits <+: bits := hall fun k hk h0 => hno k hk h0 (by simpa using (hbounds k hk).2.1)
    refine ⟨fun k hk hpre => absurd hpre (hno' k hk), fun _ => ⟨fun _ => faultsWith_of_raiseMid hexec, ?_, ?_⟩⟩
    · exact fun _ _ hlt => absurd hlen (Nat.not_le_of_lt hlt)
    · exact fun _ hlt => absurd hlen (Nat.not_le_of_lt hlt)
  | marker pos second r hno hlen he hend =>
    refine ⟨fun k hk hpre => absurd hpre (hall hno k hk), fun _ => ⟨fun hle => absurd hlen (Nat.not_lt_of_le hle), ?_, ?_⟩⟩
    · intro pos' second' _ he'
      cases he.symm.trans he'
      exact ⟨r, hend, hexec⟩
    · exact fun _ _ he' => nomatch he.symm.trans he'
  | runsOut addr hno hlen he =>
    refine ⟨fun k hk hpre => absurd hpre (hall hno k hk), fun _ => ⟨fun hle => absurd hlen (Nat.not_lt_of_le hle), ?_, ?_⟩⟩
    · exact fun _ _ _ he' => nomatch he.symm.trans he'
    · intro addr' _ he'
      cases he.symm.trans he'
      exact faultsWith_of_raiseMid hexec

/-! ### HT_ENC -/

/-- HT_ENC of a symbol behind its field and VALID checks: the missing code, or the code written (42_huffman.md R156, R160). -/
theorem exec_htEnc {s : State} {tc th sym : Byte} {c : TableClass} {i : Fin 4} (hf : tableFields tc th = .ok (c, i))
    (ht : s.isValid (tableBit c i) = true) (hw : s.isValid 16 = true) (hsym : s.argSymbol = sym) :
    exec (.htEnc tc th) s = .next (
      if (s.table c i).enc[sym.toFin].size = 0 then s.raise (.htEnc tc th) (.noCode, sym.setWidth 32)
      else s.finishWrite (.htEnc tc th) (putBits (s.table c i).enc[sym.toFin].code.toNat
        (s.table c i).enc[sym.toFin].size.toNat s.sink)) := by
  subst hsym
  have hchecks : s.htEncChecks tc th =
      (require ((s.table c i).enc[s.argSymbol.toFin].size ≠ 0) (.noCode, s.argSymbol.setWidth 32) >>= fun _ =>
        pure (s.table c i)) := by
    simp only [State.htEncChecks, hf, (s.needs_ok_iff _).2 ht, (s.needs_ok_iff bwValidBit).2 hw, bind, Except.bind]
  rw [exec, execHtEnc, hchecks]
  by_cases h0 : (s.table c i).enc[s.argSymbol.toFin].size = 0
  · rw [if_pos h0, (require_error_iff _ _ _).2 ⟨decide_eq_false (not_not.2 h0), rfl⟩]
    rfl
  · rw [if_neg h0, (require_ok_iff _ _).2 (decide_eq_true h0)]
    exact congrArg (fun x => Host.Outcome.next (s.finishWrite (.htEnc tc th) x)) (if_neg h0)

/-- Settles O32: the code is checked first, and `put_bits` appends it. -/
theorem symbolEncode : Obligations.SymbolEncode := by
  intro s tc th c i hf ht hw hok sym e
  have hexec := exec_htEnc hf ht hw (sym := sym) (BitVec.ofNat_toNat 8 _).symm
  by_cases h0 : e[sym.toFin].size = 0
  · rw [if_pos h0] at hexec
    exact ⟨fun _ => hexec, fun h => absurd h0 h, fun h => absurd h0 h⟩
  · rw [if_neg h0] at hexec
    obtain ⟨hroom, hfull⟩ := State.finishWrite_append hexec (putBits_spec _ _ s.sink hok)
    exact ⟨fun h => absurd h h0, fun _ => hroom, fun _ => hfull⟩

end Sys2Proof.Machine
end

section
/-! SUPPORT. Table payloads (30_encoding.md R95; 42_huffman.md R157, R158): the checks on a payload in their order, and that a
specification read from a payload is written back as it stood. -/

namespace Sys2Proof.Machine

/-! ### The payload at an address -/

theorem payloadAt_counts_toList (m : Memory) (a : Nat) : (payloadAt m a).counts.toList = m.readList a 16 := by
  apply List.ext_getElem
  · simp
  · intro i _ _
    simp [payloadAt, Memory.readList]

theorem payloadAt_syms (m : Memory) (a : Nat) :
    (payloadAt m a).syms = m.readList (a + 16) (payloadAt m a).lengths.sum := by
  rw [HuffSpec.lengths, payloadAt_counts_toList, payloadAt]

theorem payloadAt_counted (m : Memory) (a : Nat) : (payloadAt m a).counted := by
  rw [HuffSpec.counted, payloadAt_syms, Memory.readList_length]

theorem payloadAt_eq (m : Memory) (a : Nat) :
    payloadAt m a =
      { counts := Vector.ofFn fun i : Fin 16 => m.inByte (a + i.val)
        syms := m.readList (a + 16) (payloadAt m a).syms.length } := by
  rw [payloadAt_counted, ← payloadAt_syms, payloadAt]

theorem Memory.readList_add (m : Memory) (a n k : Nat) : m.readList a (n + k) = m.readList a n ++ m.readList (a + n) k := by
  simp [Memory.readList, List.range_add, Nat.add_assoc]

/-- The payload form of a specification that stands in IN is those bytes. -/
theorem payload_payloadAt (m : Memory) (a : Nat) :
    (payloadAt m a).payload = m.readList a (16 + (payloadAt m a).syms.length) := by
  rw [HuffSpec.payload, payloadAt_counts_toList, Memory.readList_add, payloadAt_counted, ← payloadAt_syms]

/-! ### HT_LOAD -/

theorem require_le_bind {α : Type} (n k : Nat) (r : Raise) (f : Unit → Except Raise α) :
    (require (n ≤ k) r >>= f) = if k < n then .error r else f () := by
  by_cases h : k < n
  · rw [if_pos h, require, if_neg (by simpa using h)]
    rfl
  · rw [if_neg h, require, if_pos (by simpa using h)]
    rfl

/-- The checks on the payload at A0 with limit A1, in their order (42_huffman.md R157). -/
theorem State.loadSpec_eq (s : State) :
    s.loadSpec =
      if s.params.inSize < s.argNat 1 then .error (.ioRead, s.arg[(1 : Fin 4)])
      else if s.argNat 1 < s.argNat 0 + 16 then .error (.badTable, 1)
      else if 256 < (payloadAt s.inMem (s.argNat 0)).syms.length then .error (.badTable, 2)
      else if s.argNat 1 < s.argNat 0 + 16 + (payloadAt s.inMem (s.argNat 0)).syms.length then .error (.badTable, 3)
      else .ok (payloadAt s.inMem (s.argNat 0)) := by
  have hlengths : ({ counts := Vector.ofFn fun i : Fin 16 => s.inMem.inByte (s.argNat 0 + i.val), syms := [] } :
      HuffSpec).lengths = (payloadAt s.inMem (s.argNat 0)).lengths := by
    simp only [HuffSpec.lengths, payloadAt]
  simp only [State.loadSpec, require_le_bind, hlengths, ← payloadAt_counted s.inMem, ← payloadAt_eq, pure, Except.pure]

/-- HT_LOAD behind its field checks (42_huffman.md R157). -/
theorem exec_htLoad {s : State} {tc th : Byte} {c : TableClass} {i : Fin 4} (hf : tableFields tc th = .ok (c, i)) :
    exec (.htLoad tc th) s = .next (s.checked (.htLoad tc th) (s.loadSpec >>= buildTable) fun t => State.finish
      { (s.setTable c i t).setValid (tableBit c i) true with res0 := BitVec.ofNat 32 (16 + t.spec.syms.length) } false) := by
  rw [exec, execHtLoad, State.htLoadChecks, hf]
  cases hl : s.loadSpec with
  | error r => rfl
  | ok p =>
    cases hb : buildTable p with
    | error r => simp [bind, Except.bind, hb]
    | ok t => simp [bind, Except.bind, pure, Except.pure, hb]

/-- Settles O29: the checks on the payload in their order, then the build. -/
theorem huffmanTableLoad : Obligations.HuffmanTableLoad := by
  intro s tc th c i hf
  dsimp only
  have hexec := exec_htLoad (s := s) hf
  have hload := s.loadSpec_eq
  have hbuild := buildTable_spec (payloadAt s.inMem (s.argNat 0))
  refine ⟨fun h1 => ?_, fun h1 h2 => ?_, fun h1 h2 h3 => ?_, fun h1 h2 h3 h4 => ?_, fun h1 h2 h3 h4 => ?_,
    fun h1 h2 h3 h4 => ?_⟩
  · rw [if_pos h1] at hload
    rw [hexec, hload]
    rfl
  · rw [if_neg (by omega), if_pos h2] at hload
    rw [hexec, hload]
    rfl
  · rw [if_neg (by omega), if_neg (by omega), if_pos h3] at hload
    rw [hexec, hload]
    rfl
  · rw [if_neg (by omega), if_neg (by omega), if_neg (by omega), if_pos h4] at hload
    rw [hexec, hload]
    rfl
  · rw [if_neg (by omega), if_neg (by omega), if_neg (by omega), if_neg (by omega)] at hload
    rcases hbuild with ⟨hk, -⟩ | ⟨-, hb⟩
    · exact absurd h4 (Nat.not_lt_of_le hk)
    · rw [hexec, hload]
      simp only [bind, Except.bind, hb]
      rfl
  · rw [if_neg (by omega), if_neg (by omega), if_neg (by omega), if_neg (by omega)] at hload
    rcases hbuild with ⟨-, t, hb⟩ | ⟨hk, -⟩
    · refine ⟨t, hb, ?_⟩
      rw [hexec, hload]
      simp only [bind, Except.bind, hb, State.checked_ok, (buildTable_ok_iff.1 hb).1]
    · exact absurd h4 (Nat.not_le_of_lt hk)

/-! ### HT_STORE -/

/-- HT_STORE of a valid table: the check of its bytes against OUT_SIZE (42_huffman.md R158). -/
theorem exec_htStore {s : State} {tc th : Byte} {c : TableClass} {i : Fin 4} (hf : tableFields tc th = .ok (c, i))
    (ht : s.isValid (tableBit c i) = true) :
    exec (.htStore tc th) s = .next (
      if s.params.outSize < s.argNat 0 + 16 + (s.table c i).spec.syms.length then
        s.raise (.htStore tc th) (.ioWrite, s.outSizeInfo)
      else State.finish
        { s with
          outMem := s.outMem.setList (s.argNat 0) (s.table c i).spec.payload
          res0 := BitVec.ofNat 32 (16 + (s.table c i).spec.syms.length) } false) := by
  have hchecks : s.htStoreChecks tc th =
      if s.params.outSize < s.argNat 0 + 16 + (s.table c i).spec.syms.length then .error (.ioWrite, s.outSizeInfo)
      else .ok (s.table c i).spec := by
    simp only [State.htStoreChecks, hf, require_le_bind]
    simp only [bind, Except.bind, (s.needs_ok_iff _).2 ht, pure, Except.pure]
  rw [exec, execHtStore, hchecks]
  split <;> rfl

/-- Settles O30: by the check of the bytes that go out, and the payload form of what stands in IN. -/
theorem huffmanTableStore : Obligations.HuffmanTableStore := by
  refine ⟨fun s tc th c i hf ht => ?_, payload_payloadAt⟩
  have hexec := exec_htStore hf ht
  refine ⟨fun h => ?_, fun h => ?_⟩
  · rw [if_neg (Nat.not_lt_of_le h)] at hexec
    exact hexec
  · rw [if_pos h] at hexec
    exact hexec

end Sys2Proof.Machine
end

section
/-! SUPPORT. Frequency models (42_huffman.md R161, R162; 43_coefficient.md R205): one symbol counted, and the items of a block counted
in their order up to the first whose count cannot grow. -/

namespace Sys2Proof.Machine

/-! ### One symbol -/

/-- The count of symbol `k` in a frequency model. -/
def countOf (f : FreqModel) (k : Nat) : Nat := f[k]!.toNat

theorem countOf_fin (f : FreqModel) (k : Fin 257) : countOf f k.val = f[k].toNat := by
  rw [countOf, getElem!_pos f k.val k.isLt]
  rfl

theorem countOf_le (f : FreqModel) (k : Nat) : countOf f k ≤ 2 ^ 32 - 1 := Nat.le_pred_of_lt f[k]!.isLt

/-- Counting a symbol raises its count by one and no other, unless that is 2^32 − 1 (42_huffman.md R162). -/
theorem countSymbol_spec (f : FreqModel) (sym : Byte) :
    (countOf f sym.toNat < 2 ^ 32 - 1 ∧ ∃ g, countSymbol f sym = .ok g ∧
      ∀ k, k < 257 → countOf g k = countOf f k + if sym.toNat = k then 1 else 0) ∨
    (countOf f sym.toNat = 2 ^ 32 - 1 ∧ countSymbol f sym = .error (.adaptOverflow, sym.setWidth 32)) := by
  have hsym : sym.toNat < 257 := Nat.lt_succ_of_lt sym.isLt
  have hget : countOf f sym.toNat = f[sym.toNat].toNat := by rw [countOf, getElem!_pos f _ hsym]
  by_cases hmax : f[sym.toNat].toNat = 2 ^ 32 - 1
  · exact .inr ⟨hget.trans hmax, if_pos hmax⟩
  · have hlt : f[sym.toNat].toNat < 2 ^ 32 - 1 := Nat.lt_of_le_of_ne (hget ▸ countOf_le f _) hmax
    refine .inl ⟨hget ▸ hlt, _, if_neg hmax, fun k hk => ?_⟩
    rw [countOf, getElem!_pos _ k hk, Vector.getElem_set]
    by_cases hks : sym.toNat = k
    · subst hks
      rw [if_pos rfl, if_pos rfl, hget, BitVec.toNat_add, Nat.mod_eq_of_lt]
      · rfl
      · have : ((1 : Word)).toNat = 1 := rfl
        omega
    · rw [if_neg hks, if_neg hks, countOf, getElem!_pos f k hk]
      rfl

theorem exec_fqInc {s : State} {tc th : Byte} {c : TableClass} {i : Fin 4} (hf : tableFields tc th = .ok (c, i)) :
    exec (.fqInc tc th) s = .next (s.checked (.fqInc tc th) (countSymbol (s.freq c i) (BitVec.ofNat 8 (s.argNat 0))) fun m =>
      (s.setFreq c i m).finish false) := by
  rw [show BitVec.ofNat 8 (s.argNat 0) = s.argSymbol from BitVec.ofNat_toNat 8 _]
  rw [exec, execFqInc, State.fqIncChecks, hf]
  cases h : countSymbol (s.freq c i) s.argSymbol <;> simp [h, bind, Except.bind, pure, Except.pure]

theorem exec_fqClr {s : State} {tc th : Byte} {c : TableClass} {i : Fin 4} (hf : tableFields tc th = .ok (c, i)) :
    exec (.fqClr tc th) s = .next ((s.setFreq c i (Vector.replicate 257 0)).finish false) := by
  rw [exec, execFqClr, hf]
  rfl

/-! ### The items of a block -/

/-- The model of an item's class. -/
def modelOf (fd fa : FreqModel) (cls : TableClass) : FreqModel :=
  match cls with
  | .dc => fd
  | .ac => fa

/-- How often a symbol of a class stands in a list of items. -/
def timesIn (cls : TableClass) (k : Nat) (l : List Item) : Nat := l.countP fun it => it.cls = cls && it.sym.toNat = k

theorem timesIn_cons (cls : TableClass) (k : Nat) (it : Item) (l : List Item) :
    timesIn cls k (it :: l) = (if it.cls = cls ∧ it.sym.toNat = k then 1 else 0) + timesIn cls k l := by
  rw [timesIn, List.countP_cons, Nat.add_comm]
  simp [timesIn]

/-- The count of an item's symbol when the item at place `j` is reached. -/
def reachedCount (fd fa : FreqModel) (l : List Item) (j : Nat) (it : Item) : Nat :=
  countOf (modelOf fd fa it.cls) it.sym.toNat + timesIn it.cls it.sym.toNat (l.take j)

/-- The two models with one item counted (43_coefficient.md R205). -/
theorem countItems_cons (it : Item) (l : List Item) (fd fa : FreqModel) :
    (countOf (modelOf fd fa it.cls) it.sym.toNat < 2 ^ 32 - 1 ∧ ∃ gd ga, countItems (it :: l) fd fa = countItems l gd ga ∧
      ∀ cls k, k < 257 → countOf (modelOf gd ga cls) k =
        countOf (modelOf fd fa cls) k + if it.cls = cls ∧ it.sym.toNat = k then 1 else 0) ∨
    (countOf (modelOf fd fa it.cls) it.sym.toNat = 2 ^ 32 - 1 ∧
      countItems (it :: l) fd fa = .error (.adaptOverflow, it.sym.setWidth 32)) := by
  rw [countItems]
  cases hcls : it.cls with
  | dc =>
    rcases countSymbol_spec fd it.sym with ⟨hlt, g, hg, hcount⟩ | ⟨hmax, hg⟩
    · refine .inl ⟨hlt, g, fa, by rw [hg], fun cls k hk => ?_⟩
      cases cls with
      | dc => simpa [modelOf] using hcount k hk
      | ac => simp [modelOf]
    · exact .inr ⟨hmax, by rw [hg]⟩
  | ac =>
    rcases countSymbol_spec fa it.sym with ⟨hlt, g, hg, hcount⟩ | ⟨hmax, hg⟩
    · refine .inl ⟨hlt, fd, g, by rw [hg], fun cls k hk => ?_⟩
      cases cls with
      | dc => simp [modelOf]
      | ac => simpa [modelOf] using hcount k hk
    · exact .inr ⟨hmax, by rw [hg]⟩

/-- Behind a counted item the counts are reached as they were before it. -/
theorem reachedCount_succ {fd fa gd ga : FreqModel} {it : Item}
    (hcount : ∀ cls k, k < 257 → countOf (modelOf gd ga cls) k =
      countOf (modelOf fd fa cls) k + if it.cls = cls ∧ it.sym.toNat = k then 1 else 0) (l : List Item) (j : Nat) (x : Item) :
    reachedCount gd ga l j x = reachedCount fd fa (it :: l) (j + 1) x := by
  rw [reachedCount, reachedCount, List.take_succ_cons, timesIn_cons, hcount _ _ (Nat.lt_succ_of_lt x.sym.isLt), Nat.add_assoc]

/-- Where every item's count can grow when it is reached, each count grows by the number of its items. -/
theorem countItems_ok {l : List Item} {fd fa : FreqModel}
    (h : ∀ j it, l[j]? = some it → reachedCount fd fa l j it < 2 ^ 32 - 1) :
    ∃ gd ga, countItems l fd fa = .ok (gd, ga) ∧
      ∀ cls k, k < 257 → countOf (modelOf gd ga cls) k = countOf (modelOf fd fa cls) k + timesIn cls k l := by
  induction l generalizing fd fa with
  | nil => exact ⟨fd, fa, rfl, fun _ _ _ => rfl⟩
  | cons it l ih =>
    rcases countItems_cons it l fd fa with ⟨-, gd, ga, hstep, hcount⟩ | ⟨hmax, -⟩
    · obtain ⟨hd, ha, hok, htimes⟩ := ih (fun j x hx => reachedCount_succ hcount l j x ▸ h (j + 1) x hx)
      refine ⟨hd, ha, hstep.trans hok, fun cls k hk => ?_⟩
      rw [htimes cls k hk, hcount cls k hk, timesIn_cons, Nat.add_assoc]
    · exact absurd hmax (Nat.ne_of_lt (h 0 it rfl))

/-- The first item whose count is 2^32 − 1 when it is reached is the one that overflows. -/
theorem countItems_overflow {l : List Item} {fd fa : FreqModel} {j : Nat} {it : Item} (hj : l[j]? = some it)
    (hmax : reachedCount fd fa l j it = 2 ^ 32 - 1)
    (hbefore : ∀ j' it', j' < j → l[j']? = some it' → reachedCount fd fa l j' it' < 2 ^ 32 - 1) :
    countItems l fd fa = .error (.adaptOverflow, it.sym.setWidth 32) := by
  induction l generalizing fd fa j with
  | nil => simp at hj
  | cons x l ih =>
    rcases countItems_cons x l fd fa with ⟨hlt, gd, ga, hstep, hcount⟩ | ⟨hx, hover⟩
    · rcases j with _ | j
      · cases hj
        exact absurd hmax (Nat.ne_of_lt hlt)
      · rw [hstep]
        refine ih (j := j) hj (by rw [reachedCount_succ hcount, hmax]) fun j' it' hlt' hit' => ?_
        rw [reachedCount_succ hcount]
        exact hbefore (j' + 1) it' (Nat.succ_lt_succ hlt') hit'
    · rcases j with _ | j
      · cases hj
        exact hover
      · exact absurd hx (Nat.ne_of_lt (hbefore 0 x (Nat.succ_pos j) rfl))

theorem State.blkDryChecks_eq {s : State} {c td ta : Byte} {x d a : Fin 4} (hf : blockFields c td ta = .ok (x, d, a)) :
    s.blkDryChecks c td ta = (blockItems s.blkI (s.pred x)).map fun items => ((x, d, a), items) := by
  rw [State.blkDryChecks, hf]
  rfl

/-- Settles O33: by what counting one symbol does, and the items counted one after the other. -/
theorem frequencyCounts : Obligations.FrequencyCounts := by
  refine ⟨fun s tc th c i hf => ⟨exec_fqClr hf, ?_⟩, fun s c td ta x d a hf => ⟨fun e he => ?_, fun items hitems => ?_⟩⟩
  · have hexec := exec_fqInc (s := s) hf
    rcases countSymbol_spec (s.freq c i) (BitVec.ofNat 8 (s.argNat 0)) with ⟨hlt, g, hg, hcount⟩ | ⟨hmax, hg⟩
    · rw [hg] at hexec
      refine ⟨fun _ => ⟨g, hexec, fun k => ?_⟩, fun hmax => absurd hmax (Nat.ne_of_lt hlt)⟩
      rw [← countOf_fin, ← countOf_fin, hcount k.val k.isLt]
      simp only [eq_comm]
    · rw [hg] at hexec
      exact ⟨fun hlt => absurd hmax (Nat.ne_of_lt hlt), fun _ => hexec⟩
  · rw [exec, execBlkDry, State.blkDryChecks_eq hf, he]
    rfl
  · refine ⟨fun h => ?_, fun j it hj hmax hbefore => ?_⟩
    · obtain ⟨gd, ga, hok, hcount⟩ := countItems_ok (fd := s.freq .dc d) (fa := s.freq .ac a) h
      refine ⟨gd, ga, ?_, fun k => ⟨?_, ?_⟩⟩
      · rw [exec, execBlkDry, State.blkDryChecks_eq hf, hitems]
        simp only [Except.map, State.checked_ok, hok]
      · rw [← countOf_fin, ← countOf_fin]
        exact hcount .dc k.val k.isLt
      · rw [← countOf_fin, ← countOf_fin]
        exact hcount .ac k.val k.isLt
    · have hover := countItems_overflow (fd := s.freq .dc d) (fa := s.freq .ac a) hj hmax hbefore
      refine faultsWith_of_raiseMid (t := (s.drawFreq d a).drawPred x) (r := (.adaptOverflow, it.sym.setWidth 32)) ?_
      rw [exec, execBlkDry, State.blkDryChecks_eq hf, hitems]
      simp only [Except.map, State.checked_ok, hover]

end Sys2Proof.Machine
end

section
/-! SUPPORT. `code_size` (42_huffman.md R163) as the merging of groups: the search for the two least frequencies, the OTHERS chain of a
group as the list of its members, and the loop as the relation `CodeSizes`. -/

namespace Sys2Proof.Machine

/-! ### The least frequency -/

/-- An index that the search may choose: its frequency is not 0, and it is not left out. -/
def Candidate (skip : Option Nat) (freq : List Nat) (k : Nat) : Prop := freq.getD k 0 ≠ 0 ∧ skip ≠ some k

/-- The index `v` is chosen before `k`: by the lesser frequency, among equals by the larger index. -/
def Earlier (freq : List Nat) (v k : Nat) : Prop :=
  freq.getD v 0 < freq.getD k 0 ∨ freq.getD v 0 = freq.getD k 0 ∧ k < v

/-- `best` is what the search over `freq` has found: no candidate, or the first of all with its frequency. -/
def IsBest (skip : Option Nat) (freq : List Nat) (best : Option (Nat × Nat)) : Prop :=
  match best with
  | none => ∀ k, ¬Candidate skip freq k
  | some (v, w) => freq.getD v 0 = w ∧ Candidate skip freq v ∧ ∀ k, Candidate skip freq k → k ≠ v → Earlier freq v k

theorem Candidate.lt_length {skip : Option Nat} {freq : List Nat} {k : Nat} (h : Candidate skip freq k) : k < freq.length := by
  by_contra hk
  exact h.1 (List.getD_eq_default _ _ (Nat.le_of_not_lt hk))

theorem candidate_concat_of_lt {skip : Option Nat} {pre : List Nat} {f k : Nat} (hk : k < pre.length) :
    Candidate skip (pre ++ [f]) k ↔ Candidate skip pre k := by
  rw [Candidate, Candidate, List.getD_append _ _ _ _ hk]

theorem candidate_concat_last {skip : Option Nat} {pre : List Nat} {f : Nat} :
    Candidate skip (pre ++ [f]) pre.length ↔ f ≠ 0 ∧ skip ≠ some pre.length := by
  simp [Candidate]

theorem Candidate.concat_cases {skip : Option Nat} {pre : List Nat} {f k : Nat} (h : Candidate skip (pre ++ [f]) k) :
    k < pre.length ∧ Candidate skip pre k ∨ k = pre.length ∧ f ≠ 0 ∧ skip ≠ some pre.length := by
  have hlt := h.lt_length
  rw [List.length_append, List.length_singleton, Nat.lt_succ_iff_lt_or_eq] at hlt
  rcases hlt with hlt | rfl
  · exact .inl ⟨hlt, (candidate_concat_of_lt hlt).1 h⟩
  · exact .inr ⟨rfl, candidate_concat_last.1 h⟩

/-- One more frequency: the search keeps its best, or takes the new index, which is the larger. -/
theorem IsBest.concat_skipped {skip : Option Nat} {pre : List Nat} {f : Nat} {best : Option (Nat × Nat)}
    (h : IsBest skip pre best) (hf : f = 0 ∨ skip = some pre.length) : IsBest skip (pre ++ [f]) best := by
  have hold : ∀ k, Candidate skip (pre ++ [f]) k → k < pre.length ∧ Candidate skip pre k := by
    intro k hk
    rcases hk.concat_cases with h | ⟨-, h0, hs⟩
    · exact h
    · exact absurd hf (not_or.2 ⟨h0, hs⟩)
  rcases best with _ | ⟨v, w⟩
  · exact fun k hk => h k (hold k hk).2
  · obtain ⟨hw, hv, hall⟩ := h
    have hlt := hv.lt_length
    refine ⟨(List.getD_append _ _ _ _ hlt).trans hw, (candidate_concat_of_lt hlt).2 hv, fun k hk hkv => ?_⟩
    obtain ⟨hklt, hk⟩ := hold k hk
    rw [Earlier, List.getD_append _ _ _ _ hlt, List.getD_append _ _ _ _ hklt]
    exact hall k hk hkv

theorem IsBest.concat_taken {skip : Option Nat} {pre : List Nat} {f : Nat} {best : Option (Nat × Nat)}
    (h : IsBest skip pre best) (hf : f ≠ 0) (hs : skip ≠ some pre.length) (hle : ∀ p, best = some p → f ≤ p.2) :
    IsBest skip (pre ++ [f]) (some (pre.length, f)) := by
  have hlast : (pre ++ [f]).getD pre.length 0 = f := by simp
  refine ⟨hlast, candidate_concat_last.2 ⟨hf, hs⟩, fun k hk hkv => ?_⟩
  rcases hk.concat_cases with ⟨hklt, hk⟩ | ⟨rfl, -⟩
  · rw [Earlier, hlast, List.getD_append _ _ _ _ hklt]
    rcases best with _ | ⟨v, w⟩
    · exact absurd hk (h k)
    · obtain ⟨hw, -, hall⟩ := h
      have hfw := hle _ rfl
      by_cases hkv' : k = v
      · subst hkv'
        omega
      · have := hall k hk hkv'
        unfold Earlier at this
        omega
  · exact absurd rfl hkv

theorem IsBest.concat_kept {skip : Option Nat} {pre : List Nat} {f v w : Nat} (h : IsBest skip pre (some (v, w))) (hlt : w < f) :
    IsBest skip (pre ++ [f]) (some (v, w)) := by
  obtain ⟨hw, hv, hall⟩ := h
  have hvlt := hv.lt_length
  have hv' : (pre ++ [f]).getD v 0 = w := (List.getD_append _ _ _ _ hvlt).trans hw
  refine ⟨hv', (candidate_concat_of_lt hvlt).2 hv, fun k hk hkv => ?_⟩
  rw [Earlier, hv', ← hw]
  rcases hk.concat_cases with ⟨hklt, hk⟩ | ⟨rfl, -⟩
  · rw [List.getD_append _ _ _ _ hklt]
    exact hall k hk hkv
  · left
    rw [List.getD_append_right _ _ _ _ (Nat.le_refl _), Nat.sub_self, hw]
    exact hlt

theorem leastFrom_spec {skip : Option Nat} (pre fs : List Nat) {best : Option (Nat × Nat)} (h : IsBest skip pre best) :
    ∃ best', leastFrom skip pre.length best fs = best'.map Prod.fst ∧ IsBest skip (pre ++ fs) best' := by
  induction fs generalizing pre best with
  | nil => exact ⟨best, rfl, by rwa [List.append_nil]⟩
  | cons f fs ih =>
    have hlen : (pre ++ [f]).length = pre.length + 1 := List.length_append
    rw [leastFrom.eq_def, List.append_cons]
    dsimp only
    rw [← hlen]
    by_cases hskip : f = 0 ∨ skip = some pre.length
    · rw [if_pos (by simpa using hskip)]
      exact ih _ (h.concat_skipped hskip)
    · rw [if_neg (by simpa using hskip)]
      obtain ⟨hf, hs⟩ := not_or.1 hskip
      rcases best with _ | ⟨v, w⟩
      · exact ih _ (h.concat_taken hf hs nofun)
      · by_cases hle : f ≤ w
        · simp only [if_pos hle]
          exact ih _ (h.concat_taken hf hs fun p hp => by cases hp; exact hle)
        · simp only [if_neg hle]
          exact ih _ (h.concat_kept (Nat.lt_of_not_le hle))

theorem leastFrom_eq_none {skip : Option Nat} {freq : List Nat} (h : leastFrom skip 0 none freq = none) :
    ∀ k, ¬Candidate skip freq k := by
  obtain ⟨best, hbest, his⟩ := leastFrom_spec (skip := skip) [] freq (best := none) (fun k hk => hk.1 rfl)
  rcases best with _ | p
  · exact his
  · exact nomatch h.symm.trans hbest

theorem leastFrom_eq_some {skip : Option Nat} {freq : List Nat} {v : Nat} (h : leastFrom skip 0 none freq = some v) :
    Candidate skip freq v ∧ ∀ k, Candidate skip freq k → k ≠ v → Earlier freq v k := by
  obtain ⟨best, hbest, his⟩ := leastFrom_spec (skip := skip) [] freq (best := none) (fun k hk => hk.1 rfl)
  rcases best with _ | ⟨v', w⟩
  · exact nomatch h.symm.trans hbest
  · cases h.symm.trans hbest
    exact his.2

/-! ### The OTHERS chain of a group -/

/-- `ms` is a chain of OTHERS from its first index to the one that has no next. -/
def ChainOf (others : List (Option Nat)) : List Nat → Prop
  | [] => False
  | [a] => others[a]?.join = none
  | a :: b :: ms => others[a]?.join = some b ∧ ChainOf others (b :: ms)

theorem ChainOf.congr {others others' : List (Option Nat)} {ms : List Nat} (h : ChainOf others ms)
    (heq : ∀ a ∈ ms, others'[a]? = others[a]?) : ChainOf others' ms := by
  induction ms with
  | nil => exact h
  | cons a ms ih =>
    rcases ms with _ | ⟨b, ms⟩
    · rw [ChainOf, heq a List.mem_cons_self]
      exact h
    · rw [ChainOf, heq a List.mem_cons_self]
      exact ⟨h.1, ih h.2 fun x hx => heq x (List.mem_cons_of_mem _ hx)⟩

/-- Linking the end of one chain to the start of another joins them. -/
theorem ChainOf.append {others : List (Option Nat)} {ms ns : List Nat} {v last : Nat} (hm : ChainOf others ms)
    (hn : ChainOf others ns) (hv : ns.head? = some v) (hlast : ms.getLast? = some last) (hlt : last < others.length)
    (hnodup : (ms ++ ns).Nodup) : ChainOf (others.set last (some v)) (ms ++ ns) := by
  induction ms with
  | nil => exact hm.elim
  | cons a ms ih =>
    have hne : ∀ x ∈ ms ++ ns, a ≠ x := fun x hx hax => (List.nodup_cons.1 hnodup).1 (hax ▸ hx)
    rcases ms with _ | ⟨b, ms⟩
    · obtain rfl : a = last := Option.some.inj hlast
      rcases ns with _ | ⟨b, ns⟩
      · exact hn.elim
      · cases hv
        refine ⟨by rw [List.getElem?_set_self hlt]; rfl, hn.congr fun x hx => List.getElem?_set_ne (hne x hx)⟩
    · rw [List.getLast?_cons_cons] at hlast
      refine ⟨?_, ih hm.2 hlast (List.nodup_cons.1 hnodup).2⟩
      rw [List.getElem?_set_ne (hne last (List.mem_append_left _ (List.mem_of_getLast? hlast))).symm]
      exact hm.1

/-- The sizes with those of `ms` one larger. -/
def bumpAll (size ms : List Nat) : List Nat := ms.foldl (fun size k => size.modify k (· + 1)) size

theorem bumpChain_eq {others : List (Option Nat)} {ms : List Nat} {fuel v : Nat} {size : List Nat} (h : ChainOf others ms)
    (hv : ms.head? = some v) (hfuel : ms.length ≤ fuel) :
    ∃ last, ms.getLast? = some last ∧ bumpChain others fuel size v = (bumpAll size ms, last) := by
  induction ms generalizing fuel v size with
  | nil => exact h.elim
  | cons a ms ih =>
    cases hv
    obtain ⟨fuel, rfl⟩ : ∃ n, fuel = n + 1 := ⟨fuel - 1, by rw [List.length_cons] at hfuel; omega⟩
    rcases ms with _ | ⟨b, ms⟩
    · refine ⟨a, rfl, ?_⟩
      rw [bumpChain, show others[a]?.join = none from h]
      rfl
    · obtain ⟨last, hlast, hbump⟩ := ih (size := size.modify a (· + 1)) h.2 rfl (Nat.le_of_succ_le_succ hfuel)
      refine ⟨last, by rw [List.getLast?_cons_cons, hlast], ?_⟩
      rw [bumpChain, h.1]
      exact hbump

theorem bumpAll_getD {size ms : List Nat} (hnodup : ms.Nodup) (hlt : ∀ k ∈ ms, k < size.length) (k : Nat) :
    (bumpAll size ms).getD k 0 = size.getD k 0 + if k ∈ ms then 1 else 0 := by
  induction ms generalizing size with
  | nil => rfl
  | cons a ms ih =>
    obtain ⟨ha, hms⟩ := List.nodup_cons.1 hnodup
    have halt : a < size.length := hlt a List.mem_cons_self
    have hstep : (size.modify a (· + 1)).getD k 0 = size.getD k 0 + if k = a then 1 else 0 := by
      by_cases hk : k = a
      · subst hk
        simp [halt]
      · simp [hk, Ne.symm hk]
    rw [bumpAll, List.foldl_cons, ← bumpAll, ih hms fun x hx => by
      rw [List.length_modify]
      exact hlt x (List.mem_cons_of_mem _ hx), hstep, Nat.add_assoc]
    by_cases hk : k = a
    · subst hk
      simp [ha]
    · simp [hk]

theorem bumpAll_length (size ms : List Nat) : (bumpAll size ms).length = size.length := by
  induction ms generalizing size with
  | nil => rfl
  | cons a ms ih => rw [bumpAll, List.foldl_cons, ← bumpAll, ih, List.length_modify]

theorem bumpAll_append (size ms ns : List Nat) : bumpAll (bumpAll size ms) ns = bumpAll size (ms ++ ns) :=
  List.foldl_append.symm

theorem length_le_of_nodup_of_lt {ms : List Nat} {n : Nat} (hnodup : ms.Nodup) (hlt : ∀ k ∈ ms, k < n) : ms.length ≤ n := by
  have := (List.subperm_of_subset hnodup fun k hk => List.mem_range.2 (hlt k hk)).length_le
  rwa [List.length_range] at this

/-! ### The scratch of merging -/

@[simp] theorem Group.merge_rep (v1 v2 : Group) : (v1.merge v2).rep = v1.rep := rfl
@[simp] theorem Group.merge_weight (v1 v2 : Group) : (v1.merge v2).weight = v1.weight + v2.weight := rfl
@[simp] theorem Group.merge_members (v1 v2 : Group) : (v1.merge v2).members = v1.members ++ v2.members := rfl

theorem Group.flatMap_members_merge (v1 v2 : Group) (rest : List Group) :
    (v1 :: v2 :: rest).flatMap Group.members = (v1.merge v2 :: rest).flatMap Group.members := (List.append_assoc _ _ _).symm

/-- The scratch of `code_size` while the groups `gs` are still to be merged: FREQ holds their frequencies, OTHERS the chains of their
members. -/
structure Merge.Holds (m : Merge) (gs : List Group) : Prop where
  freqLength : m.freq.length = 257
  sizeLength : m.size.length = 257
  othersLength : m.others.length = 257
  weight : ∀ g ∈ gs, g.weight ≠ 0 ∧ m.freq.getD g.rep 0 = g.weight
  counted : ∀ k, m.freq.getD k 0 ≠ 0 → ∃ g ∈ gs, g.rep = k
  chain : ∀ g ∈ gs, ChainOf m.others g.members
  head : ∀ g ∈ gs, g.members.head? = some g.rep
  nodup : (gs.flatMap Group.members).Nodup
  lt : ∀ k ∈ gs.flatMap Group.members, k < 257

theorem Merge.Holds.perm {m : Merge} {gs hs : List Group} (h : m.Holds gs) (hp : gs.Perm hs) : m.Holds hs where
  freqLength := h.freqLength
  sizeLength := h.sizeLength
  othersLength := h.othersLength
  weight g hg := h.weight g (hp.mem_iff.2 hg)
  counted k hk := (h.counted k hk).imp fun _ hg => ⟨hp.mem_iff.1 hg.1, hg.2⟩
  chain g hg := h.chain g (hp.mem_iff.2 hg)
  head g hg := h.head g (hp.mem_iff.2 hg)
  nodup := (hp.flatMap_right _).nodup_iff.1 h.nodup
  lt k hk := h.lt k ((hp.flatMap_right _).mem_iff.2 hk)

theorem Merge.Holds.rep_mem {m : Merge} {gs : List Group} (h : m.Holds gs) {g : Group} (hg : g ∈ gs) : g.rep ∈ g.members :=
  List.mem_of_mem_head? (h.head g hg)

theorem Merge.Holds.rep_ne {m : Merge} {g : Group} {gs : List Group} (h : m.Holds (g :: gs)) :
    ∀ x ∈ gs, x.rep ≠ g.rep := by
  intro x hx heq
  have hdisj := List.disjoint_of_nodup_append (List.flatMap_cons ▸ h.nodup)
  exact hdisj (h.rep_mem List.mem_cons_self) (List.mem_flatMap.2 ⟨x, hx, heq ▸ h.rep_mem (List.mem_cons_of_mem _ hx)⟩)

/-- A pass over the two chains: the frequencies added, the chains joined, the sizes of all members one larger. -/
theorem Merge.Holds.step_eq {m : Merge} {v1 v2 : Group} {rest : List Group} (h : m.Holds (v1 :: v2 :: rest)) :
    ∃ last, v1.members.getLast? = some last ∧
      m.step v1.rep v2.rep =
        { freq := (m.freq.modify v1.rep (· + v2.weight)).set v2.rep 0
          size := bumpAll m.size (v1.merge v2).members
          others := m.others.set last (some v2.rep) } := by
  have h1 : v1 ∈ v1 :: v2 :: rest := List.mem_cons_self
  have h2 : v2 ∈ v1 :: v2 :: rest := List.mem_cons_of_mem _ List.mem_cons_self
  have hlt : ∀ g ∈ v1 :: v2 :: rest, ∀ k ∈ g.members, k < 257 := fun g hg k hk => h.lt k (List.mem_flatMap.2 ⟨g, hg, hk⟩)
  have hnodup := h.nodup
  simp only [List.flatMap_cons, ← List.append_assoc] at hnodup
  have hnodup12 := hnodup.of_append_left
  have hlen1 := length_le_of_nodup_of_lt hnodup12.of_append_left (hlt v1 h1)
  have hlen2 := length_le_of_nodup_of_lt hnodup12.of_append_right (hlt v2 h2)
  obtain ⟨last, hlast, hbump1⟩ := bumpChain_eq (size := m.size) (h.chain v1 h1) (h.head v1 h1) hlen1
  have hchain2 : ChainOf (m.others.set last (some v2.rep)) v2.members :=
    (h.chain v2 h2).congr fun x hx => List.getElem?_set_ne fun (heq : last = x) =>
      List.disjoint_of_nodup_append hnodup12 (List.mem_of_getLast? hlast) (heq ▸ hx)
  obtain ⟨last2, -, hbump2⟩ := bumpChain_eq (size := bumpAll m.size v1.members) hchain2 (h.head v2 h2) hlen2
  refine ⟨last, hlast, ?_⟩
  simp only [Merge.step, hbump1, hbump2, (h.weight v2 h2).2, bumpAll_append]
  rfl

/-- The frequencies after a pass. -/
theorem getD_merged {freq : List Nat} {v1 v2 w : Nat} (h1 : v1 < freq.length) (hne : v2 ≠ v1) (k : Nat) :
    ((freq.modify v1 (· + w)).set v2 0).getD k 0 =
      if k = v2 then 0 else if k = v1 then freq.getD v1 0 + w else freq.getD k 0 := by
  by_cases hk2 : k = v2
  · subst hk2
    rw [if_pos rfl]
    by_cases hlt : k < freq.length <;> simp [hlt]
  · rw [if_neg hk2, List.getD_eq_getElem?_getD, List.getElem?_set_ne (Ne.symm hk2)]
    by_cases hk1 : k = v1
    · subst hk1
      simp [h1]
    · simp [hk1, Ne.symm hk1]

/-- FREQ after a pass holds the frequencies of the groups with the first two merged. -/
theorem Merge.Holds.merged_freq {m : Merge} {v1 v2 : Group} {rest : List Group} (h : m.Holds (v1 :: v2 :: rest)) :
    (∀ g ∈ v1.merge v2 :: rest, g.weight ≠ 0 ∧
      ((m.freq.modify v1.rep (· + v2.weight)).set v2.rep 0).getD g.rep 0 = g.weight) ∧
    ∀ k, ((m.freq.modify v1.rep (· + v2.weight)).set v2.rep 0).getD k 0 ≠ 0 → ∃ g ∈ v1.merge v2 :: rest, g.rep = k := by
  have h1 : v1 ∈ v1 :: v2 :: rest := List.mem_cons_self
  have hr1 : v1.rep < m.freq.length := h.freqLength ▸ h.lt _ (List.mem_flatMap.2 ⟨v1, h1, h.rep_mem h1⟩)
  have hne : v2.rep ≠ v1.rep := h.rep_ne v2 List.mem_cons_self
  have hfreq := getD_merged (w := v2.weight) hr1 hne
  constructor
  · intro g hg
    rw [hfreq]
    rcases List.mem_cons.1 hg with rfl | hg
    · obtain ⟨hw1, hf1⟩ := h.weight v1 h1
      rw [Group.merge_rep, if_neg hne.symm, if_pos rfl, hf1, Group.merge_weight]
      exact ⟨by omega, rfl⟩
    · have hg2 : g.rep ≠ v2.rep := (h.perm (.swap v2 v1 rest)).rep_ne g (List.mem_cons_of_mem _ hg)
      rw [if_neg hg2, if_neg (h.rep_ne g (List.mem_cons_of_mem _ hg))]
      exact h.weight g (List.mem_cons_of_mem _ (List.mem_cons_of_mem _ hg))
  · intro k hk
    rw [hfreq] at hk
    by_cases hk2 : k = v2.rep
    · exact absurd (if_pos hk2) hk
    by_cases hk1 : k = v1.rep
    · exact ⟨_, List.mem_cons_self, hk1.symm⟩
    · rw [if_neg hk2, if_neg hk1] at hk
      obtain ⟨g, hg, rfl⟩ := h.counted k hk
      rcases List.mem_cons.1 hg with rfl | hg
      · exact absurd rfl hk1
      rcases List.mem_cons.1 hg with rfl | hg
      · exact absurd rfl hk2
      · exact ⟨g, List.mem_cons_of_mem _ hg, rfl⟩

/-- OTHERS after a pass holds the chains of the groups with the first two merged. -/
theorem Merge.Holds.merged_chain {m : Merge} {v1 v2 : Group} {rest : List Group} (h : m.Holds (v1 :: v2 :: rest)) {last : Nat}
    (hlast : v1.members.getLast? = some last) :
    ∀ g ∈ v1.merge v2 :: rest, ChainOf (m.others.set last (some v2.rep)) g.members := by
  have h1 : v1 ∈ v1 :: v2 :: rest := List.mem_cons_self
  have h2 : v2 ∈ v1 :: v2 :: rest := List.mem_cons_of_mem _ List.mem_cons_self
  have hlast1 := List.mem_of_getLast? hlast
  have hlt : last < m.others.length := h.othersLength ▸ h.lt _ (List.mem_flatMap.2 ⟨v1, h1, hlast1⟩)
  have hnodup := Group.flatMap_members_merge v1 v2 rest ▸ h.nodup
  rw [List.flatMap_cons] at hnodup
  intro g hg
  rcases List.mem_cons.1 hg with rfl | hg
  · exact (h.chain v1 h1).append (h.chain v2 h2) (h.head v2 h2) hlast hlt hnodup.of_append_left
  · refine (h.chain g (List.mem_cons_of_mem _ (List.mem_cons_of_mem _ hg))).congr fun x hx =>
      List.getElem?_set_ne fun (heq : last = x) => ?_
    exact List.disjoint_of_nodup_append hnodup (List.mem_append_left _ hlast1) (List.mem_flatMap.2 ⟨g, hg, heq ▸ hx⟩)

/-- After a pass the scratch is that of the groups with the first two merged, and their members' sizes are one larger. -/
theorem Merge.Holds.step {m : Merge} {v1 v2 : Group} {rest : List Group} (h : m.Holds (v1 :: v2 :: rest)) :
    (m.step v1.rep v2.rep).Holds (v1.merge v2 :: rest) ∧
      ∀ k, (m.step v1.rep v2.rep).size.getD k 0 = m.size.getD k 0 + if k ∈ (v1.merge v2).members then 1 else 0 := by
  obtain ⟨last, hlast, hstep⟩ := h.step_eq
  obtain ⟨hweight, hcounted⟩ := h.merged_freq
  have hnodup := Group.flatMap_members_merge v1 v2 rest ▸ h.nodup
  have hlt := Group.flatMap_members_merge v1 v2 rest ▸ h.lt
  rw [hstep]
  refine ⟨⟨?_, ?_, ?_, hweight, hcounted, h.merged_chain hlast, fun g hg => ?_, hnodup, hlt⟩, bumpAll_getD ?_ fun k hk => ?_⟩
  · simp [h.freqLength]
  · rw [bumpAll_length, h.sizeLength]
  · rw [List.length_set, h.othersLength]
  · rcases List.mem_cons.1 hg with rfl | hg
    · rw [Group.merge_members, List.head?_append, h.head v1 List.mem_cons_self]
      rfl
    · exact h.head g (List.mem_cons_of_mem _ (List.mem_cons_of_mem _ hg))
  · exact (List.flatMap_cons ▸ hnodup).of_append_left
  · exact h.sizeLength ▸ hlt k (List.mem_flatMap.2 ⟨_, List.mem_cons_self, hk⟩)

/-! ### The loop -/

theorem Merge.Holds.candidate {m : Merge} {g : Group} {gs : List Group} (h : m.Holds (g :: gs)) :
    Candidate none m.freq g.rep ∧ ∀ x ∈ gs, Candidate (some g.rep) m.freq x.rep := by
  refine ⟨⟨?_, nofun⟩, fun x hx => ⟨?_, fun heq => h.rep_ne x hx (Option.some.inj heq).symm⟩⟩
  · rw [(h.weight g List.mem_cons_self).2]
    exact (h.weight g List.mem_cons_self).1
  · rw [(h.weight x (List.mem_cons_of_mem _ hx)).2]
    exact (h.weight x (List.mem_cons_of_mem _ hx)).1

/-- Groups in the order of the search. -/
theorem Merge.Holds.before_of_earlier {m : Merge} {gs : List Group} (h : m.Holds gs) {g x : Group} (hg : g ∈ gs) (hx : x ∈ gs)
    (he : Earlier m.freq g.rep x.rep) : g.before x := by
  rwa [Earlier, (h.weight g hg).2, (h.weight x hx).2] at he

/-- The loop merges until one group is left, and the sizes grow by those of the relation (42_huffman.md R163). -/
theorem mergeLoop_codeSizes {fuel : Nat} {m : Merge} {gs : List Group} (h : m.Holds gs) (hne : gs ≠ []) (hfuel : gs.length ≤ fuel + 1) :
    ∃ size, CodeSizes gs size ∧ (mergeLoop fuel m).size.length = 257 ∧
      ∀ k, (mergeLoop fuel m).size.getD k 0 = m.size.getD k 0 + size k := by
  induction fuel generalizing m gs with
  | zero =>
    obtain ⟨g, rfl⟩ : ∃ g, gs = [g] := List.length_eq_one_iff.1 (by have := List.length_pos_iff.2 hne; omega)
    exact ⟨_, .done g, h.sizeLength, fun _ => rfl⟩
  | succ fuel ih =>
    rw [mergeLoop]
    cases hv1 : leastFrom none 0 none m.freq with
    | none =>
      obtain ⟨g, gs, rfl⟩ := List.exists_cons_of_ne_nil hne
      exact absurd h.candidate.1 (leastFrom_eq_none hv1 _)
    | some r1 =>
      obtain ⟨⟨hc1, -⟩, hmin1⟩ := leastFrom_eq_some hv1
      obtain ⟨v1, hmem1, rfl⟩ := h.counted r1 hc1
      have hp1 := List.perm_cons_erase hmem1
      have h1 := h.perm hp1
      dsimp only
      cases hv2 : leastFrom (some v1.rep) 0 none m.freq with
      | none =>
        have hnil : gs.erase v1 = [] := List.eq_nil_iff_forall_not_mem.2 fun x hx =>
          leastFrom_eq_none hv2 _ (h1.candidate.2 x hx)
        obtain rfl : gs = [v1] := List.perm_singleton.1 (hnil ▸ hp1)
        exact ⟨_, .done v1, h.sizeLength, fun _ => rfl⟩
      | some r2 =>
        obtain ⟨⟨hc2, hs2⟩, hmin2⟩ := leastFrom_eq_some hv2
        obtain ⟨v2, hmem2, rfl⟩ := h1.counted r2 hc2
        have hmem2 : v2 ∈ gs.erase v1 := (List.mem_cons.1 hmem2).resolve_left fun heq => hs2 (heq ▸ rfl)
        have hp2 := hp1.trans ((List.perm_cons_erase hmem2).cons v1)
        have h2 := h.perm hp2
        obtain ⟨hholds, hsizes⟩ := h2.step
        have hlen := hp2.length_eq
        obtain ⟨size, hsize, hlength, hloop⟩ := ih hholds (List.cons_ne_nil _ _) (by simp only [List.length_cons] at hlen ⊢; omega)
        refine ⟨_, .merge gs _ v1 v2 size hp2 ?_ (fun x hx => ?_) hsize, hlength, fun k => ?_⟩
        · have hin : v2 ∈ v1 :: v2 :: (gs.erase v1).erase v2 := List.mem_cons_of_mem _ List.mem_cons_self
          refine h2.before_of_earlier List.mem_cons_self hin (hmin1 _ ⟨hc2, nofun⟩ ?_)
          exact h2.rep_ne v2 List.mem_cons_self
        · have hin : x ∈ gs.erase v1 := List.mem_of_mem_erase hx
          refine h1.before_of_earlier (List.mem_cons_of_mem _ hmem2) (List.mem_cons_of_mem _ hin)
            (hmin2 _ (h1.candidate.2 x hin) ?_)
          exact (h2.perm (.swap _ _ _)).rep_ne x (List.mem_cons_of_mem _ hx)
        · rw [hloop, hsizes, Nat.add_assoc, Nat.add_comm (size k)]

end Sys2Proof.Machine
end

section
/-! SUPPORT. The code sizes of merging (42_huffman.md R163, R164): `code_size` gives those of `CodeSizes`, exactly the merged indexes
have one, and their codes fill the code space. -/

namespace Sys2Proof.Machine

/-! ### The groups that merging starts from -/

/-- FREQ of HT_ADAPT, with the sentinel (42_huffman.md R167). -/
def adaptFreq (f : FreqModel) : List Nat := (f.toList.map BitVec.toNat).set 256 1

theorem adaptFreq_length (f : FreqModel) : (adaptFreq f).length = 257 := by simp [adaptFreq]

theorem adaptFreq_getD (f : FreqModel) {k : Nat} (hk : k < 256) : (adaptFreq f).getD k 0 = countOf f k := by
  rw [adaptFreq, List.getD_eq_getElem?_getD, List.getElem?_set_ne (by omega), countOf, getElem!_pos f k (by omega)]
  simp [show k < 257 by omega]

theorem adaptFreq_getD_sentinel (f : FreqModel) : (adaptFreq f).getD 256 0 = 1 := by
  simp [adaptFreq]

/-- The indexes that merging starts from: the counted symbols and the sentinel. -/
def countedIndexes (f : FreqModel) : List Nat := (List.range 257).filter fun k => (adaptFreq f).getD k 0 ≠ 0

theorem mem_countedIndexes (f : FreqModel) (k : Nat) : k ∈ countedIndexes f ↔ (adaptFreq f).getD k 0 ≠ 0 := by
  simp only [countedIndexes, List.mem_filter, List.mem_range, decide_eq_true_eq, and_iff_right_iff_imp]
  intro h
  by_contra hk
  exact h (List.getD_eq_default _ _ (by rw [adaptFreq_length]; omega))

theorem countedIndexes_nodup (f : FreqModel) : (countedIndexes f).Nodup := List.nodup_range.filter _

/-- The group of a single index. -/
def singleGroup (f : FreqModel) (k : Nat) : Group := { rep := k, weight := (adaptFreq f).getD k 0, members := [k] }

theorem symbolGroups_eq (f : FreqModel) : symbolGroups f = (countedIndexes f).map (singleGroup f) := by
  have hsent : singleGroup f 256 = { rep := 256, weight := 1, members := [256] } := by
    rw [singleGroup, adaptFreq_getD_sentinel]
  have hsym : (List.range 256).map (fun k => ({ rep := k, weight := f[k]!.toNat, members := [k] } : Group)) =
      (List.range 256).map (singleGroup f) := List.map_congr_left fun k hk => by
    rw [singleGroup, adaptFreq_getD f (List.mem_range.1 hk)]
    rfl
  rw [symbolGroups, hsym, ← hsent, countedIndexes, show List.range 257 = List.range 256 ++ [256] from List.range_succ,
    List.filter_append, List.map_append, List.filter_map]
  congr 1
  rw [List.filter_cons_of_pos (by rw [adaptFreq_getD_sentinel]; rfl)]
  rfl

theorem symbolGroups_members (f : FreqModel) : (symbolGroups f).flatMap Group.members = countedIndexes f := by
  rw [symbolGroups_eq, List.flatMap_map]
  exact List.flatMap_singleton' _

theorem merge_start_holds (f : FreqModel) :
    ({ freq := adaptFreq f, size := List.replicate 257 0, others := List.replicate 257 none } : Merge).Holds (symbolGroups f) := by
  have hmem : ∀ g ∈ symbolGroups f, ∃ k, (adaptFreq f).getD k 0 ≠ 0 ∧ singleGroup f k = g := by
    intro g hg
    rw [symbolGroups_eq] at hg
    obtain ⟨k, hk, rfl⟩ := List.mem_map.1 hg
    exact ⟨k, (mem_countedIndexes f k).1 hk, rfl⟩
  refine ⟨adaptFreq_length f, List.length_replicate, List.length_replicate, ?_, fun k hk => ?_, ?_, ?_, ?_, ?_⟩
  · intro g hg
    obtain ⟨k, hk, rfl⟩ := hmem g hg
    exact ⟨hk, rfl⟩
  · refine ⟨singleGroup f k, ?_, rfl⟩
    rw [symbolGroups_eq]
    exact List.mem_map_of_mem ((mem_countedIndexes f k).2 hk)
  · intro g hg
    obtain ⟨k, -, rfl⟩ := hmem g hg
    show (List.replicate 257 none)[k]?.join = none
    rw [List.getElem?_replicate]
    split <;> rfl
  · intro g hg
    obtain ⟨k, -, rfl⟩ := hmem g hg
    rfl
  · rw [symbolGroups_members]
    exact countedIndexes_nodup f
  · rw [symbolGroups_members]
    exact fun k hk => List.mem_range.1 (List.mem_of_mem_filter hk)

theorem getD_replicate_zero (n k : Nat) : (List.replicate n 0).getD k 0 = 0 := by
  rw [List.getD_eq_getElem?_getD, List.getElem?_replicate]
  split <;> rfl

/-- `code_size` gives the sizes of the relation (42_huffman.md R163). -/
theorem codeSize_spec (f : FreqModel) :
    ∃ size, CodeSizes (symbolGroups f) size ∧ codeSize (adaptFreq f) = (List.range 257).map size := by
  have hlen : (symbolGroups f).length ≤ 256 + 1 := by
    rw [symbolGroups_eq, List.length_map, countedIndexes]
    exact (List.length_filter_le _ _).trans_eq List.length_range
  have hne : symbolGroups f ≠ [] := List.concat_ne_nil _ _
  obtain ⟨size, hsize, hlength, hloop⟩ := mergeLoop_codeSizes (merge_start_holds f) hne hlen
  refine ⟨size, hsize, List.ext_getElem ?_ fun k h1 _ => ?_⟩
  · rw [List.length_map, List.length_range]
    exact hlength
  · have hk : (codeSize (adaptFreq f)).getD k 0 = size k := (hloop k).trans (by rw [getD_replicate_zero, Nat.zero_add])
    rw [List.getElem_map, List.getElem_range, ← hk, List.getD_eq_getElem _ _ h1]

/-! ### What the relation says of the code sizes -/

theorem CodeSizes.zero_of_not_mem {gs : List Group} {size : Nat → Nat} (h : CodeSizes gs size) :
    ∀ k, k ∉ gs.flatMap Group.members → size k = 0 := by
  induction h with
  | done g => exact fun _ _ => rfl
  | merge gs rest v1 v2 size hp _ _ _ ih =>
    intro k hk
    have hk' : k ∉ (v1.merge v2 :: rest).flatMap Group.members := by
      rw [(hp.flatMap_right _).mem_iff] at hk
      simpa [or_assoc] using hk
    dsimp only
    rw [ih k hk', if_neg fun hin => hk' (List.mem_flatMap.2 ⟨_, List.mem_cons_self, hin⟩)]

/-- Groups without common members, each with its index among them. -/
def Separate (gs : List Group) : Prop := (gs.flatMap Group.members).Nodup ∧ ∀ g ∈ gs, g.rep ∈ g.members

theorem Separate.perm {gs hs : List Group} (h : Separate gs) (hp : gs.Perm hs) : Separate hs :=
  ⟨(hp.flatMap_right _).nodup_iff.1 h.1, fun g hg => h.2 g (hp.mem_iff.2 hg)⟩

theorem Separate.merge {v1 v2 : Group} {rest : List Group} (h : Separate (v1 :: v2 :: rest)) : Separate (v1.merge v2 :: rest) := by
  refine ⟨Group.flatMap_members_merge v1 v2 rest ▸ h.1, fun g hg => ?_⟩
  rcases List.mem_cons.1 hg with rfl | hg
  · exact List.mem_append_left _ (h.2 v1 List.mem_cons_self)
  · exact h.2 g (List.mem_cons_of_mem _ (List.mem_cons_of_mem _ hg))

theorem Separate.not_mem {g : Group} {gs : List Group} (h : Separate (g :: gs)) {x : Group} (hx : x ∈ gs) :
    ∀ k ∈ x.members, k ∉ g.members := fun _ hk hg =>
  List.disjoint_of_nodup_append (List.flatMap_cons ▸ h.1) hg (List.mem_flatMap.2 ⟨x, hx, hk⟩)

/-- The members of a group have one code size. -/
theorem CodeSizes.eq_of_mem {gs : List Group} {size : Nat → Nat} (h : CodeSizes gs size) (hs : Separate gs) :
    ∀ g ∈ gs, ∀ k ∈ g.members, size k = size g.rep := by
  induction h with
  | done g => intros; rfl
  | merge gs rest v1 v2 size hp _ _ _ ih =>
    have hs' := (hs.perm hp).merge
    have ih := ih hs'
    have hmerged : ∀ k ∈ (v1.merge v2).members, size k + (if k ∈ (v1.merge v2).members then 1 else 0) = size v1.rep + 1 :=
      fun k hk => by rw [if_pos hk, ih _ List.mem_cons_self k hk, Group.merge_rep]
    intro g hg k hk
    have hrep := hs.2 g hg
    rcases List.mem_cons.1 (hp.mem_iff.1 hg) with rfl | hg
    · exact (hmerged k (List.mem_append_left _ hk)).trans (hmerged _ (List.mem_append_left _ hrep)).symm
    rcases List.mem_cons.1 hg with rfl | hg
    · exact (hmerged k (List.mem_append_right _ hk)).trans (hmerged _ (List.mem_append_right _ hrep)).symm
    · dsimp only
      rw [if_neg (hs'.not_mem hg k hk), if_neg (hs'.not_mem hg _ hrep), ih g (List.mem_cons_of_mem _ hg) k hk]

/-- Two groups or more: every merged index has a code. -/
theorem CodeSizes.pos_of_mem {gs : List Group} {size : Nat → Nat} (h : CodeSizes gs size) (h2 : 2 ≤ gs.length) :
    ∀ k ∈ gs.flatMap Group.members, 1 ≤ size k := by
  induction h with
  | done g => simp at h2
  | merge gs rest v1 v2 size hp _ _ _ ih =>
    intro k hk
    dsimp only
    by_cases hin : k ∈ (v1.merge v2).members
    · rw [if_pos hin]
      exact Nat.le_add_left _ _
    · rw [if_neg hin]
      have hk : k ∈ rest.flatMap Group.members := by
        rw [(hp.flatMap_right _).mem_iff] at hk
        rw [Group.merge_members, List.mem_append] at hin
        simp only [List.flatMap_cons, List.mem_append] at hk
        tauto
      obtain ⟨g, hg, hkg⟩ := List.mem_flatMap.1 hk
      refine ih ?_ k (List.mem_flatMap.2 ⟨g, List.mem_cons_of_mem _ hg, hkg⟩)
      have := List.length_pos_of_mem hg
      rw [List.length_cons]
      omega

/-- The codes fill the code space of `N` bits. -/
theorem CodeSizes.kraft {gs : List Group} {size : Nat → Nat} (h : CodeSizes gs size) (hs : Separate gs) (N : Nat)
    (hN : ∀ g ∈ gs, size g.rep ≤ N) : (gs.map fun g => 2 ^ (N - size g.rep)).sum = 2 ^ N := by
  induction h with
  | done g => simp
  | merge gs rest v1 v2 size hp _ _ hsize ih =>
    have hs' := (hs.perm hp).merge
    have hrep1 : v1.rep ∈ (v1.merge v2).members := List.mem_append_left _ ((hs.perm hp).2 v1 List.mem_cons_self)
    have hrep2 : v2.rep ∈ (v1.merge v2).members :=
      List.mem_append_right _ ((hs.perm hp).2 v2 (List.mem_cons_of_mem _ List.mem_cons_self))
    have hsize2 : size v2.rep = size v1.rep := hsize.eq_of_mem hs' _ List.mem_cons_self _ hrep2
    have hrest : ∀ g ∈ rest, g.rep ∉ (v1.merge v2).members := fun g hg =>
      hs'.not_mem hg _ (hs'.2 g (List.mem_cons_of_mem _ hg))
    dsimp only at hN ⊢
    have hN1 : size v1.rep + 1 ≤ N := by
      have := hN v1 (hp.mem_iff.2 List.mem_cons_self)
      rwa [if_pos hrep1] at this
    have hsum := ih hs' fun g hg => by
      rcases List.mem_cons.1 hg with rfl | hg
      · exact (Nat.le_succ _).trans hN1
      · exact (Nat.le_add_right _ _).trans (hN g (hp.mem_iff.2 (List.mem_cons_of_mem _ (List.mem_cons_of_mem _ hg))))
    have hmap : (rest.map fun g => 2 ^ (N - (size g.rep + if g.rep ∈ (v1.merge v2).members then 1 else 0))) =
        rest.map fun g => 2 ^ (N - size g.rep) := List.map_congr_left fun g hg => by rw [if_neg (hrest g hg), Nat.add_zero]
    have hdouble : 2 ^ (N - size v1.rep) = 2 ^ (N - (size v1.rep + 1)) * 2 := by
      rw [← Nat.pow_succ]
      congr 1
      omega
    rw [List.map_cons, List.sum_cons, Group.merge_rep, hdouble] at hsum
    rw [(hp.map _).sum_eq, List.map_cons, List.map_cons, List.sum_cons, List.sum_cons, hmap, if_pos hrep1, if_pos hrep2, hsize2]
    omega

/-! ### The code sizes of counted symbols -/

theorem symbolGroups_separate (f : FreqModel) : Separate (symbolGroups f) := by
  refine ⟨symbolGroups_members f ▸ countedIndexes_nodup f, fun g hg => ?_⟩
  rw [symbolGroups_eq] at hg
  obtain ⟨k, -, rfl⟩ := List.mem_map.1 hg
  exact List.mem_singleton_self k

theorem sentinel_mem_countedIndexes (f : FreqModel) : 256 ∈ countedIndexes f := by
  rw [mem_countedIndexes, adaptFreq_getD_sentinel]
  exact Nat.one_ne_zero

theorem symbol_mem_countedIndexes (f : FreqModel) (b : Byte) : b.toNat ∈ countedIndexes f ↔ f[b.toNat]! ≠ 0 := by
  rw [mem_countedIndexes, adaptFreq_getD f b.isLt, countOf, ne_eq, ne_eq, ← BitVec.toNat_inj]
  rfl

/-- A counted symbol beside the sentinel. -/
theorem two_le_countedIndexes {f : FreqModel} {b : Byte} (hb : f[b.toNat]! ≠ 0) : 2 ≤ (countedIndexes f).length := by
  have hnodup : [b.toNat, 256].Nodup := by simpa using b.isLt.ne
  refine (List.subperm_of_subset hnodup fun k hk => ?_).length_le
  rcases List.mem_pair.1 hk with rfl | rfl
  · exact (symbol_mem_countedIndexes f b).2 hb
  · exact sentinel_mem_countedIndexes f

section
variable {f : FreqModel} {size : Nat → Nat} (h : CodeSizes (symbolGroups f) size) (h2 : 2 ≤ (countedIndexes f).length)
include h h2

theorem CodeSizes.ne_zero_iff (k : Nat) : size k ≠ 0 ↔ k ∈ countedIndexes f := by
  constructor
  · intro hk
    by_contra hno
    exact hk (h.zero_of_not_mem k (symbolGroups_members f ▸ hno))
  · intro hk
    have hlen : 2 ≤ (symbolGroups f).length := by rwa [symbolGroups_eq, List.length_map]
    exact Nat.pos_iff_ne_zero.1 (h.pos_of_mem hlen k (symbolGroups_members f ▸ hk))

theorem CodeSizes.histogram_eq : histogram size = fun n => ((countedIndexes f).map size).count n := by
  funext n
  rw [histogram, List.count, List.countP_map, countedIndexes, List.countP_filter]
  split
  · rename_i hn
    refine (List.countP_eq_zero.2 fun k hk => ?_).symm
    have := h.ne_zero_iff h2 k
    rw [mem_countedIndexes] at this
    simp only [Function.comp, Bool.and_eq_true, beq_iff_eq, decide_eq_true_eq, hn]
    tauto
  · rename_i hn
    refine List.countP_congr fun k hk => ?_
    have := h.ne_zero_iff h2 k
    rw [mem_countedIndexes] at this
    simp only [Function.comp, Bool.and_eq_true, beq_iff_eq, decide_eq_true_eq, ← this]
    omega

end

end Sys2Proof.Machine
end

section
/-! SUPPORT. `adjust_bits` (42_huffman.md R165): as long as the codes fill the code space the longest length has a pair of codes and a
shorter length has one to split, so the model's loops make the borrows of `Adjusts`. -/

namespace Sys2Proof.Machine

/-! ### Histograms of codes that fill the code space -/

/-- `n` codes of 1 to 32 bits, `b k` of length `k`, that fill the code space. -/
structure Balanced (n : Nat) (b : Nat → Nat) : Prop where
  zero : b 0 = 0
  above : ∀ k, 32 < k → b k = 0
  total : ∑ k ∈ Finset.range 33, b k = n
  kraft : ∑ k ∈ Finset.range 33, b k * 2 ^ (32 - k) = 2 ^ 32

theorem sum_count_mul (l : List Nat) (w : Nat → Nat) (n : Nat) (h : ∀ x ∈ l, x < n) :
    ∑ k ∈ Finset.range n, l.count k * w k = (l.map w).sum := by
  induction l with
  | nil => simp
  | cons a l ih =>
    have ha := h a List.mem_cons_self
    simp only [List.count_cons, Nat.add_mul, Finset.sum_add_distrib, List.map_cons, List.sum_cons,
      ih fun x hx => h x (List.mem_cons_of_mem _ hx)]
    rw [Nat.add_comm]
    congr 1
    simp [ha]

/-- Code lengths that fill the code space, by their numbers. -/
theorem balanced_count {l : List Nat} (h : ∀ x ∈ l, 1 ≤ x ∧ x ≤ 32) (hk : (l.map fun x => 2 ^ (32 - x)).sum = 2 ^ 32) :
    Balanced l.length fun k => l.count k where
  zero := List.count_eq_zero.2 fun h0 => absurd (h 0 h0).1 (by omega)
  above k hk := List.count_eq_zero.2 fun h0 => absurd (h k h0).2 (by omega)
  total := by
    have := sum_count_mul l (fun _ => 1) 33 fun x hx => Nat.lt_succ_of_le (h x hx).2
    simpa using this
  kraft := (sum_count_mul l _ 33 fun x hx => Nat.lt_succ_of_le (h x hx).2).trans hk

/-- There is an even number of codes of the longest length. -/
theorem Balanced.even {n i : Nat} {b : Nat → Nat} (h : Balanced n b) (h1 : 1 ≤ i) (h32 : i ≤ 32) (hm : ∀ m, i < m → b m = 0) :
    2 ∣ b i := by
  have hmem : i ∈ Finset.range 33 := Finset.mem_range.2 (by omega)
  have hsum := h.kraft
  rw [← Finset.add_sum_erase _ _ hmem] at hsum
  have hrest : 2 ^ (33 - i) ∣ ∑ k ∈ (Finset.range 33).erase i, b k * 2 ^ (32 - k) := by
    refine Finset.dvd_sum fun k hk => ?_
    rcases Nat.lt_or_gt_of_ne (Finset.ne_of_mem_erase hk) with hlt | hgt
    · exact Dvd.dvd.mul_left (Nat.pow_dvd_pow 2 (by omega)) _
    · rw [hm k hgt, Nat.zero_mul]
      exact Nat.dvd_zero _
  have hdvd : 2 ^ (33 - i) ∣ b i * 2 ^ (32 - i) :=
    (Nat.dvd_add_left hrest).1 (hsum ▸ Nat.pow_dvd_pow 2 (by omega))
  rw [show 33 - i = 32 - i + 1 by omega, Nat.pow_succ, Nat.mul_comm] at hdvd
  exact Nat.dvd_of_mul_dvd_mul_right (Nat.two_pow_pos _) hdvd

/-- With at most 257 codes not all are of 16 bits and more. -/
theorem Balanced.exists_shorter {n i : Nat} {b : Nat → Nat} (h : Balanced n b) (hn : n ≤ 257) (h17 : 17 ≤ i) :
    ∃ j, 1 ≤ j ∧ j + 2 ≤ i ∧ 0 < b j := by
  by_contra hno
  have hterm : ∀ k ∈ Finset.range 33, b k * 2 ^ (32 - k) ≤ b k * 2 ^ 16 := by
    intro k _
    rcases Nat.eq_zero_or_pos (b k) with h0 | hpos
    · rw [h0, Nat.zero_mul, Nat.zero_mul]
    · have hk0 : k ≠ 0 := fun hk => by rw [hk, h.zero] at hpos; exact absurd hpos (Nat.lt_irrefl 0)
      have : ¬k + 2 ≤ i := fun hki => hno ⟨k, by omega, hki, hpos⟩
      exact Nat.mul_le_mul_left _ (Nat.pow_le_pow_right (by omega) (by omega))
  have hle := Finset.sum_le_sum hterm
  rw [h.kraft, ← Finset.sum_mul, h.total] at hle
  omega

/-- One borrow of `adjust_bits` (42_huffman.md R165), as `Adjusts` makes it. -/
def borrowed (b : Nat → Nat) (i j : Nat) : Nat → Nat := fun k =>
  b k - (if k = i then 2 else 0) - (if k = j then 1 else 0) + (if k = i - 1 then 1 else 0) + if k = j + 1 then 2 else 0

/-- What a borrow moves, in a weighted sum. -/
theorem sum_borrowed {b : Nat → Nat} {i j : Nat} (h2 : 2 ≤ b i) (hji : j + 2 ≤ i) (hb : 0 < b j) (h32 : i ≤ 32) (w : Nat → Nat) :
    ∑ k ∈ Finset.range 33, borrowed b i j k * w k + 2 * w i + w j =
      ∑ k ∈ Finset.range 33, b k * w k + w (i - 1) + 2 * w (j + 1) := by
  have hpoint : ∀ k, borrowed b i j k + (if k = i then 2 else 0) + (if k = j then 1 else 0) =
      b k + (if k = i - 1 then 1 else 0) + if k = j + 1 then 2 else 0 := by
    intro k
    by_cases hki : k = i
    · subst hki
      simp only [borrowed, if_true, if_neg (show k ≠ j by omega)]
      omega
    by_cases hkj : k = j
    · subst hkj
      simp only [borrowed, if_true, if_neg hki]
      omega
    · simp only [borrowed, if_neg hki, if_neg hkj]
      omega
  have hsum := Finset.sum_congr (s₁ := Finset.range 33) rfl fun k _ => congrArg (· * w k) (hpoint k)
  simp only [Nat.add_mul, Finset.sum_add_distrib, ite_mul, Nat.zero_mul, Nat.one_mul, Finset.sum_ite_eq', Finset.mem_range] at hsum
  rwa [if_pos (by omega), if_pos (by omega), if_pos (by omega), if_pos (by omega)] at hsum

theorem Balanced.borrowed {n i j : Nat} {b : Nat → Nat} (h : Balanced n b) (h2 : 2 ≤ b i) (hj : 1 ≤ j) (hji : j + 2 ≤ i)
    (hb : 0 < b j) (h32 : i ≤ 32) : Balanced n (borrowed b i j) := by
  have hsum := sum_borrowed h2 hji hb h32
  refine ⟨?_, fun k hk => ?_, ?_, ?_⟩
  · simp only [Machine.borrowed, h.zero]
    simp
    omega
  · simp only [Machine.borrowed, h.above k hk]
    rw [if_neg (by omega), if_neg (by omega), if_neg (by omega), if_neg (by omega)]
  · have := hsum fun _ => 1
    simp only [Nat.mul_one, h.total] at this
    omega
  · have := hsum fun k => 2 ^ (32 - k)
    have hi : 2 * 2 ^ (32 - i) = 2 ^ (32 - (i - 1)) := by
      rw [← Nat.pow_succ']
      congr 1
      omega
    have hjj : 2 * 2 ^ (32 - (j + 1)) = 2 ^ (32 - j) := by
      rw [← Nat.pow_succ']
      congr 1
      omega
    rw [h.kraft, hi, hjj] at this
    omega

/-! ### The loops over BITS -/

/-- BITS as a function of the length. -/
def bitsAt (bits : List Nat) (k : Nat) : Nat := bits.getD k 0

theorem getD_modify {l : List Nat} {i : Nat} (hi : i < l.length) (f : Nat → Nat) (k : Nat) :
    (l.modify i f).getD k 0 = if k = i then f (l.getD i 0) else l.getD k 0 := by
  by_cases hk : k = i
  · subst hk
    simp [hi]
  · simp [hk, Ne.symm hk]

/-- The nearest used length at or below `j`, if there is one. -/
theorem borrowFrom_spec {bits : List Nat} {j : Nat} (h : ∃ k, 1 ≤ k ∧ k ≤ j ∧ 0 < bitsAt bits k) :
    1 ≤ borrowFrom bits j ∧ borrowFrom bits j ≤ j ∧ 0 < bitsAt bits (borrowFrom bits j) ∧
      ∀ m, borrowFrom bits j < m → m ≤ j → bitsAt bits m = 0 := by
  induction j with
  | zero =>
    obtain ⟨k, h1, h0, -⟩ := h
    omega
  | succ j ih =>
    rw [borrowFrom]
    by_cases hpos : 0 < bits.getD (j + 1) 0
    · rw [if_pos hpos]
      exact ⟨by omega, Nat.le_refl _, hpos, fun m h1 h2 => by omega⟩
    · rw [if_neg hpos]
      obtain ⟨k, h1, hkj, hk⟩ := h
      have hne : k ≠ j + 1 := fun heq => hpos (heq ▸ hk)
      obtain ⟨h1', hle, hpos', hzero⟩ := ih ⟨k, h1, by omega, hk⟩
      refine ⟨h1', by omega, hpos', fun m hm hmj => ?_⟩
      rcases Nat.lt_or_eq_of_le hmj with hlt | rfl
      · exact hzero m hm (by omega)
      · exact Nat.eq_zero_of_not_pos hpos

theorem borrow_length (bits : List Nat) (i : Nat) : (borrow bits i).length = bits.length := by simp [borrow]

theorem bitsAt_borrow {bits : List Nat} {i : Nat} (hlen : bits.length = 33) (h32 : i ≤ 32) (hji : borrowFrom bits (i - 2) + 2 ≤ i) :
    bitsAt (borrow bits i) = borrowed (bitsAt bits) i (borrowFrom bits (i - 2)) := by
  funext k
  rw [bitsAt, borrow]
  generalize borrowFrom bits (i - 2) = j at hji ⊢
  simp (disch := simp only [List.length_modify, hlen]; omega) only [getD_modify]
  simp only [borrowed, bitsAt]
  grind

/-- BITS while lengths above `top` have been cleared: the codes fill the code space, at most 257 of them. -/
structure Clamping (n top : Nat) (bits : List Nat) : Prop where
  length : bits.length = 33
  balanced : Balanced n (bitsAt bits)
  above : ∀ m, top < m → bitsAt bits m = 0

/-- One borrow is one of `Adjusts`, and takes two codes of the longest length away. -/
theorem Clamping.borrow {n i : Nat} {bits : List Nat} (h : Clamping n i bits) (hn : n ≤ 257) (h17 : 17 ≤ i) (h32 : i ≤ 32)
    (hpos : 0 < bitsAt bits i) :
    Clamping n i (borrow bits i) ∧ bitsAt (borrow bits i) i + 2 = bitsAt bits i ∧
      ∀ b, Adjusts (bitsAt (borrow bits i)) b → Adjusts (bitsAt bits) b := by
  have h2 : 2 ≤ bitsAt bits i := Nat.le_of_dvd hpos (h.balanced.even (by omega) h32 h.above)
  obtain ⟨k, hk1, hki, hk⟩ := h.balanced.exists_shorter hn h17
  obtain ⟨hj1, hji, hjpos, hzero⟩ := borrowFrom_spec ⟨k, hk1, show k ≤ i - 2 by omega, hk⟩
  have heq := bitsAt_borrow h.length h32 (show borrowFrom bits (i - 2) + 2 ≤ i by omega)
  generalize borrowFrom bits (i - 2) = j at *
  have hji : j + 2 ≤ i := by omega
  refine ⟨⟨by rw [borrow_length, h.length], heq ▸ h.balanced.borrowed h2 hj1 hji hjpos h32, fun m hm => ?_⟩, ?_, fun b hb => ?_⟩
  · rw [heq, borrowed, h.above m hm, if_neg (by omega), if_neg (by omega), if_neg (by omega), if_neg (by omega)]
  · rw [heq, borrowed, if_pos rfl, if_neg (by omega), if_neg (by omega), if_neg (by omega)]
    omega
  · refine .borrow _ b i j (by omega) h.above h2 hj1 hji hjpos (fun m hm hmi => hzero m hm (by omega)) ?_
    rw [heq] at hb
    exact hb

theorem Clamping.cleared {n i : Nat} {bits : List Nat} (h : Clamping n (i + 1) bits) (h0 : bitsAt bits (i + 1) = 0) :
    Clamping n i bits := by
  refine ⟨h.length, h.balanced, fun m hm => ?_⟩
  rcases Nat.lt_or_eq_of_le (Nat.succ_le_of_lt hm) with hlt | rfl
  · exact h.above m hlt
  · exact h0

theorem Clamping.borrowAll {n i fuel : Nat} {bits : List Nat} (h : Clamping n (i + 1) bits) (hn : n ≤ 257) (h16 : 16 ≤ i)
    (h32 : i + 1 ≤ 32) (hfuel : bitsAt bits (i + 1) ≤ fuel) :
    Clamping n i (borrowAll (i + 1) fuel bits) ∧
      ∀ b, Adjusts (bitsAt (Machine.borrowAll (i + 1) fuel bits)) b → Adjusts (bitsAt bits) b := by
  induction fuel generalizing bits with
  | zero => exact ⟨h.cleared (Nat.eq_zero_of_le_zero hfuel), fun _ hb => hb⟩
  | succ fuel ih =>
    rw [Machine.borrowAll]
    by_cases hpos : 0 < bits.getD (i + 1) 0
    · rw [if_pos hpos]
      obtain ⟨hb, htwo, hadj⟩ := h.borrow hn (by omega) h32 hpos
      obtain ⟨hall, hadj'⟩ := ih hb (by omega)
      exact ⟨hall, fun b hb => hadj b (hadj' b hb)⟩
    · rw [if_neg hpos]
      exact ⟨h.cleared (Nat.eq_zero_of_not_pos hpos), fun _ hb => hb⟩

theorem Clamping.clampLengths {n k : Nat} {bits : List Nat} (h : Clamping n (16 + k) bits) (hn : n ≤ 257) (hk : k ≤ 16) :
    Clamping n 16 (clampLengths k bits) ∧
      ∀ b, Adjusts (bitsAt (Machine.clampLengths k bits)) b → Adjusts (bitsAt bits) b := by
  induction k generalizing bits with
  | zero => exact ⟨h, fun _ hb => hb⟩
  | succ k ih =>
    rw [Machine.clampLengths, show 17 + k = 16 + k + 1 by omega]
    obtain ⟨hb, hadj⟩ := Clamping.borrowAll (i := 16 + k) h hn (by omega) (by omega) (Nat.le_refl _)
    obtain ⟨hc, hadj'⟩ := ih hb (by omega)
    exact ⟨hc, fun b hb => hadj b (hadj' b hb)⟩

/-! ### The sentinel's code -/

/-- The longest used length of codes that have been clamped to 16 bits. -/
theorem Clamping.longest {n : Nat} {bits : List Nat} (h : Clamping n 16 bits) :
    1 ≤ borrowFrom bits 16 ∧ borrowFrom bits 16 ≤ 16 ∧ 0 < bitsAt bits (borrowFrom bits 16) ∧
      ∀ m, borrowFrom bits 16 < m → bitsAt bits m = 0 := by
  have hex : ∃ k, 1 ≤ k ∧ k ≤ 16 ∧ 0 < bitsAt bits k := by
    by_contra hno
    have hzero : ∀ k ∈ Finset.range 33, bitsAt bits k * 2 ^ (32 - k) = 0 := by
      intro k _
      rcases Nat.eq_zero_or_pos k with rfl | hk1
      · rw [h.balanced.zero, Nat.zero_mul]
      by_cases hk16 : k ≤ 16
      · rw [Nat.eq_zero_of_not_pos fun hpos => hno ⟨k, hk1, hk16, hpos⟩, Nat.zero_mul]
      · rw [h.above k (Nat.lt_of_not_le hk16), Nat.zero_mul]
    have hsum := h.balanced.kraft
    rw [Finset.sum_eq_zero hzero] at hsum
    omega
  obtain ⟨h1, h16, hpos, hm⟩ := borrowFrom_spec hex
  refine ⟨h1, h16, hpos, fun m hlt => ?_⟩
  by_cases hm16 : m ≤ 16
  · exact hm m hlt hm16
  · exact h.above m (Nat.lt_of_not_le hm16)

/-- The numbers of codes of 1 to 16 bits of an adapted table: one code fewer than was merged, not all of the code space, and none too
many for a byte. -/
structure AdaptedCounts (n : Nat) (b : Nat → Nat) : Prop where
  total : ∑ k ∈ Finset.range 16, b (k + 1) + 1 = n
  kraft : ∑ k ∈ Finset.range 16, b (k + 1) * 2 ^ (15 - k) < 2 ^ 16
  byte : ∀ k, b k < 2 ^ 8

theorem sum_range_shift {g : Nat → Nat} (h0 : g 0 = 0) (h16 : ∀ k, 16 < k → g k = 0) :
    ∑ k ∈ Finset.range 33, g k = ∑ k ∈ Finset.range 16, g (k + 1) := by
  have hsub : Finset.range 17 ⊆ Finset.range 33 := Finset.range_mono (by omega)
  have hzero : ∀ k ∈ Finset.range 33, k ∉ Finset.range 17 → g k = 0 := fun k _ hk => h16 k (by
    rw [Finset.mem_range] at hk
    omega)
  rw [← Finset.sum_subset hsub hzero, Finset.sum_range_succ', h0, Nat.add_zero]

theorem Balanced.sentinel_removed {n i : Nat} {b : Nat → Nat} (hbal : Balanced n b) (hn : n ≤ 257) (h1 : 1 ≤ i) (h16 : i ≤ 16)
    (hpos : 0 < b i) (hm : ∀ m, i < m → b m = 0) : AdaptedCounts n fun k => b k - if k = i then 1 else 0 := by
  have hsum : ∀ w : Nat → Nat, ∑ k ∈ Finset.range 16, (b (k + 1) - if k + 1 = i then 1 else 0) * w (k + 1) + w i =
      ∑ k ∈ Finset.range 33, b k * w k := by
    intro w
    rw [← sum_range_shift (g := fun k => (b k - if k = i then 1 else 0) * w k) (by simp [hbal.zero])
      fun k hk => by simp [hm k (h16.trans_lt hk)]]
    have hpoint : ∀ k ∈ Finset.range 33, b k * w k = (b k - if k = i then 1 else 0) * w k + if k = i then w k else 0 := by
      intro k _
      by_cases hk : k = i
      · subst hk
        rw [if_pos rfl, if_pos rfl, ← Nat.succ_mul, Nat.succ_eq_add_one, Nat.sub_add_cancel hpos]
      · rw [if_neg hk, if_neg hk, Nat.sub_zero, Nat.add_zero]
    rw [Finset.sum_congr rfl hpoint, Finset.sum_add_distrib, Finset.sum_ite_eq', if_pos (Finset.mem_range.2 (by omega))]
  have heven := hbal.even h1 (by omega) hm
  refine ⟨?_, ?_, fun k => ?_⟩
  · have := hsum fun _ => 1
    simp only [Nat.mul_one, hbal.total] at this
    exact this
  · have hk := hsum fun k => 2 ^ (32 - k)
    have hscale : ∀ k ∈ Finset.range 16, (b (k + 1) - if k + 1 = i then 1 else 0) * 2 ^ (32 - (k + 1)) =
        (b (k + 1) - if k + 1 = i then 1 else 0) * 2 ^ (15 - k) * 2 ^ 16 := by
      intro k hk
      rw [Nat.mul_assoc, ← Nat.pow_add, show 15 - k + 16 = 32 - (k + 1) by have := Finset.mem_range.1 hk; omega]
    rw [hbal.kraft, Finset.sum_congr rfl hscale, ← Finset.sum_mul] at hk
    have := Nat.two_pow_pos (32 - i)
    omega
  · have htotal := hbal.total
    have hle : b i ≤ n := htotal ▸ Finset.single_le_sum (fun _ _ => Nat.zero_le _) (Finset.mem_range.2 (by omega))
    by_cases hk : k = i
    · subst hk
      rw [if_pos rfl]
      omega
    by_cases hk32 : k < 33
    · have hpair := Finset.sum_le_sum_of_subset (f := b) (s := {k, i}) (t := Finset.range 33) (by
        intro x hx
        simp only [Finset.mem_insert, Finset.mem_singleton] at hx
        exact Finset.mem_range.2 (by omega))
      rw [Finset.sum_pair hk, htotal] at hpair
      omega
    · rw [hbal.above k (by omega), Nat.zero_sub]
      omega

theorem bitsAt_decrement {bits : List Nat} {i : Nat} (hi : i < bits.length) :
    bitsAt (bits.modify i (· - 1)) = fun k => bitsAt bits k - if k = i then 1 else 0 := by
  funext k
  rw [bitsAt, getD_modify hi]
  by_cases hk : k = i
  · rw [if_pos hk, if_pos hk, hk, bitsAt]
  · rw [if_neg hk, if_neg hk, bitsAt, Nat.sub_zero]

/-- `adjust_bits` of the lengths that merging gives, at most 257 of them: the histogram of `Adjusts`, and what an adapted table needs of
it (42_huffman.md R165, R167). -/
theorem adjustBits_spec {n : Nat} {bits : List Nat} (hlen : bits.length = 33) (hbal : Balanced n (bitsAt bits)) (hn : n ≤ 257) :
    Adjusts (bitsAt bits) (bitsAt (adjustBits bits)) ∧ AdaptedCounts n (bitsAt (adjustBits bits)) := by
  obtain ⟨hc, hadj⟩ := Clamping.clampLengths (k := 16) ⟨hlen, hbal, hbal.above⟩ hn (Nat.le_refl _)
  obtain ⟨h1, h16, hpos, hm⟩ := hc.longest
  have heq := bitsAt_decrement (show borrowFrom (Machine.clampLengths 16 bits) 16 < (Machine.clampLengths 16 bits).length by
    rw [hc.length]
    omega)
  rw [adjustBits, heq]
  exact ⟨hadj _ (.done _ _ hpos h16 hm), hc.balanced.sentinel_removed hn h1 h16 hpos hm⟩

end Sys2Proof.Machine
end

section
/-! SUPPORT. HT_ADAPT (42_huffman.md R164, R166, R167): the histogram and the symbol list of the code sizes, and the table they give. -/

namespace Sys2Proof.Machine

/-! ### The histogram of the code sizes -/

theorem countBits_error {size : Nat → Nat} {k : Nat} (hk : k ≤ 256) (h32 : 32 < size k) (hbefore : ∀ j, j < k → size j ≤ 32) :
    countBits ((List.range 257).map size) = .error (.adaptOverflow, BitVec.ofNat 32 k) := by
  have hlt : k < ((List.range 257).map size).length := by rw [List.length_map, List.length_range]; omega
  have hfind : ((List.range 257).map size).findIdx? (fun c => 32 < c) = some k :=
    List.findIdx?_eq_some_iff_getElem.2 ⟨hlt, by simpa using h32, fun j hj => by simpa using hbefore j hj⟩
  rw [countBits, hfind]

theorem countBits_ok {size : Nat → Nat} (h32 : ∀ k, k ≤ 256 → size k ≤ 32) :
    ∃ bits, countBits ((List.range 257).map size) = .ok bits ∧ bits.length = 33 ∧ bitsAt bits = histogram size := by
  have hfind : ((List.range 257).map size).findIdx? (fun c => 32 < c) = none := by
    refine List.findIdx?_eq_none_iff.2 fun c hc => ?_
    obtain ⟨k, hk, rfl⟩ := List.mem_map.1 hc
    simpa using h32 k (Nat.le_of_lt_succ (List.mem_range.1 hk))
  refine ⟨_, by rw [countBits, hfind], by simp, ?_⟩
  funext n
  rw [bitsAt, histogram]
  by_cases hn : n < 33
  · rw [List.getD_eq_getElem _ _ (by simpa using hn), List.getElem_map, List.getElem_range, List.count, List.countP_map]
    rfl
  · rw [List.getD_eq_default _ _ (by simpa using hn), if_neg (by omega)]
    refine (List.countP_eq_zero.2 fun k hk => ?_).symm
    have := h32 k (Nat.le_of_lt_succ (List.mem_range.1 hk))
    simp only [decide_eq_true_eq]
    omega

/-! ### The symbols by code size -/

theorem sortInput_eq (size : Nat → Nat) : sortInput ((List.range 257).map size) =
    (List.range 32).flatMap fun i => ((List.range 256).filter fun j => size j = i + 1).map fun j => BitVec.ofNat 8 j := by
  refine congrArg (fun g => (List.range 32).flatMap g) (funext fun i => congrArg (List.map _) (List.filter_congr fun j hj => ?_))
  rw [List.getD_eq_getElem _ _ (by have := List.mem_range.1 hj; simp; omega), List.getElem_map, List.getElem_range]

theorem mem_sizeClass {size : Nat → Nat} {i : Nat} {b : Byte} :
    b ∈ (((List.range 256).filter fun j => size j = i + 1).map fun j => (BitVec.ofNat 8 j : Byte)) ↔ size b.toNat = i + 1 := by
  simp only [List.mem_map, List.mem_filter, List.mem_range, decide_eq_true_eq]
  constructor
  · rintro ⟨j, ⟨hj, hsize⟩, rfl⟩
    rwa [BitVec.toNat_ofNat, Nat.mod_eq_of_lt hj]
  · exact fun h => ⟨b.toNat, ⟨b.isLt, h⟩, BitVec.ofNat_toNat 8 b |>.trans (BitVec.setWidth_eq b)⟩

theorem mem_sortInput {size : Nat → Nat} (h32 : ∀ k, k ≤ 256 → size k ≤ 32) (b : Byte) :
    b ∈ sortInput ((List.range 257).map size) ↔ size b.toNat ≠ 0 := by
  have hb := h32 b.toNat b.isLt.le
  simp only [sortInput_eq, List.mem_flatMap, mem_sizeClass, List.mem_range]
  exact ⟨fun ⟨i, _, hi⟩ => by omega, fun h => ⟨size b.toNat - 1, by omega, by omega⟩⟩

/-- By code size, and by value inside one (42_huffman.md R166). -/
theorem sortInput_pairwise (size : Nat → Nat) : (sortInput ((List.range 257).map size)).Pairwise fun a b =>
    size a.toNat < size b.toNat ∨ size a.toNat = size b.toNat ∧ a < b := by
  rw [sortInput_eq, List.pairwise_flatMap]
  refine ⟨fun i _ => ?_, List.pairwise_lt_range.imp fun hij a ha b hb => ?_⟩
  · rw [List.pairwise_map]
    refine (List.pairwise_lt_range.filter _).imp_of_mem fun {j k} hj hk hjk => ?_
    simp only [List.mem_filter, List.mem_range, decide_eq_true_eq] at hj hk
    rw [BitVec.toNat_ofNat, BitVec.toNat_ofNat, Nat.mod_eq_of_lt hj.1, Nat.mod_eq_of_lt hk.1, hj.2, hk.2]
    refine .inr ⟨rfl, BitVec.lt_def.2 ?_⟩
    rwa [BitVec.toNat_ofNat, BitVec.toNat_ofNat, Nat.mod_eq_of_lt hj.1, Nat.mod_eq_of_lt hk.1]
  · rw [mem_sizeClass] at ha hb
    omega

/-- As many symbols as there are merged indexes besides the sentinel. -/
theorem sortInput_length {f : FreqModel} {size : Nat → Nat} (h : CodeSizes (symbolGroups f) size)
    (h2 : 2 ≤ (countedIndexes f).length) (h32 : ∀ k, k ≤ 256 → size k ≤ 32) :
    (sortInput ((List.range 257).map size)).length + 1 = (countedIndexes f).length := by
  have hnodup : (sortInput ((List.range 257).map size)).Nodup := (sortInput_pairwise size).imp fun hab heq => by
    subst heq
    exact hab.elim (Nat.lt_irrefl _) fun h => BitVec.lt_irrefl _ h.2
  have hperm : (256 :: (sortInput ((List.range 257).map size)).map BitVec.toNat).Perm (countedIndexes f) := by
    refine (List.perm_ext_iff_of_nodup ?_ (countedIndexes_nodup f)).2 fun k => ?_
    · refine List.nodup_cons.2 ⟨fun hmem => ?_, hnodup.map fun a b => BitVec.eq_of_toNat_eq⟩
      obtain ⟨b, -, hb⟩ := List.mem_map.1 hmem
      exact absurd hb b.isLt.ne
    · rw [List.mem_cons, List.mem_map]
      constructor
      · rintro (rfl | ⟨b, hb, rfl⟩)
        · exact sentinel_mem_countedIndexes f
        · exact (h.ne_zero_iff h2 _).1 ((mem_sortInput h32 b).1 hb)
      · intro hk
        have hlt : k < 257 := List.mem_range.1 (List.mem_of_mem_filter hk)
        refine (Nat.lt_succ_iff_lt_or_eq.1 hlt).symm.imp_right fun hlt => ⟨BitVec.ofNat 8 k, ?_, Nat.mod_eq_of_lt hlt⟩
        rw [mem_sortInput h32, BitVec.toNat_ofNat, Nat.mod_eq_of_lt hlt]
        exact (h.ne_zero_iff h2 k).2 hk
  have := hperm.length_eq
  rwa [List.length_cons, List.length_map] at this

theorem countedIndexes_length_le (f : FreqModel) : (countedIndexes f).length ≤ 257 :=
  (List.length_filter_le _ _).trans_eq List.length_range

/-- The codes of the merged indexes fill the code space. -/
theorem CodeSizes.balanced {f : FreqModel} {size : Nat → Nat} (h : CodeSizes (symbolGroups f) size)
    (h2 : 2 ≤ (countedIndexes f).length) (h32 : ∀ k, k ≤ 256 → size k ≤ 32) :
    Balanced (countedIndexes f).length (histogram size) := by
  have hle : ∀ k ∈ countedIndexes f, size k ≤ 32 := fun k hk =>
    h32 k (Nat.le_of_lt_succ (List.mem_range.1 (List.mem_of_mem_filter hk)))
  have hkraft := h.kraft (symbolGroups_separate f) 32 fun g hg => by
    rw [symbolGroups_eq] at hg
    obtain ⟨k, hk, rfl⟩ := List.mem_map.1 hg
    exact hle k hk
  rw [symbolGroups_eq, List.map_map] at hkraft
  have hbal := balanced_count (l := (countedIndexes f).map size) (fun x hx => ?_) (by rw [List.map_map]; exact hkraft)
  · rw [List.length_map] at hbal
    rwa [h.histogram_eq h2]
  · obtain ⟨k, hk, rfl⟩ := List.mem_map.1 hx
    exact ⟨Nat.pos_of_ne_zero ((h.ne_zero_iff h2 k).2 hk), hle k hk⟩

/-! ### The specification that the counts give -/

theorem any_counted_iff (f : FreqModel) :
    ((f.toList.map BitVec.toNat).take 256).any (· ≠ 0) = true ↔ ∃ b : Byte, f[b.toNat]! ≠ 0 := by
  have hget : ∀ k (hk : k < 256), f[k]! = f[k] := fun k hk => getElem!_pos f k (by omega)
  have hne : ∀ w : Word, w ≠ 0 ↔ w.toNat ≠ 0 := fun w => not_congr BitVec.toNat_inj.symm
  simp only [List.any_eq_true, List.mem_iff_getElem, List.getElem_take, List.getElem_map, Vector.getElem_toList,
    decide_eq_true_eq]
  constructor
  · rintro ⟨_, ⟨k, hk, rfl⟩, h0⟩
    have hk : k < 256 := by simpa using hk
    refine ⟨BitVec.ofNat 8 k, ?_⟩
    rwa [BitVec.toNat_ofNat, Nat.mod_eq_of_lt hk, hget k hk, hne]
  · rintro ⟨b, hb⟩
    rw [hget _ b.isLt, hne] at hb
    exact ⟨_, ⟨b.toNat, by simpa using b.isLt, rfl⟩, hb⟩

/-- The specification with these numbers of codes of 1 to 16 bits and these symbols. -/
def adaptedSpec (b : Nat → Nat) (syms : List Byte) : HuffSpec :=
  { counts := Vector.ofFn fun i : Fin 16 => BitVec.ofNat 8 (b (i.val + 1)), syms := syms }

theorem adaptSpec_empty {f : FreqModel} (h : ∀ b : Byte, f[b.toNat]! = 0) : adaptSpec f = .error (.badArg, 256) := by
  have hany : ((f.toList.map BitVec.toNat).take 256).any (· ≠ 0) = false :=
    Bool.eq_false_iff.2 fun hany => ((any_counted_iff f).1 hany).elim fun b hb => hb (h b)
  rw [adaptSpec]
  dsimp only
  rw [hany]
  rfl

theorem adaptSpec_eq {f : FreqModel} {b : Byte} (hb : f[b.toNat]! ≠ 0) :
    adaptSpec f = (countBits (codeSize (adaptFreq f))).map fun bits =>
      adaptedSpec (bitsAt (adjustBits bits)) (sortInput (codeSize (adaptFreq f))) := by
  rw [adaptSpec]
  dsimp only
  rw [(any_counted_iff f).2 ⟨b, hb⟩]
  rfl

section
variable {b : Nat → Nat} {n : Nat} (h : AdaptedCounts n b) (syms : List Byte)
include h

theorem AdaptedCounts.counts_toNat (l : Fin 16) : (adaptedSpec b syms).counts[l].toNat = b (l.val + 1) := by
  simpa [adaptedSpec] using h.byte (l.val + 1)

theorem AdaptedCounts.lengths_eq : (adaptedSpec b syms).lengths = (List.range 16).map fun i => b (i + 1) := by
  apply List.ext_getElem
  · simp
  · intro i h1 h2
    simp only [HuffSpec.lengths, List.getElem_map, Vector.getElem_toList, List.getElem_range]
    exact h.counts_toNat syms ⟨i, by simpa using h1⟩

theorem AdaptedCounts.counted (hlen : syms.length + 1 = n) : (adaptedSpec b syms).counted := by
  have hsum : ((List.range 16).map fun i => b (i + 1)).sum = ∑ i ∈ Finset.range 16, b (i + 1) := rfl
  rw [HuffSpec.counted, h.lengths_eq, hsum]
  exact Nat.succ_injective (hlen.trans h.total.symm)

theorem AdaptedCounts.kraft_lt : (adaptedSpec b syms).kraft < 2 ^ 16 := by
  have hterm : ((List.range 16).map fun i => (adaptedSpec b syms).lengths.getD i 0 * 2 ^ (15 - i)) =
      (List.range 16).map fun i => b (i + 1) * 2 ^ (15 - i) := by
    refine List.map_congr_left fun i hi => ?_
    rw [h.lengths_eq, List.getD_eq_getElem _ _ (by simpa using hi), List.getElem_map, List.getElem_range]
  rw [HuffSpec.kraft, hterm]
  exact h.kraft

end

/-- Codes that do not use all of the code space leave its last one, all ones, free. -/
theorem slot_ne_allOnes {p : HuffSpec} {slots : List Slot} (h : buildSlots p = .ok slots) (hk : p.kraft < 2 ^ 16) :
    ∀ k ∈ slots, k.bits ≠ List.replicate k.size.toNat true := by
  obtain ⟨codes, hc, hpair, -⟩ := buildSlots_ok h
  intro k hmem hones
  obtain ⟨_, h16, hlt⟩ := slot_bounds h k hmem
  have hle := assignCodes_le_sum hc p.sizes_pairwise (fun z hz => (HuffSpec.size_bounds hz).2) k.pair
    (List.mem_of_mem_take (hpair ▸ List.mem_map_of_mem hmem))
  have hcode : k.code.toNat = 2 ^ k.size.toNat - 1 := by
    rw [← padding_bits] at hones
    exact numBits_inj hlt (Nat.sub_one_lt (Nat.two_pow_pos _).ne') hones
  rw [Nat.zero_mul, Nat.zero_add, ← p.kraft_eq] at hle
  have hpow : (k.code.toNat + 1) * 2 ^ (16 - k.size.toNat) = 2 ^ 16 := by
    rw [hcode, Nat.sub_add_cancel (Nat.two_pow_pos _), ← Nat.pow_add, Nat.add_sub_cancel' h16]
  exact absurd (hpow.symm.trans_le hle) (Nat.not_le_of_lt hk)

/-! ### HT_ADAPT -/

/-- The end of HT_ADAPT with a table: it is loaded, the counts are consumed (42_huffman.md R167). -/
def State.adapted (s : State) (c : TableClass) (i : Fin 4) (t : HuffTable) : State :=
  State.finish
    { ((s.setTable c i t).setValid (tableBit c i) true).setFreq c i (Vector.replicate 257 0) with
      res0 := BitVec.ofNat 32 t.spec.syms.length } false

/-- HT_ADAPT behind its field checks (42_huffman.md R167). -/
theorem exec_htAdapt {s : State} {tc th : Byte} {c : TableClass} {i : Fin 4} (hf : tableFields tc th = .ok (c, i)) :
    exec (.htAdapt tc th) s =
      .next (s.checked (.htAdapt tc th) (adaptSpec (s.freq c i) >>= buildTable) (s.adapted c i)) := by
  rw [exec, execHtAdapt, State.htAdaptChecks, hf]
  cases hp : adaptSpec (s.freq c i) with
  | error r => simp [bind, Except.bind, hp]
  | ok p =>
    cases hb : buildTable p with
    | error r => simp [bind, Except.bind, hp, hb]
    | ok t => simp [bind, Except.bind, pure, Except.pure, hp, hb, State.adapted, FreqModel.cleared]

/-- A specification that leaves code space free is built, and HT_ADAPT completes with its table. -/
theorem exec_htAdapt_ok {s : State} {tc th : Byte} {c : TableClass} {i : Fin 4} {p : HuffSpec}
    (hf : tableFields tc th = .ok (c, i)) (hp : adaptSpec (s.freq c i) = .ok p) (hk : p.kraft < 2 ^ 16) :
    ∃ t : HuffTable, t.ok ∧ t.spec = p ∧ (∀ k ∈ t.dec, k.bits ≠ List.replicate k.size.toNat true) ∧
      exec (.htAdapt tc th) s = .next (s.adapted c i t) := by
  rcases buildTable_spec p with ⟨-, t, ht⟩ | ⟨hover, -⟩
  · obtain ⟨rfl, hslots, -⟩ := buildTable_ok_iff.1 ht
    refine ⟨t, ht, rfl, slot_ne_allOnes hslots hk, ?_⟩
    rw [exec_htAdapt hf, hp]
    exact congrArg (fun x => Host.Outcome.next (s.checked (.htAdapt tc th) x (s.adapted c i))) ht
  · exact absurd hover (Nat.not_lt_of_lt hk)

/-! ### The examples -/

/-- The value that a list of pairs has at `k`, else 0. -/
def valueAt (l : List (Nat × Nat)) (k : Nat) : Nat := (l.lookup k).getD 0

theorem adaptFreq_countsOf (l : List (Nat × Nat)) :
    adaptFreq (countsOf l) = (List.range 257).map fun k => if k = 256 then 1 else valueAt l k % 2 ^ 32 := by
  apply List.ext_getElem
  · simp [adaptFreq]
  · intro k h1 h2
    simp [adaptFreq, countsOf, valueAt, List.getElem_set, eq_comm]

/-- The specification of counts, by its intermediate results: the code sizes, their histogram, and the symbols by size. -/
theorem adaptSpec_countsOf {l : List (Nat × Nat)} (sizes : List (Nat × Nat)) (bits : List Nat) {adjusted : List Nat}
    {syms : List Byte} {b : Byte} (hb : (countsOf l)[b.toNat]! ≠ 0)
    (hsizes : codeSize ((List.range 257).map fun k => if k = 256 then 1 else valueAt l k % 2 ^ 32) =
      (List.range 257).map (valueAt sizes))
    (hbits : countBits ((List.range 257).map (valueAt sizes)) = .ok bits) (hadjust : adjustBits bits = adjusted)
    (hsyms : ((List.range 32).flatMap fun i => ((List.range 256).filter fun j => valueAt sizes j = i + 1).map fun j =>
      BitVec.ofNat 8 j) = syms) :
    adaptSpec (countsOf l) = .ok (adaptedSpec (bitsAt adjusted) syms) := by
  rw [adaptSpec_eq hb, adaptFreq_countsOf, hsizes, hbits, sortInput_eq, hsyms, ← hadjust]
  rfl

/-- 42_huffman.md R167. -/
theorem adaptSpec_167 : adaptSpec (countsOf [(0, 10), (1, 4), (2, 4), (3, 1)]) =
    .ok (adaptedSpec (bitsAt (0 :: 1 :: 1 :: 1 :: 1 :: List.replicate 28 0)) [0, 1, 2, 3]) :=
  adaptSpec_countsOf [(0, 1), (1, 2), (2, 3), (3, 4), (256, 4)] (0 :: 1 :: 1 :: 1 :: 2 :: List.replicate 28 0) (b := 0)
    (by decide +kernel) (by decide +kernel) (by decide +kernel) (by decide) (by decide +kernel)

/-- 42_huffman.md R168. -/
theorem adaptSpec_168 : adaptSpec (countsOf [(2, 7), (5, 3), (9, 3)]) =
    .ok (adaptedSpec (bitsAt (0 :: 1 :: 1 :: 1 :: List.replicate 29 0)) [2, 5, 9]) :=
  adaptSpec_countsOf [(2, 1), (5, 2), (9, 3), (256, 3)] (0 :: 1 :: 1 :: 2 :: List.replicate 29 0) (b := 2)
    (by decide +kernel) (by decide +kernel) (by decide +kernel) (by decide) (by decide +kernel)

/-- Settles O34: the code sizes are those of the relation, their codes fill the code space, so `adjust_bits` is a run of `Adjusts` that
leaves room for the table. -/
theorem tableAdaptation : Obligations.TableAdaptation := by
  intro s tc th c i hf
  dsimp only
  have hexec := exec_htAdapt (s := s) hf
  refine ⟨fun hempty => ?_, fun ⟨b, hb⟩ => ?_, fun ex hex hfreq => ?_⟩
  · rw [hexec, adaptSpec_empty hempty]
    rfl
  · obtain ⟨size, hsize, hcode⟩ := codeSize_spec (s.freq c i)
    have hspec := adaptSpec_eq hb
    rw [hcode] at hspec
    refine ⟨size, hsize, fun k hk h32 hbefore => ?_, fun h32 => ?_⟩
    · rw [hexec, hspec, countBits_error hk h32 hbefore]
      rfl
    · have h2 := two_le_countedIndexes hb
      obtain ⟨bits, hbits, hlen, hat⟩ := countBits_ok h32
      obtain ⟨hadj, hcounts⟩ := adjustBits_spec hlen (hat ▸ hsize.balanced h2 h32) (countedIndexes_length_le _)
      rw [hat] at hadj
      rw [hbits] at hspec
      obtain ⟨t, hok, ht, hones, hexec⟩ := exec_htAdapt_ok hf hspec (hcounts.kraft_lt _)
      refine ⟨_, t, hadj, ?_, hok, ?_, fun a => ?_, ?_, hones, hexec⟩
      · rw [ht]
        exact hcounts.counts_toNat _
      · rw [ht]
        exact hcounts.counted _ (sortInput_length hsize h2 h32)
      · rw [ht, ← symbol_mem_countedIndexes, ← hsize.ne_zero_iff h2]
        exact mem_sortInput h32 a
      · rw [ht]
        exact sortInput_pairwise size
  · simp only [List.mem_cons, List.not_mem_nil, or_false] at hex
    rcases hex with rfl | rfl
    · obtain ⟨t, hok, ht, -, hexec⟩ := exec_htAdapt_ok hf (hfreq ▸ adaptSpec_167) (by decide)
      exact ⟨t, hok, ht ▸ rfl, ht ▸ by decide, hexec⟩
    · obtain ⟨t, hok, ht, -, hexec⟩ := exec_htAdapt_ok hf (hfreq ▸ adaptSpec_168) (by decide)
      exact ⟨t, hok, ht ▸ rfl, ht ▸ by decide, hexec⟩

end Sys2Proof.Machine
end

section
/-! SUPPORT. Categories and extra bits (43_coefficient.md R193 to R196, R201, R202): the category of a number by its magnitude, and
what `extend` makes of the extra bits. -/

namespace Sys2Proof.Machine

/-! ### Categories -/

theorem bitlen_le_iff {n t : Nat} : bitlen n ≤ t ↔ n < 2 ^ t := by
  unfold bitlen
  split
  · rename_i h
    simp [h]
  · rename_i h
    exact Nat.log2_lt h

theorem cat_le_iff {c : Int} {t : Nat} : cat c ≤ t ↔ |c| < 2 ^ t := by
  rw [cat, bitlen_le_iff, Int.abs_eq_natAbs]
  exact_mod_cast Iff.rfl

theorem cat_eq_zero_iff {c : Int} : cat c = 0 ↔ c = 0 := by
  rw [← Nat.le_zero, cat_le_iff, pow_zero, Int.abs_lt_one_iff]

/-- A number other than 0 has the category `t` with 2^(t−1) ≤ |c| < 2^t (43_coefficient.md R194). -/
theorem cat_bounds {c : Int} (h : c ≠ 0) : 2 ^ (cat c - 1) ≤ |c| ∧ |c| < 2 ^ cat c := by
  have hpos : cat c ≠ 0 := mt cat_eq_zero_iff.1 h
  refine ⟨?_, cat_le_iff.1 le_rfl⟩
  by_contra hlt
  have := cat_le_iff.2 (not_le.1 hlt)
  omega

/-- `cat c ≤ 15` is the range of 43_coefficient.md R196 and R202. -/
theorem cat_le_15_iff {c : Int} : cat c ≤ 15 ↔ |c| ≤ 32767 := by
  rw [cat_le_iff]
  omega

/-! ### Extra bits -/

/-- The extra bits of a number with its category, as a number (43_coefficient.md R195). -/
theorem extra_cat (c : Int) :
    (extra c (cat c) : Int) = if 0 < c then c else if c = 0 then 0 else c - 1 + 2 ^ cat c := by
  unfold extra
  rcases lt_trichotomy c 0 with h | rfl | h
  · obtain ⟨-, hlt⟩ := cat_bounds h.ne
    rw [abs_of_neg h] at hlt
    rw [if_neg (by omega), if_neg (by omega), if_neg h.ne, ← Int.add_emod_right, Int.emod_eq_of_lt (by omega) (by omega)]
    exact Int.toNat_of_nonneg (by omega)
  · rfl
  · rw [if_pos h, if_pos h]
    exact Int.toNat_of_nonneg h.le

theorem extra_lt (c : Int) : extra c (cat c) < 2 ^ cat c := by
  have he := extra_cat c
  obtain ⟨hlo, hhi⟩ := abs_lt.1 (cat_le_iff.1 (le_refl (cat c)))
  zify
  rw [he]
  split_ifs <;> omega

/-- `extend` in integers, as 43_coefficient.md R193 writes it. -/
theorem extend_eq (e t : Nat) :
    extend e t = if t = 0 then 0 else if (e : Int) < 2 ^ (t - 1) then (e : Int) - 2 ^ t + 1 else e := by
  have hcond : e < 2 ^ (t - 1) ↔ (e : Int) < 2 ^ (t - 1) := by exact_mod_cast Iff.rfl
  simp only [extend, hcond]

/-- `extend` undoes `extra` (43_coefficient.md R196), whatever the magnitude: the top bit of the extra bits is the sign. -/
theorem extend_extra (c : Int) : extend (extra c (cat c)) (cat c) = c := by
  rw [extend_eq, extra_cat]
  by_cases h0 : c = 0
  · subst h0
    rfl
  have ht : cat c ≠ 0 := mt cat_eq_zero_iff.1 h0
  obtain ⟨hge, hlt⟩ := cat_bounds h0
  have hpow : (2 : Int) ^ cat c = 2 * 2 ^ (cat c - 1) := by rw [← pow_succ', Nat.sub_add_cancel (by omega)]
  rw [if_neg ht, if_neg h0]
  rcases lt_or_gt_of_ne h0 with h | h
  · rw [abs_of_neg h] at hge hlt
    rw [if_neg h.not_gt, if_pos (by omega)]
    omega
  · rw [abs_of_pos h] at hge hlt
    rw [if_pos h, if_neg (by omega)]

/-- Settles O36: `extend` undoes `extra` for every number, and the bound is category 15. -/
theorem coefficientRoundTrip : Obligations.CoefficientRoundTrip :=
  ⟨fun c h => ⟨extend_extra c, cat_le_15_iff.2 h, extra_lt c⟩, by decide⟩

/-! ### CF_EXT and CF_CAT -/

theorem State.cfCatChecks_ok {s : State} (h : |s.arg[0].toInt| ≤ 32767) : s.cfCatChecks = .ok s.arg[0].toInt := by
  rw [State.cfCatChecks]
  exact (require_bind_ok_iff _ _ _ _).2 ⟨decide_eq_true (cat_le_15_iff.2 h), rfl⟩

theorem State.cfCatChecks_error {s : State} (h : 32767 < |s.arg[0].toInt|) :
    s.cfCatChecks = .error (.coefRange, s.arg[0]) := by
  rw [State.cfCatChecks]
  refine (bind_error_iff _ _ _).2 (.inl ((require_error_iff _ _ _).2 ⟨decide_eq_false ?_, rfl⟩))
  exact mt cat_le_15_iff.1 (not_le.2 h)

/-- Settles O35: by the checks of the two commands, and the values of `extend`, `cat` and `extra`. -/
theorem scalarCoefficients : Obligations.ScalarCoefficients := by
  refine ⟨fun s n hn => ?_, fun s n hn => ?_, fun s => ⟨fun h => ?_, fun h => ?_⟩⟩
  · dsimp only
    rw [exec, execCfExt, (countField_ok_iff _ _ _).2 ⟨rfl, hn⟩, State.checked_ok, toWord, extend_eq]
    rfl
  · rw [exec, execCfExt, (countField_error_iff _ _ _).2 ⟨hn, rfl⟩]
    rfl
  · refine ⟨cat s.arg[0].toInt, cat_le_15_iff.2 h, cat_eq_zero_iff, cat_bounds, ?_⟩
    rw [exec, execCfCat, State.cfCatChecks_ok h, State.checked_ok, ← extra_cat, BitVec.ofInt_natCast]
  · rw [exec, execCfCat, State.cfCatChecks_error h]
    rfl

end Sys2Proof.Machine
end

section
/-! SUPPORT. The items of a block (43_coefficient.md R198): the AC items are spelled by the zig-zag positions of the coefficients that
are not 0, each with the zeros before it; the first value without a category up to 15 is the fault. -/

namespace Sys2Proof.Machine

/-! ### Positions and gaps -/

/-- The coefficient at zig-zag position `k`. -/
def coefAt (b : Vector Word 64) (k : Nat) : Word := b.getD (zigzag.getD k 0).val 0

theorem vector_getD_of_lt {α : Type} {n k : Nat} (v : Vector α n) (d : α) (h : k < n) : v.getD k d = v[k] :=
  (Array.getElem_eq_getD d).symm

theorem coefAt_eq (b : Vector Word 64) {k : Nat} (h : k < 64) : coefAt b k = b[zigzag[k]] := by
  rw [coefAt, vector_getD_of_lt _ _ h]
  exact vector_getD_of_lt b _ zigzag[k].isLt

/-- The zig-zag positions of the AC coefficients that are not 0. -/
def acPositions (b : Vector Word 64) : List Nat := (List.range' 1 63).filter fun k => (coefAt b k).toInt ≠ 0

/-- The items of the values at the positions `ks`, behind a value at `before`: a ZRL for every sixteen positions passed over, then
the value's own item with the rest of them (43_coefficient.md R198). -/
def gapItems (value : Nat → Int) : (before : Nat) → (ks : List Nat) → List Item
  | _, [] => []
  | before, k :: ks =>
    List.replicate ((k - before - 1) / 16) Item.zrl ++
      valueItem .ac ((k - before - 1) % 16) (value k) :: gapItems value k ks

/-- The End-Of-Block of a block whose last coefficient is 0. -/
def endItems (b : Vector Word 64) : List Item := if b[63] = 0 then [Item.eob] else []

theorem gapItems_eq_zipWith (value : Nat → Int) (before : Nat) (ks : List Nat) :
    gapItems value before ks = (List.zipWith (fun before k =>
      List.replicate ((k - before - 1) / 16) Item.zrl ++ [valueItem .ac ((k - before - 1) % 16) (value k)])
        (before :: ks) ks).flatten := by
  induction ks generalizing before with
  | nil => rfl
  | cons k ks ih => rw [gapItems, ih, List.zipWith_cons_cons, List.flatten_cons, List.append_assoc, List.singleton_append]

theorem acSpelling_eq (b : Vector Word 64) :
    acSpelling b = gapItems (fun k => (coefAt b k).toInt) 0 (acPositions b) ++ endItems b := by
  have hks : acPositions b = (List.range 64).filter fun k => k ≠ 0 && (coefAt b k).toInt ≠ 0 := by
    rw [acPositions, show List.range 64 = 0 :: List.range' 1 63 from rfl, List.filter_cons_of_neg (by simp)]
    refine List.filter_congr fun k hk => ?_
    have := (List.mem_range'_1.1 hk).1
    simp [show k ≠ 0 by omega]
  rw [gapItems_eq_zipWith, hks]
  rfl

theorem acValues_eq (b : Vector Word 64) : acValues b = (List.range' 1 63).map fun k => (coefAt b k).toInt := by
  rw [List.range'_eq_map_range, List.map_map]
  refine List.map_congr_left fun j _ => ?_
  rw [Function.comp_apply, Nat.add_comm]
  rfl

theorem word_toInt_eq_zero_iff (v : Word) : v.toInt = 0 ↔ v = 0 := by
  rw [← BitVec.toInt_zero (w := 32), BitVec.toInt_inj]
  rfl

theorem coefAt_63_eq_zero_iff (b : Vector Word 64) : (coefAt b 63).toInt = 0 ↔ b[63] = 0 := by
  rw [word_toInt_eq_zero_iff, coefAt_eq b (by omega)]
  rfl

/-- The positions rise from 1 to at most 63. -/
theorem acPositions_pairwise (b : Vector Word 64) : (0 :: acPositions b).Pairwise (· < ·) := by
  refine List.pairwise_cons.2 ⟨fun k hk => ?_, List.Pairwise.filter _ (List.pairwise_lt_range' ..)⟩
  exact (List.mem_range'_1.1 (List.mem_of_mem_filter hk)).1

theorem mem_acPositions {b : Vector Word 64} {k : Nat} : k ∈ acPositions b ↔ 1 ≤ k ∧ k ≤ 63 ∧ (coefAt b k).toInt ≠ 0 := by
  rw [acPositions, List.mem_filter, List.mem_range'_1]
  simp
  omega

/-! ### The items -/

theorem coded_eq_valueItem (cls : TableClass) (run : Nat) (v : Int) : Item.coded cls run v = valueItem cls run v := by
  rw [Item.coded, valueItem, Nat.mul_comm]

/-- The items of the values at the positions from `j` up to the last one, behind a value at `before`. -/
theorem acItems_ok {value : Nat → Int} {j n before last : Nat} (hj : j + n = last + 1) (hn : n = 0 → value last ≠ 0)
    (hb : before < j) (hcat : ∀ k ∈ List.range' j n, cat (value k) ≤ 15) :
    acItems (j - before - 1) ((List.range' j n).map value) =
      .ok (gapItems value before ((List.range' j n).filter fun k => value k ≠ 0) ++
        if value last = 0 then [Item.eob] else []) := by
  induction n generalizing j before with
  | zero => simp [acItems, gapItems, hn rfl]
  | succ n ih =>
    rw [List.range'_succ, List.map_cons, acItems]
    rw [List.range'_succ, List.forall_mem_cons] at hcat
    obtain ⟨hcatj, hcat⟩ := hcat
    by_cases h0 : value j = 0
    · rw [if_pos h0, List.filter_cons_of_neg (by simp [h0])]
      rcases n with _ | n
      · obtain rfl : j = last := by omega
        simp [gapItems, h0]
      · rw [if_neg (by simp [List.range'_succ]), show j - before - 1 + 1 = j + 1 - before - 1 by omega]
        exact ih (by omega) (by simp) (by omega) hcat
    · have hrest := ih (before := j) (by omega) (fun hn => ?_) (by omega) hcat
      · rw [show j + 1 - j - 1 = 0 by omega] at hrest
        rw [if_neg h0, if_neg (by omega), hrest, List.filter_cons_of_pos (by simp [h0]), gapItems, coded_eq_valueItem]
        simp only [List.append_assoc, List.cons_append]
      · obtain rfl : j = last := by omega
        exact h0

theorem acItems_error {vs : List Int} {v : Int} (h : vs.find? (fun v => 15 < cat v) = some v) (run : Nat) :
    acItems run vs = .error (.coefRange, toWord v) := by
  induction vs generalizing run with
  | nil => cases h
  | cons x vs ih =>
    rw [acItems]
    by_cases hx : 15 < cat x
    · rw [List.find?_cons_of_pos (by simpa using hx)] at h
      cases h
      have h0 : v ≠ 0 := mt cat_eq_zero_iff.2 (by omega)
      rw [if_neg h0, if_pos hx]
    · rw [List.find?_cons_of_neg (by simpa using hx)] at h
      by_cases h0 : x = 0
      · have hvs : ¬vs.isEmpty := by rintro hvs; rw [List.isEmpty_iff.1 hvs] at h; cases h
        rw [if_pos h0, if_neg hvs, ih h]
      · rw [if_neg h0, if_neg hx, ih h]

/-- `symbols(B, p)`: the first value that cannot be coded, or the DC item and the spelling of the AC coefficients. -/
theorem blockItems_spec (b : Vector Word 64) (p : Int) :
    (∃ v, (blockValues b p).find? (fun v => 15 < cat v) = some v ∧ blockItems b p = .error (.coefRange, toWord v)) ∨
    ((∀ v ∈ blockValues b p, cat v ≤ 15) ∧ blockItems b p = .ok (valueItem .dc 0 (b[0].toInt - p) :: acSpelling b)) := by
  have hvalues : blockValues b p = (b[0].toInt - p) :: acValues b := rfl
  rw [hvalues, blockItems]
  by_cases hd : 15 < cat (b[0].toInt - p)
  · exact .inl ⟨_, List.find?_cons_of_pos (by simpa using hd), by rw [if_pos hd]⟩
  rw [List.find?_cons_of_neg (by simpa using hd), if_neg hd, List.forall_mem_cons]
  cases hf : (acValues b).find? (fun v => 15 < cat v) with
  | some v => exact .inl ⟨v, rfl, by rw [acItems_error hf]⟩
  | none =>
    have hcat : ∀ v ∈ acValues b, cat v ≤ 15 := fun v hv => by simpa using List.find?_eq_none.1 hf v hv
    have hok := acItems_ok (value := fun k => (coefAt b k).toInt) (j := 1) (n := 63) (before := 0) (last := 63) rfl
      (by simp) (by simp) (fun k hk => hcat _ (acValues_eq b ▸ List.mem_map_of_mem hk))
    refine .inr ⟨⟨not_lt.1 hd, hcat⟩, ?_⟩
    simp only [coefAt_63_eq_zero_iff] at hok
    rw [acValues_eq, hok, acSpelling_eq, coded_eq_valueItem]
    rfl

/-! ### Their shape -/

theorem valueItem_ne_zrl {run : Nat} {v : Int} (h : v ≠ 0) : valueItem .ac run v ≠ Item.zrl :=
  fun e => h (cat_eq_zero_iff.1 (congrArg Item.nbits e))

theorem valueItem_ne_eob {run : Nat} {v : Int} (h : v ≠ 0) : valueItem .ac run v ≠ Item.eob :=
  fun e => h (cat_eq_zero_iff.1 (congrArg Item.nbits e))

theorem mem_gapItems {value : Nat → Int} {before : Nat} {ks : List Nat} {it : Item} (h : it ∈ gapItems value before ks) :
    it = Item.zrl ∨ ∃ k ∈ ks, ∃ run < 16, it = valueItem .ac run (value k) := by
  induction ks generalizing before with
  | nil => cases h
  | cons k ks ih =>
    rw [gapItems, List.mem_append, List.mem_cons] at h
    rcases h with h | rfl | h
    · exact .inl (List.eq_of_mem_replicate h)
    · exact .inr ⟨k, List.mem_cons_self, _, Nat.mod_lt _ (by omega), rfl⟩
    · obtain h | ⟨k', hk', hrun⟩ := ih h
      · exact .inl h
      · exact .inr ⟨k', List.mem_cons_of_mem _ hk', hrun⟩

theorem gapItems_cls {value : Nat → Int} {before : Nat} {ks : List Nat} : ∀ it ∈ gapItems value before ks, it.cls = .ac := by
  intro it h
  rcases mem_gapItems h with rfl | ⟨_, _, _, _, rfl⟩ <;> rfl

theorem eob_notMem_gapItems {value : Nat → Int} {before : Nat} {ks : List Nat} (hv : ∀ k ∈ ks, value k ≠ 0) :
    Item.eob ∉ gapItems value before ks := by
  intro h
  rcases mem_gapItems h with h | ⟨k, hk, run, -, h⟩
  · cases h
  · exact valueItem_ne_eob (hv k hk) h.symm

/-- A ZRL is followed by the item of its coefficient. -/
theorem gapItems_getLast?_ne_zrl {value : Nat → Int} {before : Nat} {ks : List Nat} (hv : ∀ k ∈ ks, value k ≠ 0) :
    (gapItems value before ks).getLast? ≠ some Item.zrl := by
  induction ks generalizing before with
  | nil => simp [gapItems]
  | cons k ks ih =>
    obtain ⟨hk, hks⟩ := List.forall_mem_cons.1 hv
    have hlast := ih (before := k) hks
    rw [gapItems, List.getLast?_append_cons, List.getLast?_cons]
    cases hg : (gapItems value k ks).getLast? with
    | none => simpa using valueItem_ne_zrl hk
    | some it => rwa [hg] at hlast

/-- Between two positions stand at most as many items as the one is above the other, and a ZRL only for sixteen of them. -/
theorem gapItems_length_le {value : Nat → Int} {before last : Nat} {ks : List Nat} (hs : (before :: ks).Pairwise (· < ·))
    (hl : ∀ k ∈ before :: ks, k ≤ last) (hv : ∀ k ∈ ks, value k ≠ 0) :
    (gapItems value before ks).length + before ≤ last ∧ 16 * (gapItems value before ks).count Item.zrl + before ≤ last := by
  induction ks generalizing before with
  | nil => simpa [gapItems] using hl
  | cons k ks ih =>
    obtain ⟨hlt, hs⟩ := List.pairwise_cons.1 hs
    obtain ⟨hk, hks⟩ := List.forall_mem_cons.1 hv
    have := hlt k List.mem_cons_self
    obtain ⟨hlen, hcount⟩ := ih hs (List.forall_mem_cons.1 hl).2 hks
    rw [gapItems, List.length_append, List.length_replicate, List.length_cons, List.count_append, List.count_replicate_self,
      List.count_cons_of_ne (valueItem_ne_zrl hk)]
    omega

theorem valueItem_sym {cls : TableClass} {run : Nat} {v : Int} (hr : run < 16) (hc : cat v ≤ 15) :
    (valueItem cls run v).sym.toNat = 16 * run + cat v := by
  rw [valueItem, BitVec.toNat_ofNat]
  omega

theorem acPositions_value {b : Vector Word 64} : ∀ k ∈ acPositions b, (coefAt b k).toInt ≠ 0 :=
  fun _ hk => (mem_acPositions.1 hk).2.2

/-- The shape of the AC items: 1 to 63 with at most three ZRL, and End-Of-Block last, or nowhere. -/
theorem acSpelling_shape (b : Vector Word 64) :
    1 ≤ (acSpelling b).length ∧ (acSpelling b).length ≤ 63 ∧ (∀ it ∈ acSpelling b, it.cls = .ac) ∧
      (acSpelling b).count Item.zrl ≤ 3 ∧ ((acSpelling b).getLast? = some Item.eob ↔ b[63] = 0) ∧
      Item.eob ∉ (acSpelling b).dropLast ∧ (b[63] = 0 → (acSpelling b).dropLast.getLast? ≠ some Item.zrl) := by
  have hv := acPositions_value (b := b)
  have hlast := (coefAt_63_eq_zero_iff b).not
  have hcls := gapItems_cls (value := fun k => (coefAt b k).toInt) (before := 0) (ks := acPositions b)
  have heob := eob_notMem_gapItems (before := 0) hv
  have hzrl := gapItems_getLast?_ne_zrl (before := 0) hv
  have hlen : ∀ last, (∀ k ∈ acPositions b, k ≤ last) → _ := fun last h =>
    gapItems_length_le (acPositions_pairwise b) (List.forall_mem_cons.2 ⟨Nat.zero_le last, h⟩) hv
  rw [acSpelling_eq, endItems]
  generalize hg : gapItems (fun k => (coefAt b k).toInt) 0 (acPositions b) = g at *
  by_cases h63 : b[63] = 0
  · obtain ⟨hl, hc⟩ := hlen 62 fun k hk => by
      obtain ⟨-, hk63, hk0⟩ := mem_acPositions.1 hk
      by_contra hgt
      obtain rfl : k = 63 := by omega
      exact hk0 ((coefAt_63_eq_zero_iff b).2 h63)
    rw [if_pos h63, List.dropLast_concat, List.length_append, List.length_singleton, List.count_append]
    refine ⟨by omega, by omega, ?_, ?_, by simp [h63], heob, fun _ => hzrl⟩
    · intro it hit
      rcases List.mem_append.1 hit with hit | hit
      · exact hcls it hit
      · rw [List.mem_singleton.1 hit]
        rfl
    · rw [List.count_singleton, if_neg (by decide)]
      omega
  · obtain ⟨hl, hc⟩ := hlen 63 fun k hk => (mem_acPositions.1 hk).2.1
    have hne : g ≠ [] := by
      have h63mem : 63 ∈ acPositions b := mem_acPositions.2 ⟨by omega, by omega, hlast.2 h63⟩
      obtain ⟨k, ks, hks⟩ := List.exists_cons_of_ne_nil (List.ne_nil_of_mem h63mem)
      rw [← hg, hks, gapItems]
      simp
    rw [if_neg h63, List.append_nil]
    exact ⟨List.length_pos_of_ne_nil hne, by omega, hcls, by omega,
      ⟨fun h => absurd (List.mem_of_getLast? h) heob, fun h => absurd h h63⟩, fun h => heob (List.mem_of_mem_dropLast h),
      fun h => absurd h h63⟩

/-- Settles O37: the items are the DC item and the spelling of the AC coefficients, whose shape that of the gaps is. -/
theorem blockItemsShape : Obligations.BlockItemsShape := by
  intro b p
  dsimp only
  rcases blockItems_spec b p with ⟨v, hv, herr⟩ | ⟨hcat, hok⟩
  · refine ⟨fun v' hv' => ?_, fun hnone => ?_, fun items hitems => ?_⟩
    · cases hv.symm.trans hv'
      exact herr
    · cases hv.symm.trans hnone
    · cases herr.symm.trans hitems
  · refine ⟨fun v hv => ?_, fun _ => hok, fun items hitems => ?_⟩
    · have h15 := List.find?_some hv
      exact absurd (hcat v (List.mem_of_find?_eq_some hv)) (by simpa using h15)
    · cases hok.symm.trans hitems
      refine ⟨_, _, rfl, rfl, ?_, acSpelling_shape b⟩
      rw [valueItem_sym (by omega) (hcat _ List.mem_cons_self)]
      omega

end Sys2Proof.Machine
end

section
/-! SUPPORT. BLK_ENC (43_coefficient.md R204): the codes of all items are looked up first, then codes and extra bits are appended one
after the other. -/

namespace Sys2Proof.Machine

/-! ### Appending writes -/

/-- A write that appends `bits` to every sound writer, or finds the window too small and says where it ends. -/
def Appends (write : Sink → Except Raise Sink) (bits : List Bool) : Prop :=
  ∀ k : Sink, k.w.ok → (k.w.room bits ∧ write k = .ok (k.append bits)) ∨ (¬k.w.room bits ∧ write k = .error (.ioWrite, k.w.lim))

theorem Appends.putBits (v n : Nat) : Appends (putBits v n) (numBits v n) := fun k hk => putBits_spec v n k hk

theorem Appends.nil : Appends .ok [] := Appends.putBits 0 0

/-- One write after another appends the bits of both. -/
theorem Appends.bind {f g : Sink → Except Raise Sink} {a b : List Bool} (hf : Appends f a) (hg : Appends g b) :
    Appends (fun k => f k >>= g) (a ++ b) := by
  intro k hk
  dsimp only
  rcases hf k hk with ⟨hr, hfk⟩ | ⟨hr, hfk⟩
  · have hbind : (f k >>= g) = g (k.append a) := by rw [hfk]; rfl
    rw [Sink.append_room, hbind, ← Sink.append_append k a b hr]
    rcases hg _ (k.append_ok a hr) with ⟨hr', hgk⟩ | ⟨hr', hgk⟩
    · exact .inl ⟨⟨hr, hr'⟩, hgk⟩
    · exact .inr ⟨fun h => hr' h.2, hgk⟩
  · exact .inr ⟨fun h => hr ((Sink.append_room k a b).1 h).1, by rw [hfk]; rfl⟩

/-! ### Items -/

theorem appends_writeCode {e : Vector EncEntry 256} {sym : Byte} (h : e[sym.toFin].size ≠ 0) :
    Appends (writeCode e sym) (encBits e sym) := by
  intro k hk
  rw [writeCode]
  simp only [if_neg h]
  exact putBits_spec _ _ k hk

/-- The first item without a code is the fault, before anything is written. -/
theorem haveCodes_spec (de ae : Vector EncEntry 256) (items : List Item) :
    haveCodes de ae items = match items.find? fun it => (encOf de ae it.cls)[it.sym.toFin].size = 0 with
      | some it => .error (.noCode, it.sym.setWidth 32)
      | none => .ok () := by
  induction items with
  | nil => rfl
  | cons it items ih =>
    rw [haveCodes]
    by_cases h : (encOf de ae it.cls)[it.sym.toFin].size = 0
    · rw [List.find?_cons_of_pos (by simpa using h), (require_error_iff _ _ _).2 ⟨decide_eq_false (not_not.2 h), rfl⟩]
      rfl
    · rw [List.find?_cons_of_neg (by simpa using h), (require_ok_iff _ _).2 (decide_eq_true h), ← ih]
      rfl

theorem appends_writeItems {de ae : Vector EncEntry 256} {items : List Item}
    (h : ∀ it ∈ items, (encOf de ae it.cls)[it.sym.toFin].size ≠ 0) :
    Appends (writeItems de ae items) (items.flatMap (Item.bits de ae)) := by
  induction items with
  | nil => exact Appends.nil
  | cons it items ih =>
    obtain ⟨hit, hitems⟩ := List.forall_mem_cons.1 h
    rw [List.flatMap_cons, Item.bits, List.append_assoc]
    exact (appends_writeCode hit).bind ((Appends.putBits _ _).bind (ih hitems))

/-! ### BLK_ENC -/

/-- The checks of BLK_ENC behind its fields and VALID bits (43_coefficient.md R204). -/
theorem State.blkEncChecks_eq {s : State} {c td ta : Byte} {x d a : Fin 4} (hf : blockFields c td ta = .ok (x, d, a))
    (hd : s.isValid (tableBit .dc d) = true) (ha : s.isValid (tableBit .ac a) = true) (hw : s.isValid 16 = true) :
    s.blkEncChecks c td ta = (do
      let items ← blockItems s.blkI (s.pred x)
      haveCodes (s.table .dc d).enc (s.table .ac a).enc items
      return ((x, d, a), items)) := by
  rw [State.blkEncChecks, hf]
  simp only [bind, Except.bind, (s.needs_ok_iff _).2 hd, (s.needs_ok_iff _).2 ha, (s.needs_ok_iff bwValidBit).2 hw]

/-- Settles O40: by the checks in their order, and the items appended one after the other. -/
theorem blockEncode : Obligations.BlockEncode := by
  intro s c td ta x d a hf hd ha hw hok
  dsimp only
  have hchecks := State.blkEncChecks_eq hf hd ha hw
  refine ⟨fun e he => ?_, fun items hitems => ?_⟩
  · rw [he] at hchecks
    rw [exec, execBlkEnc, hchecks]
    rfl
  rw [hitems] at hchecks
  have hcodes := haveCodes_spec (s.table .dc d).enc (s.table .ac a).enc items
  cases hmissing : items.find? fun it =>
    (encOf (s.table .dc d).enc (s.table .ac a).enc it.cls)[it.sym.toFin].size = 0 with
  | some it =>
    rw [hmissing] at hcodes
    refine ⟨fun it' hit => ?_, nofun, nofun⟩
    cases hit
    rw [exec, execBlkEnc, hchecks]
    simp only [bind, Except.bind, hcodes]
    rfl
  | none =>
    rw [hmissing] at hcodes
    have hok' : s.blkEncChecks c td ta = .ok ((x, d, a), items) := by
      rw [hchecks]
      simp only [bind, Except.bind, hcodes, pure, Except.pure]
    have hsizes := fun it hit => of_decide_eq_false (Bool.eq_false_iff.2 (List.find?_eq_none.1 hmissing it hit))
    rcases appends_writeItems hsizes s.sink hok with ⟨hr, hwrite⟩ | ⟨hr, hwrite⟩
    · refine ⟨nofun, fun _ _ => ?_, fun _ hfull => absurd hr hfull⟩
      rw [exec, execBlkEnc, hok']
      simp only [State.checked_ok, hwrite]
    · refine ⟨nofun, fun _ hroom => absurd hroom hr, fun _ _ => faultsWith_of_raiseMid (t := s.drawWriter.drawPred x)
        (r := (.ioWrite, s.bw.lim)) ?_⟩
      rw [exec, execBlkEnc, hok']
      simp only [State.checked_ok, hwrite]
      rfl

end Sys2Proof.Machine
end

section
/-! SUPPORT. Blocks read from any bits (43_coefficient.md R197): what stands at the front of the bits decides what `decode_block` does,
item by item. -/

namespace Sys2Proof.Machine

/-! ### The end of a segment -/

/-- A reading function whose answer is `x` has met the end of the segment: the marker, of which `stopped` tells with the reader that
is left, or the end of the window, which is the fault IO_READ (00_scope.md R10, 30_encoding.md R92). -/
inductive SegmentEnds {α : Type} (m : Memory) (r : Reader) (stopped : Reader → α) (failed : Raise → α) (x : α) : Prop where
  | marker (pos : Nat) (second : Byte) (r' : Reader) (he : (r.rest m).2 = .marker pos second) (hend : r.Ended m pos second r')
      (hx : x = stopped r')
  | runsOut (addr : Nat) (he : (r.rest m).2 = .runsOut addr) (hx : x = failed (.ioRead, BitVec.ofNat 32 addr))

theorem SegmentEnds.imp {α β : Type} {m : Memory} {r : Reader} {stopped : Reader → α} {failed : Raise → α} {x : α}
    {stopped' : Reader → β} {failed' : Raise → β} {y : β} (h : SegmentEnds m r stopped failed x)
    (hs : ∀ r', x = stopped r' → y = stopped' r') (hf : ∀ e, x = failed e → y = failed' e) :
    SegmentEnds m r stopped' failed' y := by
  cases h with
  | marker pos second r' he hend hx => exact .marker pos second r' he hend (hs r' hx)
  | runsOut addr he hx => exact .runsOut addr he (hf _ hx)

theorem SegmentEnds.of_after {α : Type} {m : Memory} {n : Nat} {r r' : Reader} {stopped : Reader → α} {failed : Raise → α} {x : α}
    (ha : r.After m n r') (h : SegmentEnds m r' stopped failed x) : SegmentEnds m r stopped failed x := by
  cases h with
  | marker pos second r'' he hend hx => exact .marker pos second r'' (ha.segmentEnd ▸ he) (hend.of_after ha) hx
  | runsOut addr he hx => exact .runsOut addr (ha.segmentEnd ▸ he) hx

/-- What follows from the fault or from the stopped reader, by the way the segment ends. -/
theorem SegmentEnds.elim {α : Type} {m : Memory} {r : Reader} {stopped : Reader → α} {failed : Raise → α} {x : α}
    {P : Raise → Prop} {Q : Reader → Prop} (h : SegmentEnds m r stopped failed x) (hf : ∀ e, x = failed e → P e)
    (hs : ∀ r', x = stopped r' → Q r') :
    (∀ addr, (r.rest m).2 = .runsOut addr → P (.ioRead, BitVec.ofNat 32 addr)) ∧
      ∀ pos second, (r.rest m).2 = .marker pos second → ∃ r', r.Ended m pos second r' ∧ Q r' := by
  cases h with
  | marker pos second r' he hend hx =>
    refine ⟨fun _ he' => (nomatch he.symm.trans he'), fun pos' second' he' => ?_⟩
    cases he.symm.trans he'
    exact ⟨r', hend, hs r' hx⟩
  | runsOut addr he hx =>
    refine ⟨fun addr' he' => ?_, fun _ _ he' => (nomatch he.symm.trans he')⟩
    cases he.symm.trans he'
    exact hf _ hx

/-! ### Codes and extra bits -/

theorem getBits_ends {m : Memory} {n : Nat} {r : Reader} (h8 : r.cnt.toNat ≤ 8) (h : (r.bits m).length < n) :
    SegmentEnds m r .noMore .fail (getBits m n r) := by
  rcases getBits_spec m n r h8 with ⟨hle, -⟩ | ⟨-, pos, second, he, r', hg, hend⟩ | ⟨-, addr, he, hg⟩
  · exact absurd h (Nat.not_lt_of_le hle)
  · exact .marker pos second r' he hend hg
  · exact .runsOut addr he hg

theorem getBits_numBits {m : Memory} {n e : Nat} {r : Reader} {rest : List Bool} (h8 : r.cnt.toNat ≤ 8) (he : e < 2 ^ n)
    (hbits : r.bits m = numBits e n ++ rest) : ∃ r', getBits m n r = .got e r' ∧ r.After m n r' := by
  have hlen : (numBits e n).length = n := numBits_length e n
  rcases getBits_spec m n r h8 with ⟨-, r', hg, ha⟩ | ⟨hlt, -⟩ | ⟨hlt, -⟩
  · rw [hbits, List.take_left' hlen, bitsValue_numBits, Nat.mod_eq_of_lt he] at hg
    exact ⟨r', hg, ha⟩
  all_goals
    rw [hbits, List.length_append] at hlt
    omega

section
variable {m : Memory} {p : HuffSpec} {slots : List Slot} {r : Reader}

/-- The slot whose code stands at the front of the bits is the one that is read. -/
theorem readCode_slot (hs : buildSlots p = .ok slots) (h8 : r.cnt.toNat ≤ 8) {k : Slot} (hk : k ∈ slots)
    (hpre : k.bits <+: r.bits m) : ∃ r', readCode m slots 16 r = .got k.sym r' ∧ r.After m k.size.toNat r' := by
  have hb := slot_bounds hs
  have hspec := readCode_spec (m := m) (fun k hk => (hb k hk).2.2) 16 r h8
  obtain ⟨hpos, h16, -⟩ := hb k hk
  generalize readCode m slots 16 r = x at hspec
  cases hspec with
  | got k' r' hk' _ hpre' ha =>
    obtain rfl := slot_eq_of_prefix hs hk hk' hpre hpre'
    exact ⟨r', rfl, ha⟩
  | notFound hno => exact absurd hpre (hno k hk hpos (by simpa using h16))
  | marker _ _ _ hno => exact absurd hpre (hno k hk hpos)
  | runsOut _ hno => exact absurd hpre (hno k hk hpos)

/-- Without a code at the front of the bits, 16 of them are read in vain, or the segment ends before (42_huffman.md R155). -/
theorem readCode_noCode (hs : buildSlots p = .ok slots) (h8 : r.cnt.toNat ≤ 8) (hno : noCode slots (r.bits m)) :
    (16 ≤ (r.bits m).length →
      readCode m slots 16 r = .fail (.codeNotFound, BitVec.ofNat 32 (bitsValue ((r.bits m).take 16)))) ∧
    ((r.bits m).length < 16 → SegmentEnds m r .noMore .fail (readCode m slots 16 r)) := by
  have hspec := readCode_spec (m := m) (fun k hk => (slot_bounds hs k hk).2.2) 16 r h8
  generalize readCode m slots 16 r = x at hspec
  cases hspec with
  | got k r' hk _ hpre => exact absurd hpre (hno k hk)
  | notFound _ hlen => exact ⟨fun _ => rfl, fun h => absurd hlen (Nat.not_le_of_lt h)⟩
  | marker pos second r' _ hlen he hend =>
    exact ⟨fun h => absurd hlen (Nat.not_lt_of_le h), fun _ => .marker pos second r' he hend rfl⟩
  | runsOut addr _ hlen he => exact ⟨fun h => absurd hlen (Nat.not_lt_of_le h), fun _ => .runsOut addr he rfl⟩

/-- A code with its extra bits at the front of the bits is read as its symbol and the value of the extra bits. -/
theorem readCode_codedAs (hs : buildSlots p = .ok slots) (h8 : r.cnt.toNat ≤ 8) {sym : Byte} {n e : Nat} {code rest : List Bool}
    (hc : codedAs slots sym n e code) (hbits : r.bits m = code ++ rest) :
    ∃ r' r'', readCode m slots 16 r = .got sym r' ∧ getBits m n r' = .got e r'' ∧ r.After m code.length r'' := by
  obtain ⟨he, k, hk, rfl, rfl⟩ := hc
  rw [List.append_assoc] at hbits
  obtain ⟨r', hread, ha⟩ := readCode_slot hs h8 hk (hbits ▸ List.prefix_append _ _)
  obtain ⟨r'', hget, ha'⟩ := getBits_numBits (rest := rest) ha.cnt he
    (by rw [ha.bits, hbits, ← k.bits_length, List.drop_left])
  refine ⟨r', r'', hread, hget, ?_⟩
  rw [List.length_append, numBits_length, k.bits_length]
  exact ha.trans ha'

/-- The segment ends in the extra bits behind a code at the front of the bits. -/
theorem readCode_extra_ends (hs : buildSlots p = .ok slots) (h8 : r.cnt.toNat ≤ 8) {k : Slot} {n : Nat} (hk : k ∈ slots)
    (hpre : k.bits <+: r.bits m) (hlen : (r.bits m).length < k.size.toNat + n) :
    ∃ r', readCode m slots 16 r = .got k.sym r' ∧ SegmentEnds m r .noMore .fail (getBits m n r') := by
  obtain ⟨r', hread, ha⟩ := readCode_slot hs h8 hk hpre
  have hle := hpre.length_le
  rw [k.bits_length] at hle
  refine ⟨r', hread, (getBits_ends ha.cnt ?_).of_after ha⟩
  rw [ha.bits, List.length_drop]
  omega

end

/-! ### The DC item -/

section
variable {m : Memory} {p : HuffSpec} {dcs acs : List Slot} {r : Reader} {pred : Int}

theorem decodeBlock_badSymbol (hs : buildSlots p = .ok dcs) (h8 : r.cnt.toNat ≤ 8) {k : Slot} (hk : k ∈ dcs)
    (hpre : k.bits <+: r.bits m) (h15 : 15 < k.sym.toNat) : decodeBlock m dcs acs pred r = .fail (badSymbol k.sym) := by
  obtain ⟨r', hread, -⟩ := readCode_slot hs h8 hk hpre
  simp only [decodeBlock, hread, if_pos h15]

theorem decodeBlock_noCode (hs : buildSlots p = .ok dcs) (h8 : r.cnt.toNat ≤ 8) (hno : noCode dcs (r.bits m))
    (hlen : 16 ≤ (r.bits m).length) :
    decodeBlock m dcs acs pred r = .fail (.codeNotFound, BitVec.ofNat 32 (bitsValue ((r.bits m).take 16))) := by
  simp only [decodeBlock, (readCode_noCode hs h8 hno).1 hlen]

/-- A segment end inside the DC item is a clean end of data (43_coefficient.md R197). -/
theorem decodeBlock_ends (hs : buildSlots p = .ok dcs) (h8 : r.cnt.toNat ≤ 8) (h : endsInside dcs 16 categoryBits (r.bits m)) :
    SegmentEnds m r .boundary .fail (decodeBlock m dcs acs pred r) := by
  rcases h with ⟨hno, hlen⟩ | ⟨k, hk, hpre, hlen⟩
  · exact ((readCode_noCode hs h8 hno).2 hlen).imp (fun _ hx => by simp only [decodeBlock, hx])
      fun _ hx => by simp only [decodeBlock, hx]
  · have hle := hpre.length_le
    rw [k.bits_length] at hle
    have h15 : k.sym.toNat ≤ 15 := by
      by_contra hgt
      rw [categoryBits, if_neg hgt] at hlen
      omega
    rw [categoryBits, if_pos h15] at hlen
    obtain ⟨r', hread, hends⟩ := readCode_extra_ends hs h8 hk hpre hlen
    exact hends.imp (fun _ hx => by simp only [decodeBlock, hread, if_neg (Nat.not_lt_of_le h15), hx])
      fun _ hx => by simp only [decodeBlock, hread, if_neg (Nat.not_lt_of_le h15), hx]

/-- Behind the DC item its value is checked, and the AC loop begins at position 1. -/
theorem decodeBlock_dc (hs : buildSlots p = .ok dcs) (h8 : r.cnt.toNat ≤ 8) {t : Byte} {e : Nat} {code rest : List Bool}
    (ht : t.toNat ≤ 15) (hc : codedAs dcs t t.toNat e code) (hbits : r.bits m = code ++ rest) :
    ∃ r', r.After m code.length r' ∧ decodeBlock m dcs acs pred r =
      if pred + extend e t.toNat < -2 ^ 31 ∨ 2 ^ 31 - 1 < pred + extend e t.toNat then
        .fail (.coefRange, toWord (pred + extend e t.toNat))
      else acLoop m acs (toWord (pred + extend e t.toNat)) 64 1
        ((Vector.replicate 64 0).set 0 (toWord (pred + extend e t.toNat))) r' := by
  obtain ⟨r', r'', hread, hget, ha⟩ := readCode_codedAs hs h8 hc hbits
  exact ⟨r'', ha, by simp only [decodeBlock, hread, hget, if_neg (Nat.not_lt_of_le ht)]⟩

end

/-! ### One AC symbol -/

section
variable {m : Memory} {acs : List Slot} {dc : Word} {fuel k : Nat} {blk : Vector Word 64} {r r' : Reader} {rs : Byte}

theorem acLoop_full : acLoop m acs dc fuel 64 blk r = .block blk dc 64 false r := by
  cases fuel <;> simp [acLoop]

theorem acLoop_eob (hk : k < 64) (hread : readCode m acs 16 r = .got 0 r') :
    acLoop m acs dc (fuel + 1) k blk r = .block blk dc k false r' := by
  simp [acLoop, Nat.not_lt_of_le (Nat.le_of_lt_succ hk), hread]

theorem acLoop_zrl (hk : k + 16 ≤ 64) (hread : readCode m acs 16 r = .got rs r') (hsize : rs.toNat % 16 = 0)
    (hrun : rs.toNat / 16 = 15) : acLoop m acs dc (fuel + 1) k blk r = acLoop m acs dc fuel (k + 16) blk r' := by
  simp only [acLoop, if_neg (show ¬63 < k by omega), hread, hsize, hrun, if_neg (show ¬64 < k + 16 by omega), ↓reduceIte,
    OfNat.ofNat_ne_zero]

theorem acLoop_meaningless (hk : k < 64) (hread : readCode m acs 16 r = .got rs r') (h : acMeaningless k rs) :
    acLoop m acs dc (fuel + 1) k blk r = .fail (badSymbol rs) := by
  simp only [acLoop, if_neg (show ¬63 < k by omega), hread]
  unfold acMeaningless at h
  by_cases hsize : rs.toNat % 16 = 0
  · rw [if_pos hsize] at h
    rw [if_pos hsize, if_neg h.1]
    by_cases hrun : rs.toNat / 16 = 15
    · rw [if_pos hrun, if_pos (h.2.resolve_left (not_not.2 hrun))]
    · rw [if_neg hrun]
  · rw [if_neg hsize] at h
    rw [if_neg hsize, dif_neg (by omega)]

/-- What the AC loop does with the extra bits of a coefficient at position `k`. -/
def acCoefficient (m : Memory) (acs : List Slot) (dc : Word) (fuel : Nat) {k : Nat} (hk : k < 64) (size : Nat)
    (blk : Vector Word 64) (x : Bits Nat) : BlockRead :=
  match x with
  | .fail f => .fail f
  | .noMore r => .block blk dc k true r
  | .got e r => acLoop m acs dc fuel (k + 1) (blk.set zigzag[k].val (toWord (extend e size)) zigzag[k].isLt) r

theorem acLoop_coefficient (hk : k + rs.toNat / 16 < 64) (hread : readCode m acs 16 r = .got rs r') (hsize : rs.toNat % 16 ≠ 0) :
    acLoop m acs dc (fuel + 1) k blk r =
      acCoefficient m acs dc fuel hk (rs.toNat % 16) blk (getBits m (rs.toNat % 16) r') := by
  simp only [acLoop, if_neg (show ¬63 < k by omega), hread, if_neg hsize, dif_pos hk]
  rfl

end

/-! ### AC items of any kind -/

/-- What it takes to place one more item: a ZRL inside the block, or a coefficient inside it. -/
theorem acPlace_cons_eq_some {k k' e : Nat} {blk blk' : Vector Word 64} {rs : Byte} {items : List (Byte × Nat)}
    (h : acPlace k blk ((rs, e) :: items) = some (k', blk')) :
    (rs.toNat % 16 = 0 ∧ rs.toNat / 16 = 15 ∧ k + 16 ≤ 64 ∧ acPlace (k + 16) blk items = some (k', blk')) ∨
    (rs.toNat % 16 ≠ 0 ∧ ∃ hk : k + rs.toNat / 16 < 64, acPlace (k + rs.toNat / 16 + 1)
      (blk.set zigzag[k + rs.toNat / 16].val (toWord (extend e (rs.toNat % 16))) zigzag[k + rs.toNat / 16].isLt) items =
        some (k', blk')) := by
  rw [acPlace] at h
  split_ifs at h with hsize hrun hk
  · exact .inl ⟨hsize, hrun.1, hrun.2, h⟩
  · exact .inr ⟨hsize, hk, h⟩

/-- The AC loop places the items that the bits spell, with passes enough for those that may follow. -/
theorem acLoop_items {m : Memory} {p : HuffSpec} {acs : List Slot} {dc : Word} (hs : buildSlots p = .ok acs)
    {items : List (Byte × Nat)} {codes : List (List Bool)}
    (hcodes : List.Forall₂ (fun it => codedAs acs it.1 (it.1.toNat % 16) it.2) items codes) {fuel k k' : Nat}
    {blk blk' : Vector Word 64} {r : Reader} {rest : List Bool} (hfuel : 65 ≤ fuel + k) (h8 : r.cnt.toNat ≤ 8)
    (hbits : r.bits m = codes.flatten ++ rest) (hplace : acPlace k blk items = some (k', blk')) :
    ∃ fuel' r', acLoop m acs dc fuel k blk r = acLoop m acs dc fuel' k' blk' r' ∧ 65 ≤ fuel' + k' ∧
      r.After m codes.flatten.length r' := by
  induction hcodes generalizing fuel k blk r with
  | nil =>
    cases hplace
    exact ⟨fuel, r, rfl, hfuel, .refl m r h8⟩
  | @cons it code items codes hcode _ ih =>
    obtain ⟨rs, e⟩ := it
    rw [List.flatten_cons, List.append_assoc] at hbits
    obtain ⟨r', r'', hread, hget, ha⟩ := readCode_codedAs hs h8 hcode hbits
    have hbits' : r''.bits m = codes.flatten ++ rest := by rw [ha.bits, hbits, List.drop_left]
    rw [List.flatten_cons, List.length_append]
    rcases acPlace_cons_eq_some hplace with ⟨hsize, hrun, hk, hplace⟩ | ⟨hsize, hk, hplace⟩
    · obtain ⟨fuel, rfl⟩ : ∃ f, fuel = f + 1 := ⟨fuel - 1, by omega⟩
      obtain ⟨fuel', r₁, hloop, hfuel', ha'⟩ := ih (fuel := fuel) (by omega) ha.cnt hbits' hplace
      refine ⟨fuel', r₁, ?_, hfuel', ha.trans ha'⟩
      simp only [hsize] at hget
      cases hget
      rw [acLoop_zrl hk hread hsize hrun, hloop]
    · obtain ⟨fuel, rfl⟩ : ∃ f, fuel = f + 1 := ⟨fuel - 1, by omega⟩
      obtain ⟨fuel', r₁, hloop, hfuel', ha'⟩ := ih (fuel := fuel) (by omega) ha.cnt hbits' hplace
      refine ⟨fuel', r₁, ?_, hfuel', ha.trans ha'⟩
      rw [acLoop_coefficient hk hread hsize, hget]
      exact hloop

end Sys2Proof.Machine
end

section
/-! SUPPORT. A block placed from its own items (43_coefficient.md R197, R198): the items of the gaps put every coefficient that is not 0
back at its position. -/

namespace Sys2Proof.Machine

/-! ### The zig-zag order -/

theorem zigzagPlace_zigzag : ∀ k : Fin 64, zigzagPlace zigzag[k] = k := by decide

theorem zigzag_zigzagPlace : ∀ i : Fin 64, zigzag[zigzagPlace i] = i := by decide

theorem zigzag_inj {j k : Nat} (hj : j < 64) (hk : k < 64) : zigzag[j] = zigzag[k] ↔ j = k := by
  refine ⟨fun h => ?_, fun h => by subst h; rfl⟩
  have hplace := congrArg zigzagPlace h
  rw [show zigzag[j] = zigzag[(⟨j, hj⟩ : Fin 64)] from rfl, show zigzag[k] = zigzag[(⟨k, hk⟩ : Fin 64)] from rfl,
    zigzagPlace_zigzag, zigzagPlace_zigzag] at hplace
  exact congrArg Fin.val hplace

theorem coefAt_zigzagPlace (b : Vector Word 64) (i : Fin 64) : coefAt b (zigzagPlace i).val = b[i] := by
  have hz : zigzag[(zigzagPlace i).val] = i := zigzag_zigzagPlace i
  rw [coefAt, vector_getD_of_lt _ _ (zigzagPlace i).isLt, hz]
  exact vector_getD_of_lt b 0 i.isLt

/-- Blocks with the same coefficient at every zig-zag position are the same. -/
theorem block_ext {b b' : Vector Word 64} (h : ∀ k, k < 64 → coefAt b k = coefAt b' k) : b = b' := by
  refine Vector.ext fun i hi => ?_
  have hcoef := h (zigzagPlace ⟨i, hi⟩).val (zigzagPlace ⟨i, hi⟩).isLt
  rwa [coefAt_zigzagPlace, coefAt_zigzagPlace] at hcoef

theorem coefAt_set (blk : Vector Word 64) (v : Word) {j k : Nat} (hj : j < 64) (hk : k < 64) :
    coefAt (blk.set zigzag[k].val v zigzag[k].isLt) j = if j = k then v else coefAt blk j := by
  rw [coefAt_eq _ hj, coefAt_eq _ hj]
  by_cases hjk : j = k
  · subst hjk
    rw [if_pos rfl]
    exact Vector.getElem_set_self zigzag[j].isLt
  · rw [if_neg hjk]
    exact Vector.getElem_set_ne zigzag[k].isLt zigzag[j].isLt fun h => hjk ((zigzag_inj hj hk).1 (Fin.ext h.symm))

/-! ### Placing -/

/-- An item as `acPlace` takes it: its symbol and the value of its extra bits. -/
def Item.placed (it : Item) : Byte × Nat := (it.sym, it.ebits)

theorem acPlace_zrl {k : Nat} (blk : Vector Word 64) (items : List (Byte × Nat)) (h : k + 16 ≤ 64) :
    acPlace k blk (Item.zrl.placed :: items) = acPlace (k + 16) blk items := by
  rw [Item.placed, acPlace]
  exact (if_pos rfl).trans (if_pos ⟨rfl, h⟩)

theorem acPlace_zrls {k n : Nat} (blk : Vector Word 64) (items : List (Byte × Nat)) (h : k + 16 * n ≤ 64) :
    acPlace k blk (List.replicate n Item.zrl.placed ++ items) = acPlace (k + 16 * n) blk items := by
  induction n generalizing k with
  | zero => rfl
  | succ n ih =>
    rw [List.replicate_succ, List.cons_append, acPlace_zrl _ _ (by omega), ih (by omega),
      show k + 16 + 16 * n = k + 16 * (n + 1) by omega]

theorem acPlace_valueItem {k run : Nat} {v : Int} (blk : Vector Word 64) (items : List (Byte × Nat)) (h : k + run < 64)
    (hr : run < 16) (h0 : v ≠ 0) (hc : cat v ≤ 15) :
    acPlace k blk ((valueItem .ac run v).placed :: items) =
      acPlace (k + run + 1) (blk.set zigzag[k + run].val (BitVec.ofInt 32 v) zigzag[k + run].isLt) items := by
  have hsym := valueItem_sym (cls := .ac) hr hc
  have hsize : (valueItem .ac run v).sym.toNat % 16 = cat v := by omega
  have hrun : (valueItem .ac run v).sym.toNat / 16 = run := by omega
  have hext : extend (valueItem .ac run v).ebits (cat v) = v := extend_extra v
  rw [Item.placed, acPlace]
  simp only [hsize, hrun, hext]
  rw [if_neg (mt cat_eq_zero_iff.1 h0), dif_pos h]

/-- The items of the gaps between the positions `ks` put the coefficients of `b` there, and end behind the last of them. -/
theorem acPlace_gapItems {b : Vector Word 64} {before : Nat} {ks : List Nat} (hs : (before :: ks).Pairwise (· < ·))
    (hk : ∀ k ∈ ks, k < 64 ∧ (coefAt b k).toInt ≠ 0 ∧ cat (coefAt b k).toInt ≤ 15) (blk : Vector Word 64) :
    ∃ blk', acPlace (before + 1) blk ((gapItems (fun k => (coefAt b k).toInt) before ks).map Item.placed) =
        some (ks.getLast?.getD before + 1, blk') ∧
      ∀ j, j < 64 → coefAt blk' j = if j ∈ ks then coefAt b j else coefAt blk j := by
  induction ks generalizing before blk with
  | nil => exact ⟨blk, rfl, by simp⟩
  | cons k ks ih =>
    obtain ⟨hlt, hs⟩ := List.pairwise_cons.1 hs
    obtain ⟨⟨hk64, h0, hc⟩, hks⟩ := List.forall_mem_cons.1 hk
    have hbk := hlt k List.mem_cons_self
    obtain ⟨blk', hplace, hget⟩ := ih hs hks (blk.set zigzag[k].val (coefAt b k) zigzag[k].isLt)
    have hpos : before + 1 + 16 * ((k - before - 1) / 16) + (k - before - 1) % 16 = k := by omega
    refine ⟨blk', ?_, fun j hj => ?_⟩
    · rw [gapItems, List.map_append, List.map_replicate, List.map_cons, acPlace_zrls _ _ (by omega),
        acPlace_valueItem _ _ (by omega) (Nat.mod_lt _ (by omega)) h0 hc, List.getLast?_cons]
      simp only [hpos, BitVec.ofInt_toInt, hplace, Option.getD_some]
    · rw [hget j hj, coefAt_set _ _ hj hk64]
      by_cases hjk : j = k
      · simp [hjk]
      · simp [hjk]

/-! ### A whole block -/

theorem endPosition_eq (b : Vector Word 64) : endPosition b = (acPositions b).getLast?.getD 0 + 1 := by
  have hfilter : ((List.range 64).filter fun k => k = 0 || b.getD (zigzag.getD k 0).val 0 ≠ 0) = 0 :: acPositions b := by
    rw [acPositions, show List.range 64 = 0 :: List.range' 1 63 from rfl, List.filter_cons_of_pos (by simp)]
    congr 1
    refine List.filter_congr fun k hk => ?_
    have := (List.mem_range'_1.1 hk).1
    simp [show k ≠ 0 by omega, word_toInt_eq_zero_iff, coefAt]
  rw [endPosition, hfilter, List.getLast?_cons, Option.getD_some]

/-- The block ends at 64 exactly when its last coefficient is not 0, and then no End-Of-Block stands behind its items. -/
theorem endPosition_cases (b : Vector Word 64) :
    (b[63] = 0 ∧ endPosition b < 64) ∨ (b[63] ≠ 0 ∧ endPosition b = 64) := by
  have hlast := coefAt_63_eq_zero_iff b
  rw [endPosition_eq]
  by_cases h63 : b[63] = 0
  · refine .inl ⟨h63, ?_⟩
    cases hg : (acPositions b).getLast? with
    | none => simp
    | some k =>
      obtain ⟨-, hk63, hk0⟩ := mem_acPositions.1 (List.mem_of_getLast? hg)
      have : k ≠ 63 := by
        rintro rfl
        exact hk0 (hlast.2 h63)
      simp
      omega
  · refine .inr ⟨h63, ?_⟩
    rw [acPositions, show List.range' 1 63 = List.range' 1 62 ++ [63] from rfl, List.filter_append,
      List.filter_cons_of_pos (by simpa [hlast] using h63), List.filter_nil, List.getLast?_concat]
    rfl

theorem coefAt_dcBlock (v : Word) {j : Nat} (hj : j < 64) :
    coefAt ((Vector.replicate 64 0).set 0 v) j = if j = 0 then v else 0 := by
  have hzero : coefAt (Vector.replicate 64 0) j = 0 := by
    rw [coefAt_eq _ hj]
    exact Vector.getElem_replicate zigzag[j].isLt
  exact (coefAt_set (Vector.replicate 64 0) v hj (show 0 < 64 by omega)).trans (by rw [hzero])

theorem cat_acPositions {b : Vector Word 64} (hc : ∀ v ∈ acValues b, cat v ≤ 15) :
    ∀ k ∈ acPositions b, cat (coefAt b k).toInt ≤ 15 := by
  rw [acValues_eq, List.forall_mem_map] at hc
  exact fun k hk => hc k (List.mem_of_mem_filter hk)

/-- The AC items of a block, placed behind its DC coefficient, give the block. -/
theorem acPlace_block {b : Vector Word 64} (hc : ∀ v ∈ acValues b, cat v ≤ 15) :
    acPlace 1 ((Vector.replicate 64 0).set 0 b[0])
        ((gapItems (fun k => (coefAt b k).toInt) 0 (acPositions b)).map Item.placed) = some (endPosition b, b) := by
  have hpos : ∀ k ∈ acPositions b, k < 64 ∧ (coefAt b k).toInt ≠ 0 ∧ cat (coefAt b k).toInt ≤ 15 := fun k hk => by
    obtain ⟨-, h63, h0⟩ := mem_acPositions.1 hk
    exact ⟨by omega, h0, cat_acPositions hc k hk⟩
  obtain ⟨blk, hplace, hget⟩ := acPlace_gapItems (acPositions_pairwise b) hpos ((Vector.replicate 64 0).set 0 b[0])
  suffices blk = b by rw [endPosition_eq, hplace, this]
  refine block_ext fun j hj => ?_
  rw [hget j hj]
  split_ifs with hmem
  · rfl
  · rw [coefAt_dcBlock _ hj]
    split_ifs with hj0
    · subst hj0
      exact (coefAt_eq b (by omega)).symm
    · have hzero := mt (fun h => mem_acPositions.2 ⟨Nat.pos_of_ne_zero hj0, Nat.le_of_lt_succ hj, h⟩) hmem
      exact ((word_toInt_eq_zero_iff _).1 (not_not.1 hzero)).symm

end Sys2Proof.Machine
end

section
/-! SUPPORT. BLK_DEC and BLK_SKIP (43_coefficient.md R197 to R200, R203, R207): both make the same block read, and what it finds is
what the one stores and the other drops. -/

namespace Sys2Proof.Machine

/-! ### The two commands and their block read -/

theorem State.blkReadChecks_ok {s : State} {c td ta : Byte} {x d a : Fin 4} (hf : blockFields c td ta = .ok (x, d, a))
    (hd : s.isValid (tableBit .dc d) = true) (ha : s.isValid (tableBit .ac a) = true) (hr : s.isValid 15 = true) :
    s.blkReadChecks c td ta = .ok (x, d, a) := by
  rw [State.blkReadChecks, hf]
  simp only [bind, Except.bind, (s.needs_ok_iff _).2 hd, (s.needs_ok_iff _).2 ha, (s.needs_ok_iff brValidBit).2 hr, pure,
    Except.pure]

theorem faultsWith_of_raise {i : Instr} {s : State} {e : Raise} (h : exec i s = .next (s.raise i e)) : faultsWith i s e.1 e.2 :=
  ⟨_, h, rfl, rfl, rfl, rfl, rfl, rfl⟩

/-- The fault that a command ends with is recorded in the state it ends in. -/
theorem faultsWith.registers {i : Instr} {s t : State} {cause : Cause} {info : Word} (h : faultsWith i s cause info)
    (hexec : exec i s = .next t) : t.fault = true ∧ t.faultCause = some cause ∧ t.faultInfo = info := by
  obtain ⟨t', ht', hfault, -, -, hcause, hinfo, -⟩ := h
  obtain rfl := Host.Outcome.next.inj (ht'.symm.trans hexec)
  exact ⟨hfault, hcause, hinfo⟩

/-- BLK_DEC and BLK_SKIP end without a fault, with this block, DC value, end position and reader (43_coefficient.md R199, R203). -/
def State.blockGives (s : State) (c td ta : Byte) (x : Fin 4) (blk : Vector Word 64) (dc : Word) (k : Nat) (seg : Bool)
    (r : Reader) : Prop :=
  exec (.blkDec c td ta) s = .next ((State.setPred
    { s with br := r, blkI := blk, res0 := BitVec.ofNat 32 k } x dc).finish seg) ∧
  exec (.blkSkip c td ta) s = .next ((State.setPred { s with br := r } x dc).finish seg)

/-- BLK_DEC and BLK_SKIP end in the same fault. -/
def State.blockStops (s : State) (c td ta : Byte) (cause : Cause) (info : Word) : Prop :=
  faultsWith (.blkDec c td ta) s cause info ∧ faultsWith (.blkSkip c td ta) s cause info

section
variable {s : State} {c td ta : Byte} {f : Fin 4 × Fin 4 × Fin 4}

theorem State.blockGives_of_readBlock (hc : s.blkReadChecks c td ta = .ok f) {blk : Vector Word 64} {dc : Word} {k : Nat}
    {seg : Bool} {r : Reader} (hx : s.readBlock f = .block blk dc k seg r) : s.blockGives c td ta f.1 blk dc k seg r := by
  constructor
  · simp only [exec, execBlkDec, hc, State.checked_ok, hx]
  · simp only [exec, execBlkSkip, hc, State.checked_ok, hx]

theorem State.blockStops_of_readBlock (hc : s.blkReadChecks c td ta = .ok f) {e : Raise} (hx : s.readBlock f = .fail e) :
    s.blockStops c td ta e.1 e.2 := by
  constructor
  · refine faultsWith_of_raiseMid (t := s.drawReader.drawRes0.drawBlkI.drawPred f.1) ?_
    simp only [exec, execBlkDec, hc, State.checked_ok, hx]
  · refine faultsWith_of_raiseMid (t := s.drawReader.drawPred f.1) ?_
    simp only [exec, execBlkSkip, hc, State.checked_ok, hx]

/-- A segment end inside the DC item: no block, the predictor as it was (43_coefficient.md R197). -/
theorem exec_of_boundary (hc : s.blkReadChecks c td ta = .ok f) {r : Reader} (hx : s.readBlock f = .boundary r) :
    exec (.blkDec c td ta) s = .next (State.finish { s with br := r, res0 := 0 } true) ∧
      exec (.blkSkip c td ta) s = .next (State.finish { s with br := r } true) := by
  constructor
  · simp only [exec, execBlkDec, hc, State.checked_ok, hx]
  · simp only [exec, execBlkSkip, hc, State.checked_ok, hx]

theorem State.blockStops_of_checks {e : Raise} (hc : s.blkReadChecks c td ta = .error e) : s.blockStops c td ta e.1 e.2 := by
  constructor
  · refine faultsWith_of_raise ?_
    simp only [exec, execBlkDec, hc, State.checked_error]
  · refine faultsWith_of_raise ?_
    simp only [exec, execBlkSkip, hc, State.checked_error]

end

/-- Where BLK_DEC and BLK_SKIP stop alike and BLK_DEC ends in `t`, the fault of BLK_SKIP is the one that `t` records. -/
theorem State.blockStops.skip {s t : State} {c td ta : Byte} {cause : Cause} {info : Word} (h : s.blockStops c td ta cause info)
    (hexec : exec (.blkDec c td ta) s = .next t) :
    t.fault = true ∧ ∀ cause', t.faultCause = some cause' → faultsWith (.blkSkip c td ta) s cause' t.faultInfo := by
  obtain ⟨hdec, hskip⟩ := h
  obtain ⟨hfault, hcause, hinfo⟩ := hdec.registers hexec
  refine ⟨hfault, fun cause' hcause' => ?_⟩
  obtain rfl := Option.some.inj (hcause.symm.trans hcause')
  rwa [hinfo]

/-- Settles O39: the two commands make the same checks and the same block read. -/
theorem blockSkipFollowsBlockDecode : Obligations.BlockSkipFollowsBlockDecode := by
  intro s t c td ta hfault hexec
  cases hc : s.blkReadChecks c td ta with
  | error e =>
    obtain ⟨ht, hskip⟩ := (State.blockStops_of_checks hc).skip hexec
    exact ⟨fun h => absurd h (by simp [ht]), fun _ => hskip⟩
  | ok f =>
    cases hx : s.readBlock f with
    | boundary r =>
      obtain ⟨hdec, hskip⟩ := exec_of_boundary hc hx
      obtain rfl := Host.Outcome.next.inj (hdec.symm.trans hexec)
      exact ⟨fun _ => hskip, fun h => absurd h (by simp [hfault])⟩
    | block blk dc k seg r =>
      obtain ⟨hdec, hskip⟩ := State.blockGives_of_readBlock hc hx
      obtain rfl := Host.Outcome.next.inj (hdec.symm.trans hexec)
      exact ⟨fun _ => hskip, fun h => absurd h (by simp [hfault])⟩
    | fail e =>
      obtain ⟨ht, hskip⟩ := (State.blockStops_of_readBlock hc hx).skip hexec
      exact ⟨fun h => absurd h (by simp [ht]), fun _ => hskip⟩

end Sys2Proof.Machine
end

section
/-! SUPPORT. What BLK_DEC and BLK_SKIP do on any bits (43_coefficient.md R197, R203): a block from the codes of its items, and every
other way in which the read can end. -/

namespace Sys2Proof.Machine

/-! ### Behind the DC item -/

section
variable {m : Memory} {pd pa : HuffSpec} {dcs acs : List Slot} {pred : Int} {r : Reader}

theorem decodeBlock_coefRange (hd : buildSlots pd = .ok dcs) (h8 : r.cnt.toNat ≤ 8) {t : Byte} {e : Nat} {code : List Bool}
    (ht : t.toNat ≤ 15) (hcode : codedAs dcs t t.toNat e code) (hpre : code <+: r.bits m)
    (hrange : ¬(-2 ^ 31 ≤ pred + extend e t.toNat ∧ pred + extend e t.toNat ≤ 2 ^ 31 - 1)) :
    decodeBlock m dcs acs pred r = .fail (.coefRange, BitVec.ofInt 32 (pred + extend e t.toNat)) := by
  obtain ⟨rest, hrest⟩ := hpre
  obtain ⟨r', -, hread⟩ := decodeBlock_dc (acs := acs) (pred := pred) hd h8 ht hcode hrest.symm
  rw [hread, if_pos (by omega)]
  rfl

/-- Behind the DC item and the AC items that the bits spell the AC loop stands at the place of the last one. -/
theorem decodeBlock_items (hd : buildSlots pd = .ok dcs) (ha : buildSlots pa = .ok acs) (h8 : r.cnt.toNat ≤ 8) {t : Byte}
    {e : Nat} {code rest : List Bool} {dc : Int} {items : List (Byte × Nat)} {codes : List (List Bool)} {k : Nat}
    {blk : Vector Word 64} (ht : t.toNat ≤ 15) (hcode : codedAs dcs t t.toNat e code) (hdc : pred + extend e t.toNat = dc)
    (hlo : -2 ^ 31 ≤ dc) (hhi : dc ≤ 2 ^ 31 - 1)
    (hcodes : List.Forall₂ (fun it => codedAs acs it.1 (it.1.toNat % 16) it.2) items codes)
    (hbits : r.bits m = code ++ codes.flatten ++ rest)
    (hplace : acPlace 1 ((Vector.replicate 64 0).set 0 (BitVec.ofInt 32 dc)) items = some (k, blk)) :
    ∃ fuel r', decodeBlock m dcs acs pred r = acLoop m acs (BitVec.ofInt 32 dc) fuel k blk r' ∧
      65 ≤ fuel + k ∧ r.After m (code ++ codes.flatten).length r' ∧ r'.bits m = rest := by
  rw [List.append_assoc] at hbits
  obtain ⟨r', hafter, hread⟩ := decodeBlock_dc (acs := acs) (pred := pred) hd h8 ht hcode hbits
  rw [hdc, if_neg (by omega)] at hread
  have hbits' : r'.bits m = codes.flatten ++ rest := by rw [hafter.bits, hbits, List.drop_left]
  obtain ⟨fuel, r'', hloop, hfuel, hafter'⟩ := acLoop_items (dc := BitVec.ofInt 32 dc) ha hcodes (fuel := 64) (by omega)
    hafter.cnt hbits' hplace
  refine ⟨fuel, r'', hread.trans hloop, hfuel, ?_, ?_⟩
  · rw [List.length_append]
    exact hafter.trans hafter'
  · rw [hafter'.bits, hbits', List.drop_left]

end

/-! ### Where the AC items end -/

section
variable {m : Memory} {p : HuffSpec} {acs : List Slot} {dc : Word} {fuel k : Nat} {blk : Vector Word 64} {r : Reader}

theorem acLoop_fail (hk : k < 64) {e : Raise} (hread : readCode m acs 16 r = .fail e) :
    acLoop m acs dc (fuel + 1) k blk r = .fail e := by
  simp only [acLoop, if_neg (show ¬63 < k by omega), hread]

/-- A segment end inside the code of an AC item keeps what was read (43_coefficient.md R197). -/
theorem acLoop_code_ends (hk : k < 64) (h : SegmentEnds m r .noMore .fail (readCode m acs 16 r)) :
    SegmentEnds m r (.block blk dc k true) .fail (acLoop m acs dc (fuel + 1) k blk r) :=
  h.imp (fun _ hx => by simp only [acLoop, if_neg (show ¬63 < k by omega), hx]) fun _ hx => acLoop_fail hk hx

/-- So does one inside its extra bits, behind the zeros of its run. -/
theorem acLoop_extra_ends (hs : buildSlots p = .ok acs) (h8 : r.cnt.toNat ≤ 8) {q : Slot} (hq : q ∈ acs)
    (hpre : q.bits <+: r.bits m) (hgood : ¬acMeaningless k q.sym)
    (hlen : (r.bits m).length < q.size.toNat + q.sym.toNat % 16) :
    SegmentEnds m r (.block blk dc (k + q.sym.toNat / 16) true) .fail (acLoop m acs dc (fuel + 1) k blk r) := by
  obtain ⟨r', hread, hends⟩ := readCode_extra_ends hs h8 hq hpre hlen
  have hle := hpre.length_le
  rw [q.bits_length] at hle
  have hsize : q.sym.toNat % 16 ≠ 0 := by omega
  have hrun : k + q.sym.toNat / 16 < 64 := by
    rw [acMeaningless, if_neg hsize] at hgood
    omega
  rw [acLoop_coefficient hrun hread hsize]
  exact hends.imp (fun _ hx => by rw [hx]; rfl) fun _ hx => by rw [hx]; rfl

end

/-! ### The items of a block -/

/-- A symbol with an entry in the encode table of a built table has a slot with that code. -/
theorem HuffTable.ok.exists_slot {t : HuffTable} (h : t.ok) {sym : Byte} (hs : t.enc[sym.toFin].size ≠ 0) :
    ∃ k ∈ t.dec, k.sym = sym ∧ k.bits = encBits t.enc sym := by
  have hentry : t.enc[sym.toFin] = lastEntry t.dec sym := by
    rw [(buildTable_ok_iff.1 h).2.2]
    exact encodeTable_getElem t.dec sym
  rw [encBits]
  rw [hentry] at hs ⊢
  rw [lastEntry] at hs ⊢
  cases hfind : t.dec.reverse.find? (fun k => k.sym = sym) with
  | none => simp [hfind] at hs
  | some k => exact ⟨k, List.mem_reverse.1 (List.mem_of_find?_eq_some hfind), by simpa using List.find?_some hfind, rfl⟩

theorem HuffTable.ok.codedAs {t : HuffTable} (h : t.ok) {sym : Byte} (hs : t.enc[sym.toFin].size ≠ 0) {e n : Nat} (he : e < 2 ^ n) :
    codedAs t.dec sym n e (encBits t.enc sym ++ numBits e n) := by
  obtain ⟨k, hk, hsym, hbits⟩ := h.exists_slot hs
  exact ⟨he, k, hk, hsym, by rw [hbits]⟩

/-- The extra bits of the items of the gaps are as many as the low nibble of the symbol says. -/
theorem gapItems_bits {value : Nat → Int} {before : Nat} {ks : List Nat} (hv : ∀ k ∈ ks, cat (value k) ≤ 15) :
    ∀ it ∈ gapItems value before ks, it.nbits = it.sym.toNat % 16 ∧ it.ebits < 2 ^ it.nbits := by
  intro it hit
  rcases mem_gapItems hit with rfl | ⟨k, hk, run, hrun, rfl⟩
  · exact ⟨rfl, Nat.one_pos⟩
  · have hsym := valueItem_sym (cls := .ac) hrun (hv k hk)
    have hcat := hv k hk
    refine ⟨?_, extra_lt _⟩
    rw [hsym]
    show cat (value k) = _
    omega

theorem forall₂_codedAs_gapItems {t : HuffTable} (h : t.ok) {de : Vector EncEntry 256} {value : Nat → Int} {before : Nat}
    {ks : List Nat} (hv : ∀ k ∈ ks, cat (value k) ≤ 15)
    (hs : ∀ it ∈ gapItems value before ks, (encOf de t.enc it.cls)[it.sym.toFin].size ≠ 0) :
    List.Forall₂ (fun it => codedAs t.dec it.1 (it.1.toNat % 16) it.2) ((gapItems value before ks).map Item.placed)
      ((gapItems value before ks).map (Item.bits de t.enc)) := by
  rw [List.forall₂_map_left_iff, List.forall₂_map_right_iff, List.forall₂_same]
  intro it hit
  obtain ⟨hn, he⟩ := gapItems_bits hv it hit
  have hsize := hs it hit
  rw [gapItems_cls it hit] at hsize
  rw [Item.bits, gapItems_cls it hit, Item.placed, ← hn]
  exact h.codedAs hsize he

/-- The DC item of a difference is the code of its category, and its extra bits extend back to the difference. -/
theorem dcItem_codedAs {t : HuffTable} (h : t.ok) {ae : Vector EncEntry 256} {v : Int} (hc : cat v ≤ 15)
    (hs : t.enc[(valueItem .dc 0 v).sym.toFin].size ≠ 0) :
    (valueItem .dc 0 v).sym.toNat ≤ 15 ∧
      codedAs t.dec (valueItem .dc 0 v).sym (valueItem .dc 0 v).sym.toNat (valueItem .dc 0 v).ebits
        (Item.bits t.enc ae (valueItem .dc 0 v)) ∧
      extend (valueItem .dc 0 v).ebits (valueItem .dc 0 v).sym.toNat = v := by
  have hsym : (valueItem .dc 0 v).sym.toNat = cat v := by simpa using valueItem_sym (cls := .dc) (run := 0) (by omega) hc
  rw [hsym]
  exact ⟨hc, h.codedAs hs (extra_lt v), extend_extra v⟩

/-- "decode_block applied to the emitted bits returns B" (43_coefficient.md R198). -/
theorem decodeBlock_blockItems {m : Memory} {td ta : HuffTable} (hd : td.ok) (ha : ta.ok) {pred : Int} {r : Reader}
    (h8 : r.cnt.toNat ≤ 8) {b : Vector Word 64} {items : List Item} {rest : List Bool} (hitems : blockItems b pred = .ok items)
    (hsizes : ∀ it ∈ items, (encOf td.enc ta.enc it.cls)[it.sym.toFin].size ≠ 0)
    (hbits : r.bits m = items.flatMap (Item.bits td.enc ta.enc) ++ rest) :
    ∃ r', r.After m (items.flatMap (Item.bits td.enc ta.enc)).length r' ∧
      decodeBlock m td.dec ta.dec pred r = .block b b[0] (endPosition b) false r' := by
  rcases blockItems_spec b pred with ⟨v, -, herr⟩ | ⟨hcat, hok⟩
  · cases herr.symm.trans hitems
  obtain rfl := Except.ok.inj (hok.symm.trans hitems)
  obtain ⟨hcatd, hcata⟩ := List.forall_mem_cons.1 hcat
  obtain ⟨hsized, hsizea⟩ := List.forall_mem_cons.1 hsizes
  rw [acSpelling_eq] at hsizea hbits ⊢
  obtain ⟨ht, hcode, hext⟩ := dcItem_codedAs hd (ae := ta.enc) hcatd hsized
  generalize valueItem .dc 0 (b[0].toInt - pred) = dc at *
  have hdc : pred + extend dc.ebits dc.sym.toNat = b[0].toInt := by omega
  have hcodes := forall₂_codedAs_gapItems ha (de := td.enc) (before := 0) (value := fun k => (coefAt b k).toInt)
    (cat_acPositions hcata) fun it hit => hsizea it (List.mem_append_left _ hit)
  rw [List.flatMap_cons, List.flatMap_append, ← List.append_assoc, List.flatMap_def (l := gapItems _ _ _)] at hbits ⊢
  rw [List.append_assoc] at hbits
  obtain ⟨fuel, r', hread, hfuel, hafter, hrest⟩ := decodeBlock_items hd.slots ha.slots h8 ht hcode hdc
    (BitVec.le_toInt b[0]) (Int.le_sub_one_of_lt BitVec.toInt_lt) hcodes hbits
    (by rw [BitVec.ofInt_toInt]; exact acPlace_block hcata)
  rw [BitVec.ofInt_toInt] at hread
  rcases endPosition_cases b with ⟨h63, hlt⟩ | ⟨h63, heq⟩
  · rw [endItems, if_pos h63, List.flatMap_singleton] at hrest ⊢
    rw [endItems, if_pos h63] at hsizea
    obtain ⟨q, hq, hsym, hqbits⟩ := ha.exists_slot (hsizea Item.eob (by simp))
    have heob : Item.bits td.enc ta.enc Item.eob = q.bits := by rw [hqbits]; exact List.append_nil _
    obtain ⟨r'', hcode, hafter'⟩ := readCode_slot ha.slots hafter.cnt hq (by rw [hrest, heob]; exact List.prefix_append _ _)
    rw [hsym] at hcode
    obtain ⟨fuel, rfl⟩ : ∃ f, fuel = f + 1 := ⟨fuel - 1, by omega⟩
    refine ⟨r'', ?_, hread.trans (acLoop_eob hlt hcode)⟩
    rw [List.length_append, heob, q.bits_length]
    exact hafter.trans hafter'
  · rw [heq] at hread ⊢
    refine ⟨r', ?_, hread.trans acLoop_full⟩
    rwa [endItems, if_neg h63, List.flatMap_nil, List.append_nil]

/-- Settles O38: each way the bits can begin, by what the block read makes of it; a block from its own items is a case of items of
any kind. -/
theorem blockDecode : Obligations.BlockDecode := by
  intro s c td ta x d a hf hvd hva hvr hd ha h8
  dsimp only
  have hc := State.blkReadChecks_ok hf hvd hva hvr
  have hfail : ∀ e, s.readBlock (x, d, a) = .fail e → s.blockStops c td ta e.1 e.2 := fun _ => State.blockStops_of_readBlock hc
  refine ⟨fun b items rest hitems hsizes hbits => ?_, fun k hk hpre h15 => ?_, fun hno hlen => ?_, fun hends => ?_,
    fun t e code ht hcode hpre => ⟨fun hrange => ?_, fun hlo hhi items codes rest k blk hcodes hbits hplace => ?_⟩⟩
  · obtain ⟨r, hafter, hread⟩ := decodeBlock_blockItems hd ha h8 hitems hsizes hbits
    exact ⟨r, hafter, State.blockGives_of_readBlock hc hread⟩
  · exact hfail _ (decodeBlock_badSymbol hd.slots h8 hk hpre h15)
  · exact hfail _ (decodeBlock_noCode hd.slots h8 hno hlen)
  · exact (decodeBlock_ends hd.slots h8 hends).elim hfail fun _ => exec_of_boundary hc
  · exact hfail _ (decodeBlock_coefRange hd.slots h8 ht hcode hpre hrange)
  obtain ⟨fuel, r, hread, hfuel, hafter, hrest⟩ :=
    decodeBlock_items hd.slots ha.slots h8 ht hcode rfl hlo hhi hcodes hbits hplace
  refine ⟨fun hk => ?_, fun hk => ?_⟩
  · subst hk
    exact ⟨r, hafter, State.blockGives_of_readBlock hc (hread.trans acLoop_full)⟩
  obtain ⟨fuel, rfl⟩ : ∃ f, fuel = f + 1 := ⟨fuel - 1, by omega⟩
  refine ⟨fun q hq hpre => ⟨fun h0 => ?_, fun hbad => ?_, fun hgood hlen => ?_⟩, fun hno => ⟨fun hlen => ?_, fun hlen => ?_⟩⟩
  · obtain ⟨r', hcode, hafter'⟩ := readCode_slot ha.slots hafter.cnt hq (hrest ▸ hpre)
    rw [h0] at hcode
    exact ⟨r', hafter.trans hafter', State.blockGives_of_readBlock hc (hread.trans (acLoop_eob hk hcode))⟩
  · obtain ⟨r', hcode, -⟩ := readCode_slot ha.slots hafter.cnt hq (hrest ▸ hpre)
    exact hfail _ (hread.trans (acLoop_meaningless hk hcode hbad))
  · have hends := acLoop_extra_ends (dc := BitVec.ofInt 32 (s.pred x + extend e t.toNat)) (fuel := fuel) (blk := blk) ha.slots
      hafter.cnt hq (hrest ▸ hpre) hgood (hrest ▸ hlen)
    exact (hread ▸ hends.of_after hafter).elim hfail fun _ => State.blockGives_of_readBlock hc
  · have hcode := (readCode_noCode ha.slots hafter.cnt (hrest ▸ hno)).1 (hrest ▸ hlen)
    rw [hrest] at hcode
    exact hfail _ (hread.trans (acLoop_fail hk hcode))
  · have hends := acLoop_code_ends (dc := BitVec.ofInt 32 (s.pred x + extend e t.toNat)) (fuel := fuel) (blk := blk) hk
      ((readCode_noCode ha.slots hafter.cnt (hrest ▸ hno)).2 (hrest ▸ hlen))
    exact (hread ▸ hends.of_after hafter).elim hfail fun _ => State.blockGives_of_readBlock hc

end Sys2Proof.Machine
end

section
/-! SUPPORT. REF's cosine basis is that of T.81 in real numbers, by the recurrence of the cosine, and REF's sums of products are
real sums (44_transform.md R222 to R226). -/

namespace Sys2Proof.Machine

/-! ### The cosine basis -/

theorem twoCos_mod (m : Nat) : twoCos (m % 32) = twoCos m := by simp only [twoCos, Nat.mod_mod]

/-- `2·cos((m+2)θ) = 2·cos θ · 2·cos((m+1)θ) − 2·cos(mθ)`, θ = π/16, as a rule of the exact numbers: the ROM and its symmetries
repeat with period 32, so it is 32 equalities. -/
theorem twoCos_add_two (m : Nat) : twoCos (m + 2) = ((twoCos 1).mul (twoCos (m + 1))).add (twoCos m).neg := by
  have hperiod : ∀ r < 32, twoCos (r + 2) = ((twoCos 1).mul (twoCos (r + 1))).add (twoCos r).neg := by decide
  have hm := hperiod (m % 32) (Nat.mod_lt _ (by decide))
  rwa [← twoCos_mod (m % 32 + 2), ← twoCos_mod (m % 32 + 1), Nat.mod_add_mod, Nat.mod_add_mod, twoCos_mod, twoCos_mod,
    twoCos_mod] at hm

theorem toReal_twoCos_one : (twoCos 1).toReal = 2 * Real.cos (Real.pi / 16) := by
  have hroot : (twoCos 1).toReal = root3 := by simp [twoCos, cosRom, Root3.toReal, Root2.toReal, Root1.toReal]
  rw [hroot, Real.cos_pi_div_sixteen, root3, root2, root1]
  ring

theorem toReal_twoCos (m : Nat) : (twoCos m).toReal = 2 * Real.cos (m * (Real.pi / 16)) := by
  induction m using Nat.twoStepInduction with
  | zero => simp [twoCos, cosRom]
  | one => rw [toReal_twoCos_one, Nat.cast_one, one_mul]
  | more m ih0 ih1 =>
    have hprod := Real.two_mul_cos_mul_cos ((m + 1) * (Real.pi / 16)) (Real.pi / 16)
    rw [show ((m : ℝ) + 1) * (Real.pi / 16) - Real.pi / 16 = m * (Real.pi / 16) by ring,
      show ((m : ℝ) + 1) * (Real.pi / 16) + Real.pi / 16 = (m + 2) * (Real.pi / 16) by ring] at hprod
    rw [twoCos_add_two, Root3.toReal_add, Root3.toReal_mul, Root3.toReal_neg, toReal_twoCos_one, ih0, ih1]
    push_cast
    linear_combination 2 * hprod

/-- The basis of REF is `(1/2)·C(u)·cos((2x+1)uπ/16)` (44_transform.md R223). -/
theorem toReal_basis (u x : Nat) : (Numerics.ref.basis u x).toReal = 1 / 2 * dctC u * dctCos u x := by
  have hrom : (cosRom 4).toReal = √2 := by simp [cosRom, Root3.toReal, Root2.toReal, Root1.toReal, root1]
  change (cosBasis u x).toReal = _
  by_cases hu : u = 0
  · have hinv : 1 / √2 = √2 / 2 := by rw [Real.sqrt_div_self', one_div]
    simp only [hu, cosBasis, if_true, Exact.toReal, hrom, dctC, hinv, dctCos, Nat.cast_zero, mul_zero, zero_mul, zero_div,
      Real.cos_zero]
    ring
  · rw [cosBasis, if_neg hu, Exact.toReal, toReal_twoCos, dctC, if_neg hu, dctCos,
      show (((2 * x + 1) * u : Nat) : ℝ) * (Real.pi / 16) = (2 * x + 1) * u * Real.pi / 16 by push_cast; ring]
    ring

/-! ### Sums of products -/

/-- REF's sum of products is the sum of the products of the real numbers. -/
theorem toReal_dot8 (a b : Nat → NumValue) :
    (dot8 Numerics.ref a b).toReal = ∑ j : Fin 8, (a j.val).toReal * (b j.val).toReal := by
  simp [dot8, Numerics.ref, Fin.sum_univ_eight]

/-! ### Two-dimensional transforms -/

/-- Rows first: line `y` of the block, transformed at frequency `u`. -/
theorem at8_rows_fwd1 (n : Numerics NumValue) (s : Vector NumValue 64) (y u : Fin 8) :
    at8 (onRows (fwd1 n) s) y.val u.val = dot8 n (fun x => n.basis u.val x) (fun x => at8 s y.val x) :=
  at8_onRows _ s y u

theorem at8_rows_inv1 (n : Numerics NumValue) (s : Vector NumValue 64) (v x : Fin 8) :
    at8 (onRows (inv1 n) s) v.val x.val = dot8 n (fun u => n.basis u x.val) (fun u => at8 s v.val u) :=
  at8_onRows _ s v x

theorem at8_fdct2 (n : Numerics NumValue) (s : Vector NumValue 64) (v u : Fin 8) :
    at8 (fdct2 n s) v.val u.val =
      dot8 n (fun y => n.basis v.val y) (fun y => at8 (onRows (fwd1 n) s) y u.val) :=
  at8_onCols _ _ v u

theorem at8_idct2 (n : Numerics NumValue) (s : Vector NumValue 64) (y x : Fin 8) :
    at8 (idct2 n s) y.val x.val =
      dot8 n (fun v => n.basis v y.val) (fun v => at8 (onRows (inv1 n) s) v x.val) :=
  at8_onCols _ _ y x

/-- T.81's two-dimensional forward transform (44_transform.md R226). -/
theorem toReal_fdct2 (s : Vector NumValue 64) (v u : Fin 8) :
    (at8 (fdct2 Numerics.ref s) v.val u.val).toReal = 1 / 4 * dctC u * dctC v *
      ∑ x : Fin 8, ∑ y : Fin 8, (at8 s y.val x.val).toReal * dctCos u x * dctCos v y := by
  simp only [at8_fdct2, at8_rows_fwd1, toReal_dot8, toReal_basis, Finset.mul_sum]
  rw [Finset.sum_comm]
  exact Finset.sum_congr rfl fun x _ => Finset.sum_congr rfl fun y _ => by ring

/-- T.81's two-dimensional inverse transform (44_transform.md R226). -/
theorem toReal_idct2 (s : Vector NumValue 64) (y x : Fin 8) :
    (at8 (idct2 Numerics.ref s) y.val x.val).toReal = 1 / 4 *
      ∑ u : Fin 8, ∑ v : Fin 8, dctC u * dctC v * (at8 s v.val u.val).toReal * dctCos u x * dctCos v y := by
  simp only [at8_idct2, at8_rows_inv1, toReal_dot8, toReal_basis, Finset.mul_sum]
  rw [Finset.sum_comm]
  exact Finset.sum_congr rfl fun u _ => Finset.sum_congr rfl fun v _ => by ring

/-- Settles O43: the rows' transforms are the block between, and REF's sums are real sums over T.81's basis. -/
theorem cosineTransforms : Obligations.CosineTransforms := by
  intro s
  refine ⟨⟨fdct2 s.num s.blkF, onRows (fwd1 s.num) s.blkF, rfl, at8_rows_fwd1 _ _, at8_fdct2 _ _, fun href => ?_⟩,
    idct2 s.num s.blkF, onRows (inv1 s.num) s.blkF, rfl, at8_rows_inv1 _ _, at8_idct2 _ _, fun href => ?_⟩
  · rw [State.num_ref href]
    exact toReal_fdct2 s.blkF
  · rw [State.num_ref href]
    exact toReal_idct2 s.blkF

end Sys2Proof.Machine
end

section
/-! SUPPORT. Integers in and out of the transforms: loading a quantisation table, quantising, and the level shift
(44_transform.md R227 to R229, R235 to R237, R240, R241). -/

namespace Sys2Proof.Machine

/-! ### NUM under REF -/

theorem toReal_num_ofInt {s : State} (href : s.params.num = .ref) (z : Int) : (s.num.ofInt z).toReal = z := by
  rw [State.num_ref href]
  exact Exact.toReal_ofInt z

theorem num_round_eq {s : State} (href : s.params.num = .ref) (f : NumValue) : s.num.round f = rndReal f.toReal := by
  rw [State.num_ref href]
  exact Exact.round_spec f

theorem num_quant_eq {s : State} (href : s.params.num = .ref) (f : NumValue) {q : Nat} (hq : 0 < q) :
    s.num.quant f q = rndReal (f.toReal / q) := by
  rw [State.num_ref href]
  exact Exact.quant_spec f q hq

/-- Rounding to the nearest integer is at most one half off. -/
theorem abs_rndReal_sub_le (x : ℝ) : |(rndReal x : ℝ) - x| ≤ 1 / 2 := by
  have habs := abs_sub_round |x|
  rw [round_eq, abs_sub_comm] at habs
  unfold rndReal
  split <;> rename_i hx
  · rw [abs_of_neg hx] at habs ⊢
    rwa [Int.cast_neg, ← abs_neg, neg_sub', neg_neg]
  · rwa [abs_of_nonneg (not_lt.1 hx)] at habs ⊢

/-- Multiplied back, a quotient rounded to nearest is at most half a step off (`P_quant`, 44_transform.md R242). -/
theorem abs_rndReal_div_mul_sub_le (f : ℝ) {q : ℝ} (hq : 0 < q) : |(rndReal (f / q) : ℝ) * q - f| ≤ q / 2 := by
  have hstep : (rndReal (f / q) : ℝ) * q - f = (rndReal (f / q) - f / q) * q := by
    rw [sub_mul, div_mul_cancel₀ f hq.ne']
  calc |(rndReal (f / q) : ℝ) * q - f| = |rndReal (f / q) - f / q| * q := by rw [hstep, abs_mul, abs_of_pos hq]
    _ ≤ 1 / 2 * q := mul_le_mul_of_nonneg_right (abs_rndReal_sub_le _) hq.le
    _ = q / 2 := by ring

/-! ### DEQUANT and QUANT -/

theorem State.quantTable_ok {s : State} {tq : Byte} {t : Fin 4} (ht : tq.toNat = t.val) (hv : s.isValid (quantBit t) = true) :
    s.quantTable tq = .ok s.qt[t] := by
  rw [s.quantTable_eq ((indexField_ok_iff tq t).2 ht), (s.needs_ok_iff _).2 hv]
  rfl

theorem fits32_iff (z : Int) : fits32 z = true ↔ -2 ^ 31 ≤ z ∧ z ≤ 2 ^ 31 - 1 := by simp [fits32]

theorem toInt_toWord {z : Int} (h : fits32 z = true) : (toWord z).toInt = z := by
  rw [fits32_iff] at h
  exact BitVec.toInt_ofInt_eq_self (by decide) h.1 (by omega)

theorem forall_mem_toList_iff {α : Type} {n : Nat} (v : Vector α n) (p : α → Prop) :
    (∀ x ∈ v.toList, p x) ↔ ∀ k : Fin n, p v[k] := by
  simp only [Vector.mem_toList_iff, Vector.forall_mem_iff_forall_getElem, Fin.forall_iff]
  rfl

section
variable {s : State} {tq : Byte} {t : QTable}

theorem State.quantChecks_ok (ht : s.quantTable tq = .ok t)
    (hfit : ∀ k : Fin 64, fits32 (s.num.quant s.blkF[k] t.q[k].toNat) = true) :
    s.quantChecks tq = .ok (qnt s.num s.blkF t.q) := by
  have hnone : (qnt s.num s.blkF t.q).toList.findIdx? (fun v => !fits32 v) = none := by
    rw [List.findIdx?_eq_none_iff, forall_mem_toList_iff]
    intro k
    simpa [qnt] using hfit k
  simp only [State.quantChecks, ht, bind, Except.bind, hnone]

/-- The first result outside 32 bits is COEF_RANGE with its index (44_transform.md R237). -/
theorem State.quantChecks_error (ht : s.quantTable tq = .ok t) {k : Fin 64}
    (hk : fits32 (s.num.quant s.blkF[k] t.q[k].toNat) = false)
    (hbefore : ∀ j, j < k → fits32 (s.num.quant s.blkF[j] t.q[j].toNat) = true) :
    s.quantChecks tq = .error (.coefRange, BitVec.ofNat 32 k.val) := by
  have hsome : (qnt s.num s.blkF t.q).toList.findIdx? (fun v => !fits32 v) = some k.val := by
    rw [List.findIdx?_eq_some_iff_getElem]
    refine ⟨by simp, ?_, fun j hj => ?_⟩
    · simpa [qnt] using hk
    · simpa [qnt] using hbefore ⟨j, hj.trans k.isLt⟩ hj
  simp only [State.quantChecks, ht, bind, Except.bind, hsome]

end

/-- Settles O42: NUM's functions at every index; under REF their meaning in real numbers. -/
theorem quantiseAndDequantise : Obligations.QuantiseAndDequantise := by
  intro s tq t htq hv
  have ht := State.quantTable_ok htq hv
  refine ⟨⟨deq s.num s.blkI s.qt[t].q, ?_, fun k => ?_⟩, fun hq => ⟨fun href k => ?_, fun hfit => ?_, fun k hk hbefore => ?_⟩⟩
  · simp only [exec, execDequant, ht, State.checked_ok]
  · have hdeq : (deq s.num s.blkI s.qt[t].q)[k] = s.num.ofInt (s.blkI[k].toInt * (s.qt[t].q[k].toNat : Int)) := by simp [deq]
    refine ⟨hdeq, fun href => ?_⟩
    rw [hdeq, toReal_num_ofInt href]
    push_cast
    rfl
  · have hpos : 0 < s.qt[t].q[k].toNat := Nat.pos_of_ne_zero fun h => hq k (BitVec.eq_of_toNat_eq h)
    have hz := num_quant_eq href s.blkF[k] hpos
    refine ⟨hz, ?_⟩
    beta_reduce
    rw [hz]
    exact abs_rndReal_div_mul_sub_le _ (Nat.cast_pos.2 hpos)
  · have hfits := fun k => (fits32_iff _).2 (hfit k)
    refine ⟨Vector.ofFn fun i : Fin 64 => toWord (qnt s.num s.blkF s.qt[t].q)[i], ?_, fun k => ?_⟩
    · simp only [exec, execQuant, State.quantChecks_ok ht hfits, State.checked_ok]
    · simpa [qnt] using toInt_toWord (hfits k)
  · have hrange := State.quantChecks_error ht (Bool.eq_false_iff.2 (mt (fits32_iff _).1 hk))
      fun j hj => (fits32_iff _).2 (hbefore j hj)
    simp only [exec, execQuant, hrange, State.checked_error, State.raise]

/-! ### QT_LOAD -/

/-- Entry `k` of the quantisation payload at IN address `a`, a byte or two big-endian bytes, as a number (30_encoding.md R96). -/
def payloadEntry (m : Memory) (a : Nat) (pq : Byte) (k : Nat) : Nat :=
  if pq = 0 then (m.inByte (a + k)).toNat
  else 256 * (m.inByte (a + 2 * k)).toNat + (m.inByte (a + 2 * k + 1)).toNat

/-- The quantisation table of a payload: entry `k` stands at `ZZ[k]` (44_transform.md R235). -/
def loadedTable (m : Memory) (a : Nat) (wide : Bool) : QTable :=
  { q := Vector.ofFn fun i => (qtEntries m a wide)[zigzagPlace i], pq := wide }

theorem loadedTable_zigzag (m : Memory) (a : Nat) (wide : Bool) (k : Fin 64) :
    (loadedTable m a wide).q[zigzag[k]] = (qtEntries m a wide)[k] := by
  simp only [loadedTable, Fin.getElem_fin, Vector.getElem_ofFn]
  exact congrArg (fun j : Fin 64 => (qtEntries m a wide)[j]) (zigzagPlace_zigzag k)

section
variable {pq tq : Byte} {wide : Bool} {t : Fin 4}

theorem toNat_qtEntries (hp : precisionField pq = .ok wide) (m : Memory) (a : Nat) (k : Fin 64) :
    ((qtEntries m a wide)[k]).toNat = payloadEntry m a pq k.val := by
  obtain rfl := (precisionField_ok_iff pq wide).1 hp
  cases wide with
  | false =>
    have hbyte : (m.inByte (a + k.val)).toNat < 65536 := (BitVec.isLt _).trans (by decide)
    simp [qtEntries, payloadEntry, Nat.mod_eq_of_lt hbyte]
  | true =>
    simp only [qtEntries, payloadEntry, Fin.getElem_fin, Vector.getElem_ofFn]
    exact toNat_append_eq (m.inByte (a + 2 * k.val)) _

theorem precisionField_of_le (h : pq.toNat ≤ 1) : precisionField pq = .ok (decide (pq = 1)) := by
  rw [precisionField_ok_iff]
  by_cases h1 : pq = 1
  · simp [h1]
  · rw [if_neg (by simpa using h1)]
    bv_omega

theorem qtLength_eq (hp : precisionField pq = .ok wide) : qtLength wide = 64 * (1 + pq.toNat) := by
  obtain rfl := (precisionField_ok_iff pq wide).1 hp
  cases wide <;> rfl

theorem qtEntries_all_ne_zero_iff (hp : precisionField pq = .ok wide) (m : Memory) (a : Nat) :
    (qtEntries m a wide).toList.all (· ≠ 0) = true ↔ ∀ k : Fin 64, payloadEntry m a pq k.val ≠ 0 := by
  simp only [List.all_eq_true, decide_eq_true_eq, forall_mem_toList_iff]
  refine forall_congr' fun k => not_congr ?_
  rw [← toNat_qtEntries hp, ← BitVec.toNat_inj]
  rfl

/-- The checks of QT_LOAD with legal fields, in their order (44_transform.md R235). -/
theorem State.qtLoadChecks_eq (s : State) (hp : precisionField pq = .ok wide) (ht : indexField tq = .ok t) :
    s.qtLoadChecks pq tq =
      if s.params.inSize < s.argNat 0 + qtLength wide then .error (.ioRead, s.inSizeInfo)
      else if ∀ k : Fin 64, payloadEntry s.inMem (s.argNat 0) pq k.val ≠ 0 then .ok (t, loadedTable s.inMem (s.argNat 0) wide)
      else .error (.badTable, 5) := by
  simp only [State.qtLoadChecks, hp, ht, require_le_bind, ← qtEntries_all_ne_zero_iff hp]
  simp only [bind, Except.bind]
  split
  · rfl
  · cases (qtEntries s.inMem (s.argNat 0) wide).toList.all (· ≠ 0) <;> rfl

end

/-- Settles O41: the checks in their order; the place of an entry in the zig-zag order undoes the order. -/
theorem quantTableLoad : Obligations.QuantTableLoad := by
  intro s pq tq t hpq htq
  have hp := precisionField_of_le hpq
  have hchecks := s.qtLoadChecks_eq hp ((indexField_ok_iff tq t).2 htq)
  rw [qtLength_eq hp] at hchecks
  refine ⟨fun hlen => ?_, fun hlen hzero => ?_, fun hlen hne => ?_⟩
  · rw [if_pos hlen] at hchecks
    rw [exec, execQtLoad, hchecks]
    rfl
  · obtain ⟨k, hk⟩ := hzero
    rw [if_neg (Nat.not_lt_of_le hlen), if_neg fun hne => hne k hk] at hchecks
    rw [exec, execQtLoad, hchecks]
    rfl
  · change ∀ k : Fin 64, payloadEntry s.inMem (s.argNat 0) pq k.val ≠ 0 at hne
    rw [if_neg (Nat.not_lt_of_le hlen), if_pos hne] at hchecks
    refine ⟨(loadedTable s.inMem (s.argNat 0) (decide (pq = 1))).q, fun k => ?_, ?_⟩
    · rw [loadedTable_zigzag]
      exact toNat_qtEntries hp _ _ k
    · rw [exec, execQtLoad, hchecks, ← qtLength_eq hp]
      rfl

/-! ### PIX_OUT and PIX_IN -/

theorem State.precision_error {s : State} (h : ¬(2 ≤ s.prec.toNat ∧ s.prec.toNat ≤ 16)) :
    s.precision = .error (.badArg, BitVec.ofNat 32 s.prec.toNat) := by
  rw [State.precision, if_neg h, BitVec.ofNat_toNat]

theorem clamp_eq_max_min {x lo hi : Int} (h : lo ≤ hi) : clamp x lo hi = max lo (min hi x) := by
  unfold clamp
  split
  · omega
  · split <;> omega

/-- The sample of PIX_OUT is the clamped value itself: 16 bits hold it (44_transform.md R240). -/
theorem toNat_pixOut (n : Numerics NumValue) {p : Nat} (hp : p ≤ 16) (f : NumValue) :
    ((pixOut n p f).toNat : Int) = max 0 (min (2 ^ p - 1) (n.round f + 2 ^ (p - 1))) := by
  have hpos : (1 : Int) ≤ 2 ^ p := one_le_pow₀ (by decide)
  have hle : (2 : Int) ^ p ≤ 2 ^ 16 := pow_le_pow_right₀ (by decide) hp
  rw [pixOut, clamp_eq_max_min (by omega), BitVec.toNat_ofInt]
  omega

/-- Settles O46: the level shift within 16 bits; otherwise the check of PREC. -/
theorem levelShift : Obligations.LevelShift := by
  intro s p
  refine ⟨fun hp => ?_, fun hp => ?_⟩
  · have hprec := (s.precision_ok_iff p).2 ⟨rfl, hp⟩
    refine ⟨⟨Vector.ofFn fun i : Fin 64 => pixOut s.num p s.blkF[i], ?_, fun k => ⟨?_, fun href => num_round_eq href _⟩⟩,
      Vector.ofFn fun i : Fin 64 => pixIn s.num p s.blkP[i], ?_, fun k => ?_⟩
    · simp only [exec, execPixOut, hprec, State.checked_ok]
    · simpa using toNat_pixOut s.num hp.2 s.blkF[k]
    · simp only [exec, execPixIn, hprec, State.checked_ok]
    · have hin : (Vector.ofFn fun i : Fin 64 => pixIn s.num p s.blkP[i])[k] =
          s.num.ofInt ((s.blkP[k].toNat : Int) - 2 ^ (p - 1)) := by simp [pixIn]
      refine ⟨hin, fun href => ?_⟩
      rw [hin, toReal_num_ofInt href]
      push_cast
      rfl
  · have hprec := State.precision_error hp
    constructor
    · simp only [exec, execPixOut, hprec, State.checked_error]
      rfl
    · simp only [exec, execPixIn, hprec, State.checked_error]
      rfl

end Sys2Proof.Machine
end

section
/-! SUPPORT. The table of an LJ92 session (45_lj92.md R253, R254): MAXBITS, the lookup table, and that a symbol read through it
is the one read bit by bit. -/

namespace Sys2Proof.Machine

/-! ### MAXBITS -/

/-- The place behind the last index below `n` where `q` holds, 0 if there is none. -/
theorem getLast?_filter_range_spec (q : Nat → Bool) (n : Nat) :
    let m := (((List.range n).filter q).getLast?.map (· + 1)).getD 0
    m ≤ n ∧ (m = 0 ∨ q (m - 1) = true) ∧ ∀ i, m ≤ i → i < n → q i = false := by
  induction n with
  | zero => simp
  | succ n ih =>
    rw [List.range_succ, List.filter_append]
    cases hq : q n with
    | true => simpa [hq] using fun i hi hi' => absurd hi' (Nat.not_le_of_lt hi)
    | false =>
      simp only [List.filter_singleton, hq, List.append_nil, cond_false]
      obtain ⟨hle, hlast, hbehind⟩ := ih
      refine ⟨Nat.le_succ_of_le hle, hlast, fun i hi hi' => ?_⟩
      rcases Nat.lt_succ_iff_lt_or_eq.1 hi' with hlt | rfl
      · exact hbehind i hi hlt
      · exact hq

/-- MAXBITS is the longest length that the counts use (45_lj92.md R253). -/
theorem HuffSpec.maxBits_spec (p : HuffSpec) :
    p.maxBits ≤ 16 ∧ (p.maxBits = 0 ∨ p.lengths.getD (p.maxBits - 1) 0 ≠ 0) ∧
      ∀ i, p.maxBits ≤ i → p.lengths.getD i 0 = 0 := by
  obtain ⟨hle, hlast, hbehind⟩ := getLast?_filter_range_spec (fun i => 0 < p.lengths.getD i 0) 16
  refine ⟨hle, hlast.imp_right fun h => (of_decide_eq_true h).ne', fun i hi => ?_⟩
  by_cases h16 : i < 16
  · exact Nat.eq_zero_of_not_pos (of_decide_eq_false (hbehind i hi h16))
  · exact List.getD_eq_default _ _ (by rw [p.lengths_length]; omega)

/-- No code of the table is longer than MAXBITS. -/
theorem slot_size_le_maxBits {p : HuffSpec} {slots : List Slot} (h : buildSlots p = .ok slots) {k : Slot} (hk : k ∈ slots) :
    k.size.toNat ≤ p.maxBits := by
  obtain ⟨codes, hc, hpair, -⟩ := buildSlots_ok h
  have hmem : k.pair ∈ codes := List.mem_of_mem_take (hpair ▸ List.mem_map_of_mem hk)
  have hsize : k.size.toNat ∈ codeSizes 1 p.lengths := assignCodes_map_fst hc ▸ List.mem_map_of_mem hmem
  obtain ⟨hpos, -⟩ := HuffSpec.size_bounds hsize
  by_contra hlt
  have hcount := codeSizes_count 1 (k.size.toNat - 1) p.lengths
  rw [Nat.add_sub_cancel' hpos, p.maxBits_spec.2.2 _ (by omega)] at hcount
  exact List.count_eq_zero.1 hcount hsize

/-! ### The lookup table -/

/-- The windows of a slot in the lookup table are those that its code begins (45_lj92.md R253). -/
theorem Slot.bits_prefix_numBits_iff {k : Slot} {n w : Nat} (hk : k.code.toNat < 2 ^ k.size.toNat) (hn : k.size.toNat ≤ n)
    (hw : w < 2 ^ n) :
    k.bits <+: numBits w n ↔
      k.code.toNat * 2 ^ (n - k.size.toNat) ≤ w ∧ w < (k.code.toNat + 1) * 2 ^ (n - k.size.toNat) := by
  have hpos : 0 < 2 ^ (n - k.size.toNat) := Nat.two_pow_pos _
  have hdiv : w / 2 ^ (n - k.size.toNat) < 2 ^ k.size.toNat := by
    rwa [Nat.div_lt_iff_lt_mul hpos, ← Nat.pow_add, Nat.add_sub_cancel' hn]
  rw [List.prefix_iff_eq_take, k.bits_length, numBits_take hn, Slot.bits, ← Nat.le_div_iff_mul_le hpos,
    ← Nat.div_lt_iff_lt_mul hpos]
  constructor
  · intro h
    have := numBits_inj hk hdiv h
    omega
  · intro h
    rw [show k.code.toNat = w / 2 ^ (n - k.size.toNat) by omega]

section
variable {p : HuffSpec} {slots : List Slot} {m : Memory} {r : Reader}

/-- The entry of a window is the slot that the search for a code in front of it finds. -/
theorem lutEntry_spec (hs : buildSlots p = .ok slots) {w : Nat} (hw : w < 2 ^ p.maxBits) :
    (∀ k ∈ slots, k.bits <+: numBits w p.maxBits → lutEntry slots p.maxBits w = { sym := k.sym, len := k.size }) ∧
      (noCode slots (numBits w p.maxBits) → lutEntry slots p.maxBits w = { sym := 0, len := 0 }) := by
  have hiff : ∀ k ∈ slots, k.bits <+: numBits w p.maxBits ↔ _ := fun k hk =>
    Slot.bits_prefix_numBits_iff (slot_bounds hs k hk).2.2 (slot_size_le_maxBits hs hk) hw
  rw [lutEntry]
  cases hfind : slots.find? _ with
  | some k =>
    have hk := List.mem_of_find?_eq_some hfind
    have hpre : k.bits <+: numBits w p.maxBits := (hiff k hk).2 (by simpa using List.find?_some hfind)
    exact ⟨fun k' hk' hpre' => by rw [slot_eq_of_prefix hs hk' hk hpre' hpre], fun hno => absurd hpre (hno k hk)⟩
  | none =>
    refine ⟨fun k hk hpre => absurd ((hiff k hk).1 hpre) ?_, fun _ => rfl⟩
    simpa using List.find?_eq_none.1 hfind k hk

theorem buildLut_getElem? (slots : List Slot) {maxBits w : Nat} (hw : w < 2 ^ maxBits) :
    (buildLut slots maxBits)[w]? = some (lutEntry slots maxBits w) := by
  simp [buildLut, hw]

/-! ### Reading a symbol -/

/-- The fault of an LJ92 read that meets the end of its segment: TRUNCATED with the marker's address, or IO_READ
(45_lj92.md R254). -/
def segmentFault : SegmentEnd → Raise
  | .marker pos _ => (.truncated, BitVec.ofNat 32 pos)
  | .runsOut addr => (.ioRead, BitVec.ofNat 32 addr)

theorem ljRead_ends {α : Type} {x : Bits α} (h : SegmentEnds m r .noMore .fail x) :
    ljRead x = .error (segmentFault (r.rest m).2) := by
  cases h with
  | marker pos second r' he hend hx =>
    rw [hx, he, ljRead, truncatedAt, segmentFault, ← hend.pos, BitVec.ofNat_toNat, BitVec.setWidth_eq]
  | runsOut addr he hx => rw [hx, he, ljRead, segmentFault]

/-- The slot whose code stands at the front of the bits is the one that is read. -/
theorem ljSymbol_slot (hs : buildSlots p = .ok slots) (h8 : r.cnt.toNat ≤ 8) {k : Slot} (hk : k ∈ slots)
    (hpre : k.bits <+: r.bits m) : ∃ r', ljSymbol m slots p.maxBits r = .ok (k.sym, r') ∧ r.After m k.size.toNat r' := by
  have hpos := (slot_bounds hs k hk).1
  have hspec := readCode_spec (m := m) (fun k hk => (slot_bounds hs k hk).2.2) p.maxBits r h8
  rw [ljSymbol]
  generalize readCode m slots p.maxBits r = x at hspec
  cases hspec with
  | got k' r' hk' _ hpre' ha =>
    obtain rfl := slot_eq_of_prefix hs hk hk' hpre hpre'
    exact ⟨r', rfl, ha⟩
  | notFound hno => exact absurd hpre (hno k hk hpos (by simpa using slot_size_le_maxBits hs hk))
  | marker _ _ _ hno => exact absurd hpre (hno k hk hpos)
  | runsOut _ hno => exact absurd hpre (hno k hk hpos)

/-- Without a code at the front of the bits, MAXBITS of them are read in vain, or the segment ends before (45_lj92.md R254). -/
theorem ljSymbol_noCode (hs : buildSlots p = .ok slots) (h8 : r.cnt.toNat ≤ 8) (hno : noCode slots (r.bits m)) :
    ljSymbol m slots p.maxBits r = .error
      (if (r.bits m).length < p.maxBits then segmentFault (r.rest m).2
      else (.codeNotFound, BitVec.ofNat 32 (bitsValue ((r.bits m).take p.maxBits)))) := by
  have hspec := readCode_spec (m := m) (fun k hk => (slot_bounds hs k hk).2.2) p.maxBits r h8
  rw [ljSymbol]
  generalize readCode m slots p.maxBits r = x at hspec
  cases hspec with
  | got k r' hk _ hpre => exact absurd hpre (hno k hk)
  | notFound _ hlen =>
    rw [if_neg (Nat.not_lt_of_le hlen)]
    rfl
  | marker pos second r' _ hlen he hend =>
    rw [if_pos hlen]
    exact ljRead_ends (.marker pos second r' he hend rfl)
  | runsOut addr _ hlen he =>
    rw [if_pos hlen]
    exact ljRead_ends (.runsOut addr he rfl)

end

/-! ### The lookup and the reading agree -/

/-- Bits no longer than those before the padding stand at the front of a padded window if they stand in front of what it pads. -/
theorem prefix_window_iff {l bits : List Bool} {n : Nat} (hn : l.length ≤ n) (hb : l.length ≤ bits.length) :
    l <+: (bits ++ List.replicate n false).take n ↔ l <+: bits := by
  rw [List.prefix_take_iff, and_iff_left hn]
  exact ⟨fun h => List.prefix_of_prefix_length_le h (List.prefix_append _ _) hb, fun h => h.trans (List.prefix_append _ _)⟩

/-- Settles O50: the code in front of the window, if there is one, is in front of the bits when there are enough of them; when there
are not, no code is. -/
theorem lookupAgreesWithBitSerial : Obligations.LookupAgreesWithBitSerial := by
  intro p slots m r pos second hs h8 hend bits w e he
  let window := (bits ++ List.replicate p.maxBits false).take p.maxBits
  have hlen : window.length = p.maxBits := by simp [window]
  have hw : w < 2 ^ p.maxBits := hlen ▸ bitsValue_lt window
  have hwindow : numBits w p.maxBits = window := hlen ▸ numBits_bitsValue window
  obtain ⟨hslot, hnone⟩ := lutEntry_spec hs hw
  rw [hwindow] at hslot hnone
  rw [buildLut_getElem? slots hw] at he
  obtain rfl := Option.some.inj he
  have hfits : ∀ k ∈ slots, k.bits <+: bits → k.bits <+: window := fun k hk hpre =>
    (prefix_window_iff (by rw [k.bits_length]; exact slot_size_le_maxBits hs hk) hpre.length_le).2 hpre
  have hfault := fun hno => ljSymbol_noCode (m := m) (r := r) hs h8 hno
  rw [hend] at hfault
  by_cases hcode : ∃ k ∈ slots, k.bits <+: window
  · obtain ⟨k, hk, hpre⟩ := hcode
    have hmax := slot_size_le_maxBits hs hk
    rw [hslot k hk hpre]
    refine ⟨fun ⟨_, hle⟩ => ljSymbol_slot hs h8 hk ?_, fun hshort => hfault fun k' hk' hpre' => hshort ?_⟩
    · refine (prefix_window_iff ?_ ?_).1 hpre <;> rwa [k.bits_length]
    · obtain rfl := slot_eq_of_prefix hs hk hk' hpre (hfits k' hk' hpre')
      exact ⟨(slot_bounds hs k hk).1, k.bits_length ▸ hpre'.length_le⟩
  · have hno : noCode slots window := fun k hk hpre => hcode ⟨k, hk, hpre⟩
    rw [hnone hno]
    exact ⟨fun h => absurd h.1 (by decide), fun _ => hfault fun k hk hpre => hno k hk (hfits k hk hpre)⟩

end Sys2Proof.Machine
end

section
/-! SUPPORT. One residual of an LJ92 stream (45_lj92.md R254, R255): a code with its extra bits, or the fault that stands in its
place. -/

namespace Sys2Proof.Machine

section
variable {m : Memory} {p : HuffSpec} {slots : List Slot} {r : Reader}

/-- Behind a category of at most 15 its extra bits are read; category 0 has none. -/
theorem ljDiff_of_category {t : Byte} {maxBits : Nat} {r' : Reader} (h : ljSymbol m slots maxBits r = .ok (t, r'))
    (ht : t.toNat ≤ 15) :
    ljDiff m slots maxBits r = (ljRead (getBits m t.toNat r')).map fun x => (extend x.1 t.toNat, x.2) := by
  by_cases h0 : t = 0
  · subst h0
    simp only [ljDiff, h, if_pos]
    rfl
  · simp only [ljDiff, h, if_neg h0, if_pos ht]
    cases ljRead (getBits m t.toNat r') <;> rfl

/-- A coding of a residual at the front of the bits is read as that residual. -/
theorem ljDiff_code (hs : buildSlots p = .ok slots) (h8 : r.cnt.toNat ≤ 8) {d : Int} {code : List Bool}
    (hc : ljCodes slots d code) (hpre : code <+: r.bits m) : ∃ r', ljDiff m slots p.maxBits r = .ok (d, r') ∧ r.After m code.length r' := by
  obtain ⟨rest, hbits⟩ := hpre
  obtain ⟨k, hk, ⟨hcat, h15, rfl⟩ | ⟨hsym, rfl, rfl⟩⟩ := hc
  · rw [List.append_assoc] at hbits
    obtain ⟨r', hread, ha⟩ := ljSymbol_slot (m := m) hs h8 hk (hbits ▸ List.prefix_append _ _)
    obtain ⟨r'', hget, ha'⟩ := getBits_numBits (rest := rest) ha.cnt (extra_lt d)
      (by rw [ha.bits, ← hbits, ← k.bits_length, List.drop_left])
    refine ⟨r'', ?_, ?_⟩
    · rw [ljDiff_of_category hread (hcat ▸ h15), hcat, hget, ljRead, Except.map, extend_extra]
    · rw [List.length_append, numBits_length, k.bits_length]
      exact ha.trans ha'
  · obtain ⟨r', hread, ha⟩ := ljSymbol_slot (m := m) hs h8 hk (hbits ▸ List.prefix_append _ _)
    rw [hsym] at hread
    refine ⟨r', ?_, k.bits_length.symm ▸ ha⟩
    simp only [ljDiff, hread]
    rfl

theorem ljDiff_badSymbol (hs : buildSlots p = .ok slots) (h8 : r.cnt.toNat ≤ 8) {k : Slot} (hk : k ∈ slots)
    (hpre : k.bits <+: r.bits m) (h16 : 16 < k.sym.toNat) : ljDiff m slots p.maxBits r = .error (badSymbol k.sym) := by
  obtain ⟨r', hread, -⟩ := ljSymbol_slot hs h8 hk hpre
  have h0 : k.sym ≠ 0 := fun h => by simp [h] at h16
  have hne : k.sym ≠ 16 := fun h => by simp [h] at h16
  simp only [ljDiff, hread, if_neg h0, if_neg (show ¬k.sym.toNat ≤ 15 by omega), if_neg hne]

theorem ljDiff_noCode (hs : buildSlots p = .ok slots) (h8 : r.cnt.toNat ≤ 8) (hno : noCode slots (r.bits m)) :
    ljDiff m slots p.maxBits r = .error
      (if (r.bits m).length < p.maxBits then segmentFault (r.rest m).2
      else (.codeNotFound, BitVec.ofNat 32 (bitsValue ((r.bits m).take p.maxBits)))) := by
  simp only [ljDiff, ljSymbol_noCode hs h8 hno]

/-- A segment end inside a residual is a fault, inside its code as inside its extra bits (45_lj92.md R254, R255). -/
theorem ljDiff_ends (hs : buildSlots p = .ok slots) (h8 : r.cnt.toNat ≤ 8)
    (h : endsInside slots p.maxBits categoryBits (r.bits m)) :
    ljDiff m slots p.maxBits r = .error (segmentFault (r.rest m).2) := by
  rcases h with ⟨hno, hlen⟩ | ⟨k, hk, hpre, hlen⟩
  · rw [ljDiff_noCode hs h8 hno, if_pos hlen]
  · have hle := hpre.length_le
    rw [k.bits_length] at hle
    have h15 : k.sym.toNat ≤ 15 := by
      by_contra hgt
      rw [categoryBits, if_neg hgt] at hlen
      omega
    rw [categoryBits, if_pos h15] at hlen
    obtain ⟨r', hread, ha⟩ := ljSymbol_slot hs h8 hk hpre
    have hshort : (r'.bits m).length < k.sym.toNat := by
      rw [ha.bits, List.length_drop]
      omega
    rw [ljDiff_of_category hread h15, ljRead_ends (getBits_ends ha.cnt hshort), ha.segmentEnd, Except.map]

end

end Sys2Proof.Machine
end

section
/-! SUPPORT. The image of LJ_DECODE sample by sample in output order (45_lj92.md R257 to R260, R263): the rows with their two caches
are one scan that keeps all samples so far, in which the residuals of a stream follow one another. -/

namespace Sys2Proof.Machine

/-! ### Samples by output index -/

theorem rowSample_drop (l : List Sample) (n i : Nat) : rowSample (l.drop n) i = rowSample l (n + i) := by
  simp [rowSample, List.getD_eq_getElem?_getD]

theorem rowSample_take (l : List Sample) {n i : Nat} (h : i < n) : rowSample (l.take n) i = rowSample l i := by
  simp [rowSample, List.getD_eq_getElem?_getD, h]

/-- The row above row `row` of width `w` among the samples `done`; above row 0 what the row cache happens to hold. -/
def rowAbove (w : Nat) (stale : List Sample) : (row : Nat) → (done : List Sample) → List Sample
  | 0, _ => stale
  | row + 1, done => (done.drop (row * w)).take w

theorem rowAbove_append {w row : Nat} {done : List Sample} (stale more : List Sample) (h : row * w ≤ done.length) :
    rowAbove w stale row (done ++ more) = rowAbove w stale row done := by
  cases row with
  | zero => rfl
  | succ row =>
    rw [Nat.succ_mul] at h
    rw [rowAbove, rowAbove, List.drop_append_of_le_length (by omega),
      List.take_append_of_le_length (by rw [List.length_drop]; omega)]

/-- The prediction from the row caches (45_lj92.md R257) is that from the samples by output index (45_lj92.md R259). -/
theorem ofInt_prediction (lj : LjSession) {row p : Nat} (stale done : List Sample) (d : Int) (hp : p < lj.rowLength) :
    BitVec.ofInt 16 (prediction lj row p (done.drop (row * lj.rowLength)) (rowAbove lj.rowLength stale row done) + d) =
      ljReconstruct lj done (row * lj.rowLength + p) d := by
  have hnc : lj.nc.toNat ≤ lj.rowLength := by
    rw [LjSession.rowLength] at hp ⊢
    exact Nat.le_mul_of_pos_left _ (Nat.pos_of_mul_pos_right (Nat.zero_lt_of_lt hp))
  have hw : lj.x.toNat * lj.nc.toNat = lj.rowLength := rfl
  simp only [prediction, ljReconstruct, hw, rowSample_drop]
  cases row with
  | zero => simp [hp]
  | succ row =>
    have hi : (row + 1) * lj.rowLength + p = lj.rowLength + (row * lj.rowLength + p) := by rw [Nat.succ_mul]; omega
    have hmod : (lj.rowLength + (row * lj.rowLength + p)) % lj.rowLength = p := by
      rw [Nat.add_mod_left, Nat.mul_add_mod', Nat.mod_eq_of_lt hp]
    have habove : ∀ q, q < lj.rowLength → rowSample (rowAbove lj.rowLength stale (row + 1) done) q =
        rowSample done (row * lj.rowLength + q) := fun q hq => by rw [rowAbove, rowSample_take _ hq, rowSample_drop]
    have hbehind : ¬lj.rowLength + (row * lj.rowLength + p) < lj.nc.toNat := by omega
    simp only [hi, hmod, hbehind, habove p hp, Nat.succ_ne_zero, if_false, Nat.not_lt_of_le (Nat.le_add_right lj.rowLength _),
      Nat.add_sub_cancel_left]
    by_cases hcol : p < lj.nc.toNat
    · rw [if_pos hcol, if_pos hcol]
    · have hleft : (row + 1) * lj.rowLength + (p - lj.nc.toNat) = lj.rowLength + (row * lj.rowLength + p) - lj.nc.toNat := by
        rw [Nat.succ_mul]
        omega
      have hcorner : row * lj.rowLength + (p - lj.nc.toNat) = row * lj.rowLength + p - lj.nc.toNat := by omega
      rw [if_neg hcol, if_neg hcol, habove _ (by omega), hleft, hcorner]

theorem ljSamples_length (lj : LjSession) (done : List Sample) (ds : List Int) :
    (ljSamples lj done ds).length = done.length + ds.length := by
  induction ds generalizing done with
  | nil => rfl
  | cons d ds ih =>
    simp only [ljSamples, ih, List.length_append, List.length_cons, List.length_nil]
    omega

theorem prefix_ljSamples (lj : LjSession) (done : List Sample) (ds : List Int) : done <+: ljSamples lj done ds := by
  induction ds generalizing done with
  | nil => exact List.prefix_rfl
  | cons d ds ih => exact (List.prefix_append _ _).trans (ih _)

theorem Memory.setSamples_append (m : Memory) (a : Nat) (vs ws : List Sample) :
    m.setSamples a (vs ++ ws) = (m.setSamples a vs).setSamples (a + 2 * vs.length) ws := by
  rw [Memory.setSamples, List.flatMap_append, Memory.setList_append, samples_length]
  rfl

/-! ### The scan -/

/-- The value written for a sample that LIN has an entry for, or where LIN is off (45_lj92.md R260). -/
def LjJob.outSample (j : LjJob) (v : Sample) : Sample := if j.linEn then j.lj.lin.getD v.toNat 0 else v

/-- LIN has no entry for a sample that is to be remapped (45_lj92.md R260). -/
abbrev LjJob.offTable (j : LjJob) (v : Sample) : Prop := j.linEn = true ∧ j.lj.lin.length ≤ v.toNat

theorem LjJob.linearise_eq (j : LjJob) (v : Sample) :
    linearise j.lj j.linEn v = if j.offTable v then .error (.linRange, v.setWidth 32) else .ok (j.outSample v) := by
  unfold linearise LjJob.offTable LjJob.outSample
  cases j.linEn with
  | false => simp
  | true =>
    by_cases h : j.lj.lin.length ≤ v.toNat
    · simp [h]
    · simp [h, Nat.lt_of_not_le h]

/-- How far LJ_DECODE has come: the reader and all samples so far, in output order. -/
structure LjScan where
  r : Reader
  done : List Sample

/-- The next sample of an image, from its residual. -/
def LjJob.next (j : LjJob) (t : LjScan) : Except Raise LjScan :=
  match ljDiff j.inp j.slots j.lj.maxBits.toNat t.r with
  | .error f => .error f
  | .ok (d, r) =>
    let v := ljReconstruct j.lj t.done t.done.length d
    if j.offTable v then .error (.linRange, v.setWidth 32) else .ok { r := r, done := t.done ++ [v] }

/-- The next `n` samples of an image. -/
def LjJob.scan (j : LjJob) : (n : Nat) → LjScan → Except Raise LjScan
  | 0, t => .ok t
  | n + 1, t => (j.next t).bind fun t' => j.scan n t'

theorem LjJob.next_length {j : LjJob} {t t' : LjScan} (h : j.next t = .ok t') : t'.done.length = t.done.length + 1 := by
  unfold LjJob.next at h
  split at h
  · cases h
  · dsimp only at h
    split at h <;> cases h
    exact List.length_append

theorem LjJob.scan_length {j : LjJob} {n : Nat} {t t' : LjScan} (h : j.scan n t = .ok t') :
    t'.done.length = t.done.length + n := by
  induction n generalizing t with
  | zero =>
    cases h
    rfl
  | succ n ih =>
    obtain ⟨u, hu, ht'⟩ := (bind_ok_iff _ _ _).1 h
    rw [ih ht', LjJob.next_length hu]
    omega

theorem LjJob.scan_add (j : LjJob) (n k : Nat) (t : LjScan) : j.scan (n + k) t = (j.scan n t).bind fun t' => j.scan k t' := by
  induction n generalizing t with
  | zero => rw [Nat.zero_add]; rfl
  | succ n ih =>
    rw [Nat.succ_add, LjJob.scan, LjJob.scan]
    cases j.next t with
    | error f => rfl
    | ok t' => exact ih t'

/-! ### The rows are the scan -/

section
variable {j : LjJob} {stale : List Sample} {out : Memory} {row n p : Nat} {t : LjScan}

/-- The running state of LJ_DECODE inside row `row`: the row caches and OUT, from the samples so far. -/
def LjScan.inRow (j : LjJob) (stale : List Sample) (out : Memory) (row : Nat) (t : LjScan) : LjRun :=
  { r := t.r, cur := t.done.drop (row * j.lj.rowLength), prev := rowAbove j.lj.rowLength stale row t.done
    out := out.setSamples j.dest (t.done.map j.outSample) }

/-- The running state of LJ_DECODE before row `row`: the current row is the one that has ended. -/
def LjScan.beforeRow (j : LjJob) (stale : List Sample) (out : Memory) (row : Nat) (t : LjScan) : LjRun :=
  { t.inRow j stale out row with cur := t.done.drop ((row - 1) * j.lj.rowLength) }

theorem ljSample_inRow (hlen : t.done.length = row * j.lj.rowLength + p) (hp : p < j.lj.rowLength) :
    ljSample j row p (t.inRow j stale out row) = (j.next t).map (LjScan.inRow j stale out row) := by
  simp only [ljSample, LjJob.next, LjScan.inRow]
  cases ljDiff j.inp j.slots j.lj.maxBits.toNat t.r with
  | error f => rfl
  | ok x =>
    obtain ⟨d, r⟩ := x
    have hle : row * j.lj.rowLength ≤ t.done.length := by omega
    simp only [ofInt_prediction j.lj stale t.done d hp, ← hlen, j.linearise_eq]
    by_cases hoff : j.offTable (ljReconstruct j.lj t.done t.done.length d)
    · simp only [if_pos hoff, Except.map]
    · simp only [if_neg hoff, Except.map, LjScan.inRow, rowAbove_append stale _ hle, List.drop_append_of_le_length hle,
        List.map_append, List.map_cons, List.map_nil, Memory.setSamples_append, List.length_map]

theorem ljRow_inRow (hlen : t.done.length = row * j.lj.rowLength + p) (hn : p + n ≤ j.lj.rowLength) :
    ljRow j row n p (t.inRow j stale out row) = (j.scan n t).map (LjScan.inRow j stale out row) := by
  induction n generalizing p t with
  | zero => rfl
  | succ n ih =>
    rw [ljRow, ljSample_inRow hlen (by omega), LjJob.scan]
    cases hnext : j.next t with
    | error f => rfl
    | ok t' => exact ih (by rw [LjJob.next_length hnext, hlen]; omega) (by omega)

theorem ljRows_beforeRow (hlen : t.done.length = row * j.lj.rowLength) :
    ljRows j n row (t.beforeRow j stale out row) =
      (j.scan (n * j.lj.rowLength) t).map (LjScan.beforeRow j stale out (row + n)) := by
  induction n generalizing row t with
  | zero => rw [Nat.zero_mul]; rfl
  | succ n ih =>
    have hstart : { t.beforeRow j stale out row with cur := [] } = t.inRow j stale out row := by
      rw [LjScan.beforeRow, LjScan.inRow, List.drop_eq_nil_of_le hlen.le]
    rw [ljRows, hstart, ljRow_inRow (p := 0) hlen (by omega), Nat.succ_mul, Nat.add_comm (n * _), LjJob.scan_add]
    cases hscan : j.scan j.lj.rowLength t with
    | error f => rfl
    | ok t' =>
      have hlen' : t'.done.length = (row + 1) * j.lj.rowLength := by rw [LjJob.scan_length hscan, hlen, Nat.succ_mul]
      have hend : { t'.inRow j stale out row with prev := (t'.inRow j stale out row).cur } =
          t'.beforeRow j stale out (row + 1) := by
        simp only [LjScan.beforeRow, LjScan.inRow, rowAbove, Nat.add_sub_cancel]
        rw [List.take_of_length_le (by rw [List.length_drop, hlen', Nat.succ_mul]; omega)]
      simp only [Except.map, hend, ih hlen']
      rw [show row + 1 + n = row + (n + 1) by omega]
      rfl

end

/-- The image of a session is the scan of its samples. -/
theorem State.ljImage_eq {s : State} (hy : 1 ≤ s.lj.y.toNat) :
    s.ljImage = (s.ljJob.scan s.lj.total ⟨s.br, []⟩).map (LjScan.beforeRow s.ljJob s.lj.prev s.outMem s.lj.y.toNat) := by
  have hrows := ljRows_beforeRow (j := s.ljJob) (stale := s.lj.prev) (out := s.outMem) (row := 0) (n := s.lj.y.toNat)
    (t := ⟨s.br, []⟩) (Nat.zero_mul _).symm
  rw [Nat.zero_add] at hrows
  rw [LjSession.total_eq]
  refine Eq.trans ?_ hrows
  obtain ⟨n, hn⟩ : ∃ n, s.lj.y.toNat = n + 1 := ⟨s.lj.y.toNat - 1, by omega⟩
  rw [State.ljImage, hn]
  rfl

end Sys2Proof.Machine
end

section
/-! SUPPORT. LJ_DECODE (45_lj92.md R251, R263): the samples that a stream codes, and the fault behind any number of them. -/

namespace Sys2Proof.Machine

/-! ### A scan over the codes of residuals -/

/-- The slots and MAXBITS of a job are those of its session's specification (45_lj92.md R253). -/
structure LjJob.TableOk (j : LjJob) : Prop where
  slots : buildSlots j.lj.spec = .ok j.slots
  maxBits : j.lj.maxBits.toNat = j.lj.spec.maxBits

section
variable {j : LjJob} {t : LjScan}

theorem LjJob.next_error {f : Raise} (h : ljDiff j.inp j.slots j.lj.maxBits.toNat t.r = .error f) : j.next t = .error f := by
  simp only [LjJob.next, h]

/-- A coding of a residual in front of the bits gives the next sample, or LIN_RANGE. -/
theorem LjJob.next_code (hj : j.TableOk) (h8 : t.r.cnt.toNat ≤ 8) {d : Int} {code : List Bool} (hc : ljCodes j.slots d code)
    (hpre : code <+: t.r.bits j.inp) :
    ∃ r, t.r.After j.inp code.length r ∧ j.next t =
      if j.offTable (ljReconstruct j.lj t.done t.done.length d) then
        .error (.linRange, (ljReconstruct j.lj t.done t.done.length d).setWidth 32)
      else .ok { r := r, done := t.done ++ [ljReconstruct j.lj t.done t.done.length d] } := by
  obtain ⟨r, hdiff, ha⟩ := ljDiff_code hj.slots h8 hc hpre
  exact ⟨r, ha, by simp only [LjJob.next, hj.maxBits, hdiff]⟩

/-- The samples of the residuals that the bits in front code are decoded, and the scan goes on behind those bits. -/
theorem LjJob.scan_codes (hj : j.TableOk) (h8 : t.r.cnt.toNat ≤ 8) {ds : List Int} {codes : List (List Bool)} {rest : List Bool}
    (hc : List.Forall₂ (ljCodes j.slots) ds codes) (hbits : t.r.bits j.inp = codes.flatten ++ rest)
    (hlin : ∀ v ∈ ljSamples j.lj t.done ds, ¬j.offTable v) :
    ∃ r, t.r.After j.inp codes.flatten.length r ∧
      ∀ n, j.scan (ds.length + n) t = j.scan n { r := r, done := ljSamples j.lj t.done ds } := by
  induction hc generalizing t with
  | nil => exact ⟨t.r, .refl j.inp t.r h8, fun n => by rw [List.length_nil, Nat.zero_add]; rfl⟩
  | @cons d code ds codes hd _ ih =>
    rw [List.flatten_cons, List.append_assoc] at hbits
    obtain ⟨r, ha, hnext⟩ := LjJob.next_code hj h8 hd (hbits ▸ List.prefix_append _ _)
    have hmem := (prefix_ljSamples j.lj (t.done ++ [ljReconstruct j.lj t.done t.done.length d]) ds).subset
      (List.mem_append_right _ (List.mem_singleton_self _))
    rw [if_neg (hlin _ hmem)] at hnext
    obtain ⟨r', ha', hscan⟩ := ih (t := ⟨r, _⟩) ha.cnt (by rw [ha.bits, hbits, List.drop_left]) hlin
    refine ⟨r', ?_, fun n => ?_⟩
    · rw [List.flatten_cons, List.length_append]
      exact ha.trans ha'
    · rw [List.length_cons, Nat.succ_add, LjJob.scan, hnext]
      exact hscan n

end

/-! ### The command -/

theorem require_le (n k : Nat) (r : Raise) : require (n ≤ k) r = if k < n then .error r else .ok () := by
  rw [← require_le_bind n k r fun _ => .ok ()]
  cases require (n ≤ k) r <;> rfl

/-- The values written for samples: remapped where LIN_EN says so (45_lj92.md R260). -/
theorem State.map_outSample (s : State) (vs : List Sample) :
    vs.map s.ljJob.outSample = if s.isValid 14 then vs.map fun v => s.lj.lin.getD v.toNat 0 else vs := by
  have hfun : s.ljJob.outSample = fun v => if s.isValid 14 then s.lj.lin.getD v.toNat 0 else v := rfl
  rw [hfun]
  cases s.isValid 14 <;> simp

section
variable {s : State}

/-- With the units ready the one check of LJ_DECODE left is that the image fits OUT (45_lj92.md R251, R263). -/
theorem State.ljDecodeChecks_eq (hset : s.isValid 12 = true) (hht : s.isValid 13 = true) (hbr : s.isValid 15 = true) :
    s.ljDecodeChecks = if s.params.outSize < s.argNat 0 + 2 * s.lj.total then .error (.ioWrite, s.outSizeInfo) else .ok () := by
  rw [State.ljDecodeChecks, (s.needs_ok_iff ljSetBit).2 hset, (s.needs_ok_iff ljHtBit).2 hht, (s.needs_ok_iff brValidBit).2 hbr]
  exact require_le _ _ _

theorem State.ljJob_tableOk {slots : List Slot} (hs : buildSlots s.lj.spec = .ok slots) (hok : s.ljOk) (hht : s.isValid 13 = true) :
    s.ljJob.TableOk ∧ s.ljJob.slots = slots := by
  have hslots : s.ljJob.slots = slots := by rw [State.ljJob, LjSession.slots, hs]
  obtain ⟨-, htable, -⟩ := hok
  obtain ⟨_, -, hmax, -⟩ := htable hht
  exact ⟨⟨hslots ▸ hs, hmax⟩, hslots⟩

theorem faultsWith_of_scan_error {f : Raise} (hchecks : s.ljDecodeChecks = .ok ()) (hy : 1 ≤ s.lj.y.toNat)
    (hscan : s.ljJob.scan s.lj.total ⟨s.br, []⟩ = .error f) : faultsWith .ljDecode s f.1 f.2 := by
  refine faultsWith_of_raiseMid
    (t := ((s.drawReader.drawRes0).drawRows s.lj.rowLength).drawOut (s.argNat 0) (2 * s.lj.total)) ?_
  rw [exec, execLjDecode, hchecks, State.checked_ok, State.ljImage_eq hy, hscan]
  rfl

theorem exec_ljDecode_of_scan_ok {t : LjScan} (hchecks : s.ljDecodeChecks = .ok ()) (hy : 1 ≤ s.lj.y.toNat)
    (hscan : s.ljJob.scan s.lj.total ⟨s.br, []⟩ = .ok t) :
    exec .ljDecode s = .next (State.finish
      { s with
        br := t.r, res0 := BitVec.ofNat 32 s.lj.total
        outMem := s.outMem.setSamples (s.argNat 0) (t.done.map s.ljJob.outSample)
        lj := { s.lj with
          cur := t.done.drop (s.lj.total - s.lj.rowLength), prev := t.done.drop (s.lj.total - s.lj.rowLength) } } false) := by
  obtain ⟨n, hn⟩ : ∃ n, s.lj.y.toNat = n + 1 := ⟨s.lj.y.toNat - 1, by omega⟩
  have hlast : s.lj.total - s.lj.rowLength = n * s.lj.rowLength := by
    rw [LjSession.total_eq, hn, Nat.succ_mul, Nat.add_sub_cancel]
  have hlen : t.done.length = n * s.lj.rowLength + s.lj.rowLength := by
    rw [LjJob.scan_length hscan, LjSession.total_eq, hn, Nat.succ_mul]
    exact Nat.zero_add _
  have hprev : rowAbove s.lj.rowLength s.lj.prev (n + 1) t.done = t.done.drop (n * s.lj.rowLength) :=
    List.take_of_length_le (by rw [List.length_drop, hlen, Nat.add_sub_cancel_left])
  have hend : t.beforeRow s.ljJob s.lj.prev s.outMem (n + 1) =
      { r := t.r, cur := t.done.drop (n * s.lj.rowLength), prev := t.done.drop (n * s.lj.rowLength)
        out := s.outMem.setSamples (s.argNat 0) (t.done.map s.ljJob.outSample) } :=
    congrArg (fun prev => LjRun.mk t.r (t.done.drop (n * s.lj.rowLength)) prev _) hprev
  rw [exec, execLjDecode, hchecks, State.checked_ok, State.ljImage_eq hy, hscan, hlast, hn, Except.map, hend]

end

/-- Settles O51: the stream's residuals are decoded one by one; behind fewer than the image has, what the bits begin with is
the fault. -/
theorem ljImageDecode : Obligations.LjImageDecode := by
  intro s slots n hset hht hbr hok hs h8
  obtain ⟨-, hy, -⟩ := hok.1 hset
  have htotal : s.lj.total = n := rfl
  have hchecks := State.ljDecodeChecks_eq hset hht hbr
  rw [htotal] at hchecks
  obtain ⟨hj, rfl⟩ := State.ljJob_tableOk hs hok hht
  refine ⟨fun hover => ?_, ?_⟩
  · rw [exec, execLjDecode, hchecks, if_pos hover]
    rfl
  intro ds codes rest vs ending hfit hc hbits hlin
  rw [if_neg (Nat.not_lt_of_le hfit)] at hchecks
  obtain ⟨r, ha, hscan⟩ : ∃ r, s.br.After s.inMem codes.flatten.length r ∧
      ∀ k, s.ljJob.scan (ds.length + k) ⟨s.br, []⟩ = s.ljJob.scan k ⟨r, vs⟩ :=
    LjJob.scan_codes (t := ⟨s.br, []⟩) hj h8 hc hbits fun v hv hoff => Nat.not_le_of_lt (hlin hoff.1 v hv) hoff.2
  refine ⟨fun hlen => ⟨r, ha, ?_⟩, fun hlen => ?_⟩
  · rw [← s.map_outSample]
    exact exec_ljDecode_of_scan_ok hchecks hy (hlen ▸ hscan 0)
  obtain ⟨left, hleft⟩ : ∃ left, n = ds.length + (left + 1) := ⟨n - ds.length - 1, by omega⟩
  have hfault : ∀ f, s.ljJob.next ⟨r, vs⟩ = .error f → faultsWith .ljDecode s f.1 f.2 := fun f hf => by
    refine faultsWith_of_scan_error hchecks hy ?_
    rw [htotal, hleft, hscan, LjJob.scan, hf]
    rfl
  have hdiff : ∀ f, ljDiff s.inMem s.ljJob.slots s.lj.spec.maxBits r = .error f → faultsWith .ljDecode s f.1 f.2 := fun f hf =>
    hfault f (LjJob.next_error (hj.maxBits ▸ hf))
  have hrest : r.bits s.inMem = rest := by rw [ha.bits, hbits, List.drop_left]
  have hmax : s.lj.maxBits.toNat = s.lj.spec.maxBits := hj.maxBits
  rw [hmax, ← hrest]
  refine ⟨fun q hq hpre h16 => hdiff _ (ljDiff_badSymbol hs ha.cnt hq hpre h16), fun hno hlong => ?_, fun hends => ?_, ?_⟩
  · have herr := ljDiff_noCode hs ha.cnt hno
    rw [if_neg (Nat.not_lt_of_le hlong)] at herr
    exact hdiff _ herr
  · have herr := ljDiff_ends hs ha.cnt hends
    rw [ha.segmentEnd] at herr
    have hending := hdiff (segmentFault ending) herr
    exact ⟨fun pos second hmarker => by rw [hmarker] at hending; exact hending,
      fun addr hruns => by rw [hruns] at hending; exact hending⟩
  · intro d code hd hpre v hon hoff
    obtain ⟨r', -, hnext⟩ := LjJob.next_code (t := ⟨r, vs⟩) hj ha.cnt hd hpre
    rw [if_pos ⟨hon, hoff⟩] at hnext
    exact hfault _ hnext

end Sys2Proof.Machine
end

section
/-! SUPPORT. The loads of an LJ92 session (45_lj92.md R252, R253, R261, R262): the checks of each command in their order, then its
effect; and the predictors (45_lj92.md R256). -/

namespace Sys2Proof.Machine

/-! ### LJ_SETUP -/

theorem require_bind {α : Type} (b : Bool) (r : Raise) (f : Unit → Except Raise α) :
    (require b r >>= f) = if b = false then .error r else f () := by
  cases b <;> rfl

/-- A check of a command that fails is the fault it raises; otherwise its other checks decide. -/
theorem State.checked_ite {α : Type} (s : State) (i : Instr) (c : Prop) [Decidable c] (r : Raise) (x : Except Raise α)
    (k : α → State) :
    s.checked i (if c then .error r else x) k = if c then s.takeFault (encode i) r.1 r.2 else s.checked i x k := by
  split <;> rfl

/-- The header fields as parts of the numbers A0 and A1 (45_lj92.md R252). -/
theorem State.ljHeader_eq (s : State) :
    s.ljHeader =
      { x := s.argNat 0 % 65536, y := s.argNat 0 / 65536, p := s.argNat 1 % 256, nf := s.argNat 1 / 256 % 256
        ns := s.argNat 1 / 65536 % 256, ss := s.argNat 1 / 16777216 % 16, pt := s.argNat 1 / 268435456 } := by
  have h0 := s.arg[(0 : Fin 4)].isLt
  have h1 := s.arg[(1 : Fin 4)].isLt
  simp only [State.ljHeader, State.argNat, BitVec.extractLsb'_toNat, Nat.shiftRight_eq_div_pow, Nat.reducePow, Nat.div_one]
  congr 1 <;> omega

/-- The checks of LJ_SETUP in their order (45_lj92.md R252). -/
theorem State.ljSetupChecks_eq (s : State) :
    s.ljSetupChecks =
      let h := s.ljHeader
      if h.x = 0 ∨ h.y = 0 then .error (.ljBadFormat, 1)
      else if h.p < 2 ∨ 16 < h.p then .error (.ljBadFormat, 2)
      else if h.nf < 1 ∨ 4 < h.nf then .error (.ljBadFormat, 3)
      else if h.ns ≠ h.nf then .error (.ljBadFormat, 4)
      else if 7 < h.ss then .error (.ljBadFormat, 5)
      else if h.ss = 0 then .error (.unsupported, 0x100)
      else if h.pt ≠ 0 then .error (.unsupported, 0x200 ||| BitVec.ofNat 32 h.pt)
      else if 31 < s.argNat 3 then .error (.badArg, s.arg[(3 : Fin 4)])
      else if h.x * h.y * h.nf ≠ s.argNat 2 then .error (.ljMismatch, 1)
      else if h.p ≠ s.argNat 3 then .error (.ljMismatch, 2)
      else .ok h := by
  simp only [State.ljSetupChecks, require_bind, Bool.and_eq_false_iff, decide_eq_false_iff_not, not_le, ne_eq, not_not, pure,
    Except.pure]

/-- A point transform beside the flag of its UNSUPPORTED info (45_lj92.md R252). -/
theorem or_ofNat_of_lt {n : Nat} (h : n < 16) : (0x200 ||| BitVec.ofNat 32 n : Word) = BitVec.ofNat 32 (0x200 + n) := by
  interval_cases n <;> rfl

/-- Settles O48: the checks of the parsed header in their order. -/
theorem ljSessionSetup : Obligations.LjSessionSetup := by
  intro s
  dsimp only
  have hpt : s.argNat 1 / 268435456 < 16 := Nat.div_lt_of_lt_mul s.arg[(1 : Fin 4)].isLt
  rw [exec, execLjSetup, s.ljSetupChecks_eq, s.ljHeader_eq]
  simp only [State.checked_ite, State.checked_ok, or_ofNat_of_lt hpt]
  rfl

/-! ### LJ_HT_LOAD and LJ_LIN_LOAD -/

theorem buildSlots_spec (p : HuffSpec) :
    (p.kraft ≤ 2 ^ 16 ∧ ∃ slots, buildSlots p = .ok slots) ∨ (2 ^ 16 < p.kraft ∧ buildSlots p = .error (.badTable, 4)) := by
  refine (buildTable_spec p).imp (And.imp_right fun ⟨t, ht⟩ => ⟨t.dec, (buildTable_ok_iff.1 ht).2.1⟩)
    (And.imp_right fun h => ?_)
  rw [buildTable] at h
  cases hs : buildSlots p with
  | error r =>
    rw [hs] at h
    exact congrArg Except.error (Except.error.inj h)
  | ok slots =>
    rw [hs] at h
    cases h

section
variable {s : State}

theorem exec_ljHtLoad_error {r : Raise} (h : s.loadSpec = .error r) :
    exec .ljHtLoad s = .next (s.takeFault 0x61000000 r.1 r.2) := by
  rw [exec, execLjHtLoad, State.ljHtLoadChecks, h]
  rfl

/-- LJ_HT_LOAD of a payload that is sound but for its codes (45_lj92.md R261). -/
theorem exec_ljHtLoad {p : HuffSpec} (h : s.loadSpec = .ok p) :
    exec .ljHtLoad s = .next (s.checked .ljHtLoad (buildSlots p) fun slots => State.finish
      { s with
        lj := { s.lj with spec := p, maxBits := BitVec.ofNat 5 p.maxBits, lut := buildLut slots p.maxBits }
        valid := s.valid ||| 0x2000, res0 := BitVec.ofNat 32 (16 + p.syms.length) } false) := by
  rw [exec, execLjHtLoad, State.ljHtLoadChecks, h]
  cases hs : buildSlots p with
  | error r => simp only [bind, Except.bind, hs, State.checked_error]
  | ok slots =>
    simp only [bind, Except.bind, hs, pure, Except.pure, State.checked_ok]
    rfl

end

/-- The `n` entries of a linearisation table at IN address `a` (45_lj92.md R262). -/
def linTable (m : Memory) (a n : Nat) : List Sample := (List.range n).map fun i => m.rd16le (a + 2 * i)

/-- The entries are little-endian (45_lj92.md R262). -/
theorem linTable_getElem?_toNat {m : Memory} {a n i : Nat} {v : Sample} (h : (linTable m a n)[i]? = some v) :
    v.toNat = (m.inByte (a + 2 * i)).toNat + 256 * (m.inByte (a + 2 * i + 1)).toNat := by
  simp only [linTable, List.getElem?_map, Option.map_eq_some_iff, List.getElem?_eq_some_iff, List.getElem_range] at h
  obtain ⟨_, ⟨_, rfl⟩, rfl⟩ := h
  rw [Memory.rd16le, toNat_append_eq, Nat.add_comm]
  rfl

/-- The checks of LJ_LIN_LOAD in their order (45_lj92.md R262). -/
theorem State.ljLinLoadChecks_eq (s : State) :
    s.ljLinLoadChecks =
      if 65536 < s.argNat 1 then .error (.badArg, s.arg[(1 : Fin 4)])
      else if s.argNat 1 ≠ 0 ∧ s.params.inSize < s.argNat 0 + 2 * s.argNat 1 then .error (.ioRead, s.inSizeInfo)
      else .ok (linTable s.inMem (s.argNat 0) (s.argNat 1)) := by
  simp only [State.ljLinLoadChecks, require_bind, Bool.or_eq_false_iff, decide_eq_false_iff_not, not_le, ne_eq, pure, Except.pure]
  rfl

/-- Settles O49: the checks of the two commands in their order; the lookup table by the code that each window begins with. -/
theorem ljTableLoads : Obligations.LjTableLoads := by
  intro s
  dsimp only
  have hload := s.loadSpec_eq
  have hlin := s.ljLinLoadChecks_eq
  generalize payloadAt s.inMem (s.argNat 0) = p at hload ⊢
  refine ⟨fun h1 => ?_, fun h1 h2 => ?_, fun h1 h2 h3 => ?_, fun h1 h2 h3 h4 => ?_, fun h1 h2 h3 h4 => ?_, fun h1 h2 h3 h4 => ?_,
    fun h1 => ?_, fun h1 => ?_, fun h1 h2 h3 => ?_, fun h1 h2 h3 => ?_⟩
  · rw [if_pos h1] at hload
    exact exec_ljHtLoad_error hload
  · rw [if_neg (by omega), if_pos h2] at hload
    exact exec_ljHtLoad_error hload
  · rw [if_neg (by omega), if_neg (by omega), if_pos h3] at hload
    exact exec_ljHtLoad_error hload
  · rw [if_neg (by omega), if_neg (by omega), if_neg (by omega), if_pos h4] at hload
    exact exec_ljHtLoad_error hload
  · rw [if_neg (by omega), if_neg (by omega), if_neg (by omega), if_neg (by omega)] at hload
    rcases buildSlots_spec p with ⟨hk, -⟩ | ⟨-, hs⟩
    · exact absurd h4 (Nat.not_lt_of_le hk)
    · rw [exec_ljHtLoad hload, hs]
      rfl
  · rw [if_neg (by omega), if_neg (by omega), if_neg (by omega), if_neg (by omega)] at hload
    rcases buildSlots_spec p with ⟨-, slots, hs⟩ | ⟨hk, -⟩
    · obtain ⟨-, hlast, hbehind⟩ := p.maxBits_spec
      refine ⟨slots, buildLut slots p.maxBits, p.maxBits, hs, hlast, hbehind, by simp [buildLut], fun w hw => ?_, ?_⟩
      · obtain ⟨hslot, hnone⟩ := lutEntry_spec hs hw
        rw [buildLut_getElem? slots hw]
        exact ⟨fun k hk hpre => congrArg some (hslot k hk hpre), fun hno => congrArg some (hnone hno)⟩
      · rw [exec_ljHtLoad hload, hs]
        rfl
    · exact absurd h4 (Nat.not_le_of_lt hk)
  · rw [if_pos h1] at hlin
    rw [exec, execLjLinLoad, hlin]
    rfl
  · rw [exec, execLjLinLoad, State.ljLinLoadChecks_of_zero h1, State.checked_ok, State.setValid,
      if_neg (by simpa using h1)]
    rfl
  · rw [if_neg (by omega), if_pos ⟨by omega, h3⟩] at hlin
    rw [exec, execLjLinLoad, hlin]
    rfl
  · rw [if_neg (by omega), if_neg (by omega)] at hlin
    refine ⟨linTable s.inMem (s.argNat 0) (s.argNat 1), by simp [linTable], fun i v hv => linTable_getElem?_toNat hv, ?_⟩
    rw [exec, execLjLinLoad, hlin, State.checked_ok, State.setValid, if_pos (decide_eq_true (by omega))]
    rfl

/-! ### The predictors -/

/-- The arithmetic shift is the floor of the half (00_scope.md R8). -/
theorem asr1_eq_floor (x : Int) : asr1 x = ⌊(x : ℚ) / 2⌋ := by
  rw [asr1]
  exact_mod_cast (Rat.floor_intCast_div_natCast x 2).symm

/-- Settles O52: the shift is a floor; selector 0 passes no check of LJ_SETUP. -/
theorem ljPredictors : Obligations.LjPredictors := by
  refine ⟨fun a b c => ⟨rfl, rfl, rfl, rfl, ?_, ?_, ?_⟩, by decide, by decide, by decide, by decide, fun s hss t ht => ?_⟩
  · rw [← asr1_eq_floor]
    rfl
  · rw [← asr1_eq_floor]
    rfl
  · rw [← asr1_eq_floor]
    rfl
  · obtain rfl := Host.Outcome.next.inj ht
    refine State.checked_finish s _ _ _ (fun u => u.fault = true) (fun r _ => rfl) fun h hh => ?_
    simp only [State.ljSetupChecks, require_bind_ok_iff] at hh
    obtain ⟨-, -, -, -, -, hne, -⟩ := hh
    rw [s.ljHeader_eq] at hne
    exact absurd hss (of_decide_eq_true hne)

end Sys2Proof.Machine
end

section
/-! SUPPORT. The bit-unpacking kernels (46_unpack.md): the byte formulas of a group are slices of the input's bit string, the four
commands, and the two paths of the 12-bit one. -/

namespace Sys2Proof.Machine

/-! ### Slices of a bit string -/

theorem testBit_bitsValue (l : List Bool) {i : Nat} (h : i < l.length) :
    (bitsValue l).testBit i = l[l.length - 1 - i] := by
  have hget : (numBits (bitsValue l) l.length)[l.length - 1 - i]? = l[l.length - 1 - i]? := by rw [numBits_bitsValue]
  rw [numBits, List.getElem?_map, List.getElem?_range (by omega), List.getElem?_eq_getElem (by omega)] at hget
  rw [← Option.some.inj hget]
  congr 1
  omega

/-- The slice `[j·w, (j+1)·w)`, first bit most significant (46_unpack.md R291), bit by bit. -/
theorem getLsbD_bitSample {l : List Bool} {w j i : Nat} (hw : w ≤ 16) (hl : (j + 1) * w ≤ l.length) :
    (bitSample l w j).getLsbD i = (decide (i < w) && l.getD (j * w + (w - 1 - i)) false) := by
  rw [Nat.succ_mul] at hl
  have hlen : ((l.drop (j * w)).take w).length = w := by
    rw [List.length_take, List.length_drop]
    omega
  rw [bitSample, BitVec.getLsbD_ofNat]
  by_cases hi : i < w
  · rw [testBit_bitsValue _ (by omega), List.getElem_take, List.getElem_drop, List.getD_eq_getElem _ _ (by omega),
      decide_eq_true (by omega : i < 16), decide_eq_true hi]
    simp only [hlen]
  · rw [decide_eq_false hi, Nat.testBit_lt_two_pow, Bool.and_false, Bool.false_and]
    calc _ < 2 ^ ((l.drop (j * w)).take w).length := bitsValue_lt _
      _ = 2 ^ w := by rw [hlen]
      _ ≤ 2 ^ i := Nat.pow_le_pow_right Nat.two_pos (by omega)

theorem length_flatMap_byteBits (bs : List Byte) : (bs.flatMap byteBits).length = 8 * bs.length := by
  simp [List.length_flatMap, Nat.mul_comm]

theorem getD_flatMap_byteBits {bs : List Byte} {q r : Nat} (hq : q < bs.length) (hr : r < 8) :
    (bs.flatMap byteBits).getD (8 * q + r) false = bs[q].getLsbD (7 - r) := by
  induction bs generalizing q with
  | nil => simp at hq
  | cons b bs ih =>
    rw [List.flatMap_cons]
    cases q with
    | zero =>
      rw [List.getD_append _ _ _ _ (by simpa using hr)]
      simp [byteBits, hr]
    | succ q =>
      rw [List.getD_append_right _ _ _ _ (by simp; omega), byteBits_length, show 8 * (q + 1) + r - 8 = 8 * q + r by omega]
      exact ih (by simpa using hq)

theorem bitSample_append_left {l : List Bool} (l' : List Bool) {w j : Nat} (h : (j + 1) * w ≤ l.length) :
    bitSample (l ++ l') w j = bitSample l w j := by
  rw [Nat.succ_mul] at h
  rw [bitSample, bitSample, List.drop_append_of_le_length (by omega),
    List.take_append_of_le_length (by rw [List.length_drop]; omega)]

theorem bitSample_append_right {l : List Bool} (l' : List Bool) {w k : Nat} (h : l.length = k * w) (j : Nat) :
    bitSample (l ++ l') w (k + j) = bitSample l' w j := by
  rw [bitSample, bitSample, Nat.add_mul, ← h, List.drop_append, List.drop_eq_nil_of_le (by omega),
    List.nil_append, Nat.add_sub_cancel_left]

/-! ### Packed samples, group by group -/

/-- Bit `i` of sample `j` is the bit of IN at the place that R291 gives it. -/
theorem getLsbD_packedSample (m : Memory) (a : Nat) {bytes w j i : Nat} (hw : w ≤ 16) (hj : (j + 1) * w ≤ 8 * bytes) :
    (bitSample ((m.readList a bytes).flatMap byteBits) w j).getLsbD i =
      (decide (i < w) &&
        (m.inByte (a + (j * w + (w - 1 - i)) / 8)).getLsbD (7 - (j * w + (w - 1 - i)) % 8)) := by
  rw [getLsbD_bitSample hw (by rwa [length_flatMap_byteBits, m.readList_length])]
  rw [Nat.succ_mul] at hj
  by_cases hi : i < w
  · conv_lhs => rw [← Nat.div_add_mod (j * w + (w - 1 - i)) 8]
    rw [getD_flatMap_byteBits (by rw [m.readList_length]; omega) (Nat.mod_lt _ (by omega))]
    simp [Memory.readList]
  · simp [hi]

/-- Samples that fill whole bytes, then the samples of the bytes behind them. -/
theorem packedSamples_add (m : Memory) (a : Nat) {bytes w k : Nat} (h : 8 * bytes = k * w) (bytes' k' : Nat) :
    packedSamples m a (bytes + bytes') w (k + k') =
      packedSamples m a bytes w k ++ packedSamples m (a + bytes) bytes' w k' := by
  have hlen : ((m.readList a bytes).flatMap byteBits).length = k * w := by
    rw [length_flatMap_byteBits, m.readList_length, h]
  rw [packedSamples, m.readList_add, List.flatMap_append, List.range_add, List.map_append, List.map_map]
  congr 1
  · refine List.map_congr_left fun j hj => bitSample_append_left _ ?_
    exact (Nat.mul_le_mul_right w (List.mem_range.1 hj)).trans_eq hlen.symm
  · exact List.map_congr_left fun j _ => bitSample_append_right _ hlen j

/-- A width whose group formula is the slicing of the group's own bits slices the whole input (46_unpack.md R291). -/
theorem unpackSamples_eq_packedSamples {g k w : Nat} {group : (Nat → Byte) → List Sample} (h : 8 * g = k * w)
    (hgroup : ∀ m a, (group fun j => m.inByte (a + j)) = packedSamples m a g w k) (m : Memory) (a n : Nat) :
    unpackSamples m a g n group = packedSamples m a (g * n) w (k * n) := by
  induction n with
  | zero => rfl
  | succ n ih =>
    have hn : 8 * (g * n) = k * n * w := by rw [← Nat.mul_assoc, h, Nat.mul_right_comm]
    rw [Nat.mul_succ, Nat.mul_succ, packedSamples_add m a hn, ← ih, ← hgroup]
    simp [unpackSamples, List.range_succ]

/-- A value whose bits are those that R291 gives sample `j` is that sample. -/
theorem eq_packedSample {m : Memory} {a bytes w j : Nat} {v : Sample} (hw : w ≤ 16) (hj : (j + 1) * w ≤ 8 * bytes)
    (h : ∀ i < 16, v.getLsbD i = (decide (i < w) &&
      (m.inByte (a + (j * w + (w - 1 - i)) / 8)).getLsbD (7 - (j * w + (w - 1 - i)) % 8))) :
    v = bitSample ((m.readList a bytes).flatMap byteBits) w j :=
  BitVec.eq_of_getLsbD_eq fun i hi => by rw [h i hi, getLsbD_packedSample m a hw hj]

/-- The byte formulas of 46_unpack.md R294 are R291 on one group. -/
theorem group10_eq_packedSamples (m : Memory) (a : Nat) :
    (group10 fun j => m.inByte (a + j)) = packedSamples m a 5 10 4 := by
  simp only [group10, packedSamples, List.range, List.range.loop, List.map_cons, List.map_nil, List.cons.injEq, and_true]
  refine ⟨?_, ?_, ?_, ?_⟩ <;>
  · refine eq_packedSample (by omega) (by omega) fun i hi => ?_
    interval_cases i <;> simp [wide]

/-- The byte formulas of 46_unpack.md R292 are R291 on one group. -/
theorem group12_eq_packedSamples (m : Memory) (a : Nat) :
    (group12 fun j => m.inByte (a + j)) = packedSamples m a 3 12 2 := by
  simp only [group12, packedSamples, List.range, List.range.loop, List.map_cons, List.map_nil, List.cons.injEq, and_true]
  refine ⟨?_, ?_⟩ <;>
  · refine eq_packedSample (by omega) (by omega) fun i hi => ?_
    interval_cases i <;> simp [wide]

/-- The byte formulas of 46_unpack.md R293 are R291 on one group. -/
theorem group14_eq_packedSamples (m : Memory) (a : Nat) :
    (group14 fun j => m.inByte (a + j)) = packedSamples m a 7 14 4 := by
  simp only [group14, packedSamples, List.range, List.range.loop, List.map_cons, List.map_nil, List.cons.injEq, and_true]
  refine ⟨?_, ?_, ?_, ?_⟩ <;>
  · refine eq_packedSample (by omega) (by omega) fun i hi => ?_
    interval_cases i <;> simp [wide]

theorem unpackSamples_group10 (m : Memory) (a n : Nat) :
    unpackSamples m a 5 n group10 = packedSamples m a (5 * n) 10 (4 * n) :=
  unpackSamples_eq_packedSamples (by decide) group10_eq_packedSamples m a n

theorem unpackSamples_group12 (m : Memory) (a n : Nat) :
    unpackSamples m a 3 n group12 = packedSamples m a (3 * n) 12 (2 * n) :=
  unpackSamples_eq_packedSamples (by decide) group12_eq_packedSamples m a n

theorem unpackSamples_group14 (m : Memory) (a n : Nat) :
    unpackSamples m a 7 n group14 = packedSamples m a (7 * n) 14 (4 * n) :=
  unpackSamples_eq_packedSamples (by decide) group14_eq_packedSamples m a n

/-- Settles O53: the byte formulas slice one group, and whole groups follow each other in the bit string. -/
theorem unpackIsBitSlicing : Obligations.UnpackIsBitSlicing := fun m a n =>
  ⟨unpackSamples_group10 m a n, unpackSamples_group12 m a n, unpackSamples_group14 m a n⟩

/-! ### The commands -/

/-- The checks in their order (46_unpack.md R296). -/
theorem State.unpackChecks_eq (s : State) (g k pre : Nat) :
    s.unpackChecks g k pre =
      if s.argNat 1 % g ≠ 0 then .error (.badArg, s.arg[(1 : Fin 4)])
      else if s.argNat 0 < pre then .error (.ioRead, s.arg[(0 : Fin 4)])
      else if s.params.inSize < s.argNat 0 + s.argNat 1 then .error (.ioRead, s.inSizeInfo)
      else if s.params.outSize < s.argNat 2 + 2 * (s.argNat 1 / g * k) then .error (.ioWrite, s.outSizeInfo)
      else .ok (s.argNat 1 / g) := by
  simp only [State.unpackChecks, require_bind, decide_eq_false_iff_not, not_le, pure, Except.pure]

theorem le16_eq (v : Sample) : le16 v = [BitVec.ofNat 8 (v.toNat % 256), BitVec.ofNat 8 (v.toNat / 256)] := by
  have hlow : v.extractLsb' 0 8 = BitVec.ofNat 8 (v.toNat % 256) :=
    BitVec.eq_of_toNat_eq (by simp [BitVec.extractLsb'_toNat])
  have hhigh : v.extractLsb' 8 8 = BitVec.ofNat 8 (v.toNat / 256) :=
    BitVec.eq_of_toNat_eq (by simp [BitVec.extractLsb'_toNat, Nat.shiftRight_eq_div_pow])
  rw [le16, hlow, hhigh]

/-- What an unpack command leaves when its checks pass (46_unpack.md R295, R297). -/
def State.unpacked (s : State) (g k w : Nat) : State :=
  State.finish { s with
    outMem := s.outMem.setList (s.argNat 2)
      ((packedSamples s.inMem (s.argNat 0) (s.argNat 1) w (s.argNat 1 / g * k)).flatMap fun v =>
        [BitVec.ofNat 8 (v.toNat % 256), BitVec.ofNat 8 (v.toNat / 256)])
    res0 := BitVec.ofNat 32 (s.argNat 1 / g * k) } false

/-- Whole groups hold the samples of all the input's bytes. -/
theorem State.unpackWith_eq_unpacked {s : State} {g k w : Nat} {group : (Nat → Byte) → List Sample}
    (hslice : ∀ m a n, unpackSamples m a g n group = packedSamples m a (g * n) w (k * n)) (hg : s.argNat 1 % g = 0) :
    s.unpackWith g k (s.argNat 1 / g) group = s.unpacked g k w := by
  rw [State.unpackWith, State.unpacked, hslice, Nat.mul_div_cancel' (Nat.dvd_of_mod_eq_zero hg), Nat.mul_comm k,
    Memory.setSamples, funext le16_eq]

/-- A command of the unit, of any width, with its checks in their order and its effect (46_unpack.md R296, R297). -/
theorem State.checked_unpack (s : State) (i : Instr) {g k w : Nat} (pre : Nat) {group : (Nat → Byte) → List Sample}
    (hslice : ∀ m a n, unpackSamples m a g n group = packedSamples m a (g * n) w (k * n)) :
    (s.checked i (s.unpackChecks g k pre) fun n => s.unpackWith g k n group) =
      if s.argNat 1 % g ≠ 0 then s.takeFault (encode i) .badArg s.arg[(1 : Fin 4)]
      else if s.argNat 0 < pre then s.takeFault (encode i) .ioRead s.arg[(0 : Fin 4)]
      else if s.params.inSize < s.argNat 0 + s.argNat 1 then s.takeFault (encode i) .ioRead s.inSizeInfo
      else if s.params.outSize < s.argNat 2 + 2 * (s.argNat 1 / g * k) then
        s.takeFault (encode i) .ioWrite s.outSizeInfo
      else s.unpacked g k w := by
  simp only [s.unpackChecks_eq, State.checked_ite, State.checked_ok]
  by_cases hg : s.argNat 1 % g = 0
  · rw [State.unpackWith_eq_unpacked hslice hg]
  · rw [if_pos hg, if_pos hg]

/-- Settles O54: each command is its checks and its effect, for its own width. -/
theorem unpackCommands : Obligations.UnpackCommands := by
  intro s i g k w pre h
  simp only [List.mem_cons, Prod.mk.injEq, List.not_mem_nil, or_false] at h
  obtain ⟨rfl, rfl, rfl, rfl, rfl⟩ | ⟨rfl, rfl, rfl, rfl, rfl⟩ | ⟨rfl, rfl, rfl, rfl, rfl⟩ | ⟨rfl, rfl, rfl, rfl, rfl⟩ := h
  · exact congrArg Host.Outcome.next (s.checked_unpack .unpack10 0 unpackSamples_group10)
  · exact congrArg Host.Outcome.next (s.checked_unpack .unpack12 0 unpackSamples_group12)
  · exact congrArg Host.Outcome.next (s.checked_unpack .unpack14 0 unpackSamples_group14)
  · exact congrArg Host.Outcome.next (s.checked_unpack .unpack12v 4 unpackSamples_group12)

/-! ### The two 12-bit paths -/

/-- A pre-read check that passes, or that a partial group hides, does not show. -/
theorem State.unpackChecks_pre {s : State} {g k pre : Nat} (h : pre ≤ s.argNat 0 ∨ s.argNat 1 % g ≠ 0) :
    s.unpackChecks g k pre = s.unpackChecks g k 0 := by
  rw [s.unpackChecks_eq, s.unpackChecks_eq]
  rcases h with hpre | hpartial
  · rw [if_neg (Nat.not_lt.2 hpre), if_neg (Nat.not_lt_zero _)]
  · rw [if_pos hpartial, if_pos hpartial]

/-- Settles O55: the two commands differ in the pre-read check and in the command word that a fault records. -/
theorem wideUnpackEqualsScalar : Obligations.WideUnpackEqualsScalar := by
  intro s t u ht hu
  obtain rfl := Host.Outcome.next.inj ht
  obtain rfl := Host.Outcome.next.inj hu
  refine ⟨fun h => ?_, fun hpre hg => ?_⟩
  · rw [s.unpackChecks_pre h]
    cases s.unpackChecks 3 2 0 <;> exact ⟨rfl, rfl, rfl, rfl, rfl, rfl⟩
  · rw [s.unpackChecks_eq, if_neg (not_not.2 hg), if_pos hpre]
    rfl

end Sys2Proof.Machine
end

section
/-! SUPPORT. The causes that a check or a computation can raise (60_exceptions.md R311): one list for each function that answers a
value or a fault, put together where one follows another. -/

namespace Sys2Proof.Machine

/-! ### Lists of causes -/

/-- Every fault that `x` raises has a cause of the list. -/
def Raises {α : Type} (cs : List Cause) (x : Except Raise α) : Prop := ∀ r, x = .error r → r.1 ∈ cs

theorem Raises.pure {α : Type} (a : α) : Raises [] (Pure.pure a) := nofun

theorem Raises.error {α : Type} (r : Raise) : Raises [r.1] (.error r : Except Raise α) := by
  rintro _ ⟨⟩
  exact List.mem_singleton_self _

theorem Raises.mono {α : Type} {cs cs' : List Cause} {x : Except Raise α} (hx : Raises cs x) (h : cs ⊆ cs') : Raises cs' x :=
  fun r hr => h (hx r hr)

/-- A fault that is passed on. -/
theorem Raises.of_error {α β : Type} {cs : List Cause} {x : Except Raise α} {r : Raise} (hx : Raises cs x) (h : x = .error r) :
    Raises cs (.error r : Except Raise β) := by
  rintro _ ⟨⟩
  exact hx r h

/-- One check after another raises the causes of both. -/
theorem Raises.bind {α β : Type} {cs cs' : List Cause} {x : Except Raise α} {f : α → Except Raise β} (hx : Raises cs x)
    (hf : ∀ a, Raises cs' (f a)) : Raises (cs ++ cs') (x >>= f) := by
  intro r hr
  rcases (bind_error_iff x f r).1 hr with hr | ⟨a, -, hr⟩
  · exact List.mem_append_left _ (hx r hr)
  · exact List.mem_append_right _ (hf a r hr)

/-! ### Fields, VALID bits and operands -/

theorem require_raises (b : Bool) (r : Raise) : Raises [r.1] (require b r) := by
  intro e he
  rw [← ((require_error_iff b r e).1 he).2]
  exact List.mem_singleton_self _

theorem indexField_raises (f : Byte) : Raises [.badArg] (indexField f) := by
  intro r hr
  rw [((indexField_error_iff f r).1 hr).2]
  exact List.mem_singleton_self _

theorem classField_raises (f : Byte) : Raises [.badArg] (classField f) := by
  intro r hr
  rw [((classField_error_iff f r).1 hr).2]
  exact List.mem_singleton_self _

theorem countField_raises (max : Nat) (f : Byte) : Raises [.badArg] (countField max f) := by
  intro r hr
  rw [((countField_error_iff max f r).1 hr).2]
  exact List.mem_singleton_self _

theorem precisionField_raises (f : Byte) : Raises [.badArg] (precisionField f) := by
  unfold precisionField
  split_ifs
  · nofun
  · nofun
  · exact .error _

theorem State.precision_raises (s : State) : Raises [.badArg] s.precision := by
  unfold State.precision
  split_ifs
  · nofun
  · exact .error _

theorem tableFields_raises (tc th : Byte) : Raises [.badArg] (tableFields tc th) :=
  ((classField_raises tc).bind fun _ => (indexField_raises th).bind fun _ => .pure _).mono (by simp)

theorem blockFields_raises (c td ta : Byte) : Raises [.badArg] (blockFields c td ta) :=
  ((indexField_raises c).bind fun _ => (indexField_raises td).bind fun _ => (indexField_raises ta).bind fun _ =>
    .pure _).mono (by simp)

theorem State.needs_raises (s : State) (bit : Nat) : Raises [.notReady] (s.needs bit) := require_raises _ _

theorem State.windowArgs_raises (s : State) (size : Nat) : Raises [.badArg] (s.windowArgs size) := require_raises _ _

theorem State.restartMarker_raises (s : State) : Raises [.ioRead, .badMarker] s.restartMarker :=
  ((require_raises _ _).bind fun _ => (require_raises _ _).bind fun _ => require_raises _ _).mono (by simp)

/-! ### Tables and models -/

theorem State.loadSpec_raises (s : State) : Raises [.ioRead, .badTable] s.loadSpec :=
  ((require_raises _ _).bind fun _ => (require_raises _ _).bind fun _ => (require_raises _ _).bind fun _ =>
    (require_raises _ _).bind fun _ => .pure _).mono (by simp)

theorem assignCodes_raises (code si : Nat) (sizes : List Nat) : Raises [.badTable] (assignCodes code si sizes) := by
  induction sizes generalizing code si with
  | nil => nofun
  | cons z zs ih =>
    unfold assignCodes
    dsimp only
    split
    · exact .error _
    · split
      · nofun
      next hr => exact (ih _ _).of_error hr

theorem buildSlots_raises (p : HuffSpec) : Raises [.badTable] (buildSlots p) := by
  unfold buildSlots
  split
  · nofun
  next hr => exact (assignCodes_raises _ _ _).of_error hr

theorem buildTable_raises (p : HuffSpec) : Raises [.badTable] (buildTable p) := by
  unfold buildTable
  split
  · nofun
  next hr => exact (buildSlots_raises _).of_error hr

theorem countSymbol_raises (f : FreqModel) (sym : Byte) : Raises [.adaptOverflow] (countSymbol f sym) := by
  unfold countSymbol
  dsimp only
  split_ifs
  · exact .error _
  · nofun

theorem countItems_raises (items : List Item) (d a : FreqModel) : Raises [.adaptOverflow] (countItems items d a) := by
  induction items generalizing d a with
  | nil => nofun
  | cons it items ih =>
    unfold countItems
    split <;> split
    · exact ih _ _
    next hr => exact (countSymbol_raises _ _).of_error hr
    · exact ih _ _
    next hr => exact (countSymbol_raises _ _).of_error hr

theorem State.quantTable_raises (s : State) (tq : Byte) : Raises [.badArg, .notReady] (s.quantTable tq) :=
  (indexField_raises tq).bind fun _ => (s.needs_raises _).bind fun _ => .pure _

theorem State.quantChecks_raises (s : State) (tq : Byte) : Raises [.badArg, .notReady, .coefRange] (s.quantChecks tq) := by
  refine (s.quantTable_raises tq).bind fun t => ?_
  dsimp only
  split
  · exact .error _
  · nofun

/-! ### Blocks -/

theorem acItems_raises (run : Nat) (vs : List Int) : Raises [.coefRange] (acItems run vs) := by
  induction vs generalizing run with
  | nil => nofun
  | cons v vs ih =>
    unfold acItems
    split_ifs
    · nofun
    · exact ih _
    · exact .error _
    · split
      · nofun
      next hr => exact (ih _).of_error hr

theorem blockItems_raises (b : Vector Word 64) (p : Int) : Raises [.coefRange] (blockItems b p) := by
  unfold blockItems
  dsimp only
  split_ifs
  · exact .error _
  · split
    · nofun
    next hr => exact (acItems_raises _ _).of_error hr

theorem haveCodes_raises (de ae : Vector EncEntry 256) (items : List Item) : Raises [.noCode] (haveCodes de ae items) := by
  induction items with
  | nil => nofun
  | cons it items ih => exact ((require_raises _ _).bind fun _ => ih).mono (by simp)

theorem State.blkReadChecks_raises (s : State) (c td ta : Byte) : Raises [.badArg, .notReady] (s.blkReadChecks c td ta) :=
  ((blockFields_raises c td ta).bind fun _ => (s.needs_raises _).bind fun _ => (s.needs_raises _).bind fun _ =>
    (s.needs_raises _).bind fun _ => .pure _).mono (by simp)

/-! ### Samples -/

theorem State.ljSetupChecks_raises (s : State) : Raises [.ljBadFormat, .unsupported, .badArg, .ljMismatch] s.ljSetupChecks :=
  ((require_raises _ _).bind fun _ => (require_raises _ _).bind fun _ => (require_raises _ _).bind fun _ =>
    (require_raises _ _).bind fun _ => (require_raises _ _).bind fun _ => (require_raises _ _).bind fun _ =>
    (require_raises _ _).bind fun _ => (require_raises _ _).bind fun _ => (require_raises _ _).bind fun _ =>
    (require_raises _ _).bind fun _ => .pure _).mono (by simp)

theorem State.unpackChecks_raises (s : State) (g k pre : Nat) : Raises [.badArg, .ioRead, .ioWrite] (s.unpackChecks g k pre) :=
  ((require_raises _ _).bind fun _ => (require_raises _ _).bind fun _ => (require_raises _ _).bind fun _ =>
    (require_raises _ _).bind fun _ => .pure _).mono (by simp)

end Sys2Proof.Machine
end

section
/-! SUPPORT. What reading and writing functions can do from any state of the unit, sound or not: BR_END and BW_END stay, a segment ends
with no bit left (60_exceptions.md R313), bytes are written inside the window, and a fault has a cause of the function's list. -/

namespace Sys2Proof.Machine

/-! ### Reading bits -/

/-- An answer of a reading function: the reader keeps BR_END `lim`, NoMoreData stands at a marker with no bit left, and a fault has a
cause of the list. -/
def Bits.Answers {α : Type} (lim : Word) (cs : List Cause) (x : Bits α) : Prop :=
  match x with
  | .got _ r => r.lim = lim
  | .noMore r => r.lim = lim ∧ r.eos = true ∧ r.cnt = 0
  | .fail f => f.1 ∈ cs

section
variable {α β : Type} {lim : Word} {cs cs' : List Cause} {x : Bits α}

theorem Bits.Answers.mono (hx : x.Answers lim cs) (h : cs ⊆ cs') : x.Answers lim cs' := by
  cases x with
  | got v r => exact hx
  | noMore r => exact hx
  | fail f => exact h hx

theorem Bits.Answers.andThen {k : α → Reader → Bits β} (hx : x.Answers lim cs)
    (hk : ∀ v r, r.lim = lim → (k v r).Answers lim cs) : (x.andThen k).Answers lim cs := by
  cases x with
  | got v r => exact hk v r hx
  | noMore r => exact hx
  | fail f => exact hx

end

section
variable {lim : Word} {r : Reader} (m : Memory) (hr : r.lim = lim)
include hr

theorem refill_answers (h0 : r.cnt = 0) : (refill m r).Answers lim [.ioRead] := by
  unfold refill
  dsimp only
  split_ifs with he
  · exact ⟨hr, he, h0⟩
  · exact List.mem_singleton_self _
  · exact List.mem_singleton_self _
  · exact hr
  · exact ⟨hr, rfl, h0⟩
  · exact hr

theorem nextBit_answers : (nextBit m r).Answers lim [.ioRead] := by
  unfold nextBit
  split_ifs with h0
  · exact (refill_answers m hr h0).andThen fun _ _ h => h
  · exact hr

theorem getBitsFrom_answers (n v : Nat) : (getBitsFrom m n v r).Answers lim [.ioRead] := by
  induction n generalizing v r with
  | zero => exact hr
  | succ n ih => exact (nextBit_answers m hr).andThen fun _ _ h => ih h _

theorem getBits_answers (n : Nat) : (getBits m n r).Answers lim [.ioRead] := getBitsFrom_answers m hr n 0

theorem readCodeFrom_answers (slots : List Slot) (left len code : Nat) :
    (readCodeFrom m slots left len code r).Answers lim [.ioRead, .codeNotFound] := by
  induction left generalizing len code r with
  | zero => exact List.mem_cons_of_mem _ (List.mem_singleton_self _)
  | succ left ih =>
    refine ((nextBit_answers m hr).mono (by simp)).andThen fun _ r' h => ?_
    dsimp only
    split
    · exact h
    · exact ih h _ _

theorem readCode_answers (slots : List Slot) (maxLen : Nat) :
    (readCode m slots maxLen r).Answers lim [.ioRead, .codeNotFound] := readCodeFrom_answers m hr slots maxLen 0 0

end

/-! ### Blocks -/

/-- The causes of a block read (43_coefficient.md R197). -/
def blockCauses : List Cause := [.ioRead, .codeNotFound, .badSymbol, .coefRange]

/-- An answer of a block read: as for bits, where a block that SEG_END cuts short stands at the marker too. -/
def BlockRead.Answers (lim : Word) (x : BlockRead) : Prop :=
  match x with
  | .boundary r => r.lim = lim ∧ r.eos = true ∧ r.cnt = 0
  | .block _ _ _ segEnd r => r.lim = lim ∧ (segEnd = true → r.eos = true ∧ r.cnt = 0)
  | .fail f => f.1 ∈ blockCauses

theorem badSymbol_mem_blockCauses (sym : Byte) : (badSymbol sym).1 ∈ blockCauses := by simp [badSymbol, blockCauses]

section
variable {lim : Word} {r : Reader} (m : Memory) (hr : r.lim = lim)
include hr

theorem acLoop_answers (slots : List Slot) (dc : Word) (fuel k : Nat) (blk : Vector Word 64) :
    (acLoop m slots dc fuel k blk r).Answers lim := by
  induction fuel generalizing k blk r with
  | zero => exact ⟨hr, nofun⟩
  | succ fuel ih =>
    unfold acLoop
    split
    · exact ⟨hr, nofun⟩
    have hc := (readCode_answers m hr slots 16).mono (cs' := blockCauses) (by simp [blockCauses])
    split <;> rename_i hx <;> rw [hx] at hc
    · exact hc
    · exact ⟨hc.1, fun _ => hc.2⟩
    next rs r' =>
      dsimp only
      split_ifs
      · exact ⟨hc, nofun⟩
      · exact badSymbol_mem_blockCauses rs
      · exact ih hc _ _
      · exact badSymbol_mem_blockCauses rs
      · have hb := (getBits_answers m hc (rs.toNat % 16)).mono (cs' := blockCauses) (by simp [blockCauses])
        split <;> rename_i hy <;> rw [hy] at hb
        · exact hb
        · exact ⟨hb.1, fun _ => hb.2⟩
        · exact ih hb _ _
      · exact badSymbol_mem_blockCauses rs

theorem decodeBlock_answers (dcSlots acSlots : List Slot) (pred : Int) :
    (decodeBlock m dcSlots acSlots pred r).Answers lim := by
  unfold decodeBlock
  have hc := (readCode_answers m hr dcSlots 16).mono (cs' := blockCauses) (by simp [blockCauses])
  split <;> rename_i hx <;> rw [hx] at hc
  · exact hc
  · exact hc
  next t r' =>
    split_ifs
    · exact badSymbol_mem_blockCauses t
    have hb := (getBits_answers m hc t.toNat).mono (cs' := blockCauses) (by simp [blockCauses])
    split <;> rename_i hy <;> rw [hy] at hb
    · exact hb
    · exact hb
    · dsimp only
      split_ifs
      · simp [BlockRead.Answers, blockCauses]
      · exact acLoop_answers m hb _ _ _ _ _

end

theorem State.readBlock_answers (s : State) (f : Fin 4 × Fin 4 × Fin 4) : (s.readBlock f).Answers s.br.lim :=
  decodeBlock_answers _ rfl _ _ _

/-! ### The LJ92 image -/

/-- The causes of LJ_DECODE once it decodes (45_lj92.md R254, R255, R260). -/
def ljCauses : List Cause := [.ioRead, .codeNotFound, .truncated, .badSymbol, .linRange]

theorem ljRead_raises {α : Type} {lim : Word} {cs : List Cause} {x : Bits α} (hx : x.Answers lim cs) :
    Raises (.truncated :: cs) (ljRead x) := by
  cases x with
  | got v r => nofun
  | noMore r => exact (Raises.error (truncatedAt r)).mono (by simp [truncatedAt])
  | fail f => exact (Raises.error f).mono (by simpa using .inr hx)

theorem ljDiff_raises (m : Memory) (slots : List Slot) (maxBits : Nat) (r : Reader) :
    Raises ljCauses (ljDiff m slots maxBits r) := by
  unfold ljDiff
  split
  next hs =>
    have hsymbol := ljRead_raises (readCode_answers m (rfl : r.lim = _) slots maxBits)
    exact (hsymbol.of_error hs).mono (by simp [ljCauses])
  next t r' hs =>
    split_ifs
    · nofun
    · split
      next hg =>
        have hbits := ljRead_raises (getBits_answers m (rfl : r'.lim = _) t.toNat)
        exact (hbits.of_error hg).mono (by simp [ljCauses])
      · nofun
    · nofun
    · exact (Raises.error _).mono (by simp [badSymbol, ljCauses])

theorem linearise_raises (lj : LjSession) (linEn : Bool) (v : Sample) : Raises [.linRange] (linearise lj linEn v) := by
  unfold linearise
  split_ifs
  · split
    · nofun
    · exact .error _
  · nofun

theorem ljSample_raises (j : LjJob) (row p : Nat) (t : LjRun) : Raises ljCauses (ljSample j row p t) := by
  unfold ljSample
  split
  next hd => exact (ljDiff_raises _ _ _ _).of_error hd
  · dsimp only
    split
    next hl => exact ((linearise_raises _ _ _).of_error hl).mono (by simp [ljCauses])
    · nofun

theorem ljRow_raises (j : LjJob) (row n p : Nat) (t : LjRun) : Raises ljCauses (ljRow j row n p t) := by
  induction n generalizing p t with
  | zero => nofun
  | succ n ih =>
    unfold ljRow
    split
    next hs => exact (ljSample_raises _ _ _ _).of_error hs
    · exact ih _ _

theorem ljRows_raises (j : LjJob) (n row : Nat) (t : LjRun) : Raises ljCauses (ljRows j n row t) := by
  induction n generalizing row t with
  | zero => nofun
  | succ n ih =>
    unfold ljRows
    split
    next hs => exact (ljRow_raises _ _ _ _ _).of_error hs
    · exact ih _ _

/-! ### Writing bits -/

/-- `k'` is `k` after bytes are written at its cursor: BW_END is as before, the cursor has not gone back, and OUT outside
[BW_POS, BW_END) is as before. -/
structure Sink.Grows (k k' : Sink) : Prop where
  lim : k'.w.lim = k.w.lim
  pos : k.w.pos.toNat ≤ k'.w.pos.toNat
  out : sameOutside k.out k'.out k.w.pos.toNat k.w.lim.toNat

theorem Sink.Grows.refl (k : Sink) : k.Grows k := ⟨rfl, Nat.le_refl _, .refl _ _ _⟩

theorem Sink.Grows.trans {k k' k'' : Sink} (h : k.Grows k') (h' : k'.Grows k'') : k.Grows k'' :=
  ⟨h'.lim.trans h.lim, h.pos.trans h'.pos, h.out.trans (h'.out.mono h.pos (by rw [h.lim]))⟩

/-- An answer of a writing function: the writer after bytes written in its window, or IO_WRITE. -/
def Sink.Writes (k : Sink) (x : Except Raise Sink) : Prop :=
  match x with
  | .ok k' => k.Grows k'
  | .error f => f.1 = .ioWrite

theorem Sink.Grows.writes {k k' : Sink} {x : Except Raise Sink} (h : k.Grows k') (hx : k'.Writes x) : k.Writes x := by
  cases x with
  | error e => exact hx
  | ok k'' => exact h.trans hx

theorem Sink.Writes.bind {k : Sink} {x : Except Raise Sink} {f : Sink → Except Raise Sink} (hx : k.Writes x)
    (hf : ∀ k' : Sink, k'.Writes (f k')) : k.Writes (x >>= f) := by
  cases x with
  | error e => exact hx
  | ok k' => exact Sink.Grows.writes hx (hf k')

theorem writeOut_writes (b : Byte) (k : Sink) : k.Writes (writeOut b k) := by
  unfold writeOut
  split_ifs with hw
  · rfl
  · have hlim := k.w.lim.isLt
    have hpos : (k.w.pos + 1).toNat = k.w.pos.toNat + 1 := by
      rw [BitVec.toNat_add]
      simp
      omega
    refine ⟨rfl, by simp only [hpos]; omega, fun a ha => ?_⟩
    exact (Memory.get?_set _ _ _ _).trans (if_neg (by omega))

theorem emitByte_writes (b : Byte) (k : Sink) : k.Writes (emitByte b k) := by
  refine (writeOut_writes b k).bind fun k' => ?_
  split_ifs
  · exact writeOut_writes 0 k'
  · exact .refl k'

theorem putBit_writes (bit : Bool) (k : Sink) : k.Writes (putBit bit k) := by
  unfold putBit
  dsimp only
  have holds (buf : Byte) (cnt : BitVec 3) : k.Grows { k with w := { k.w with buf := buf, cnt := cnt } } :=
    ⟨rfl, Nat.le_refl _, .refl _ _ _⟩
  split_ifs
  · exact (holds 0 0).writes (emitByte_writes _ _)
  · exact holds _ _

theorem putBits_writes (v n : Nat) (k : Sink) : k.Writes (putBits v n k) := by
  induction n generalizing k with
  | zero => exact .refl k
  | succ n ih => exact (putBit_writes _ k).bind ih

theorem flushBits_writes (k : Sink) : k.Writes (flushBits k) := by
  unfold flushBits
  split_ifs
  · exact .refl k
  · exact putBits_writes _ _ k

theorem writeRestart_writes (n : BitVec 3) (k : Sink) : k.Writes (writeRestart n k) :=
  (flushBits_writes k).bind fun k => (writeOut_writes _ k).bind (writeOut_writes _)

/-- A symbol with a code cannot be NO_CODE. -/
theorem writeCode_writes {e : Vector EncEntry 256} {sym : Byte} (h : e[sym.toFin].size ≠ 0) (k : Sink) :
    k.Writes (writeCode e sym k) := by
  unfold writeCode
  dsimp only
  rw [if_neg h]
  exact putBits_writes _ _ k

theorem writeItems_writes {de ae : Vector EncEntry 256} {items : List Item} (h : haveCodes de ae items = .ok ()) (k : Sink) :
    k.Writes (writeItems de ae items k) := by
  induction items generalizing k with
  | nil => exact .refl k
  | cons it items ih =>
    obtain ⟨hit, hitems⟩ := (require_bind_ok_iff _ _ _ _).1 h
    exact (writeCode_writes (of_decide_eq_true hit) k).bind fun k => (putBits_writes _ _ k).bind (ih hitems)

end Sys2Proof.Machine
end

section
/-! SUPPORT. How a command ends (60_exceptions.md R312, R316, R318): it raises no fault, a check refuses it before its first state
change, or a fault in mid-command leaves its write set unspecified. -/

namespace Sys2Proof.Machine

/-! ### What a fault leaves as it was -/

/-- A fault that changes nothing but the outcome registers is in the frame of every command. -/
theorem frame_takeFault (i : Instr) (s : State) (w : Word) (c : Cause) (info : Word) : frame i s (s.takeFault w c info) := by
  cases i with
  | nop | brBit | brBits | brResync | htDec | cfExt | cfCat | dcRst | dequant | quant | idct | fdct | pixOut | pixIn => rfl
  | sreset => exact ⟨rfl, rfl, rfl, rfl⟩
  | brInit | bwInit | htStore | blkDec | blkSkip | ljSetup | ljHtLoad | ljLinLoad => exact ⟨rfl, fun _ _ => rfl⟩
  | bwBits | bwFlush | bwRst | htEnc | ljDecode | unpack10 | unpack12 | unpack14 | unpack12v => exact ⟨rfl, .refl _ _ _⟩
  | htLoad | htAdapt => exact ⟨rfl, fun _ _ _ => ⟨rfl, rfl, rfl⟩, fun _ _ _ => rfl, fun _ _ => rfl⟩
  | fqClr => exact ⟨rfl, fun _ _ _ => rfl⟩
  | fqInc => exact ⟨rfl, fun _ _ _ => rfl, fun _ _ _ _ => rfl⟩
  | blkEnc => exact ⟨rfl, fun _ _ => rfl, .refl _ _ _⟩
  | blkDry => exact ⟨rfl, fun _ _ => rfl, fun _ _ => rfl, fun _ _ => rfl, fun _ _ => rfl⟩
  | qtLoad => exact ⟨rfl, fun _ _ => rfl, fun _ _ => rfl⟩

/-- The OUT bytes that a writer fault leaves unspecified are those of the window. -/
theorem State.drawWriter_sameOutside (s : State) :
    sameOutside s.outMem s.drawWriter.outMem s.bw.pos.toNat s.bw.lim.toNat :=
  fun a ha => Memory.draw_sameOutside _ _ _ s.draws a (by omega)

theorem samePredsBut_of_set {c : Byte} {x : Fin 4} {s t : State} {p : Pred} (hx : c.toNat = x.val)
    (h : t.dcp = s.dcp.set x.val p x.isLt) : samePredsBut c s t := by
  intro j hj
  simp [h, show x.val ≠ j.val by omega]

theorem State.drawFreq_freq (s : State) (td ta : Fin 4) (cl : TableClass) (j : Fin 4) :
    (s.drawFreq td ta).freq cl j =
      if cl = .dc ∧ j = td then s.drawnFreq .freqDc (s.freq .dc td)
      else if cl = .ac ∧ j = ta then s.drawnFreq .freqAc (s.freq .ac ta) else s.freq cl j := by
  cases cl <;> simp [State.drawFreq]

/-- Slot 256 of a frequency model is never counted into (10_state.md R32). -/
theorem State.drawnFreq_sentinel (s : State) (e : Nat → Drawn) (f : FreqModel) : (s.drawnFreq e f)[256] = f[256] := by
  simp [State.drawnFreq]

theorem State.drawFreq_sentinel (s : State) (td ta : Fin 4) (cl : TableClass) (j : Fin 4) :
    ((s.drawFreq td ta).freq cl j)[256] = (s.freq cl j)[256] := by
  rw [State.drawFreq_freq]
  split_ifs with hd ha
  · rw [State.drawnFreq_sentinel, hd.1, hd.2]
  · rw [State.drawnFreq_sentinel, ha.1, ha.2]
  · rfl

/-! ### The frames of reads and writes -/

theorem State.finishRead_frame {s : State} {i : Instr} {x : Bits Nat} {cs : List Cause} (hx : x.Answers s.br.lim cs) :
    frameRead s (s.finishRead i x) := by
  cases x with
  | got v r =>
    cases r
    cases hx
    rfl
  | noMore r =>
    cases r
    cases hx.1
    rfl
  | fail f => rfl

theorem State.setSink_eq {s : State} {k : Sink} (h : s.sink.Grows k) :
    s.setSink k = { s with bw := { k.w with lim := s.bw.lim }, outMem := k.out } := by
  have hlim : k.w.lim = s.bw.lim := h.lim
  rw [State.setSink, ← hlim]

theorem State.finishWrite_frame {s : State} {i : Instr} {x : Except Raise Sink} (hx : s.sink.Writes x) :
    frameWrite s (s.finishWrite i x) := by
  cases x with
  | ok k =>
    rw [State.finishWrite_ok, State.setSink_eq hx]
    exact ⟨rfl, hx.out⟩
  | error f => exact ⟨rfl, s.drawWriter_sameOutside⟩

/-! ### The three ends -/

/-- A cause that R311 lists for the command, and that R312 counts as raised in mid-command. -/
def midCause (i : Instr) (c : Cause) : Bool := (causesOf i).contains c && midCommand i c

/-- How a command other than SRESET ends (60_exceptions.md R312, R318). -/
inductive Ending (i : Instr) (s t : State) : Prop where
  | completed (regs : t.faultRegs = s.faultRegs)
  | refused (r : Raise) (listed : r.1 ∈ causesOf i) (raised : t = s.raise i r)
  | midway (u : State) (r : Raise) (listed : midCause i r.1 = true) (raised : t = u.raiseMid i r) (kept : frame i s t)

/-- A command whose checks raise only causes of its list. -/
theorem State.checked_ending {α : Type} {s : State} {i : Instr} {x : Except Raise α} {k : α → State} {cs : List Cause}
    (hx : Raises cs x) (hcs : cs.all (causesOf i).contains = true) (hk : ∀ a, x = .ok a → Ending i s (k a)) :
    Ending i s (s.checked i x k) := by
  cases x with
  | error r => exact .refused r (List.contains_iff_mem.1 (List.all_eq_true.1 hcs _ (hx r rfl))) rfl
  | ok a => exact hk a rfl

section
variable {s : State} {i : Instr} {cs : List Cause} (hcs : cs.all (midCause i) = true)
include hcs

theorem Ending.of_fault {r : Raise} {u : State} (hr : r.1 ∈ cs) (hu : frame i s (u.raiseMid i r)) :
    Ending i s (u.raiseMid i r) :=
  .midway u r (List.all_eq_true.1 hcs _ hr) rfl hu

theorem State.finishRead_ending {x : Bits Nat} (hx : x.Answers s.br.lim cs) (hf : frame i = frameRead) :
    Ending i s (s.finishRead i x) := by
  have hframe := State.finishRead_frame (i := i) hx
  cases x with
  | got v r => exact .completed rfl
  | noMore r => exact .completed rfl
  | fail f => exact .of_fault hcs hx (hf ▸ hframe)

end

theorem State.finishWrite_ending {s : State} {i : Instr} (hi : midCause i .ioWrite = true) {x : Except Raise Sink}
    (hx : s.sink.Writes x) (hf : frame i = frameWrite) : Ending i s (s.finishWrite i x) := by
  have hframe := State.finishWrite_frame (i := i) hx
  cases x with
  | ok k => exact .completed rfl
  | error f => exact .midway _ f (hx.symm ▸ hi) rfl (hf ▸ hframe)

/-! ### Commands -/

theorem blockFields_slot {c td ta : Byte} {f : Fin 4 × Fin 4 × Fin 4} (h : blockFields c td ta = .ok f) : c.toNat = f.1.val :=
  (indexField_ok_iff c f.1).1 ((blockFields_ok_iff c td ta f.1 f.2.1 f.2.2).1 h).1

theorem State.blkReadChecks_slot {s : State} {c td ta : Byte} {f : Fin 4 × Fin 4 × Fin 4}
    (h : s.blkReadChecks c td ta = .ok f) : c.toNat = f.1.val := by
  simp only [State.blkReadChecks, bind_ok_iff, pure_ok_iff] at h
  obtain ⟨f, hf, -, -, -, -, -, -, rfl⟩ := h
  exact blockFields_slot hf

/-- BLK_ENC has looked up the code of every item before it writes, so only the window can fail (43_coefficient.md R204). -/
theorem execBlkEnc_ending {c td ta : Byte} {s t : State} (h : exec (.blkEnc c td ta) s = .next t) :
    Ending (.blkEnc c td ta) s t := by
  obtain rfl := Host.Outcome.next.inj h
  refine State.checked_ending ((blockFields_raises c td ta).bind fun _ => (s.needs_raises _).bind fun _ =>
    (s.needs_raises _).bind fun _ => (s.needs_raises _).bind fun _ => (blockItems_raises _ _).bind fun _ =>
    (haveCodes_raises _ _ _).bind fun _ => .pure _) rfl fun x hx => ?_
  simp only [State.blkEncChecks, bind_ok_iff, pure_ok_iff] at hx
  obtain ⟨f, hf, -, -, -, -, -, -, items, -, ⟨⟩, hcodes, rfl⟩ := hx
  have hw := writeItems_writes hcodes s.sink
  split <;> rename_i hx <;> rw [hx] at hw
  · exact .completed rfl
  · exact .of_fault (cs := [.ioWrite]) rfl (List.mem_singleton.2 hw)
      ⟨rfl, samePredsBut_of_set (blockFields_slot hf) rfl, s.drawWriter_sameOutside⟩

theorem State.drawFreq_blkDry_frame {s : State} {c td ta : Byte} {x d a : Fin 4} (hf : blockFields c td ta = .ok (x, d, a))
    (r : Raise) : frame (.blkDry c td ta) s (((s.drawFreq d a).drawPred x).raiseMid (.blkDry c td ta) r) := by
  obtain ⟨hc, hd, ha⟩ := (blockFields_ok_iff c td ta x d a).1 hf
  rw [indexField_ok_iff] at hc hd ha
  have hfreq (cl : TableClass) (j : Fin 4) :
      (((s.drawFreq d a).drawPred x).raiseMid (.blkDry c td ta) r).freq cl j = (s.drawFreq d a).freq cl j := rfl
  refine ⟨rfl, samePredsBut_of_set hc rfl, fun j hj => ?_, fun j hj => ?_, s.drawFreq_sentinel d a⟩
  · rw [hfreq, State.drawFreq_freq, if_neg fun e => hj (by rw [e.2, hd]), if_neg (by simp)]
  · rw [hfreq, State.drawFreq_freq, if_neg (by simp), if_neg fun e => hj (by rw [e.2, ha])]

theorem execBlkDry_ending {c td ta : Byte} {s t : State} (h : exec (.blkDry c td ta) s = .next t) :
    Ending (.blkDry c td ta) s t := by
  obtain rfl := Host.Outcome.next.inj h
  refine State.checked_ending ((blockFields_raises c td ta).bind fun _ => (blockItems_raises _ _).bind fun _ => .pure _) rfl
    fun x hx => ?_
  simp only [State.blkDryChecks, bind_ok_iff, pure_ok_iff] at hx
  obtain ⟨f, hf, items, -, rfl⟩ := hx
  split
  · exact .completed rfl
  next hcount =>
    exact .of_fault (cs := [.adaptOverflow]) rfl (countItems_raises _ _ _ _ hcount) (State.drawFreq_blkDry_frame hf _)

theorem execLjDecode_ending {s t : State} (h : exec .ljDecode s = .next t) : Ending .ljDecode s t := by
  obtain rfl := Host.Outcome.next.inj h
  refine State.checked_ending ((s.needs_raises _).bind fun _ => (s.needs_raises _).bind fun _ => (s.needs_raises _).bind fun _ =>
    require_raises _ _) rfl fun _ _ => ?_
  split
  next himage =>
    exact .of_fault (cs := ljCauses) rfl (ljRows_raises _ _ _ _ _ himage) ⟨rfl, Memory.draw_sameOutside _ _ _ s.draws⟩
  · exact .completed rfl

/-- HT_ADAPT refuses fields and counts, and builds every table it has counted (42_huffman.md R167). -/
theorem execHtAdapt_ending {tc th : Byte} {s t : State} (h : exec (.htAdapt tc th) s = .next t) :
    Ending (.htAdapt tc th) s t := by
  cases hf : tableFields tc th with
  | error r =>
    obtain rfl := Host.Outcome.next.inj h
    have hchecks : s.htAdaptChecks tc th = .error r := by
      rw [State.htAdaptChecks, hf]
      rfl
    rw [hchecks]
    have hr : r.1 = .badArg := List.mem_singleton.1 (tableFields_raises tc th r hf)
    exact .refused r (by simp [causesOf, hr]) rfl
  | ok f =>
    obtain ⟨hempty, hcounts, -⟩ := tableAdaptation s tc th f.1 f.2 hf
    by_cases h0 : ∀ b : Byte, (s.freq f.1 f.2)[b.toNat]! = 0
    · exact .refused (.badArg, 256) (by simp [causesOf]) (Host.Outcome.next.inj (h.symm.trans (hempty h0)))
    obtain ⟨size, -, hover, hfits⟩ := hcounts (not_forall.1 h0)
    by_cases h32 : ∃ k, k ≤ 256 ∧ 32 < size k
    · obtain ⟨hk, hsize⟩ := Nat.find_spec h32
      refine .refused (.adaptOverflow, _) (by simp [causesOf])
        (Host.Outcome.next.inj (h.symm.trans (hover _ hk hsize fun j hj => ?_)))
      exact Nat.le_of_not_lt fun hlt => Nat.find_min h32 hj ⟨by omega, hlt⟩
    · obtain ⟨-, t', -, -, -, -, -, -, -, hadapted⟩ := hfits fun k hk => Nat.le_of_not_lt fun hlt => h32 ⟨k, hk, hlt⟩
      obtain rfl := Host.Outcome.next.inj (h.symm.trans hadapted)
      exact .completed (by simp [State.faultRegs])

/-- Every command, by its checks in their order and what it does behind them. -/
theorem exec_ending {i : Instr} {s t : State} (hi : i ≠ .sreset) (h : exec i s = .next t) : Ending i s t := by
  cases i with
  | sreset => exact absurd rfl hi
  | nop | dcRst | idct | fdct =>
    obtain rfl := Host.Outcome.next.inj h
    exact .completed rfl
  | brInit | bwInit =>
    obtain rfl := Host.Outcome.next.inj h
    exact State.checked_ending (s.windowArgs_raises _) rfl fun _ _ => .completed rfl
  | brBit =>
    obtain rfl := Host.Outcome.next.inj h
    exact State.checked_ending (s.needs_raises _) rfl fun _ _ =>
      State.finishRead_ending rfl ((nextBit_answers _ rfl).andThen fun _ _ hr => hr) rfl
  | brBits n =>
    obtain rfl := Host.Outcome.next.inj h
    exact State.checked_ending ((countField_raises 16 n).bind fun _ => (s.needs_raises _).bind fun _ => .pure _) rfl
      fun _ _ => State.finishRead_ending rfl (getBits_answers _ rfl _) rfl
  | brResync =>
    obtain rfl := Host.Outcome.next.inj h
    refine State.checked_ending (s.needs_raises _) rfl fun _ _ => ?_
    split
    next hm => exact .of_fault (cs := [.ioRead, .badMarker]) rfl (s.restartMarker_raises _ hm) rfl
    · exact .completed rfl
  | bwBits n =>
    obtain rfl := Host.Outcome.next.inj h
    exact State.checked_ending ((countField_raises 16 n).bind fun _ => (s.needs_raises _).bind fun _ => .pure _) rfl
      fun _ _ => State.finishWrite_ending rfl (putBits_writes _ _ _) rfl
  | bwFlush =>
    obtain rfl := Host.Outcome.next.inj h
    exact State.checked_ending (s.needs_raises _) rfl fun _ _ => State.finishWrite_ending rfl (flushBits_writes _) rfl
  | bwRst =>
    obtain rfl := Host.Outcome.next.inj h
    refine State.checked_ending (s.needs_raises _) rfl fun _ _ => ?_
    have hw := writeRestart_writes s.rstWr s.sink
    split <;> rename_i hx <;> rw [hx] at hw
    · exact .of_fault (cs := [.ioWrite]) rfl (List.mem_singleton.2 hw) ⟨rfl, s.drawWriter_sameOutside⟩
    · exact .completed rfl
  | htLoad tc th =>
    obtain rfl := Host.Outcome.next.inj h
    exact State.checked_ending ((tableFields_raises tc th).bind fun _ => s.loadSpec_raises.bind fun _ =>
      (buildTable_raises _).bind fun _ => .pure _) rfl fun _ _ => .completed (by simp [State.faultRegs])
  | htStore tc th =>
    obtain rfl := Host.Outcome.next.inj h
    exact State.checked_ending ((tableFields_raises tc th).bind fun _ => (s.needs_raises _).bind fun _ =>
      (require_raises _ _).bind fun _ => .pure _) rfl fun _ _ => .completed rfl
  | htDec tc th =>
    obtain rfl := Host.Outcome.next.inj h
    exact State.checked_ending ((tableFields_raises tc th).bind fun _ => (s.needs_raises _).bind fun _ =>
      (s.needs_raises _).bind fun _ => .pure _) rfl
      fun _ _ => State.finishRead_ending rfl ((readCode_answers _ rfl _ _).andThen fun _ _ hr => hr) rfl
  | htEnc tc th =>
    obtain rfl := Host.Outcome.next.inj h
    refine State.checked_ending ((tableFields_raises tc th).bind fun _ => (s.needs_raises _).bind fun _ =>
      (s.needs_raises _).bind fun _ => (require_raises _ _).bind fun _ => .pure _) rfl fun u hu => ?_
    simp only [State.htEncChecks, bind_ok_iff, pure_ok_iff] at hu
    obtain ⟨f, -, -, -, -, -, ⟨⟩, hcode, rfl⟩ := hu
    exact State.finishWrite_ending rfl (writeCode_writes (of_decide_eq_true ((require_ok_iff _ _).1 hcode)) _) rfl
  | fqClr tc th =>
    obtain rfl := Host.Outcome.next.inj h
    exact State.checked_ending (tableFields_raises tc th) rfl fun _ _ => .completed (by simp [State.faultRegs])
  | fqInc tc th =>
    obtain rfl := Host.Outcome.next.inj h
    exact State.checked_ending ((tableFields_raises tc th).bind fun _ => (countSymbol_raises _ _).bind fun _ => .pure _) rfl
      fun _ _ => .completed (by simp [State.faultRegs])
  | htAdapt => exact execHtAdapt_ending h
  | cfExt n =>
    obtain rfl := Host.Outcome.next.inj h
    exact State.checked_ending (countField_raises 15 n) rfl fun _ _ => .completed rfl
  | cfCat =>
    obtain rfl := Host.Outcome.next.inj h
    exact State.checked_ending ((require_raises _ _).bind fun _ => .pure _) rfl fun _ _ => .completed rfl
  | blkDec c td ta | blkSkip c td ta =>
    obtain rfl := Host.Outcome.next.inj h
    refine State.checked_ending (s.blkReadChecks_raises c td ta) rfl fun f hf => ?_
    have hb := s.readBlock_answers f
    split <;> rename_i hx <;> rw [hx] at hb
    · exact .completed rfl
    · exact .completed rfl
    · exact .of_fault (cs := blockCauses) rfl hb ⟨rfl, samePredsBut_of_set (State.blkReadChecks_slot hf) rfl⟩
  | blkEnc => exact execBlkEnc_ending h
  | blkDry => exact execBlkDry_ending h
  | qtLoad pq tq =>
    obtain rfl := Host.Outcome.next.inj h
    exact State.checked_ending ((precisionField_raises pq).bind fun _ => (indexField_raises tq).bind fun _ =>
      (require_raises _ _).bind fun _ => (require_raises _ _).bind fun _ => .pure _) rfl fun _ _ => .completed rfl
  | dequant tq =>
    obtain rfl := Host.Outcome.next.inj h
    exact State.checked_ending (s.quantTable_raises tq) rfl fun _ _ => .completed rfl
  | quant tq =>
    obtain rfl := Host.Outcome.next.inj h
    exact State.checked_ending (s.quantChecks_raises tq) rfl fun _ _ => .completed rfl
  | pixOut | pixIn =>
    obtain rfl := Host.Outcome.next.inj h
    exact State.checked_ending s.precision_raises rfl fun _ _ => .completed rfl
  | ljSetup =>
    obtain rfl := Host.Outcome.next.inj h
    exact State.checked_ending s.ljSetupChecks_raises rfl fun _ _ => .completed rfl
  | ljHtLoad =>
    obtain rfl := Host.Outcome.next.inj h
    exact State.checked_ending (s.loadSpec_raises.bind fun _ => (buildSlots_raises _).bind fun _ => .pure _) rfl
      fun _ _ => .completed rfl
  | ljLinLoad =>
    obtain rfl := Host.Outcome.next.inj h
    exact State.checked_ending ((require_raises _ _).bind fun _ => (require_raises _ _).bind fun _ => .pure _) rfl
      fun _ _ => .completed rfl
  | ljDecode => exact execLjDecode_ending h
  | unpack10 | unpack12 | unpack14 | unpack12v =>
    obtain rfl := Host.Outcome.next.inj h
    exact State.checked_ending (s.unpackChecks_raises _ _ _) rfl fun _ _ => .completed rfl

/-- Settles O14: a fault is raised by a check on the state as it was, or in mid-command with a cause that R312 counts so. -/
theorem whatAFaultLeaves : Obligations.WhatAFaultLeaves := by
  intro i s t hs h ht
  have hi : i ≠ .sreset := by
    rintro rfl
    rw [exec_sreset h] at ht
    cases ht
  cases exec_ending hi h with
  | completed regs => simp [((State.faultRegs_eq_iff s t).1 regs).1, hs] at ht
  | refused r listed raised =>
    subst raised
    exact ⟨rfl, rfl, rfl, r.1, rfl, frame_takeFault _ _ _ _ _, fun _ => rfl⟩
  | midway u r listed raised kept =>
    subst raised
    have hmid : midCommand i r.1 = true := (Bool.and_eq_true_iff.1 listed).2
    exact ⟨rfl, rfl, rfl, r.1, rfl, kept, fun hno => by simp [hmid] at hno⟩

/-- Settles O13: by the three ways a command ends; the codes and kinds are evaluated. -/
theorem causesOfACommand : Obligations.CausesOfACommand := by
  refine ⟨fun i s t hi h => ?_, rfl, by decide⟩
  cases exec_ending hi h with
  | completed regs =>
    obtain ⟨hfault, hcause, hinfo, hcmd, hbusy, hdraws⟩ := (State.faultRegs_eq_iff s t).1 regs
    exact .inl ⟨hfault, hcause, hinfo, hcmd, hdraws, hbusy⟩
  | refused r listed raised =>
    subst raised
    exact .inr ⟨rfl, r.1, rfl, fun _ => listed⟩
  | midway u r listed raised kept =>
    subst raised
    exact .inr ⟨rfl, r.1, rfl, fun _ => List.contains_iff_mem.1 (Bool.and_eq_true_iff.1 listed).1⟩

end Sys2Proof.Machine
end

section
/-! SUPPORT. The frames of the system, reader and writer commands (40_system.md, 41_bitio.md), in whatever way they end. -/

namespace Sys2Proof.Machine

theorem sameValidBut_of_setValid {s t : State} {n : Nat} {b : Bool} (hn : n < 17) (h : t.valid = (s.setValid n b).valid) :
    sameValidBut s t n := fun m hm => (isValid_of_setValid hn h m).trans (if_neg hm)

/-- A fault of the checks is in the frame. -/
theorem State.checked_frame {α : Type} {s : State} {i : Instr} {x : Except Raise α} {k : α → State}
    (hk : ∀ a, frame i s (k a)) : frame i s (s.checked i x k) :=
  State.checked_finish _ _ _ _ _ (fun _ _ => frame_takeFault _ _ _ _ _) fun a _ => hk a

theorem execBrResync_frame {s t : State} (h : exec .brResync s = .next t) : frame .brResync s t := by
  obtain rfl := Host.Outcome.next.inj h
  refine State.checked_frame fun _ => ?_
  split <;> rfl

theorem execBwRst_frame {s t : State} (h : exec .bwRst s = .next t) : frame .bwRst s t := by
  obtain rfl := Host.Outcome.next.inj h
  refine State.checked_frame fun _ => ?_
  have hw := writeRestart_writes s.rstWr s.sink
  split <;> rename_i hx <;> rw [hx] at hw
  · exact ⟨rfl, s.drawWriter_sameOutside⟩
  · rw [State.setSink_eq hw]
    exact ⟨rfl, hw.out⟩

/-- Settles O15: the reader functions keep BR_END, the writer functions keep BW_END and write in the window. -/
theorem frameOfBitCommands : Obligations.FrameOfBitCommands := by
  intro i s t hi h
  cases i with
  | sreset =>
    rw [exec_sreset h]
    exact ⟨rfl, rfl, rfl, rfl⟩
  | brResync => exact execBrResync_frame h
  | bwRst => exact execBwRst_frame h
  | nop =>
    obtain rfl := Host.Outcome.next.inj h
    rfl
  | brInit | bwInit =>
    obtain rfl := Host.Outcome.next.inj h
    exact State.checked_frame fun _ => ⟨rfl, sameValidBut_of_setValid (b := true) (by decide) rfl⟩
  | brBit =>
    obtain rfl := Host.Outcome.next.inj h
    exact State.checked_frame fun _ => State.finishRead_frame ((nextBit_answers _ rfl).andThen fun _ _ hr => hr)
  | brBits n =>
    obtain rfl := Host.Outcome.next.inj h
    exact State.checked_frame fun _ => State.finishRead_frame (getBits_answers _ rfl _)
  | bwBits n =>
    obtain rfl := Host.Outcome.next.inj h
    exact State.checked_frame fun _ => State.finishWrite_frame (putBits_writes _ _ _)
  | bwFlush =>
    obtain rfl := Host.Outcome.next.inj h
    exact State.checked_frame fun _ => State.finishWrite_frame (flushBits_writes _)
  | _ => simp [family, fieldsFor] at hi

end Sys2Proof.Machine
end

section
/-! SUPPORT. The segment-end outcome (60_exceptions.md R313, 70_reset_and_hazards.md R365): which commands can leave SEG_END, where the
reader then stands, and what reading does from there. -/

namespace Sys2Proof.Machine

/-! ### Where SEG_END comes from -/

/-- The reader of `t` stands at a marker with no bit left if SEG_END is 1. -/
def State.SegEndAtMarker (t : State) : Prop := t.segEnd = true → t.br.eos = true ∧ t.br.cnt = 0

theorem State.checked_segEndAtMarker {α : Type} {s : State} {i : Instr} {x : Except Raise α} {k : α → State}
    (hk : ∀ a, (k a).SegEndAtMarker) : (s.checked i x k).SegEndAtMarker :=
  State.checked_finish _ _ _ _ _ (fun _ _ => nofun) fun a _ => hk a

theorem State.finishRead_segEndAtMarker {s : State} {i : Instr} {x : Bits Nat} {lim : Word} {cs : List Cause}
    (hx : x.Answers lim cs) : (s.finishRead i x).SegEndAtMarker := by
  cases x with
  | got v r => nofun
  | noMore r => exact fun _ => hx.2
  | fail f => nofun

/-- The five commands that can end with SEG_END = 1 (60_exceptions.md R313). -/
def endsSegment (i : Instr) : Bool :=
  match i with
  | .brBit | .brBits _ | .htDec _ _ | .blkDec _ _ _ | .blkSkip _ _ _ => true
  | _ => false

theorem endsSegment_reads {i : Instr} (h : endsSegment i = true) : usesReader i = true ∧ i ≠ .brResync ∧ i ≠ .ljDecode := by
  cases i with
  | brBit | brBits | htDec | blkDec | blkSkip => exact ⟨rfl, nofun, nofun⟩
  | _ => cases h

theorem State.checked_segEnd {α : Type} {s : State} {i : Instr} {x : Except Raise α} {k : α → State}
    (hk : ∀ a, (k a).segEnd = false) : (s.checked i x k).segEnd = false :=
  State.checked_finish s i x k (fun t => t.segEnd = false) (fun _ _ => rfl) fun a _ => hk a

/-- Every other command leaves SEG_END = 0, in whatever way it ends. -/
theorem exec_segEnd {i : Instr} {s t : State} (hi : endsSegment i = false) (h : exec i s = .next t) : t.segEnd = false := by
  cases i with
  | brBit | brBits | htDec | blkDec | blkSkip => cases hi
  | nop | sreset | dcRst | idct | fdct =>
    obtain rfl := Host.Outcome.next.inj h
    rfl
  | bwBits | bwFlush | htEnc =>
    obtain rfl := Host.Outcome.next.inj h
    refine State.checked_segEnd fun _ => ?_
    unfold State.finishWrite
    split <;> rfl
  | brResync | bwRst | blkEnc | blkDry | ljDecode =>
    obtain rfl := Host.Outcome.next.inj h
    refine State.checked_segEnd fun _ => ?_
    split <;> rfl
  | _ =>
    obtain rfl := Host.Outcome.next.inj h
    exact State.checked_segEnd fun _ => rfl

theorem exec_segEndAtMarker {i : Instr} {s t : State} (hi : endsSegment i = true) (h : exec i s = .next t) :
    t.SegEndAtMarker := by
  cases i with
  | brBit =>
    obtain rfl := Host.Outcome.next.inj h
    exact State.checked_segEndAtMarker fun _ =>
      State.finishRead_segEndAtMarker ((nextBit_answers _ rfl).andThen fun _ _ hr => hr)
  | brBits n =>
    obtain rfl := Host.Outcome.next.inj h
    exact State.checked_segEndAtMarker fun _ => State.finishRead_segEndAtMarker (getBits_answers _ rfl _)
  | htDec tc th =>
    obtain rfl := Host.Outcome.next.inj h
    exact State.checked_segEndAtMarker fun _ =>
      State.finishRead_segEndAtMarker ((readCode_answers _ rfl _ _).andThen fun _ _ hr => hr)
  | blkDec c td ta | blkSkip c td ta =>
    obtain rfl := Host.Outcome.next.inj h
    refine State.checked_segEndAtMarker fun f => ?_
    have hb := s.readBlock_answers f
    split <;> rename_i hx <;> rw [hx] at hb
    · exact fun _ => hb.2
    · exact hb.2
    · nofun
  | _ => cases hi

/-! ### Reading on at a marker -/

section
variable {r : Reader} (m : Memory) (heos : r.eos = true) (hcnt : r.cnt = 0)
include heos hcnt

theorem nextBit_atMarker : nextBit m r = .noMore r := by
  rw [nextBit, if_pos hcnt, refill, if_pos heos]
  rfl

theorem getBits_atMarker {n : Nat} (hn : 0 < n) : getBits m n r = .noMore r := by
  obtain ⟨n, rfl⟩ := Nat.exists_eq_succ_of_ne_zero hn.ne'
  rw [getBits, getBitsFrom, nextBit_atMarker m heos hcnt]
  rfl

theorem readCode_atMarker (slots : List Slot) : readCode m slots 16 r = .noMore r := by
  rw [readCode, readCodeFrom, nextBit_atMarker m heos hcnt]
  rfl

theorem decodeBlock_atMarker (dcSlots acSlots : List Slot) (pred : Int) :
    decodeBlock m dcSlots acSlots pred r = .boundary r := by
  rw [decodeBlock, readCode_atMarker m heos hcnt]

end

/-- Settles O11: SEG_END is written by the five commands alone, and at a marker each of them meets NoMoreData in its first bit. -/
theorem segmentEndOutcome : Obligations.SegmentEndOutcome := by
  refine ⟨fun i s t h ht => ?_, fun s hv heos hcnt => ?_⟩
  · have hi : endsSegment i = true := by
      cases hi : endsSegment i with
      | true => rfl
      | false => simp [exec_segEnd hi h] at ht
    obtain ⟨hreads, hresync, hdecode⟩ := endsSegment_reads hi
    have hfault : t.fault = s.fault := by
      rcases (exec_spares (by rintro rfl; cases hi) h).outcome with regs | hf
      · exact ((State.faultRegs_eq_iff s t).1 regs).1
      · simp [hf.segEnd] at ht
    exact ⟨hreads, hresync, hdecode, hfault, exec_segEndAtMarker hi h ht⟩
  · have hbits {n : Nat} (hn : 0 < n) : getBits s.inMem n s.br = .noMore s.br := getBits_atMarker _ heos hcnt hn
    refine ⟨?_, fun n h0 h16 => ?_, fun tc th c i hf ht => ?_, fun c td ta x d a hf hd ha => ?_⟩
    · rw [exec_getBits (.inl ⟨rfl, rfl⟩) hv, hbits Nat.one_pos]
      rfl
    · rw [exec_getBits (n := n.toNat) (.inr ⟨by simp, h16⟩) hv, hbits h0]
      rfl
    · rw [exec_htDec hf ht hv, readCode_atMarker _ heos hcnt]
      rfl
    · exact exec_of_boundary (State.blkReadChecks_ok hf hd ha hv) (decodeBlock_atMarker _ heos hcnt _ _ _)

end Sys2Proof.Machine
end

section
/-! SUPPORT. The fault state (60_exceptions.md R330, R331): what a move of the host is, with the word it issues, and the two moves that
lead out. -/

namespace Sys2Proof.Machine

/-- The word that an aligned write issues goes to CMD; every other move resets the core or touches no unit of it. -/
theorem hostMove_command_or_reset {mv : HostMove} {s t : State} (h : hostMove mv s = .next t) :
    (∃ w, mv = commandMove w ∧ issue w s = .next t) ∨ (mv = .reset ∧ t = s.coreReset) ∨ s.HostFrame t := by
  cases mv with
  | reset => exact .inr (.inl ⟨rfl, (Host.Outcome.next.inj h).symm⟩)
  | writeReg width off v =>
    simp only [hostMove] at h
    split_ifs at h with hb ha
    obtain ⟨rfl, -⟩ := (alignedWord_iff width off).1 ha
    unfold writeOffset at h
    split at h
    · obtain rfl := Host.Outcome.next.inj h
      exact .inr (.inr ⟨rfl, .inl rfl⟩)
    next r hr =>
      obtain rfl := (regAt_eq_some_iff off r).1 hr
      rcases writeReg_cases h with ⟨rfl, hissue⟩ | hframe
      · exact .inl ⟨v, rfl, hissue⟩
      · exact .inr (.inr hframe)
  | readReg | readOut =>
    simp only [hostMove] at h
    split_ifs at h
    obtain rfl := Host.Outcome.next.inj h
    exact .inr (.inr ⟨rfl, .inl rfl⟩)
  | writeIn a v =>
    simp only [hostMove] at h
    split_ifs at h with hb ha
    obtain rfl := Host.Outcome.next.inj h
    exact .inr (.inr ⟨rfl, .inr ⟨a, v, ha, rfl⟩⟩)

/-- In the fault state every move but SRESET and a reset leaves the core's units as they are (60_exceptions.md R331). -/
theorem hostMove_fault {mv : HostMove} {s t : State} (hs : s.fault = true) (h : hostMove mv s = .next t) (hr : mv ≠ .reset)
    (hw : mv ≠ commandMove sresetWord) : s.HostFrame t := by
  rcases hostMove_command_or_reset h with ⟨w, rfl, hissue⟩ | ⟨rfl, -⟩ | hf
  · rw [issue_refused w s hs fun e => hw (by rw [e])] at hissue
    obtain rfl := Host.Outcome.next.inj hissue
    exact ⟨rfl, .inl rfl⟩
  · exact absurd rfl hr
  · exact hf

/-- Settles O6: such a word is refused, and such a move leaves the core's units as they are. -/
theorem faultStateRefusesCommands : Obligations.FaultStateRefusesCommands := by
  refine ⟨fun s w hs hw => issue_refused w s hs hw, fun s t mv hs hr hw h => ?_⟩
  rw [(hostMove_fault hs h hr hw).fields]
  exact ⟨hs, rfl, rfl, rfl⟩

theorem hostMove_sreset {s : State} (hb : s.busy = false) : hostMove (commandMove sresetWord) s = .next s.coreReset := by
  rw [hostMove_command _ s hb, issue_decoded sresetWord .sreset s (.inr rfl) rfl]
  rfl

/-- Settles O10: both moves end in the reset of the core, and any other move out of the fault state leaves FAULT as it is. -/
theorem onlyResetLeavesTheFaultState : Obligations.OnlyResetLeavesTheFaultState := by
  refine ⟨fun s mv hb hmv => ?_, fun s t mv hs h ht => ?_⟩
  · rcases hmv with rfl | rfl
    · exact ⟨s.coreReset, rfl, rfl, fun hno => absurd rfl hno⟩
    · exact ⟨s.coreReset, hostMove_sreset hb, rfl, fun _ => ⟨rfl, rfl⟩⟩
  · by_contra hno
    obtain ⟨hr, hw⟩ := not_or.1 hno
    rw [(hostMove_fault hs h hr hw).fields] at ht
    simp [hs] at ht

end Sys2Proof.Machine
end

section
/-! SUPPORT. REF's basis as a real matrix: its rows are orthonormal, so the two transforms, which are products with it and its
transpose, undo each other (44_transform.md sections 1 and 3). -/

namespace Sys2Proof.Machine

open Matrix

/-! ### Orthogonality -/

/-- `Σ_x cos((2x+1)·m·π/16)` telescopes when it is multiplied by `2·sin(m·π/16)`, and the end `sin(m·π)` is 0. -/
theorem sum_cos_odd {m : ℕ} (h0 : 0 < m) (h16 : m < 16) : ∑ x : Fin 8, dctCos m x = 0 := by
  have hsin : 0 < Real.sin (m * (Real.pi / 16)) := by
    have hm : (m : ℝ) < 16 := by exact_mod_cast h16
    have := Real.pi_pos
    exact Real.sin_pos_of_pos_of_lt_pi (by positivity) (by nlinarith)
  have hterm (x : ℕ) : 2 * Real.sin (m * (Real.pi / 16)) * dctCos m x =
      Real.sin (2 * (x + 1 : ℕ) * (m * (Real.pi / 16))) - Real.sin (2 * x * (m * (Real.pi / 16))) := by
    rw [Real.sin_sub_sin, dctCos]
    push_cast
    ring_nf
  have hsum : 2 * Real.sin (m * (Real.pi / 16)) * ∑ x : Fin 8, dctCos m x = 0 := by
    rw [Fin.sum_univ_eq_sum_range (dctCos m), Finset.mul_sum, Finset.sum_congr rfl fun x _ => hterm x,
      Finset.sum_range_sub fun x : ℕ => Real.sin (2 * x * (m * (Real.pi / 16)))]
    have hend : 2 * ((8 : ℕ) : ℝ) * (m * (Real.pi / 16)) = m * Real.pi := by push_cast; ring
    rw [hend, Real.sin_nat_mul_pi]
    simp
  exact (mul_eq_zero.1 hsum).resolve_left (by positivity)

theorem sum_dctCos_zero : ∑ x : Fin 8, dctCos 0 x = 8 := by simp [dctCos]

/-- The product of two cosines of the basis, by the difference and the sum of the frequencies. -/
theorem two_mul_dctCos_mul (u w x : ℕ) (h : u ≤ w) :
    2 * (dctCos u x * dctCos w x) = dctCos (w - u) x + dctCos (w + u) x := by
  have hprod := Real.two_mul_cos_mul_cos ((2 * x + 1) * w * Real.pi / 16) ((2 * x + 1) * u * Real.pi / 16)
  rw [dctCos, dctCos, dctCos, dctCos, Nat.cast_sub h, Nat.cast_add]
  rw [mul_comm (Real.cos _), ← mul_assoc, hprod]
  ring_nf

theorem dctC_mul_self (u : ℕ) : dctC u * dctC u = if u = 0 then 1 / 2 else 1 := by
  by_cases hu : u = 0
  · simp [dctC, hu, ← mul_inv]
  · simp [dctC, hu]

theorem sum_dctCos_mul {u w : Fin 8} (h : u ≤ w) :
    ∑ x : Fin 8, dctCos u x * dctCos w x = if u = w then (if u.val = 0 then 8 else 4) else 0 := by
  have hsum : 2 * ∑ x : Fin 8, dctCos u x * dctCos w x =
      ∑ x : Fin 8, dctCos (w.val - u.val : ℕ) x + ∑ x : Fin 8, dctCos (w.val + u.val : ℕ) x := by
    rw [Finset.mul_sum, ← Finset.sum_add_distrib]
    exact Finset.sum_congr rfl fun x _ => two_mul_dctCos_mul u w x h
  rcases h.eq_or_lt with rfl | hlt
  · rw [Nat.sub_self, sum_dctCos_zero] at hsum
    by_cases hu : u.val = 0
    · rw [hu, Nat.add_zero, sum_dctCos_zero] at hsum
      simp only [hu, if_true]
      linarith
    · rw [sum_cos_odd (by omega) (by omega)] at hsum
      simp only [hu, if_true, if_false]
      linarith
  · have hlt' : u.val < w.val := hlt
    rw [sum_cos_odd (by omega) (by omega), sum_cos_odd (by omega) (by omega)] at hsum
    rw [if_neg hlt.ne]
    linarith

theorem sum_basis_mul {u w : Fin 8} (h : u ≤ w) :
    ∑ x : Fin 8, (Numerics.ref.basis u.val x.val).toReal * (Numerics.ref.basis w.val x.val).toReal =
      if u = w then 1 else 0 := by
  have hfactor : ∑ x : Fin 8, (Numerics.ref.basis u.val x.val).toReal * (Numerics.ref.basis w.val x.val).toReal =
      1 / 4 * (dctC u * dctC w) * ∑ x : Fin 8, dctCos u x * dctCos w x := by
    rw [Finset.mul_sum]
    exact Finset.sum_congr rfl fun x _ => by rw [toReal_basis, toReal_basis]; ring
  rw [hfactor, sum_dctCos_mul h]
  by_cases huw : u = w
  · subst huw
    rw [dctC_mul_self]
    by_cases hu : u.val = 0 <;> norm_num [hu]
  · simp [huw]

/-- Settles O44: the basis is T.81's, and the product of two of its rows is a difference of sums of cosines that telescope. -/
theorem cosineBasis : Obligations.CosineBasis := by
  refine ⟨fun u x => toReal_basis u x, fun u w => ?_⟩
  rcases le_total u w with h | h
  · exact sum_basis_mul h
  · simpa only [mul_comm, eq_comm] using sum_basis_mul h

/-! ### The transforms as products of matrices -/

/-- REF's basis in real numbers, frequency by place. -/
noncomputable def dctMatrix : Matrix (Fin 8) (Fin 8) ℝ := .of fun u x => (Numerics.ref.basis u.val x.val).toReal

/-- A block of REF's numbers in real numbers, row by column. -/
noncomputable def blockMatrix (s : Vector NumValue 64) : Matrix (Fin 8) (Fin 8) ℝ := .of fun r c => (at8 s r.val c.val).toReal

theorem dctMatrix_mul_transpose : dctMatrix * dctMatrixᵀ = 1 := by
  ext u w
  exact (cosineBasis.2 u w).trans (Matrix.one_apply).symm

theorem dctMatrix_transpose_mul : dctMatrixᵀ * dctMatrix = 1 := mul_eq_one_comm.1 dctMatrix_mul_transpose

theorem blockMatrix_fdct2 (s : Vector NumValue 64) :
    blockMatrix (fdct2 Numerics.ref s) = dctMatrix * (blockMatrix s * dctMatrixᵀ) := by
  ext v u
  simp only [blockMatrix, dctMatrix, Matrix.of_apply, Matrix.mul_apply, Matrix.transpose_apply, at8_fdct2, at8_rows_fwd1,
    toReal_dot8, mul_comm]

theorem blockMatrix_idct2 (s : Vector NumValue 64) :
    blockMatrix (idct2 Numerics.ref s) = dctMatrixᵀ * (blockMatrix s * dctMatrix) := by
  ext y x
  simp only [blockMatrix, dctMatrix, Matrix.of_apply, Matrix.mul_apply, Matrix.transpose_apply, at8_idct2, at8_rows_inv1,
    toReal_dot8, mul_comm]

theorem blockMatrix_idct2_fdct2 (s : Vector NumValue 64) :
    blockMatrix (idct2 Numerics.ref (fdct2 Numerics.ref s)) = blockMatrix s := by
  rw [blockMatrix_idct2, blockMatrix_fdct2]
  calc dctMatrixᵀ * (dctMatrix * (blockMatrix s * dctMatrixᵀ) * dctMatrix)
      = dctMatrixᵀ * dctMatrix * blockMatrix s * (dctMatrixᵀ * dctMatrix) := by simp only [Matrix.mul_assoc]
    _ = blockMatrix s := by rw [dctMatrix_transpose_mul, Matrix.one_mul, Matrix.mul_one]

theorem blockMatrix_fdct2_idct2 (s : Vector NumValue 64) :
    blockMatrix (fdct2 Numerics.ref (idct2 Numerics.ref s)) = blockMatrix s := by
  rw [blockMatrix_fdct2, blockMatrix_idct2]
  calc dctMatrix * (dctMatrixᵀ * (blockMatrix s * dctMatrix) * dctMatrixᵀ)
      = dctMatrix * dctMatrixᵀ * blockMatrix s * (dctMatrix * dctMatrixᵀ) := by simp only [Matrix.mul_assoc]
    _ = blockMatrix s := by rw [dctMatrix_mul_transpose, Matrix.one_mul, Matrix.mul_one]

/-- Element `k` of a block stands in row `k / 8`, column `k % 8`. -/
theorem toReal_getElem_eq_blockMatrix (s : Vector NumValue 64) (k : Fin 64) :
    s[k].toReal = blockMatrix s ⟨k.val / 8, by omega⟩ ⟨k.val % 8, by omega⟩ := by
  have hk : (8 * (k.val / 8) + k.val % 8) % 64 = k.val := by omega
  simp only [blockMatrix, Matrix.of_apply, at8, hk, Fin.getElem_fin]

theorem toReal_eq_of_blockMatrix_eq {s t : Vector NumValue 64} (h : blockMatrix s = blockMatrix t) (k : Fin 64) :
    s[k].toReal = t[k].toReal := by
  rw [toReal_getElem_eq_blockMatrix, h, ← toReal_getElem_eq_blockMatrix]

theorem exec_fdct_of_ref {s : State} (href : s.params.num = .ref) :
    exec .fdct s = .next (State.finish { s with blkF := fdct2 Numerics.ref s.blkF } false) := by
  rw [← State.num_ref href]
  rfl

theorem exec_idct_of_ref {s : State} (href : s.params.num = .ref) :
    exec .idct s = .next (State.finish { s with blkF := idct2 Numerics.ref s.blkF } false) := by
  rw [← State.num_ref href]
  rfl

/-- Settles O45: the transforms are the products with an orthogonal matrix and with its transpose. -/
theorem transformsUndoEachOther : Obligations.TransformsUndoEachOther := fun s href =>
  ⟨⟨_, _, exec_fdct_of_ref href, exec_idct_of_ref href, toReal_eq_of_blockMatrix_eq (blockMatrix_idct2_fdct2 s.blkF)⟩,
    _, _, exec_idct_of_ref href, exec_fdct_of_ref href, toReal_eq_of_blockMatrix_eq (blockMatrix_fdct2_idct2 s.blkF)⟩

/-! ### Samples through the transforms -/

theorem rndReal_intCast (z : ℤ) : rndReal z = z := by
  have hfloor (n : ℤ) : ⌊(n : ℝ) + 1 / 2⌋ = n := by
    rw [Int.floor_intCast_add]
    norm_num
  unfold rndReal
  split_ifs with hz
  · rw [← Int.cast_abs, hfloor, abs_of_neg (by exact_mod_cast hz), neg_neg]
  · rw [← Int.cast_abs, hfloor, abs_of_nonneg (by exact_mod_cast not_lt.1 hz)]

/-- Settles O47: the transforms give the shifted samples back exactly, so rounding and the clamp leave them. -/
theorem samplesSurviveTheRoundTrip : Obligations.SamplesSurviveTheRoundTrip := by
  intro s href h2 h16 hbits
  obtain ⟨-, f, hin, hshift⟩ := (levelShift s).1 ⟨h2, h16⟩
  obtain ⟨⟨u, v, hf, hi, hback⟩, -⟩ := transformsUndoEachOther (State.finish { s with blkF := f } false) href
  obtain ⟨hparams, -, -, -, hregs, -⟩ := commandsLeaveInputsAlone _ _ _ hf
  obtain ⟨hparams', -, -, -, hregs', -⟩ := commandsLeaveInputsAlone _ _ _ hi
  have hprec : v.prec = s.prec := ((hregs' nofun).2).trans (hregs nofun).2
  have hnum : v.params.num = .ref := by rw [hparams', hparams]; exact href
  obtain ⟨⟨b, hout, hsample⟩, -⟩ := (levelShift v).1 (by rw [hprec]; exact ⟨h2, h16⟩)
  refine ⟨_, u, v, _, hin, hf, hi, hout, Vector.ext fun i hi => ?_⟩
  obtain ⟨hclamp, hround⟩ := hsample ⟨i, hi⟩
  have hval : v.blkF[(⟨i, hi⟩ : Fin 64)].toReal = ((s.blkP[i].toNat - 2 ^ (s.prec.toNat - 1) : ℤ) : ℝ) := by
    rw [hback ⟨i, hi⟩]
    push_cast
    exact (hshift ⟨i, hi⟩).2 href
  rw [hround hnum, hval, rndReal_intCast, hprec] at hclamp
  have hlt : (s.blkP[i].toNat : ℤ) < 2 ^ s.prec.toNat := by exact_mod_cast hbits ⟨i, hi⟩
  refine BitVec.eq_of_toNat_eq (Int.ofNat_inj.1 (hclamp.trans ?_))
  rw [sub_add_cancel]
  omega

end Sys2Proof.Machine
end

section
/-! SUPPORT. The frames of the Huffman commands (42_huffman.md), in whatever way they end. -/

namespace Sys2Proof.Machine

/-- A fault of the checks is in the frame, so a command is in it if what it does with the answer of its checks is. -/
theorem State.checked_frame_of_ok {α : Type} {s : State} {i : Instr} {x : Except Raise α} {k : α → State}
    (hk : ∀ a, x = .ok a → frame i s (k a)) : frame i s (s.checked i x k) :=
  State.checked_finish _ _ _ _ _ (fun _ _ => frame_takeFault _ _ _ _ _) hk

/-! ### One table or one model -/

/-- Each table has a VALID bit of its own (10_state.md R26). -/
theorem tableBit_inj {c c' : TableClass} {j j' : Fin 4} (h : tableBit c' j' = tableBit c j) : c' = c ∧ j' = j := by
  cases c with
  | dc =>
    cases c' with
    | dc => exact ⟨rfl, Fin.ext h⟩
    | ac => exact absurd h (by simp only [tableBit]; omega)
  | ac =>
    cases c' with
    | dc => exact absurd h (by simp only [tableBit]; omega)
    | ac => exact ⟨rfl, Fin.ext (Nat.add_left_cancel h)⟩

theorem tableBit_lt_eight (c : TableClass) (j : Fin 4) : tableBit c j < 8 := by
  cases c <;> simp only [tableBit] <;> omega

/-- A slot that the fields do not name is another slot. -/
theorem not_slot_of_tableFields {tc th : Byte} {c c' : TableClass} {j j' : Fin 4} (hf : tableFields tc th = .ok (c, j))
    (hn : tableFields tc th ≠ .ok (c', j')) : ¬(c' = c ∧ j' = j) := fun ⟨hc, hj⟩ => hn (by rw [hf, hc, hj])

/-- The state after one table is replaced and its VALID bit set, and the frequency model of the slot too if `withFreq`. -/
theorem frameTable_of_slot {withFreq : Bool} {tc th : Byte} {c : TableClass} {j : Fin 4} {u : HuffTable} {g : FreqModel}
    {s t : State} (hf : tableFields tc th = .ok (c, j))
    (fields : t = { s.withOutcome t with
      htDc := t.htDc, htAc := t.htAc, fqDc := t.fqDc, fqAc := t.fqAc, valid := t.valid, res0 := t.res0 })
    (table : ∀ c' j', t.table c' j' = (s.setTable c j u).table c' j')
    (freq : ∀ c' j', t.freq c' j' = if withFreq then (s.setFreq c j g).freq c' j' else s.freq c' j')
    (valid : t.valid = (s.setValid (tableBit c j) true).valid) : frameTable withFreq tc th s t := by
  have hbit := isValid_of_setValid (tableBit_lt c j) valid
  refine ⟨fields, fun c' j' hn => ?_, fun hw c' j' => ?_, fun n hn => ?_⟩
  · have hother := not_slot_of_tableFields hf hn
    refine ⟨by rw [table, State.setTable_table, if_neg hother], ?_, by rw [hbit, if_neg fun e => hother (tableBit_inj e)]⟩
    rw [freq, State.setFreq_freq, if_neg hother, ite_self]
  · rw [freq, hw, if_neg (by decide)]
  · have := tableBit_lt_eight c j
    rw [hbit, if_neg (by omega)]

theorem execHtLoad_frame {tc th : Byte} {s t : State} (h : exec (.htLoad tc th) s = .next t) : frame (.htLoad tc th) s t := by
  obtain rfl := Host.Outcome.next.inj h
  refine State.checked_frame_of_ok fun ⟨⟨c, j⟩, u⟩ hx => ?_
  refine frameTable_of_slot (u := u) (g := s.freq c j) (State.htLoadChecks_fields hx) ?_ (fun _ _ => rfl) (fun c' j' => ?_) ?_
  · cases c <;> rfl
  · cases c <;> cases c' <;> rfl
  · cases c <;> rfl

theorem execHtAdapt_frame {tc th : Byte} {s t : State} (h : exec (.htAdapt tc th) s = .next t) :
    frame (.htAdapt tc th) s t := by
  obtain rfl := Host.Outcome.next.inj h
  refine State.checked_frame_of_ok fun ⟨⟨c, j⟩, u⟩ hx => ?_
  refine frameTable_of_slot (u := u) (g := FreqModel.cleared) (State.htAdaptChecks_fields hx) ?_ (fun c' j' => ?_)
    (fun c' j' => ?_) ?_
  · cases c <;> rfl
  · cases c <;> cases c' <;> rfl
  · cases c <;> cases c' <;> rfl
  · cases c <;> rfl

/-- HT_STORE stores the 16 counts and the symbols of the table's own specification (42_huffman.md R158). -/
theorem execHtStore_frame {tc th : Byte} {s t : State} (h : exec (.htStore tc th) s = .next t) :
    frame (.htStore tc th) s t := by
  obtain rfl := Host.Outcome.next.inj h
  refine State.checked_frame_of_ok fun p hp => ⟨rfl, fun a ha => ?_⟩
  simp only [State.htStoreChecks, bind_ok_iff, pure_ok_iff] at hp
  obtain ⟨f, hf, -, -, -, -, rfl⟩ := hp
  refine Memory.setList_sameOutside _ _ _ a ?_
  rw [HuffSpec.payload, List.length_append, Vector.length_toList, ← Nat.add_assoc]
  exact ha f.1 f.2 hf

theorem execHtEnc_frame {tc th : Byte} {s t : State} (h : exec (.htEnc tc th) s = .next t) : frame (.htEnc tc th) s t := by
  obtain rfl := Host.Outcome.next.inj h
  refine State.checked_frame_of_ok fun u hu => ?_
  simp only [State.htEncChecks, bind_ok_iff, pure_ok_iff] at hu
  obtain ⟨f, -, -, -, -, -, ⟨⟩, hcode, rfl⟩ := hu
  exact State.finishWrite_frame (writeCode_writes (of_decide_eq_true ((require_ok_iff _ _).1 hcode)) _)

theorem execFqClr_frame {tc th : Byte} {s t : State} (h : exec (.fqClr tc th) s = .next t) : frame (.fqClr tc th) s t := by
  obtain rfl := Host.Outcome.next.inj h
  refine State.checked_frame_of_ok fun ⟨c, j⟩ hf => ⟨?_, fun c' j' hn => ?_⟩
  · cases c <;> rfl
  · exact (State.setFreq_freq s c c' j j' _).trans (if_neg (not_slot_of_tableFields hf hn))

/-- Counting a symbol writes its slot alone (42_huffman.md R162). -/
theorem countSymbol_getElem_ne {f g : FreqModel} {sym : Byte} (h : countSymbol f sym = .ok g) (k : Fin 257)
    (hk : k.val ≠ sym.toNat) : g[k] = f[k] := by
  unfold countSymbol at h
  dsimp only at h
  split at h
  · cases h
  · obtain rfl := Except.ok.inj h
    exact Vector.getElem_set_ne _ _ hk.symm

theorem execFqInc_frame {tc th : Byte} {s t : State} (h : exec (.fqInc tc th) s = .next t) : frame (.fqInc tc th) s t := by
  obtain rfl := Host.Outcome.next.inj h
  refine State.checked_frame_of_ok fun ⟨⟨c, j⟩, g⟩ hx => ?_
  simp only [State.fqIncChecks, bind_ok_iff, pure_ok_iff] at hx
  obtain ⟨f, hf, m, hm, hfm⟩ := hx
  obtain ⟨rfl, rfl⟩ := Prod.mk.inj hfm
  have hfreq (c' : TableClass) (j' : Fin 4) :
      ((s.setFreq c j m).finish false).freq c' j' = if c' = c ∧ j' = j then m else s.freq c' j' :=
    State.setFreq_freq s c c' j j' m
  refine ⟨?_, fun c' j' hn => ?_, fun c' j' k hk => ?_⟩
  · cases c <;> rfl
  · exact (hfreq c' j').trans (if_neg (not_slot_of_tableFields hf hn))
  · dsimp only
    rw [hfreq]
    split_ifs with hslot
    · obtain ⟨rfl, rfl⟩ := hslot
      exact countSymbol_getElem_ne hm k hk
    · rfl

/-- Settles O16: each command writes one slot, the reader, or bytes it has the length of. -/
theorem frameOfHuffmanCommands : Obligations.FrameOfHuffmanCommands := by
  intro i s t hi h
  cases i with
  | htLoad => exact execHtLoad_frame h
  | htStore => exact execHtStore_frame h
  | htDec tc th =>
    obtain rfl := Host.Outcome.next.inj h
    exact State.checked_frame fun _ => State.finishRead_frame ((readCode_answers _ rfl _ _).andThen fun _ _ hr => hr)
  | htEnc => exact execHtEnc_frame h
  | fqClr => exact execFqClr_frame h
  | fqInc => exact execFqInc_frame h
  | htAdapt => exact execHtAdapt_frame h
  | _ => simp [family, fieldsFor] at hi

end Sys2Proof.Machine
end

section
/-! SUPPORT. The frames of the coefficient, transform and sample commands (43_coefficient.md to 46_unpack.md), in whatever way
they end; then those of all commands together. -/

namespace Sys2Proof.Machine

/-! ### Coefficient commands -/

theorem execBlkEnc_frame {c td ta : Byte} {s t : State} (h : exec (.blkEnc c td ta) s = .next t) :
    frame (.blkEnc c td ta) s t := by
  obtain rfl := Host.Outcome.next.inj h
  refine State.checked_frame_of_ok fun x hx => ?_
  simp only [State.blkEncChecks, bind_ok_iff, pure_ok_iff] at hx
  obtain ⟨f, hf, -, -, -, -, -, -, items, -, ⟨⟩, hcodes, rfl⟩ := hx
  have hslot := blockFields_slot hf
  have hw := writeItems_writes hcodes s.sink
  split <;> rename_i hx <;> rw [hx] at hw
  · rw [State.setSink_eq hw]
    exact ⟨rfl, samePredsBut_of_set hslot rfl, hw.out⟩
  · exact ⟨rfl, samePredsBut_of_set hslot rfl, s.drawWriter_sameOutside⟩

/-- No symbol is counted in slot 256 (10_state.md R32). -/
theorem countSymbol_sentinel {f g : FreqModel} {sym : Byte} (h : countSymbol f sym = .ok g) : g[256] = f[256] :=
  countSymbol_getElem_ne h 256 (by have := sym.isLt; simp; omega)

theorem countItems_sentinel {items : List Item} {d a d' a' : FreqModel} (h : countItems items d a = .ok (d', a')) :
    d'[256] = d[256] ∧ a'[256] = a[256] := by
  induction items generalizing d a with
  | nil =>
    cases h
    exact ⟨rfl, rfl⟩
  | cons it items ih =>
    unfold countItems at h
    split at h <;> split at h
    next hs => exact (ih h).imp_left fun e => e.trans (countSymbol_sentinel hs)
    · cases h
    next hs => exact (ih h).imp_right fun e => e.trans (countSymbol_sentinel hs)
    · cases h

/-- A model that is one with the same slot 256, or the model as it was. -/
theorem sentinel_of_ite {p : Prop} [Decidable p] {f g g' : FreqModel} (h : g' = if p then g else f)
    (hg : p → g[256] = f[256]) : g'[256] = f[256] := by
  rw [h]
  split_ifs with hp
  · exact hg hp
  · rfl

theorem execBlkDry_frame {c td ta : Byte} {s t : State} (h : exec (.blkDry c td ta) s = .next t) :
    frame (.blkDry c td ta) s t := by
  obtain rfl := Host.Outcome.next.inj h
  refine State.checked_frame_of_ok fun x hx => ?_
  simp only [State.blkDryChecks, bind_ok_iff, pure_ok_iff] at hx
  obtain ⟨⟨x, d, a⟩, hf, items, -, rfl⟩ := hx
  split
  next m hcount =>
    obtain ⟨hsd, hsa⟩ := countItems_sentinel hcount
    obtain ⟨hc, hd, ha⟩ := (blockFields_ok_iff c td ta x d a).1 hf
    rw [indexField_ok_iff] at hc hd ha
    have hdc (j : Fin 4) : (((s.setFreq .dc d m.1).setFreq .ac a m.2).setPred x s.blkI[0]).freq .dc j =
        if j = d then m.1 else s.freq .dc j := by simp
    have hac (j : Fin 4) : (((s.setFreq .dc d m.1).setFreq .ac a m.2).setPred x s.blkI[0]).freq .ac j =
        if j = a then m.2 else s.freq .ac j := by simp
    refine ⟨rfl, samePredsBut_of_set hc rfl, fun j hj => ?_, fun j hj => ?_, fun cl j => ?_⟩
    · exact (hdc j).trans (if_neg fun e => hj (by rw [e, hd]))
    · exact (hac j).trans (if_neg fun e => hj (by rw [e, ha]))
    · cases cl with
      | dc => exact sentinel_of_ite (hdc j) fun e => e ▸ hsd
      | ac => exact sentinel_of_ite (hac j) fun e => e ▸ hsa
  · exact State.drawFreq_blkDry_frame hf _

/-- Settles O17: the reader functions keep BR_END, the items are written in the window, and slot 256 is never counted into. -/
theorem frameOfCoefficientCommands : Obligations.FrameOfCoefficientCommands := by
  intro i s t hi h
  cases i with
  | cfExt | cfCat =>
    obtain rfl := Host.Outcome.next.inj h
    exact State.checked_frame fun _ => rfl
  | blkDec c td ta | blkSkip c td ta =>
    obtain rfl := Host.Outcome.next.inj h
    refine State.checked_frame_of_ok fun f hf => ?_
    have hslot := State.blkReadChecks_slot hf
    have hb := s.readBlock_answers f
    split <;> rename_i hx <;> rw [hx] at hb
    · refine ⟨?_, fun _ _ => rfl⟩
      rw [← hb.1]
      rfl
    · refine ⟨?_, samePredsBut_of_set hslot rfl⟩
      rw [← hb.1]
      rfl
    · exact ⟨rfl, samePredsBut_of_set hslot rfl⟩
  | blkEnc => exact execBlkEnc_frame h
  | blkDry => exact execBlkDry_frame h
  | dcRst =>
    obtain rfl := Host.Outcome.next.inj h
    rfl
  | _ => simp [family, fieldsFor] at hi

/-! ### Transform commands -/

/-- Settles O18: each command writes its buffer; QT_LOAD one table and its VALID bit. -/
theorem frameOfTransformCommands : Obligations.FrameOfTransformCommands := by
  intro i s t hi h
  cases i with
  | dequant | quant | pixOut | pixIn =>
    obtain rfl := Host.Outcome.next.inj h
    exact State.checked_frame fun _ => rfl
  | idct | fdct =>
    obtain rfl := Host.Outcome.next.inj h
    rfl
  | qtLoad pq tq =>
    obtain rfl := Host.Outcome.next.inj h
    refine State.checked_frame_of_ok fun ⟨q, u⟩ hx => ?_
    have hq : tq.toNat = q.val := State.qtLoadChecks_fields hx
    have hbit : quantBit q = 8 + tq.toNat := by rw [hq, quantBit]
    refine ⟨rfl, fun j hj => ?_, ?_⟩
    · simp [show q.val ≠ j.val by omega]
    · rw [← hbit]
      exact sameValidBut_of_setValid (b := true) (by simp only [quantBit]; omega) rfl
  | _ => simp [family, fieldsFor] at hi

/-! ### Sample commands -/

theorem Bits.Answers.leaves {α : Type} {lim : Word} {cs : List Cause} {x : Bits α} (hx : x.Answers lim cs) :
    x.Leaves fun r => r.lim = lim := by
  cases x with
  | got v r => exact hx
  | noMore r => exact hx.1
  | fail f => trivial

theorem ljDiff_lim {m : Memory} {slots : List Slot} {maxBits : Nat} {r r' : Reader} {d : Int}
    (h : ljDiff m slots maxBits r = .ok (d, r')) : r'.lim = r.lim := by
  unfold ljDiff at h
  split at h
  · cases h
  next t r₁ hs =>
    have h₁ : r₁.lim = r.lim := ljRead_sound (readCode_answers m rfl slots maxBits).leaves hs
    split_ifs at h
    · cases h
      exact h₁
    · split at h <;> cases h
      next hg => exact ljRead_sound (getBits_answers m h₁ _).leaves hg
    · cases h
      exact h₁

/-- What decoding a part of an image leaves as it was: BR_END, and OUT outside `[lo, hi)`. -/
structure LjRun.Keeps (lo hi : Nat) (t t' : LjRun) : Prop where
  lim : t'.r.lim = t.r.lim
  out : sameOutside t.out t'.out lo hi

theorem LjRun.Keeps.trans {lo hi : Nat} {t t' t'' : LjRun} (h : t.Keeps lo hi t') (h' : t'.Keeps lo hi t'') :
    t.Keeps lo hi t'' := ⟨h'.lim.trans h.lim, h.out.trans h'.out⟩

/-- A sample is stored in its place of the image (45_lj92.md R259). -/
theorem ljSample_keeps {hi row p : Nat} {j : LjJob} {t t' : LjRun}
    (hfit : j.dest + 2 * (row * j.lj.rowLength + p + 1) ≤ hi) (h : ljSample j row p t = .ok t') : t.Keeps j.dest hi t' := by
  unfold ljSample at h
  split at h
  · cases h
  next d r hd =>
    dsimp only at h
    split at h <;> cases h
    refine ⟨ljDiff_lim hd, (Memory.setSamples_sameOutside _ _ _).mono (Nat.le_add_right _ _) ?_⟩
    rw [List.length_singleton]
    omega

theorem ljRow_keeps {hi row n p : Nat} {j : LjJob} {t t' : LjRun}
    (hfit : j.dest + 2 * (row * j.lj.rowLength + p + n) ≤ hi) (h : ljRow j row n p t = .ok t') : t.Keeps j.dest hi t' := by
  induction n generalizing p t with
  | zero =>
    cases h
    exact ⟨rfl, .refl _ _ _⟩
  | succ n ih =>
    unfold ljRow at h
    split at h
    · cases h
    next hs => exact (ljSample_keeps (by omega) hs).trans (ih (by omega) h)

theorem ljRows_keeps {hi n row : Nat} {j : LjJob} {t t' : LjRun}
    (hfit : j.dest + 2 * ((row + n) * j.lj.rowLength) ≤ hi) (h : ljRows j n row t = .ok t') : t.Keeps j.dest hi t' := by
  induction n generalizing row t with
  | zero =>
    cases h
    exact ⟨rfl, .refl _ _ _⟩
  | succ n ih =>
    unfold ljRows at h
    split at h
    · cases h
    next u hs =>
      have hrow : (row + 1) * j.lj.rowLength ≤ (row + (n + 1)) * j.lj.rowLength := Nat.mul_le_mul_right _ (by omega)
      rw [Nat.succ_mul] at hrow
      have hu := ljRow_keeps (hi := hi) (by omega) hs
      have ht' := ih (by rwa [show row + 1 + n = row + (n + 1) by omega]) h
      exact ⟨ht'.lim.trans hu.lim, hu.out.trans ht'.out⟩

theorem execLjDecode_frame {s t : State} (h : exec .ljDecode s = .next t) : frame .ljDecode s t := by
  obtain rfl := Host.Outcome.next.inj h
  refine State.checked_frame fun _ => ?_
  split
  · exact ⟨rfl, Memory.draw_sameOutside _ _ _ s.draws⟩
  next u hu =>
    have hkeeps : LjRun.Keeps (s.argNat 0) (s.argNat 0 + 2 * s.lj.total) _ u := ljRows_keeps (j := s.ljJob) (by
      rw [LjSession.total_eq, Nat.zero_add]
      exact Nat.le_refl _) hu
    refine ⟨?_, hkeeps.out⟩
    rw [← show u.r.lim = s.br.lim from hkeeps.lim]
    rfl

/-- The unpacking commands store two bytes for each sample (46_unpack.md R297). -/
theorem State.unpack_frame (s : State) (i : Instr) (g pre : Nat) {k : Nat} {group : (Nat → Byte) → List Sample}
    (hk : ∀ b, (group b).length = k) :
    frameStore 2 (2 * (s.argNat 1 / g * k)) s (s.checked i (s.unpackChecks g k pre) fun n => s.unpackWith g k n group) := by
  refine State.checked_finish _ _ _ _ _ (fun _ _ => ⟨rfl, .refl _ _ _⟩) fun n hn => ?_
  simp only [State.unpackChecks, require_bind_ok_iff, decide_eq_true_eq, pure_ok_iff] at hn
  obtain ⟨-, -, -, -, rfl⟩ := hn
  rw [← unpackSamples_length s.inMem (s.argNat 0) g (s.argNat 1 / g) hk]
  exact ⟨rfl, Memory.setSamples_sameOutside _ _ _⟩

/-- Settles O19: each load writes its part of the session, each sample is stored in its place. -/
theorem frameOfSampleCommands : Obligations.FrameOfSampleCommands := by
  intro i s t hi h
  cases i with
  | ljSetup | ljHtLoad =>
    obtain rfl := Host.Outcome.next.inj h
    exact State.checked_frame fun _ => ⟨rfl, sameValidBut_of_setValid (b := true) (by decide) rfl⟩
  | ljLinLoad =>
    obtain rfl := Host.Outcome.next.inj h
    exact State.checked_frame fun _ => ⟨rfl, sameValidBut_of_setValid (b := decide (s.argNat 1 ≠ 0)) (by decide) rfl⟩
  | ljDecode => exact execLjDecode_frame h
  | unpack10 | unpack12 | unpack14 | unpack12v =>
    obtain rfl := Host.Outcome.next.inj h
    exact s.unpack_frame _ _ _ fun _ => rfl
  | _ => simp [family, fieldsFor] at hi

/-! ### All commands -/

/-- Every command is in its frame, in whatever way it ends. -/
theorem exec_frame {i : Instr} {s t : State} (h : exec i s = .next t) : frame i s t := by
  have hfamily : family i ≤ 2 ∨ family i = 3 ∨ family i = 4 ∨ family i = 5 ∨ 6 ≤ family i := by omega
  rcases hfamily with hi | hi | hi | hi | hi
  · exact frameOfBitCommands i s t hi h
  · exact frameOfHuffmanCommands i s t hi h
  · exact frameOfCoefficientCommands i s t hi h
  · exact frameOfTransformCommands i s t hi h
  · exact frameOfSampleCommands i s t hi h

end Sys2Proof.Machine
end

section
/-! SUPPORT. The invariants of the tables, models, predictors and the LJ92 session (10_state.md R30 to R36, 44_transform.md R235,
70_reset_and_hazards.md R363) through every command: those that write the unit, one by one; the others by their frame. -/

namespace Sys2Proof.Machine

/-! ### Who writes what -/

/-- The commands that write a Huffman table, SRESET among them as in the lists below. -/
def writesTables (i : Instr) : Bool :=
  match i with
  | .sreset | .htLoad _ _ | .htAdapt _ _ => true
  | _ => false

/-- The commands that write a frequency model. HT_LOAD has it in its frame's fields, which HT_ADAPT shares. -/
def writesModels (i : Instr) : Bool :=
  match i with
  | .sreset | .htLoad _ _ | .htAdapt _ _ | .fqClr _ _ | .fqInc _ _ | .blkDry _ _ _ => true
  | _ => false

/-- The commands that write a quantisation table. -/
def writesQuants (i : Instr) : Bool :=
  match i with
  | .sreset | .qtLoad _ _ => true
  | _ => false

/-- The commands that write a predictor. -/
def writesPreds (i : Instr) : Bool :=
  match i with
  | .sreset | .brResync | .bwRst | .blkDec _ _ _ | .blkSkip _ _ _ | .blkEnc _ _ _ | .blkDry _ _ _ | .dcRst => true
  | _ => false

/-- The commands that write the LJ92 session. -/
def writesSession (i : Instr) : Bool :=
  match i with
  | .sreset | .ljSetup | .ljHtLoad | .ljLinLoad | .ljDecode => true
  | _ => false

/-- A command can write a unit of the core only if it is in that unit's list. -/
structure State.KeepsUnits (i : Instr) (s t : State) : Prop where
  tables : writesTables i = false → t.htDc = s.htDc ∧ t.htAc = s.htAc
  models : writesModels i = false → t.fqDc = s.fqDc ∧ t.fqAc = s.fqAc
  quants : writesQuants i = false → t.qt = s.qt
  preds : writesPreds i = false → t.dcp = s.dcp
  session : writesSession i = false → t.lj = s.lj

/-- Read off the fields that the frames name. -/
theorem exec_keepsUnits {i : Instr} {s t : State} (h : exec i s = .next t) : s.KeepsUnits i t := by
  have hf := exec_frame h
  cases i with
  | sreset => exact ⟨nofun, nofun, nofun, nofun, nofun⟩
  | nop | brBit | brBits | htDec | cfExt | cfCat | dequant | quant | idct | fdct | pixOut | pixIn =>
    have e : t = _ := hf
    exact ⟨fun _ => ⟨e ▸ rfl, e ▸ rfl⟩, fun _ => ⟨e ▸ rfl, e ▸ rfl⟩, fun _ => e ▸ rfl, fun _ => e ▸ rfl, fun _ => e ▸ rfl⟩
  | brResync | dcRst =>
    have e : t = _ := hf
    exact ⟨fun _ => ⟨e ▸ rfl, e ▸ rfl⟩, fun _ => ⟨e ▸ rfl, e ▸ rfl⟩, fun _ => e ▸ rfl, nofun, fun _ => e ▸ rfl⟩
  | brInit | bwInit | bwBits | bwFlush | htStore | htEnc | unpack10 | unpack12 | unpack14 | unpack12v =>
    have e := hf.1
    exact ⟨fun _ => ⟨e ▸ rfl, e ▸ rfl⟩, fun _ => ⟨e ▸ rfl, e ▸ rfl⟩, fun _ => e ▸ rfl, fun _ => e ▸ rfl, fun _ => e ▸ rfl⟩
  | bwRst | blkDec | blkSkip | blkEnc =>
    have e := hf.1
    exact ⟨fun _ => ⟨e ▸ rfl, e ▸ rfl⟩, fun _ => ⟨e ▸ rfl, e ▸ rfl⟩, fun _ => e ▸ rfl, nofun, fun _ => e ▸ rfl⟩
  | blkDry =>
    have e := hf.1
    exact ⟨fun _ => ⟨e ▸ rfl, e ▸ rfl⟩, nofun, fun _ => e ▸ rfl, nofun, fun _ => e ▸ rfl⟩
  | fqClr | fqInc =>
    have e := hf.1
    exact ⟨fun _ => ⟨e ▸ rfl, e ▸ rfl⟩, nofun, fun _ => e ▸ rfl, fun _ => e ▸ rfl, fun _ => e ▸ rfl⟩
  | htLoad | htAdapt =>
    have e := hf.1
    exact ⟨nofun, nofun, fun _ => e ▸ rfl, fun _ => e ▸ rfl, fun _ => e ▸ rfl⟩
  | qtLoad =>
    have e := hf.1
    exact ⟨fun _ => ⟨e ▸ rfl, e ▸ rfl⟩, fun _ => ⟨e ▸ rfl, e ▸ rfl⟩, nofun, fun _ => e ▸ rfl, fun _ => e ▸ rfl⟩
  | ljSetup | ljHtLoad | ljLinLoad | ljDecode =>
    have e := hf.1
    exact ⟨fun _ => ⟨e ▸ rfl, e ▸ rfl⟩, fun _ => ⟨e ▸ rfl, e ▸ rfl⟩, fun _ => e ▸ rfl, fun _ => e ▸ rfl, nofun⟩

theorem quantBit_lt (q : Fin 4) : quantBit q < 17 := by simp only [quantBit]; omega

/-- The VALID bits of the unit that a command loads (10_state.md R26). -/
def ownsBit (i : Instr) (n : Nat) : Bool :=
  match i with
  | .sreset => true
  | .htLoad _ _ | .htAdapt _ _ => n < 8
  | .qtLoad _ _ => 8 ≤ n && n < 12
  | .ljSetup => n = 12
  | .ljHtLoad => n = 13
  | .ljLinLoad => n = 14
  | .brInit => n = 15
  | .bwInit => n = 16
  | _ => false

theorem ownsBit_qtLoad (pq tq : Byte) (q : Fin 4) : ownsBit (.qtLoad pq tq) (quantBit q) = true :=
  Bool.and_eq_true_iff.2 ⟨decide_eq_true (Nat.le_add_right 8 q), decide_eq_true (Nat.add_lt_add_left q.isLt 8)⟩

/-- A command leaves the VALID bits of other units, whatever its fields are. -/
theorem exec_isValid_eq {i : Instr} {s t : State} {n : Nat} (hn : ownsBit i n = false) (h : exec i s = .next t) :
    t.isValid n = s.isValid n := by
  have hi : i ≠ .sreset := by
    rintro rfl
    cases hn
  have hf := exec_frame h
  have hvalid := (exec_spares hi h).valid
  cases i with
  | sreset => cases hn
  | htLoad | htAdapt => exact hf.2.2.2 n (Nat.not_lt.1 (of_decide_eq_false hn))
  | qtLoad pq tq =>
    obtain rfl := Host.Outcome.next.inj h
    refine State.checked_finish _ _ _ _ (fun t => t.isValid n = s.isValid n) (fun _ _ => rfl) fun ⟨q, u⟩ _ => ?_
    exact sameValidBut_of_setValid (s := s) (b := true) (quantBit_lt q) rfl n fun e => by
      rw [e, ownsBit_qtLoad] at hn
      cases hn
  | ljSetup | ljHtLoad | ljLinLoad | brInit | bwInit => exact hf.2 n (of_decide_eq_false hn)
  | _ => exact State.isValid_congr (hvalid.resolve_left nofun) n

/-! ### Huffman tables -/

theorem buildTable_ok_of_ok {p : HuffSpec} {u : HuffTable} (h : buildTable p = .ok u) : u.ok := by
  rw [HuffTable.ok, (buildTable_ok_iff.1 h).1, h]

theorem State.tablesOk_of_setTable {s t : State} {c : TableClass} {j : Fin 4} {u : HuffTable} (hs : s.tablesOk) (hu : u.ok)
    (ht : ∀ c' j', t.table c' j' = (s.setTable c j u).table c' j') : t.tablesOk := by
  intro c' j'
  rw [ht, State.setTable_table]
  split_ifs
  · exact hu
  · exact hs c' j'

theorem exec_tablesOk {i : Instr} {s t : State} (hi : i ≠ .sreset) (h : exec i s = .next t) (hs : s.tablesOk) :
    t.tablesOk := by
  cases hw : writesTables i with
  | false =>
    obtain ⟨hdc, hac⟩ := (exec_keepsUnits h).tables hw
    intro c j
    have htable : t.table c j = s.table c j := by cases c <;> simp only [State.table, hdc, hac]
    exact htable ▸ hs c j
  | true =>
    cases i with
    | sreset => exact absurd rfl hi
    | htLoad tc th =>
      obtain rfl := Host.Outcome.next.inj h
      refine State.checked_finish _ _ _ _ State.tablesOk (fun _ _ => hs) fun x hx => ?_
      simp only [State.htLoadChecks, bind_ok_iff, pure_ok_iff] at hx
      obtain ⟨f, -, p, -, u, hu, rfl⟩ := hx
      exact State.tablesOk_of_setTable hs (buildTable_ok_of_ok hu) fun _ _ => rfl
    | htAdapt tc th =>
      obtain rfl := Host.Outcome.next.inj h
      refine State.checked_finish _ _ _ _ State.tablesOk (fun _ _ => hs) fun x hx => ?_
      simp only [State.htAdaptChecks, bind_ok_iff, pure_ok_iff] at hx
      obtain ⟨⟨c, j⟩, -, p, -, u, hu, rfl⟩ := hx
      refine State.tablesOk_of_setTable (c := c) (j := j) hs (buildTable_ok_of_ok hu) fun c' j' => ?_
      cases c <;> cases c' <;> rfl
    | _ => cases hw

/-! ### Quantisation tables -/

theorem State.qtLoadChecks_ne_zero {s : State} {pq tq : Byte} {x : Fin 4 × QTable} (h : s.qtLoadChecks pq tq = .ok x)
    (k : Fin 64) : x.2.q[k] ≠ 0 := by
  simp only [State.qtLoadChecks, bind_ok_iff, pure_ok_iff] at h
  obtain ⟨p, -, q, -, -, -, ⟨⟩, hne, rfl⟩ := h
  simp only [require_ok_iff, List.all_eq_true, decide_eq_true_eq, forall_mem_toList_iff] at hne
  simpa using hne (zigzagPlace k)

theorem exec_quantOk {i : Instr} {s t : State} (hi : i ≠ .sreset) (h : exec i s = .next t) (hs : s.quantOk) : t.quantOk := by
  cases hw : writesQuants i with
  | false =>
    have hown (q : Fin 4) : ownsBit i (quantBit q) = false := by
      cases i with
      | sreset | qtLoad => cases hw
      | htLoad | htAdapt | ljSetup | ljHtLoad | ljLinLoad | brInit | bwInit =>
        exact decide_eq_false (by simp only [quantBit]; omega)
      | _ => rfl
    intro q hv k
    rw [exec_isValid_eq (hown q) h] at hv
    rw [(exec_keepsUnits h).quants hw]
    exact hs q hv k
  | true =>
    cases i with
    | sreset => exact absurd rfl hi
    | qtLoad pq tq =>
      obtain rfl := Host.Outcome.next.inj h
      refine State.checked_finish _ _ _ _ State.quantOk (fun _ _ => hs) fun x hx q hv k => ?_
      by_cases hq : q = x.1
      · subst hq
        simpa using State.qtLoadChecks_ne_zero hx k
      · have hne : x.1.val ≠ q.val := fun e => hq (Fin.ext e.symm)
        have hother := sameValidBut_of_setValid (s := s) (b := true) (quantBit_lt x.1) rfl (quantBit q)
          fun e => hne (Nat.add_left_cancel e).symm
        simpa [hne] using hs q (hother.symm.trans hv) k
    | _ => cases hw

/-! ### Frequency models -/

theorem State.sentinelOk_of_setFreq {s t : State} {c : TableClass} {j : Fin 4} {f : FreqModel} (hs : s.sentinelOk)
    (hf : f[256] = 0) (ht : ∀ c' j', t.freq c' j' = (s.setFreq c j f).freq c' j') : t.sentinelOk := by
  intro c' j'
  rw [ht, State.setFreq_freq]
  split_ifs
  · exact hf
  · exact hs c' j'

theorem exec_sentinelOk {i : Instr} {s t : State} (hi : i ≠ .sreset) (h : exec i s = .next t) (hs : s.sentinelOk) :
    t.sentinelOk := by
  have hf := exec_frame h
  cases hw : writesModels i with
  | false =>
    obtain ⟨hdc, hac⟩ := (exec_keepsUnits h).models hw
    intro c j
    have hfreq : t.freq c j = s.freq c j := by cases c <;> simp only [State.freq, hdc, hac]
    rw [hfreq]
    exact hs c j
  | true =>
    cases i with
    | sreset => exact absurd rfl hi
    | htLoad tc th =>
      intro c j
      rw [hf.2.2.1 rfl c j]
      exact hs c j
    | fqInc tc th =>
      intro c j
      exact (hf.2.2 c j 256 (by have := s.argSymbol.isLt; simp; omega)).trans (hs c j)
    | blkDry c td ta =>
      obtain ⟨-, -, -, -, hsentinel⟩ := hf
      exact fun cl j => (hsentinel cl j).trans (hs cl j)
    | fqClr tc th =>
      obtain rfl := Host.Outcome.next.inj h
      refine State.checked_finish _ _ _ _ State.sentinelOk (fun _ _ => hs) fun f _ => ?_
      exact State.sentinelOk_of_setFreq hs rfl fun _ _ => rfl
    | htAdapt tc th =>
      obtain rfl := Host.Outcome.next.inj h
      refine State.checked_finish _ _ _ _ State.sentinelOk (fun _ _ => hs) fun ⟨⟨c, j⟩, u⟩ _ => ?_
      refine State.sentinelOk_of_setFreq (c := c) (j := j) (f := FreqModel.cleared) hs rfl fun c' j' => ?_
      cases c <;> cases c' <;> rfl
    | _ => cases hw

/-! ### Predictors -/

theorem State.predsOk_of_dcp {s t : State} (hs : s.predsOk) (hf : s.fault = false) (h : t.dcp = s.dcp) : t.predsOk := by
  intro _ c
  rw [h]
  exact hs hf c

theorem State.predsOk_of_fault {t : State} (h : t.fault = true) : t.predsOk := fun hf => absurd (hf.symm.trans h) nofun

theorem State.predsOk_of_clear {t : State} (h : t.dcp = Vector.replicate 4 Pred.unset) : t.predsOk := by
  intro _ c _
  simp [h]

/-- A predictor that a block sets is set. -/
theorem State.predsOk_of_setPred {s t : State} {x : Fin 4} {v : Word} (hs : s.predsOk) (hf : s.fault = false)
    (h : t.dcp = (s.setPred x v).dcp) : t.predsOk := by
  intro _ c hc
  rw [h, State.setPred] at hc ⊢
  by_cases hx : x.val = c.val
  · simp [hx] at hc
  · simp only [Fin.getElem_fin, Vector.getElem_set_ne _ _ hx] at hc ⊢
    exact hs hf c hc

theorem exec_predsOk {i : Instr} {s t : State} (hi : i ≠ .sreset) (hf : s.fault = false) (h : exec i s = .next t)
    (hs : s.predsOk) : t.predsOk := by
  cases hw : writesPreds i with
  | false => exact State.predsOk_of_dcp hs hf ((exec_keepsUnits h).preds hw)
  | true =>
    cases i with
    | sreset => exact absurd rfl hi
    | dcRst =>
      obtain rfl := Host.Outcome.next.inj h
      exact State.predsOk_of_clear rfl
    | brResync | bwRst =>
      obtain rfl := Host.Outcome.next.inj h
      refine State.checked_finish _ _ _ _ State.predsOk (fun _ _ => State.predsOk_of_fault rfl) fun _ _ => ?_
      split
      · exact State.predsOk_of_fault rfl
      · exact State.predsOk_of_clear rfl
    | blkDec | blkSkip =>
      obtain rfl := Host.Outcome.next.inj h
      refine State.checked_finish _ _ _ _ State.predsOk (fun _ _ => State.predsOk_of_fault rfl) fun _ _ => ?_
      split
      · exact State.predsOk_of_dcp hs hf rfl
      · exact State.predsOk_of_setPred hs hf rfl
      · exact State.predsOk_of_fault rfl
    | blkEnc | blkDry =>
      obtain rfl := Host.Outcome.next.inj h
      refine State.checked_finish _ _ _ _ State.predsOk (fun _ _ => State.predsOk_of_fault rfl) fun _ _ => ?_
      split
      · exact State.predsOk_of_setPred hs hf rfl
      · exact State.predsOk_of_fault rfl
    | _ => cases hw

/-! ### The LJ92 session -/

theorem State.ljOk_of_eq {s t : State} (hs : s.ljOk) (hl : t.lj = s.lj) (hset : t.isValid ljSetBit = s.isValid ljSetBit)
    (hht : t.isValid ljHtBit = s.isValid ljHtBit) (hlin : t.isValid linEnBit = s.isValid linEnBit) : t.ljOk := by
  rw [State.ljOk, hl, hset, hht, hlin]
  exact hs

theorem ownsBit_session {i : Instr} (h : writesSession i = false) :
    ownsBit i ljSetBit = false ∧ ownsBit i ljHtBit = false ∧ ownsBit i linEnBit = false := by
  cases i with
  | sreset | ljSetup | ljHtLoad | ljLinLoad | ljDecode => cases h
  | _ => exact ⟨rfl, rfl, rfl⟩

/-- LJ_SETUP has checked the fields it keeps, so the registers hold them (45_lj92.md R252). -/
theorem State.ljSetupChecks_legal {s : State} {h : LjHeader} (hx : s.ljSetupChecks = .ok h) :
    (1 ≤ h.x ∧ h.x < 2 ^ 16) ∧ (1 ≤ h.y ∧ h.y < 2 ^ 16) ∧ (2 ≤ h.p ∧ h.p ≤ 16) ∧ (1 ≤ h.nf ∧ h.nf ≤ 4) ∧
      1 ≤ h.ss ∧ h.ss ≤ 7 := by
  have hwidth : s.ljHeader.x < 2 ^ 16 ∧ s.ljHeader.y < 2 ^ 16 := ⟨BitVec.isLt _, BitVec.isLt _⟩
  simp only [State.ljSetupChecks, require_bind_ok_iff, pure_ok_iff, Bool.and_eq_true, decide_eq_true_eq] at hx
  obtain ⟨hxy, hp, hnf, -, hss, hss0, -, -, -, -, rfl⟩ := hx
  omega

theorem execLjSetup_ljOk {s t : State} (hs : s.ljOk) (h : exec .ljSetup s = .next t) : t.ljOk := by
  have hframe : sameValidBut s t ljSetBit := (exec_frame h).2
  obtain rfl := Host.Outcome.next.inj h
  refine State.checked_finish _ _ _ _ (fun t => sameValidBut s t ljSetBit → t.ljOk) (fun _ _ _ => hs)
    (fun h hx hbits => ?_) hframe
  obtain ⟨hx, hy, hp, hnf, hss⟩ := State.ljSetupChecks_legal hx
  obtain ⟨-, htable, hlinear, hlength⟩ := hs
  refine ⟨fun _ => ?_, fun hv => htable ((hbits ljHtBit (by decide)).symm.trans hv), ?_, hlength⟩
  · simp only [State.finish_lj, State.setValid_lj, BitVec.toNat_ofNat, and_true]
    omega
  · rw [hbits linEnBit (by decide)]
    exact hlinear

theorem execLjHtLoad_ljOk {s t : State} (hs : s.ljOk) (h : exec .ljHtLoad s = .next t) : t.ljOk := by
  have hframe : sameValidBut s t ljHtBit := (exec_frame h).2
  obtain rfl := Host.Outcome.next.inj h
  refine State.checked_finish _ _ _ _ (fun t => sameValidBut s t ljHtBit → t.ljOk) (fun _ _ _ => hs)
    (fun x hx hbits => ?_) hframe
  simp only [State.ljHtLoadChecks, bind_ok_iff, pure_ok_iff] at hx
  obtain ⟨p, -, slots, hslots, rfl⟩ := hx
  obtain ⟨hset, -, hlinear, hlength⟩ := hs
  refine ⟨fun hv => hset ((hbits ljSetBit (by decide)).symm.trans hv), fun _ => ⟨slots, hslots, ?_, rfl⟩, ?_, hlength⟩
  · have hmax := p.maxBits_spec.1
    exact (BitVec.toNat_ofNat p.maxBits 5).trans (Nat.mod_eq_of_lt (by omega))
  · rw [hbits linEnBit (by decide)]
    exact hlinear

/-- LJ_LIN_LOAD sets LIN_EN exactly with a count that is not 0 (45_lj92.md R262). -/
theorem execLjLinLoad_ljOk {s t : State} (hs : s.ljOk) (h : exec .ljLinLoad s = .next t) : t.ljOk := by
  have hframe : sameValidBut s t linEnBit := (exec_frame h).2
  obtain rfl := Host.Outcome.next.inj h
  refine State.checked_finish _ _ _ _ (fun t => sameValidBut s t linEnBit → t.ljOk) (fun _ _ _ => hs)
    (fun l hl hbits => ?_) hframe
  have hlen : l.length = s.argNat 1 ∧ s.argNat 1 ≤ 65536 := by
    rw [s.ljLinLoadChecks_eq] at hl
    split_ifs at hl with h1 h2
    cases hl
    exact ⟨by simp [linTable], Nat.not_lt.1 h1⟩
  have hen : (s.setValid linEnBit (decide (s.argNat 1 ≠ 0))).isValid linEnBit = true ↔ l ≠ [] := by
    rw [s.setValid_isValid _ _ _ (by decide), if_pos rfl, decide_eq_true_eq, ← hlen.1, ne_eq, List.length_eq_zero_iff]
  obtain ⟨hset, htable, -, -⟩ := hs
  refine ⟨fun hv => hset ((hbits ljSetBit (by decide)).symm.trans hv),
    fun hv => htable ((hbits ljHtBit (by decide)).symm.trans hv), hen, hlen.1 ▸ hlen.2⟩

theorem exec_ljOk {i : Instr} {s t : State} (hi : i ≠ .sreset) (h : exec i s = .next t) (hs : s.ljOk) : t.ljOk := by
  cases hw : writesSession i with
  | false =>
    obtain ⟨hset, hht, hlin⟩ := ownsBit_session hw
    exact State.ljOk_of_eq hs ((exec_keepsUnits h).session hw) (exec_isValid_eq hset h) (exec_isValid_eq hht h)
      (exec_isValid_eq hlin h)
  | true =>
    cases i with
    | sreset => exact absurd rfl hi
    | ljSetup => exact execLjSetup_ljOk hs h
    | ljHtLoad => exact execLjHtLoad_ljOk hs h
    | ljLinLoad => exact execLjLinLoad_ljOk hs h
    | ljDecode =>
      obtain rfl := Host.Outcome.next.inj h
      refine State.checked_finish _ _ _ _ State.ljOk (fun _ _ => hs) fun _ _ => ?_
      split <;> exact hs
    | _ => cases hw

/-! ### Steps -/

/-- The five invariants of TablesStaySound together. -/
structure State.TablesSound (s : State) : Prop where
  tables : s.tablesOk
  quants : s.quantOk
  sentinels : s.sentinelOk
  preds : s.predsOk
  session : s.ljOk

/-- A reset of the core gives each unit its power-on value, which meets the invariants (10_state.md R39). -/
theorem State.coreReset_tablesSound (s : State) : s.coreReset.TablesSound := by
  obtain ⟨-, -, -, -, htables, hquants, hsentinels, hpreds, hsession⟩ := resetIsSound State.reset.params (by decide)
  exact ⟨htables, hquants, hsentinels, hpreds, hsession⟩

/-- Settles O59: each invariant is about one unit, and only the commands that write the unit can break it. -/
theorem tablesStaySound : Obligations.TablesStaySound := by
  refine fun s t h => ⟨fun hs => ?_, fun hs => ?_, fun hs => ?_, fun hs => ?_, fun hs => ?_⟩
  · exact step_keeps State.tablesOk (fun _ _ hf hs => (congrArg State.tablesOk hf.fields).mpr hs) (fun _ _ hs => hs)
      (fun _ _ _ hi _ => exec_tablesOk hi) (fun s _ => s.coreReset_tablesSound.tables) hs h
  · exact step_keeps State.quantOk (fun _ _ hf hs => (congrArg State.quantOk hf.fields).mpr hs) (fun _ _ hs => hs)
      (fun _ _ _ hi _ => exec_quantOk hi) (fun s _ => s.coreReset_tablesSound.quants) hs h
  · exact step_keeps State.sentinelOk (fun _ _ hf hs => (congrArg State.sentinelOk hf.fields).mpr hs) (fun _ _ hs => hs)
      (fun _ _ _ hi _ => exec_sentinelOk hi) (fun s _ => s.coreReset_tablesSound.sentinels) hs h
  · exact step_keeps State.predsOk (fun _ _ hf hs => (congrArg State.predsOk hf.fields).mpr hs)
      (fun _ _ _ => State.predsOk_of_fault rfl) (fun _ _ _ hi hf => exec_predsOk hi hf)
      (fun s _ => s.coreReset_tablesSound.preds) hs h
  · exact step_keeps State.ljOk (fun _ _ hf hs => (congrArg State.ljOk hf.fields).mpr hs) (fun _ _ hs => hs)
      (fun _ _ _ hi _ => exec_ljOk hi) (fun s _ => s.coreReset_tablesSound.session) hs h

end Sys2Proof.Machine
end
